-- ==== Sys2Proof/Word.lean ====
section
/-! DEFINITION. The word types of the machine (spec/00_scope.md R6, R12): 32-bit registers and
addresses, 16-bit Thumb halfwords, 8-bit bytes, and the numbers that name registers. -/

namespace Sys2Proof

/-- A 32-bit register value, address or ARM instruction word (R6, R12). -/
abbrev Word := BitVec 32

/-- A 16-bit value: a Thumb instruction or the operand of a halfword access (R6). -/
abbrev Half := BitVec 16

/-- A byte of memory (R200). -/
abbrev Byte := BitVec 8

/-- The number of one of the sixteen live registers x[0] to x[15] (R100). -/
abbrev Reg := Fin 16

/-- The number of one of R0 to R7, which a 3-bit Thumb field names (spec/48_thumb_alu.md). -/
abbrev LowReg := Fin 8

/-- A low register as a register number, zero-extended (R414). -/
abbrev LowReg.reg (r : LowReg) : Reg := ⟨r.val, Nat.lt_of_lt_of_le r.isLt (by decide)⟩

end Sys2Proof
end

