-- ==== Sys2Proof/Syntax.lean ====
section
/-! DEFINITION. The abstract syntax: one constructor of `Instr` for each row of
spec/opcode_table.json, in the table's order, with the fields the table gives the row. Bits the table
marks `x` (should-be-one, should-be-zero, and the free bits of the undefined spaces) are no fields
(spec/30_encoding.md R318, R347). -/

namespace Sys2Proof

/-- The sixteen condition codes (spec/40_operands_flags.md R402). -/
inductive Cond where
  | eq | ne | cs | cc | mi | pl | vs | vc | hi | ls | ge | lt | gt | le | al | nv
  deriving DecidableEq, Repr

/-- The shift kinds of the `shift` field (spec/30_encoding.md R303). -/
inductive Shift where
  | lsl | lsr | asr | ror
  deriving DecidableEq, Repr

/-- The two instruction sets (R300); `cpsr.T` selects one. -/
inductive InstrSet where
  | arm | thumb
  deriving DecidableEq, Repr

/-- The instructions, one constructor per row of the opcode table. -/
inductive Instr where
  -- ARM instructions
  /-- BX, R502. -/
  | bx (c : Cond) (rm : Reg)
  /-- MUL, R650. -/
  | mul (c : Cond) (sf : Bool) (rd rn rs rm : Reg)
  /-- MLA, R651. -/
  | mla (c : Cond) (sf : Bool) (rd rn rs rm : Reg)
  /-- UMULL, R652. -/
  | umull (c : Cond) (sf : Bool) (rdHi rdLo rs rm : Reg)
  /-- UMLAL, R653. -/
  | umlal (c : Cond) (sf : Bool) (rdHi rdLo rs rm : Reg)
  /-- SMULL, R654. -/
  | smull (c : Cond) (sf : Bool) (rdHi rdLo rs rm : Reg)
  /-- SMLAL, R655. -/
  | smlal (c : Cond) (sf : Bool) (rdHi rdLo rs rm : Reg)
  /-- SWP, R700. -/
  | swp (c : Cond) (rn rd rm : Reg)
  /-- SWPB, R701. -/
  | swpb (c : Cond) (rn rd rm : Reg)
  /-- STRH (register offset), R563. -/
  | strhReg (c : Cond) (p u w : Bool) (rn rd rm : Reg)
  /-- LDRH (register offset), R562. -/
  | ldrhReg (c : Cond) (p u w : Bool) (rn rd rm : Reg)
  /-- LDRSB (register offset), R564. -/
  | ldrsbReg (c : Cond) (p u w : Bool) (rn rd rm : Reg)
  /-- LDRSH (register offset), R565. -/
  | ldrshReg (c : Cond) (p u w : Bool) (rn rd rm : Reg)
  /-- STRH (immediate offset), R563. -/
  | strhImm (c : Cond) (p u w : Bool) (rn rd : Reg) (immH immL : BitVec 4)
  /-- LDRH (immediate offset), R562. -/
  | ldrhImm (c : Cond) (p u w : Bool) (rn rd : Reg) (immH immL : BitVec 4)
  /-- LDRSB (immediate offset), R564. -/
  | ldrsbImm (c : Cond) (p u w : Bool) (rn rd : Reg) (immH immL : BitVec 4)
  /-- LDRSH (immediate offset), R565. -/
  | ldrshImm (c : Cond) (p u w : Bool) (rn rd : Reg) (immH immL : BitVec 4)
  /-- undefined (multiply/extra load-store space), R760. -/
  | undefMul (c : Cond)
  /-- MRS, R750. -/
  | mrs (c : Cond) (r : Bool) (rd : Reg)
  /-- MSR (register), R751. -/
  | msrReg (c : Cond) (r : Bool) (fm : BitVec 4) (rm : Reg)
  /-- undefined (miscellaneous space), R760. -/
  | undefMisc (c : Cond)
  /-- MSR (immediate), R752. -/
  | msrImm (c : Cond) (r : Bool) (fm rot : BitVec 4) (imm : BitVec 8)
  /-- undefined (move-immediate-to-status space), R760. -/
  | undefMsrImm (c : Cond)
  /-- AND (shift by immediate), R451. -/
  | andShiftImm (c : Cond) (sf : Bool) (rn rd : Reg) (imm : BitVec 5) (sh : Shift) (rm : Reg)
  /-- EOR (shift by immediate), R452. -/
  | eorShiftImm (c : Cond) (sf : Bool) (rn rd : Reg) (imm : BitVec 5) (sh : Shift) (rm : Reg)
  /-- SUB (shift by immediate), R453. -/
  | subShiftImm (c : Cond) (sf : Bool) (rn rd : Reg) (imm : BitVec 5) (sh : Shift) (rm : Reg)
  /-- RSB (shift by immediate), R454. -/
  | rsbShiftImm (c : Cond) (sf : Bool) (rn rd : Reg) (imm : BitVec 5) (sh : Shift) (rm : Reg)
  /-- ADD (shift by immediate), R455. -/
  | addShiftImm (c : Cond) (sf : Bool) (rn rd : Reg) (imm : BitVec 5) (sh : Shift) (rm : Reg)
  /-- ADC (shift by immediate), R456. -/
  | adcShiftImm (c : Cond) (sf : Bool) (rn rd : Reg) (imm : BitVec 5) (sh : Shift) (rm : Reg)
  /-- SBC (shift by immediate), R457. -/
  | sbcShiftImm (c : Cond) (sf : Bool) (rn rd : Reg) (imm : BitVec 5) (sh : Shift) (rm : Reg)
  /-- RSC (shift by immediate), R458. -/
  | rscShiftImm (c : Cond) (sf : Bool) (rn rd : Reg) (imm : BitVec 5) (sh : Shift) (rm : Reg)
  /-- TST (shift by immediate), R459. -/
  | tstShiftImm (c : Cond) (rn rd : Reg) (imm : BitVec 5) (sh : Shift) (rm : Reg)
  /-- TEQ (shift by immediate), R460. -/
  | teqShiftImm (c : Cond) (rn rd : Reg) (imm : BitVec 5) (sh : Shift) (rm : Reg)
  /-- CMP (shift by immediate), R461. -/
  | cmpShiftImm (c : Cond) (rn rd : Reg) (imm : BitVec 5) (sh : Shift) (rm : Reg)
  /-- CMN (shift by immediate), R462. -/
  | cmnShiftImm (c : Cond) (rn rd : Reg) (imm : BitVec 5) (sh : Shift) (rm : Reg)
  /-- ORR (shift by immediate), R463. -/
  | orrShiftImm (c : Cond) (sf : Bool) (rn rd : Reg) (imm : BitVec 5) (sh : Shift) (rm : Reg)
  /-- MOV (shift by immediate), R464. -/
  | movShiftImm (c : Cond) (sf : Bool) (rd : Reg) (imm : BitVec 5) (sh : Shift) (rm : Reg)
  /-- BIC (shift by immediate), R465. -/
  | bicShiftImm (c : Cond) (sf : Bool) (rn rd : Reg) (imm : BitVec 5) (sh : Shift) (rm : Reg)
  /-- MVN (shift by immediate), R466. -/
  | mvnShiftImm (c : Cond) (sf : Bool) (rd : Reg) (imm : BitVec 5) (sh : Shift) (rm : Reg)
  /-- AND (shift by register), R451. -/
  | andShiftReg (c : Cond) (sf : Bool) (rn rd rs : Reg) (sh : Shift) (rm : Reg)
  /-- EOR (shift by register), R452. -/
  | eorShiftReg (c : Cond) (sf : Bool) (rn rd rs : Reg) (sh : Shift) (rm : Reg)
  /-- SUB (shift by register), R453. -/
  | subShiftReg (c : Cond) (sf : Bool) (rn rd rs : Reg) (sh : Shift) (rm : Reg)
  /-- RSB (shift by register), R454. -/
  | rsbShiftReg (c : Cond) (sf : Bool) (rn rd rs : Reg) (sh : Shift) (rm : Reg)
  /-- ADD (shift by register), R455. -/
  | addShiftReg (c : Cond) (sf : Bool) (rn rd rs : Reg) (sh : Shift) (rm : Reg)
  /-- ADC (shift by register), R456. -/
  | adcShiftReg (c : Cond) (sf : Bool) (rn rd rs : Reg) (sh : Shift) (rm : Reg)
  /-- SBC (shift by register), R457. -/
  | sbcShiftReg (c : Cond) (sf : Bool) (rn rd rs : Reg) (sh : Shift) (rm : Reg)
  /-- RSC (shift by register), R458. -/
  | rscShiftReg (c : Cond) (sf : Bool) (rn rd rs : Reg) (sh : Shift) (rm : Reg)
  /-- TST (shift by register), R459. -/
  | tstShiftReg (c : Cond) (rn rd rs : Reg) (sh : Shift) (rm : Reg)
  /-- TEQ (shift by register), R460. -/
  | teqShiftReg (c : Cond) (rn rd rs : Reg) (sh : Shift) (rm : Reg)
  /-- CMP (shift by register), R461. -/
  | cmpShiftReg (c : Cond) (rn rd rs : Reg) (sh : Shift) (rm : Reg)
  /-- CMN (shift by register), R462. -/
  | cmnShiftReg (c : Cond) (rn rd rs : Reg) (sh : Shift) (rm : Reg)
  /-- ORR (shift by register), R463. -/
  | orrShiftReg (c : Cond) (sf : Bool) (rn rd rs : Reg) (sh : Shift) (rm : Reg)
  /-- MOV (shift by register), R464. -/
  | movShiftReg (c : Cond) (sf : Bool) (rd rs : Reg) (sh : Shift) (rm : Reg)
  /-- BIC (shift by register), R465. -/
  | bicShiftReg (c : Cond) (sf : Bool) (rn rd rs : Reg) (sh : Shift) (rm : Reg)
  /-- MVN (shift by register), R466. -/
  | mvnShiftReg (c : Cond) (sf : Bool) (rd rs : Reg) (sh : Shift) (rm : Reg)
  /-- AND (immediate), R451. -/
  | andImm (c : Cond) (sf : Bool) (rn rd : Reg) (rot : BitVec 4) (imm : BitVec 8)
  /-- EOR (immediate), R452. -/
  | eorImm (c : Cond) (sf : Bool) (rn rd : Reg) (rot : BitVec 4) (imm : BitVec 8)
  /-- SUB (immediate), R453. -/
  | subImm (c : Cond) (sf : Bool) (rn rd : Reg) (rot : BitVec 4) (imm : BitVec 8)
  /-- RSB (immediate), R454. -/
  | rsbImm (c : Cond) (sf : Bool) (rn rd : Reg) (rot : BitVec 4) (imm : BitVec 8)
  /-- ADD (immediate), R455. -/
  | addImm (c : Cond) (sf : Bool) (rn rd : Reg) (rot : BitVec 4) (imm : BitVec 8)
  /-- ADC (immediate), R456. -/
  | adcImm (c : Cond) (sf : Bool) (rn rd : Reg) (rot : BitVec 4) (imm : BitVec 8)
  /-- SBC (immediate), R457. -/
  | sbcImm (c : Cond) (sf : Bool) (rn rd : Reg) (rot : BitVec 4) (imm : BitVec 8)
  /-- RSC (immediate), R458. -/
  | rscImm (c : Cond) (sf : Bool) (rn rd : Reg) (rot : BitVec 4) (imm : BitVec 8)
  /-- TST (immediate), R459. -/
  | tstImm (c : Cond) (rn rd : Reg) (rot : BitVec 4) (imm : BitVec 8)
  /-- TEQ (immediate), R460. -/
  | teqImm (c : Cond) (rn rd : Reg) (rot : BitVec 4) (imm : BitVec 8)
  /-- CMP (immediate), R461. -/
  | cmpImm (c : Cond) (rn rd : Reg) (rot : BitVec 4) (imm : BitVec 8)
  /-- CMN (immediate), R462. -/
  | cmnImm (c : Cond) (rn rd : Reg) (rot : BitVec 4) (imm : BitVec 8)
  /-- ORR (immediate), R463. -/
  | orrImm (c : Cond) (sf : Bool) (rn rd : Reg) (rot : BitVec 4) (imm : BitVec 8)
  /-- MOV (immediate), R464. -/
  | movImm (c : Cond) (sf : Bool) (rd : Reg) (rot : BitVec 4) (imm : BitVec 8)
  /-- BIC (immediate), R465. -/
  | bicImm (c : Cond) (sf : Bool) (rn rd : Reg) (rot : BitVec 4) (imm : BitVec 8)
  /-- MVN (immediate), R466. -/
  | mvnImm (c : Cond) (sf : Bool) (rd : Reg) (rot : BitVec 4) (imm : BitVec 8)
  /-- undefined (media space), R760. -/
  | undefMedia (c : Cond)
  /-- STRT (immediate offset), R559. -/
  | strtImm (c : Cond) (u : Bool) (rn rd : Reg) (imm : BitVec 12)
  /-- LDRT (immediate offset), R557. -/
  | ldrtImm (c : Cond) (u : Bool) (rn rd : Reg) (imm : BitVec 12)
  /-- STRBT (immediate offset), R560. -/
  | strbtImm (c : Cond) (u : Bool) (rn rd : Reg) (imm : BitVec 12)
  /-- LDRBT (immediate offset), R558. -/
  | ldrbtImm (c : Cond) (u : Bool) (rn rd : Reg) (imm : BitVec 12)
  /-- STR (immediate offset), R555. -/
  | strImm (c : Cond) (p u w : Bool) (rn rd : Reg) (imm : BitVec 12)
  /-- LDR (immediate offset), R553. -/
  | ldrImm (c : Cond) (p u w : Bool) (rn rd : Reg) (imm : BitVec 12)
  /-- STRB (immediate offset), R556. -/
  | strbImm (c : Cond) (p u w : Bool) (rn rd : Reg) (imm : BitVec 12)
  /-- LDRB (immediate offset), R554. -/
  | ldrbImm (c : Cond) (p u w : Bool) (rn rd : Reg) (imm : BitVec 12)
  /-- STRT (register offset), R559. -/
  | strtReg (c : Cond) (u : Bool) (rn rd : Reg) (imm : BitVec 5) (sh : Shift) (rm : Reg)
  /-- LDRT (register offset), R557. -/
  | ldrtReg (c : Cond) (u : Bool) (rn rd : Reg) (imm : BitVec 5) (sh : Shift) (rm : Reg)
  /-- STRBT (register offset), R560. -/
  | strbtReg (c : Cond) (u : Bool) (rn rd : Reg) (imm : BitVec 5) (sh : Shift) (rm : Reg)
  /-- LDRBT (register offset), R558. -/
  | ldrbtReg (c : Cond) (u : Bool) (rn rd : Reg) (imm : BitVec 5) (sh : Shift) (rm : Reg)
  /-- STR (register offset), R555. -/
  | strReg (c : Cond) (p u w : Bool) (rn rd : Reg) (imm : BitVec 5) (sh : Shift) (rm : Reg)
  /-- LDR (register offset), R553. -/
  | ldrReg (c : Cond) (p u w : Bool) (rn rd : Reg) (imm : BitVec 5) (sh : Shift) (rm : Reg)
  /-- STRB (register offset), R556. -/
  | strbReg (c : Cond) (p u w : Bool) (rn rd : Reg) (imm : BitVec 5) (sh : Shift) (rm : Reg)
  /-- LDRB (register offset), R554. -/
  | ldrbReg (c : Cond) (p u w : Bool) (rn rd : Reg) (imm : BitVec 5) (sh : Shift) (rm : Reg)
  /-- STM^ (User-bank registers), R603. -/
  | stmUser (c : Cond) (p u w : Bool) (rn : Reg) (list : BitVec 16)
  /-- LDM^ with R15 (status restore), R605. -/
  | ldmRestore (c : Cond) (p u w : Bool) (rn : Reg) (list : BitVec 16)
  /-- LDM^ without R15 (User-bank registers), R604. -/
  | ldmUser (c : Cond) (p u w : Bool) (rn : Reg) (list : BitVec 16)
  /-- STM, R602. -/
  | stm (c : Cond) (p u w : Bool) (rn : Reg) (list : BitVec 16)
  /-- LDM, R601. -/
  | ldm (c : Cond) (p u w : Bool) (rn : Reg) (list : BitVec 16)
  /-- B, R500. -/
  | b (c : Cond) (imm : BitVec 24)
  /-- BL, R501. -/
  | bl (c : Cond) (imm : BitVec 24)
  /-- STC, R757. -/
  | stc (c : Cond) (p u n w : Bool) (rn : Reg) (crd cp : BitVec 4) (off : BitVec 8)
  /-- LDC, R756. -/
  | ldc (c : Cond) (p u n w : Bool) (rn : Reg) (crd cp : BitVec 4) (off : BitVec 8)
  /-- CDP, R755. -/
  | cdp (c : Cond) (op1 crn crd cp : BitVec 4) (op2 : BitVec 3) (crm : BitVec 4)
  /-- MCR, R758. -/
  | mcr (c : Cond) (op1 : BitVec 3) (crn : BitVec 4) (rd : Reg) (cp : BitVec 4) (op2 : BitVec 3) (crm : BitVec 4)
  /-- MRC, R759. -/
  | mrc (c : Cond) (op1 : BitVec 3) (crn : BitVec 4) (rd : Reg) (cp : BitVec 4) (op2 : BitVec 3) (crm : BitVec 4)
  /-- SWI, R754. -/
  | swi (c : Cond) (comment : BitVec 24)
  -- Thumb instructions
  /-- LSL Rd, Rs, #imm5, R800. -/
  | tLslImm (imm : BitVec 5) (rs rd : LowReg)
  /-- LSR Rd, Rs, #imm5, R801. -/
  | tLsrImm (imm : BitVec 5) (rs rd : LowReg)
  /-- ASR Rd, Rs, #imm5, R802. -/
  | tAsrImm (imm : BitVec 5) (rs rd : LowReg)
  /-- ADD Rd, Rs, Rn, R803. -/
  | tAddReg (rn rs rd : LowReg)
  /-- SUB Rd, Rs, Rn, R804. -/
  | tSubReg (rn rs rd : LowReg)
  /-- ADD Rd, Rs, #imm3, R805. -/
  | tAddImm3 (imm : BitVec 3) (rs rd : LowReg)
  /-- SUB Rd, Rs, #imm3, R806. -/
  | tSubImm3 (imm : BitVec 3) (rs rd : LowReg)
  /-- MOV Rd, #imm8, R807. -/
  | tMovImm8 (rd : LowReg) (imm : BitVec 8)
  /-- CMP Rd, #imm8, R808. -/
  | tCmpImm8 (rd : LowReg) (imm : BitVec 8)
  /-- ADD Rd, #imm8, R809. -/
  | tAddImm8 (rd : LowReg) (imm : BitVec 8)
  /-- SUB Rd, #imm8, R810. -/
  | tSubImm8 (rd : LowReg) (imm : BitVec 8)
  /-- AND Rd, Rs, R811. -/
  | tAnd (rs rd : LowReg)
  /-- EOR Rd, Rs, R812. -/
  | tEor (rs rd : LowReg)
  /-- LSL Rd, Rs, R813. -/
  | tLsl (rs rd : LowReg)
  /-- LSR Rd, Rs, R814. -/
  | tLsr (rs rd : LowReg)
  /-- ASR Rd, Rs, R815. -/
  | tAsr (rs rd : LowReg)
  /-- ADC Rd, Rs, R816. -/
  | tAdc (rs rd : LowReg)
  /-- SBC Rd, Rs, R817. -/
  | tSbc (rs rd : LowReg)
  /-- ROR Rd, Rs, R818. -/
  | tRor (rs rd : LowReg)
  /-- TST Rd, Rs, R819. -/
  | tTst (rs rd : LowReg)
  /-- NEG Rd, Rs, R820. -/
  | tNeg (rs rd : LowReg)
  /-- CMP Rd, Rs, R821. -/
  | tCmp (rs rd : LowReg)
  /-- CMN Rd, Rs, R822. -/
  | tCmn (rs rd : LowReg)
  /-- ORR Rd, Rs, R823. -/
  | tOrr (rs rd : LowReg)
  /-- MUL Rd, Rs, R824. -/
  | tMul (rs rd : LowReg)
  /-- BIC Rd, Rs, R825. -/
  | tBic (rs rd : LowReg)
  /-- MVN Rd, Rs, R826. -/
  | tMvn (rs rd : LowReg)
  /-- ADD Rd/Hd, Rs/Hs, R827. -/
  | tAddHi (h1 h2 : Bool) (rs rd : LowReg)
  /-- CMP Rd/Hd, Rs/Hs, R828. -/
  | tCmpHi (h1 h2 : Bool) (rs rd : LowReg)
  /-- MOV Rd/Hd, Rs/Hs, R829. -/
  | tMovHi (h1 h2 : Bool) (rs rd : LowReg)
  /-- BX Rs/Hs, R830. -/
  | tBx (h1 h2 : Bool) (rs rd : LowReg)
  /-- LDR Rd, [PC, #imm], R850. -/
  | tLdrPc (rd : LowReg) (imm : BitVec 8)
  /-- STR Rd, [Rb, Ro], R851. -/
  | tStrReg (ro rb rd : LowReg)
  /-- STRH Rd, [Rb, Ro], R852. -/
  | tStrhReg (ro rb rd : LowReg)
  /-- STRB Rd, [Rb, Ro], R853. -/
  | tStrbReg (ro rb rd : LowReg)
  /-- LDSB Rd, [Rb, Ro], R854. -/
  | tLdsbReg (ro rb rd : LowReg)
  /-- LDR Rd, [Rb, Ro], R855. -/
  | tLdrReg (ro rb rd : LowReg)
  /-- LDRH Rd, [Rb, Ro], R856. -/
  | tLdrhReg (ro rb rd : LowReg)
  /-- LDRB Rd, [Rb, Ro], R857. -/
  | tLdrbReg (ro rb rd : LowReg)
  /-- LDSH Rd, [Rb, Ro], R858. -/
  | tLdshReg (ro rb rd : LowReg)
  /-- STR Rd, [Rb, #imm], R859. -/
  | tStrImm (imm : BitVec 5) (rb rd : LowReg)
  /-- LDR Rd, [Rb, #imm], R860. -/
  | tLdrImm (imm : BitVec 5) (rb rd : LowReg)
  /-- STRB Rd, [Rb, #imm], R861. -/
  | tStrbImm (imm : BitVec 5) (rb rd : LowReg)
  /-- LDRB Rd, [Rb, #imm], R862. -/
  | tLdrbImm (imm : BitVec 5) (rb rd : LowReg)
  /-- STRH Rd, [Rb, #imm], R863. -/
  | tStrhImm (imm : BitVec 5) (rb rd : LowReg)
  /-- LDRH Rd, [Rb, #imm], R864. -/
  | tLdrhImm (imm : BitVec 5) (rb rd : LowReg)
  /-- STR Rd, [SP, #imm], R865. -/
  | tStrSp (rd : LowReg) (imm : BitVec 8)
  /-- LDR Rd, [SP, #imm], R866. -/
  | tLdrSp (rd : LowReg) (imm : BitVec 8)
  /-- ADD Rd, PC, #imm, R831. -/
  | tAddPc (rd : LowReg) (imm : BitVec 8)
  /-- ADD Rd, SP, #imm, R832. -/
  | tAddSp (rd : LowReg) (imm : BitVec 8)
  /-- ADD SP, #imm, R833. -/
  | tAddSpImm (imm : BitVec 7)
  /-- SUB SP, #imm, R834. -/
  | tSubSpImm (imm : BitVec 7)
  /-- PUSH (rlist)(, LR), R867. -/
  | tPush (r : Bool) (list : BitVec 8)
  /-- POP (rlist)(, PC), R868. -/
  | tPop (r : Bool) (list : BitVec 8)
  /-- undefined (1011 space), R876. -/
  | tUndef1011
  /-- STMIA Rb!, (rlist), R869. -/
  | tStmia (rb : LowReg) (list : BitVec 8)
  /-- LDMIA Rb!, (rlist), R870. -/
  | tLdmia (rb : LowReg) (list : BitVec 8)
  /-- undefined (B<cond> with cond 1110), R876. -/
  | tUndefCond
  /-- SWI #imm8, R872. -/
  | tSwi (comment : BitVec 8)
  /-- B<cond> label, R871. -/
  | tBcond (c : Cond) (off : BitVec 8)
  /-- B label, R873. -/
  | tB (off : BitVec 11)
  /-- undefined (1110 1 space), R876. -/
  | tUndef11101
  /-- BL label, first half (H = 0), R874. -/
  | tBlFirst (off : BitVec 11)
  /-- BL label, second half (H = 1), R875. -/
  | tBlSecond (off : BitVec 11)
  deriving DecidableEq, Repr

end Sys2Proof
end

