-- ==== Sys2Proof/WellFormed.lean ====
section
/-! DEFINITION. Which terms of `Instr` stand for a word. The field types carry their own bounds; the
checks left are those that keep two rows of the opcode table apart. -/

namespace Sys2Proof

/-- (P, W) = (0, 1) of a word or byte transfer is the T form, another row
(spec/30_encoding.md R310, R347). -/
def Instr.plainIndexing (p w : Bool) : Bool := p || !w

/-- Thumb B<cond> has cond 0000 to 1101; 1110 is undefined and 1111 is SWI (R336). -/
def Instr.branchCond : Cond → Bool
  | .al => false
  | .nv => false
  | _ => true

/-- The well-formedness check: exactly the terms the decoder can answer. -/
def Instr.wf : Instr → Bool
  | .strImm _ p _ w _ _ _ | .ldrImm _ p _ w _ _ _ | .strbImm _ p _ w _ _ _
  | .ldrbImm _ p _ w _ _ _ => Instr.plainIndexing p w
  | .strReg _ p _ w _ _ _ _ _ | .ldrReg _ p _ w _ _ _ _ _ | .strbReg _ p _ w _ _ _ _ _
  | .ldrbReg _ p _ w _ _ _ _ _ => Instr.plainIndexing p w
  | .ldmRestore _ _ _ _ _ list => list.getLsbD 15
  | .ldmUser _ _ _ _ _ list => !list.getLsbD 15
  | .tBcond c _ => Instr.branchCond c
  | _ => true

end Sys2Proof
end

