-- ==== Sys2Proof/Decode.lean ====
section
/-! DEFINITION. The decoder (spec/30_encoding.md R301 to R315 for ARM words, R320 to R339 for Thumb
halfwords), total on any bytes, and after it the encoder. The two are written from the same tables:
the decoder from the mask/match rows of R302 and R320, the encoder from the format rules. -/

namespace Sys2Proof

/-! ## Bits and fields -/

/-- Does the word agree with `val` under `mask`? "The first row whose (word AND mask) = match" (R302). -/
def hits {n : Nat} (v mask val : BitVec n) : Bool := v &&& mask == val

/-- The field `v[lo+len-1:lo]` (R12). -/
def field {n : Nat} (v : BitVec n) (lo len : Nat) : BitVec len := v.extractLsb' lo len

/-- Bit `i` of `v` (R12). -/
def bit {n : Nat} (v : BitVec n) (i : Nat) : Bool := v.getLsbD i

/-- A 4-bit register field. -/
def regField {n : Nat} (v : BitVec n) (lo : Nat) : Reg := (field v lo 4).toFin

/-- A 3-bit Thumb register field. -/
def lowField {n : Nat} (v : BitVec n) (lo : Nat) : LowReg := (field v lo 3).toFin

/-- The condition a 4-bit field names (R402). -/
def Cond.ofBits (b : BitVec 4) : Cond :=
  match b.toNat with
  | 0 => .eq | 1 => .ne | 2 => .cs | 3 => .cc | 4 => .mi | 5 => .pl | 6 => .vs | 7 => .vc
  | 8 => .hi | 9 => .ls | 10 => .ge | 11 => .lt | 12 => .gt | 13 => .le | 14 => .al | _ => .nv

/-- The 4-bit field of a condition (R402). -/
def Cond.bits : Cond → BitVec 4
  | .eq => 0 | .ne => 1 | .cs => 2 | .cc => 3 | .mi => 4 | .pl => 5 | .vs => 6 | .vc => 7
  | .hi => 8 | .ls => 9 | .ge => 10 | .lt => 11 | .gt => 12 | .le => 13 | .al => 14 | .nv => 15

/-- The shift a 2-bit field names: 00 LSL, 01 LSR, 10 ASR, 11 ROR (R303). -/
def Shift.ofBits (b : BitVec 2) : Shift :=
  match b.toNat with
  | 0 => .lsl | 1 => .lsr | 2 => .asr | _ => .ror

/-- The 2-bit field of a shift (R303). -/
def Shift.bits : Shift → BitVec 2
  | .lsl => 0 | .lsr => 1 | .asr => 2 | .ror => 3

/-! ## ARM decode -/

/-- Rows 2 and 3 of R302, formats of R305: bits 23:21 tell MUL, MLA and the four long forms apart. -/
def decodeMultiply (c : Cond) (w : Word) : Instr :=
  let sf := bit w 20
  let rd := regField w 16
  let rn := regField w 12
  let rs := regField w 8
  let rm := regField w 0
  if !bit w 23 then
    if bit w 21 then .mla c sf rd rn rs rm else .mul c sf rd rn rs rm
  else
    match bit w 22, bit w 21 with
    | false, false => .umull c sf rd rn rs rm
    | false, true => .umlal c sf rd rn rs rm
    | true, false => .smull c sf rd rn rs rm
    | true, true => .smlal c sf rd rn rs rm

/-- Rows 5 and 6 of R302, format R308: bit 22 tells the immediate from the register offset, (L, S, H)
the transfer. The row's extra condition has excluded (0, 1, x) and (x, 0, 0). -/
def decodeHalfword (c : Cond) (w : Word) : Instr :=
  let p := bit w 24
  let u := bit w 23
  let wb := bit w 21
  let rn := regField w 16
  let rd := regField w 12
  let immH := field w 8 4
  let immL := field w 0 4
  let rm := regField w 0
  if bit w 22 then
    if !bit w 20 then .strhImm c p u wb rn rd immH immL
    else if !bit w 6 then .ldrhImm c p u wb rn rd immH immL
    else if !bit w 5 then .ldrsbImm c p u wb rn rd immH immL
    else .ldrshImm c p u wb rn rd immH immL
  else
    if !bit w 20 then .strhReg c p u wb rn rd rm
    else if !bit w 6 then .ldrhReg c p u wb rn rd rm
    else if !bit w 5 then .ldrsbReg c p u wb rn rd rm
    else .ldrshReg c p u wb rn rd rm

/-- Row 13 of R302: register shifted by an immediate, opcode table of R304. -/
def decodeDpShiftImm (c : Cond) (w : Word) : Instr :=
  let sf := bit w 20
  let rn := regField w 16
  let rd := regField w 12
  let imm := field w 7 5
  let sh := Shift.ofBits (field w 5 2)
  let rm := regField w 0
  match (field w 21 4).toNat with
  | 0 => .andShiftImm c sf rn rd imm sh rm
  | 1 => .eorShiftImm c sf rn rd imm sh rm
  | 2 => .subShiftImm c sf rn rd imm sh rm
  | 3 => .rsbShiftImm c sf rn rd imm sh rm
  | 4 => .addShiftImm c sf rn rd imm sh rm
  | 5 => .adcShiftImm c sf rn rd imm sh rm
  | 6 => .sbcShiftImm c sf rn rd imm sh rm
  | 7 => .rscShiftImm c sf rn rd imm sh rm
  | 8 => .tstShiftImm c rn rd imm sh rm
  | 9 => .teqShiftImm c rn rd imm sh rm
  | 10 => .cmpShiftImm c rn rd imm sh rm
  | 11 => .cmnShiftImm c rn rd imm sh rm
  | 12 => .orrShiftImm c sf rn rd imm sh rm
  | 13 => .movShiftImm c sf rd imm sh rm
  | 14 => .bicShiftImm c sf rn rd imm sh rm
  | _ => .mvnShiftImm c sf rd imm sh rm

/-- Row 14 of R302: register shifted by a register, opcode table of R304. -/
def decodeDpShiftReg (c : Cond) (w : Word) : Instr :=
  let sf := bit w 20
  let rn := regField w 16
  let rd := regField w 12
  let rs := regField w 8
  let sh := Shift.ofBits (field w 5 2)
  let rm := regField w 0
  match (field w 21 4).toNat with
  | 0 => .andShiftReg c sf rn rd rs sh rm
  | 1 => .eorShiftReg c sf rn rd rs sh rm
  | 2 => .subShiftReg c sf rn rd rs sh rm
  | 3 => .rsbShiftReg c sf rn rd rs sh rm
  | 4 => .addShiftReg c sf rn rd rs sh rm
  | 5 => .adcShiftReg c sf rn rd rs sh rm
  | 6 => .sbcShiftReg c sf rn rd rs sh rm
  | 7 => .rscShiftReg c sf rn rd rs sh rm
  | 8 => .tstShiftReg c rn rd rs sh rm
  | 9 => .teqShiftReg c rn rd rs sh rm
  | 10 => .cmpShiftReg c rn rd rs sh rm
  | 11 => .cmnShiftReg c rn rd rs sh rm
  | 12 => .orrShiftReg c sf rn rd rs sh rm
  | 13 => .movShiftReg c sf rd rs sh rm
  | 14 => .bicShiftReg c sf rn rd rs sh rm
  | _ => .mvnShiftReg c sf rd rs sh rm

/-- Row 15 of R302: rotated immediate, opcode table of R304. -/
def decodeDpImm (c : Cond) (w : Word) : Instr :=
  let sf := bit w 20
  let rn := regField w 16
  let rd := regField w 12
  let rot := field w 8 4
  let imm := field w 0 8
  match (field w 21 4).toNat with
  | 0 => .andImm c sf rn rd rot imm
  | 1 => .eorImm c sf rn rd rot imm
  | 2 => .subImm c sf rn rd rot imm
  | 3 => .rsbImm c sf rn rd rot imm
  | 4 => .addImm c sf rn rd rot imm
  | 5 => .adcImm c sf rn rd rot imm
  | 6 => .sbcImm c sf rn rd rot imm
  | 7 => .rscImm c sf rn rd rot imm
  | 8 => .tstImm c rn rd rot imm
  | 9 => .teqImm c rn rd rot imm
  | 10 => .cmpImm c rn rd rot imm
  | 11 => .cmnImm c rn rd rot imm
  | 12 => .orrImm c sf rn rd rot imm
  | 13 => .movImm c sf rd rot imm
  | 14 => .bicImm c sf rn rd rot imm
  | _ => .mvnImm c sf rd rot imm

/-- Row 17 of R302, format R310 with I = 0: P = 0 with W = 1 selects the T forms, B the byte forms,
L the loads. -/
def decodeTransferImm (c : Cond) (w : Word) : Instr :=
  let p := bit w 24
  let u := bit w 23
  let wb := bit w 21
  let rn := regField w 16
  let rd := regField w 12
  let imm := field w 0 12
  if !p && wb then
    match bit w 22, bit w 20 with
    | false, false => .strtImm c u rn rd imm
    | false, true => .ldrtImm c u rn rd imm
    | true, false => .strbtImm c u rn rd imm
    | true, true => .ldrbtImm c u rn rd imm
  else
    match bit w 22, bit w 20 with
    | false, false => .strImm c p u wb rn rd imm
    | false, true => .ldrImm c p u wb rn rd imm
    | true, false => .strbImm c p u wb rn rd imm
    | true, true => .ldrbImm c p u wb rn rd imm

/-- Row 18 of R302, format R310 with I = 1. -/
def decodeTransferReg (c : Cond) (w : Word) : Instr :=
  let p := bit w 24
  let u := bit w 23
  let wb := bit w 21
  let rn := regField w 16
  let rd := regField w 12
  let imm := field w 7 5
  let sh := Shift.ofBits (field w 5 2)
  let rm := regField w 0
  if !p && wb then
    match bit w 22, bit w 20 with
    | false, false => .strtReg c u rn rd imm sh rm
    | false, true => .ldrtReg c u rn rd imm sh rm
    | true, false => .strbtReg c u rn rd imm sh rm
    | true, true => .ldrbtReg c u rn rd imm sh rm
  else
    match bit w 22, bit w 20 with
    | false, false => .strReg c p u wb rn rd imm sh rm
    | false, true => .ldrReg c p u wb rn rd imm sh rm
    | true, false => .strbReg c p u wb rn rd imm sh rm
    | true, true => .ldrbReg c p u wb rn rd imm sh rm

/-- Row 19 of R302, format R312: S (bit 22), L (bit 20) and, for LDM^, bit 15 of the list. -/
def decodeBlock (c : Cond) (w : Word) : Instr :=
  let p := bit w 24
  let u := bit w 23
  let wb := bit w 21
  let rn := regField w 16
  let list := field w 0 16
  match bit w 22, bit w 20 with
  | false, false => .stm c p u wb rn list
  | false, true => .ldm c p u wb rn list
  | true, false => .stmUser c p u wb rn list
  | true, true => if bit w 15 then .ldmRestore c p u wb rn list else .ldmUser c p u wb rn list

/-- Rows 21 to 23 of R302, formats R314. -/
def decodeCoprocTransfer (c : Cond) (w : Word) : Instr :=
  let p := bit w 24
  let u := bit w 23
  let n := bit w 22
  let wb := bit w 21
  let rn := regField w 16
  let crd := field w 12 4
  let cp := field w 8 4
  let off := field w 0 8
  if bit w 20 then .ldc c p u n wb rn crd cp off else .stc c p u n wb rn crd cp off

/-- ARM decode: the rows of R302 in order, the first that hits. Every word has a class, so the
decoder is total; bits 31:28 are the condition (R301). DESIGN CHOICE (log entry 25): rows 8 and 9 test
bits 7:4 as R302's masks do, although R318 lists them among the ignored bits of MRS and MSR. -/
def decodeArm (w : Word) : Instr :=
  let c := Cond.ofBits (field w 28 4)
  -- row 1
  if hits w 0x0FF000F0 0x01200010 then .bx c (regField w 0)
  -- rows 2 and 3
  else if hits w 0x0FC000F0 0x00000090 then decodeMultiply c w
  else if hits w 0x0F8000F0 0x00800090 then decodeMultiply c w
  -- row 4
  else if hits w 0x0FB000F0 0x01000090 then
    if bit w 22 then .swpb c (regField w 16) (regField w 12) (regField w 0)
    else .swp c (regField w 16) (regField w 12) (regField w 0)
  -- rows 5 and 6, with their extra condition
  else if (hits w 0x0E400090 0x00000090 || hits w 0x0E400090 0x00400090) &&
      (field w 5 2 != 0 && (bit w 20 || field w 5 2 == 1)) then decodeHalfword c w
  -- row 7
  else if hits w 0x0E000090 0x00000090 then .undefMul c
  -- row 8
  else if hits w 0x0FB000F0 0x01000000 then .mrs c (bit w 22) (regField w 12)
  -- row 9
  else if hits w 0x0FB000F0 0x01200000 then .msrReg c (bit w 22) (field w 16 4) (regField w 0)
  -- row 10
  else if hits w 0x0F900000 0x01000000 then .undefMisc c
  -- row 11
  else if hits w 0x0FB00000 0x03200000 then
    .msrImm c (bit w 22) (field w 16 4) (field w 8 4) (field w 0 8)
  -- row 12
  else if hits w 0x0FB00000 0x03000000 then .undefMsrImm c
  -- rows 13 to 15
  else if hits w 0x0E000010 0x00000000 then decodeDpShiftImm c w
  else if hits w 0x0E000090 0x00000010 then decodeDpShiftReg c w
  else if hits w 0x0E000000 0x02000000 then decodeDpImm c w
  -- row 16
  else if hits w 0x0E000010 0x06000010 then .undefMedia c
  -- rows 17 and 18
  else if hits w 0x0E000000 0x04000000 then decodeTransferImm c w
  else if hits w 0x0E000010 0x06000000 then decodeTransferReg c w
  -- row 19
  else if hits w 0x0E000000 0x08000000 then decodeBlock c w
  -- row 20
  else if hits w 0x0E000000 0x0A000000 then
    if bit w 24 then .bl c (field w 0 24) else .b c (field w 0 24)
  -- row 21
  else if hits w 0x0E000000 0x0C000000 then decodeCoprocTransfer c w
  -- row 22
  else if hits w 0x0F000010 0x0E000000 then
    .cdp c (field w 20 4) (field w 16 4) (field w 12 4) (field w 8 4) (field w 5 3) (field w 0 4)
  -- row 23
  else if hits w 0x0F000010 0x0E000010 then
    if bit w 20 then
      .mrc c (field w 21 3) (field w 16 4) (regField w 12) (field w 8 4) (field w 5 3) (field w 0 4)
    else
      .mcr c (field w 21 3) (field w 16 4) (regField w 12) (field w 8 4) (field w 5 3) (field w 0 4)
  -- row 24, the only class left (R302: the table covers every value of bits 27:0)
  else .swi c (field w 0 24)

/-! ## Thumb decode -/

/-- Row 12 of R320: the sixteen ALU operations of R324. -/
def decodeThumbAlu (h : Half) : Instr :=
  let rs := lowField h 3
  let rd := lowField h 0
  match (field h 6 4).toNat with
  | 0 => .tAnd rs rd
  | 1 => .tEor rs rd
  | 2 => .tLsl rs rd
  | 3 => .tLsr rs rd
  | 4 => .tAsr rs rd
  | 5 => .tAdc rs rd
  | 6 => .tSbc rs rd
  | 7 => .tRor rs rd
  | 8 => .tTst rs rd
  | 9 => .tNeg rs rd
  | 10 => .tCmp rs rd
  | 11 => .tCmn rs rd
  | 12 => .tOrr rs rd
  | 13 => .tMul rs rd
  | 14 => .tBic rs rd
  | _ => .tMvn rs rd

/-- Thumb decode: the rows of R320 in order, the first that hits; they cover all 65536 halfwords. -/
def decodeThumb (h : Half) : Instr :=
  if hits h 0xF800 0x0000 then .tLslImm (field h 6 5) (lowField h 3) (lowField h 0)
  else if hits h 0xF800 0x0800 then .tLsrImm (field h 6 5) (lowField h 3) (lowField h 0)
  else if hits h 0xF800 0x1000 then .tAsrImm (field h 6 5) (lowField h 3) (lowField h 0)
  else if hits h 0xFE00 0x1800 then .tAddReg (lowField h 6) (lowField h 3) (lowField h 0)
  else if hits h 0xFE00 0x1A00 then .tSubReg (lowField h 6) (lowField h 3) (lowField h 0)
  else if hits h 0xFE00 0x1C00 then .tAddImm3 (field h 6 3) (lowField h 3) (lowField h 0)
  else if hits h 0xFE00 0x1E00 then .tSubImm3 (field h 6 3) (lowField h 3) (lowField h 0)
  else if hits h 0xF800 0x2000 then .tMovImm8 (lowField h 8) (field h 0 8)
  else if hits h 0xF800 0x2800 then .tCmpImm8 (lowField h 8) (field h 0 8)
  else if hits h 0xF800 0x3000 then .tAddImm8 (lowField h 8) (field h 0 8)
  else if hits h 0xF800 0x3800 then .tSubImm8 (lowField h 8) (field h 0 8)
  else if hits h 0xFC00 0x4000 then decodeThumbAlu h
  else if hits h 0xFF00 0x4400 then .tAddHi (bit h 7) (bit h 6) (lowField h 3) (lowField h 0)
  else if hits h 0xFF00 0x4500 then .tCmpHi (bit h 7) (bit h 6) (lowField h 3) (lowField h 0)
  else if hits h 0xFF00 0x4600 then .tMovHi (bit h 7) (bit h 6) (lowField h 3) (lowField h 0)
  else if hits h 0xFF00 0x4700 then .tBx (bit h 7) (bit h 6) (lowField h 3) (lowField h 0)
  else if hits h 0xF800 0x4800 then .tLdrPc (lowField h 8) (field h 0 8)
  else if hits h 0xFE00 0x5000 then .tStrReg (lowField h 6) (lowField h 3) (lowField h 0)
  else if hits h 0xFE00 0x5200 then .tStrhReg (lowField h 6) (lowField h 3) (lowField h 0)
  else if hits h 0xFE00 0x5400 then .tStrbReg (lowField h 6) (lowField h 3) (lowField h 0)
  else if hits h 0xFE00 0x5600 then .tLdsbReg (lowField h 6) (lowField h 3) (lowField h 0)
  else if hits h 0xFE00 0x5800 then .tLdrReg (lowField h 6) (lowField h 3) (lowField h 0)
  else if hits h 0xFE00 0x5A00 then .tLdrhReg (lowField h 6) (lowField h 3) (lowField h 0)
  else if hits h 0xFE00 0x5C00 then .tLdrbReg (lowField h 6) (lowField h 3) (lowField h 0)
  else if hits h 0xFE00 0x5E00 then .tLdshReg (lowField h 6) (lowField h 3) (lowField h 0)
  else if hits h 0xF800 0x6000 then .tStrImm (field h 6 5) (lowField h 3) (lowField h 0)
  else if hits h 0xF800 0x6800 then .tLdrImm (field h 6 5) (lowField h 3) (lowField h 0)
  else if hits h 0xF800 0x7000 then .tStrbImm (field h 6 5) (lowField h 3) (lowField h 0)
  else if hits h 0xF800 0x7800 then .tLdrbImm (field h 6 5) (lowField h 3) (lowField h 0)
  else if hits h 0xF800 0x8000 then .tStrhImm (field h 6 5) (lowField h 3) (lowField h 0)
  else if hits h 0xF800 0x8800 then .tLdrhImm (field h 6 5) (lowField h 3) (lowField h 0)
  else if hits h 0xF800 0x9000 then .tStrSp (lowField h 8) (field h 0 8)
  else if hits h 0xF800 0x9800 then .tLdrSp (lowField h 8) (field h 0 8)
  else if hits h 0xF800 0xA000 then .tAddPc (lowField h 8) (field h 0 8)
  else if hits h 0xF800 0xA800 then .tAddSp (lowField h 8) (field h 0 8)
  else if hits h 0xFF80 0xB000 then .tAddSpImm (field h 0 7)
  else if hits h 0xFF80 0xB080 then .tSubSpImm (field h 0 7)
  else if hits h 0xFE00 0xB400 then .tPush (bit h 8) (field h 0 8)
  else if hits h 0xFE00 0xBC00 then .tPop (bit h 8) (field h 0 8)
  else if hits h 0xF000 0xB000 then .tUndef1011
  else if hits h 0xF800 0xC000 then .tStmia (lowField h 8) (field h 0 8)
  else if hits h 0xF800 0xC800 then .tLdmia (lowField h 8) (field h 0 8)
  else if hits h 0xFF00 0xDE00 then .tUndefCond
  else if hits h 0xFF00 0xDF00 then .tSwi (field h 0 8)
  else if hits h 0xF000 0xD000 then .tBcond (Cond.ofBits (field h 8 4)) (field h 0 8)
  else if hits h 0xF800 0xE000 then .tB (field h 0 11)
  else if hits h 0xF800 0xE800 then .tUndef11101
  else if hits h 0xF800 0xF000 then .tBlFirst (field h 0 11)
  -- row 49, the only class left
  else .tBlSecond (field h 0 11)

/-! ## The decoder on bytes -/

/-- Why no instruction is read: fewer bytes are given than the instruction set's length (R300). No
word and no halfword is refused: both tables are total. -/
inductive DecodeError where
  | truncated
  deriving DecidableEq, Repr

/-- A little-endian halfword (R202). -/
def halfOfBytes (b0 b1 : Byte) : Half := b1 ++ b0

/-- A little-endian word (R202). -/
def wordOfBytes (b0 b1 b2 b3 : Byte) : Word := b3 ++ b2 ++ b1 ++ b0

/-- The decoder: the instruction at the head of `bytes` and the bytes after it. The instruction set
is told by `cpsr.T`, never by the bits (R300). -/
def decode (set : InstrSet) (bytes : List Byte) : Except DecodeError (Instr × List Byte) :=
  match set, bytes with
  | .arm, b0 :: b1 :: b2 :: b3 :: rest => .ok (decodeArm (wordOfBytes b0 b1 b2 b3), rest)
  | .thumb, b0 :: b1 :: rest => .ok (decodeThumb (halfOfBytes b0 b1), rest)
  | _, _ => .error .truncated

/-- The bytes of a word, the lowest address first (R202). -/
def bytesOfWord (w : Word) : List Byte := [field w 0 8, field w 8 8, field w 16 8, field w 24 8]

/-- The bytes of a halfword, the lowest address first (R202). -/
def bytesOfHalf (h : Half) : List Byte := [field h 0 8, field h 8 8]

/-- What the decoder reads from an instruction whose bits are `w`, numbered as
spec/opcode_table.json numbers them: rows of 16 bits are Thumb halfwords, rows of 32 bits ARM words. -/
def decodeTableWord (nbits w : Nat) : Option Instr :=
  let r := if nbits ≤ 16 then decode .thumb (bytesOfHalf (BitVec.ofNat 16 w))
    else decode .arm (bytesOfWord (BitVec.ofNat 32 w))
  match r with
  | .ok (i, _) => some i
  | .error _ => none

/-! ## The encoder -/

/-- An encoded instruction: one ARM word or one Thumb halfword (R300). -/
inductive Code where
  | arm (w : Word)
  | thumb (h : Half)
  deriving DecidableEq, Repr

/-- The one-bit field of a flag. -/
def flag (b : Bool) : BitVec 1 := BitVec.ofBool b

/-- The 4-bit field of a register number. -/
def regBits (r : Reg) : BitVec 4 := BitVec.ofFin r

/-- The 3-bit field of a low register number. -/
def lowBits (r : LowReg) : BitVec 3 := BitVec.ofFin r

/-- Data processing, register shifted by an immediate (R303). -/
def encDpShiftImm (c : Cond) (op : BitVec 4) (sf : Bool) (rn rd : Reg) (imm : BitVec 5) (sh : Shift)
    (rm : Reg) : Code :=
  .arm (c.bits ++ 0b000#3 ++ op ++ flag sf ++ regBits rn ++ regBits rd ++ imm ++ sh.bits ++ 0b0#1 ++
    regBits rm)

/-- Data processing, register shifted by a register (R303). -/
def encDpShiftReg (c : Cond) (op : BitVec 4) (sf : Bool) (rn rd rs : Reg) (sh : Shift) (rm : Reg) :
    Code :=
  .arm (c.bits ++ 0b000#3 ++ op ++ flag sf ++ regBits rn ++ regBits rd ++ regBits rs ++ 0b0#1 ++
    sh.bits ++ 0b1#1 ++ regBits rm)

/-- Data processing, rotated immediate (R303). -/
def encDpImm (c : Cond) (op : BitVec 4) (sf : Bool) (rn rd : Reg) (rot : BitVec 4) (imm : BitVec 8) :
    Code :=
  .arm (c.bits ++ 0b001#3 ++ op ++ flag sf ++ regBits rn ++ regBits rd ++ rot ++ imm)

/-- Multiply and multiply long (R305): `kind` is bits 23:21. -/
def encMultiply (c : Cond) (kind : BitVec 3) (sf : Bool) (rd rn rs rm : Reg) : Code :=
  .arm (c.bits ++ 0b0000#4 ++ kind ++ flag sf ++ regBits rd ++ regBits rn ++ regBits rs ++ 0b1001#4 ++
    regBits rm)

/-- Swap (R306), bits 11:8 zero. -/
def encSwap (c : Cond) (b : Bool) (rn rd rm : Reg) : Code :=
  .arm (c.bits ++ 0b00010#5 ++ flag b ++ 0b00#2 ++ regBits rn ++ regBits rd ++ 0b0000#4 ++ 0b1001#4 ++
    regBits rm)

/-- Halfword and signed transfers (R308): `imm` is bit 22, `hi` and `lo` are bits 11:8 and 3:0. -/
def encHalfword (c : Cond) (p u imm w l s h : Bool) (rn rd : Reg) (hi lo : BitVec 4) : Code :=
  .arm (c.bits ++ 0b000#3 ++ flag p ++ flag u ++ flag imm ++ flag w ++ flag l ++ regBits rn ++
    regBits rd ++ hi ++ 0b1#1 ++ flag s ++ flag h ++ 0b1#1 ++ lo)

/-- Single data transfer with an immediate offset (R310). -/
def encTransferImm (c : Cond) (p u b w l : Bool) (rn rd : Reg) (imm : BitVec 12) : Code :=
  .arm (c.bits ++ 0b010#3 ++ flag p ++ flag u ++ flag b ++ flag w ++ flag l ++ regBits rn ++
    regBits rd ++ imm)

/-- Single data transfer with a register offset (R310). -/
def encTransferReg (c : Cond) (p u b w l : Bool) (rn rd : Reg) (imm : BitVec 5) (sh : Shift)
    (rm : Reg) : Code :=
  .arm (c.bits ++ 0b011#3 ++ flag p ++ flag u ++ flag b ++ flag w ++ flag l ++ regBits rn ++
    regBits rd ++ imm ++ sh.bits ++ 0b0#1 ++ regBits rm)

/-- Block data transfer (R312). -/
def encBlock (c : Cond) (p u s w l : Bool) (rn : Reg) (list : BitVec 16) : Code :=
  .arm (c.bits ++ 0b100#3 ++ flag p ++ flag u ++ flag s ++ flag w ++ flag l ++ regBits rn ++ list)

/-- LDC and STC (R314). -/
def encCoprocTransfer (c : Cond) (p u n w l : Bool) (rn : Reg) (crd cp : BitVec 4) (off : BitVec 8) :
    Code :=
  .arm (c.bits ++ 0b110#3 ++ flag p ++ flag u ++ flag n ++ flag w ++ flag l ++ regBits rn ++ crd ++
    cp ++ off)

/-- MCR and MRC (R314). -/
def encCoprocMove (c : Cond) (l : Bool) (op1 : BitVec 3) (crn : BitVec 4) (rd : Reg) (cp : BitVec 4)
    (op2 : BitVec 3) (crm : BitVec 4) : Code :=
  .arm (c.bits ++ 0b1110#4 ++ op1 ++ flag l ++ crn ++ regBits rd ++ cp ++ op2 ++ 0b1#1 ++ crm)

/-- Thumb formats with an op field, a 5-bit immediate and two low registers (T1, T9, T10). -/
def encThumbImm5 (op : BitVec 5) (imm : BitVec 5) (rs rd : LowReg) : Code :=
  .thumb (op ++ imm ++ lowBits rs ++ lowBits rd)

/-- Thumb formats with an op field and three 3-bit fields (T2, T7, T8). -/
def encThumb3 (op : BitVec 7) (x : BitVec 3) (rs rd : LowReg) : Code :=
  .thumb (op ++ x ++ lowBits rs ++ lowBits rd)

/-- Thumb formats with a register in bits 10:8 and eight bits below (T3, T6, T11, T12, T15). -/
def encThumbImm8 (op : BitVec 5) (rd : LowReg) (imm : BitVec 8) : Code :=
  .thumb (op ++ lowBits rd ++ imm)

/-- Thumb ALU operations (T4). -/
def encThumbAlu (op : BitVec 4) (rs rd : LowReg) : Code :=
  .thumb (0b010000#6 ++ op ++ lowBits rs ++ lowBits rd)

/-- Thumb high-register operations (T5). -/
def encThumbHi (op : BitVec 2) (h1 h2 : Bool) (rs rd : LowReg) : Code :=
  .thumb (0b010001#6 ++ op ++ flag h1 ++ flag h2 ++ lowBits rs ++ lowBits rd)

/-- The words of an instruction. Fields that should be one or zero (R318) are written as they should
be, and an undefined class is written as one word of its space (log entry 16). -/
def encode : Instr → Code
  | .bx c rm => .arm (c.bits ++ 0b00010010#8 ++ 0xFFF#12 ++ 0b0001#4 ++ regBits rm)
  | .mul c sf rd rn rs rm => encMultiply c 0b000#3 sf rd rn rs rm
  | .mla c sf rd rn rs rm => encMultiply c 0b001#3 sf rd rn rs rm
  | .umull c sf rdHi rdLo rs rm => encMultiply c 0b100#3 sf rdHi rdLo rs rm
  | .umlal c sf rdHi rdLo rs rm => encMultiply c 0b101#3 sf rdHi rdLo rs rm
  | .smull c sf rdHi rdLo rs rm => encMultiply c 0b110#3 sf rdHi rdLo rs rm
  | .smlal c sf rdHi rdLo rs rm => encMultiply c 0b111#3 sf rdHi rdLo rs rm
  | .swp c rn rd rm => encSwap c false rn rd rm
  | .swpb c rn rd rm => encSwap c true rn rd rm
  | .strhReg c p u w rn rd rm => encHalfword c p u false w false false true rn rd 0 (regBits rm)
  | .ldrhReg c p u w rn rd rm => encHalfword c p u false w true false true rn rd 0 (regBits rm)
  | .ldrsbReg c p u w rn rd rm => encHalfword c p u false w true true false rn rd 0 (regBits rm)
  | .ldrshReg c p u w rn rd rm => encHalfword c p u false w true true true rn rd 0 (regBits rm)
  | .strhImm c p u w rn rd immH immL => encHalfword c p u true w false false true rn rd immH immL
  | .ldrhImm c p u w rn rd immH immL => encHalfword c p u true w true false true rn rd immH immL
  | .ldrsbImm c p u w rn rd immH immL => encHalfword c p u true w true true false rn rd immH immL
  | .ldrshImm c p u w rn rd immH immL => encHalfword c p u true w true true true rn rd immH immL
  | .undefMul c => .arm (c.bits ++ 0x00000D0#28)
  | .mrs c r rd => .arm (c.bits ++ 0b00010#5 ++ flag r ++ 0b00#2 ++ 0xF#4 ++ regBits rd ++ 0x000#12)
  | .msrReg c r fm rm => .arm (c.bits ++ 0b00010#5 ++ flag r ++ 0b10#2 ++ fm ++ 0xF#4 ++ 0x00#8 ++ regBits rm)
  | .undefMisc c => .arm (c.bits ++ 0x1000020#28)
  | .msrImm c r fm rot imm => .arm (c.bits ++ 0b00110#5 ++ flag r ++ 0b10#2 ++ fm ++ 0xF#4 ++ rot ++ imm)
  | .undefMsrImm c => .arm (c.bits ++ 0x3000000#28)
  | .andShiftImm c sf rn rd imm sh rm => encDpShiftImm c 0b0000#4 sf rn rd imm sh rm
  | .eorShiftImm c sf rn rd imm sh rm => encDpShiftImm c 0b0001#4 sf rn rd imm sh rm
  | .subShiftImm c sf rn rd imm sh rm => encDpShiftImm c 0b0010#4 sf rn rd imm sh rm
  | .rsbShiftImm c sf rn rd imm sh rm => encDpShiftImm c 0b0011#4 sf rn rd imm sh rm
  | .addShiftImm c sf rn rd imm sh rm => encDpShiftImm c 0b0100#4 sf rn rd imm sh rm
  | .adcShiftImm c sf rn rd imm sh rm => encDpShiftImm c 0b0101#4 sf rn rd imm sh rm
  | .sbcShiftImm c sf rn rd imm sh rm => encDpShiftImm c 0b0110#4 sf rn rd imm sh rm
  | .rscShiftImm c sf rn rd imm sh rm => encDpShiftImm c 0b0111#4 sf rn rd imm sh rm
  | .tstShiftImm c rn rd imm sh rm => encDpShiftImm c 0b1000#4 true rn rd imm sh rm
  | .teqShiftImm c rn rd imm sh rm => encDpShiftImm c 0b1001#4 true rn rd imm sh rm
  | .cmpShiftImm c rn rd imm sh rm => encDpShiftImm c 0b1010#4 true rn rd imm sh rm
  | .cmnShiftImm c rn rd imm sh rm => encDpShiftImm c 0b1011#4 true rn rd imm sh rm
  | .orrShiftImm c sf rn rd imm sh rm => encDpShiftImm c 0b1100#4 sf rn rd imm sh rm
  | .movShiftImm c sf rd imm sh rm => encDpShiftImm c 0b1101#4 sf 0 rd imm sh rm
  | .bicShiftImm c sf rn rd imm sh rm => encDpShiftImm c 0b1110#4 sf rn rd imm sh rm
  | .mvnShiftImm c sf rd imm sh rm => encDpShiftImm c 0b1111#4 sf 0 rd imm sh rm
  | .andShiftReg c sf rn rd rs sh rm => encDpShiftReg c 0b0000#4 sf rn rd rs sh rm
  | .eorShiftReg c sf rn rd rs sh rm => encDpShiftReg c 0b0001#4 sf rn rd rs sh rm
  | .subShiftReg c sf rn rd rs sh rm => encDpShiftReg c 0b0010#4 sf rn rd rs sh rm
  | .rsbShiftReg c sf rn rd rs sh rm => encDpShiftReg c 0b0011#4 sf rn rd rs sh rm
  | .addShiftReg c sf rn rd rs sh rm => encDpShiftReg c 0b0100#4 sf rn rd rs sh rm
  | .adcShiftReg c sf rn rd rs sh rm => encDpShiftReg c 0b0101#4 sf rn rd rs sh rm
  | .sbcShiftReg c sf rn rd rs sh rm => encDpShiftReg c 0b0110#4 sf rn rd rs sh rm
  | .rscShiftReg c sf rn rd rs sh rm => encDpShiftReg c 0b0111#4 sf rn rd rs sh rm
  | .tstShiftReg c rn rd rs sh rm => encDpShiftReg c 0b1000#4 true rn rd rs sh rm
  | .teqShiftReg c rn rd rs sh rm => encDpShiftReg c 0b1001#4 true rn rd rs sh rm
  | .cmpShiftReg c rn rd rs sh rm => encDpShiftReg c 0b1010#4 true rn rd rs sh rm
  | .cmnShiftReg c rn rd rs sh rm => encDpShiftReg c 0b1011#4 true rn rd rs sh rm
  | .orrShiftReg c sf rn rd rs sh rm => encDpShiftReg c 0b1100#4 sf rn rd rs sh rm
  | .movShiftReg c sf rd rs sh rm => encDpShiftReg c 0b1101#4 sf 0 rd rs sh rm
  | .bicShiftReg c sf rn rd rs sh rm => encDpShiftReg c 0b1110#4 sf rn rd rs sh rm
  | .mvnShiftReg c sf rd rs sh rm => encDpShiftReg c 0b1111#4 sf 0 rd rs sh rm
  | .andImm c sf rn rd rot imm => encDpImm c 0b0000#4 sf rn rd rot imm
  | .eorImm c sf rn rd rot imm => encDpImm c 0b0001#4 sf rn rd rot imm
  | .subImm c sf rn rd rot imm => encDpImm c 0b0010#4 sf rn rd rot imm
  | .rsbImm c sf rn rd rot imm => encDpImm c 0b0011#4 sf rn rd rot imm
  | .addImm c sf rn rd rot imm => encDpImm c 0b0100#4 sf rn rd rot imm
  | .adcImm c sf rn rd rot imm => encDpImm c 0b0101#4 sf rn rd rot imm
  | .sbcImm c sf rn rd rot imm => encDpImm c 0b0110#4 sf rn rd rot imm
  | .rscImm c sf rn rd rot imm => encDpImm c 0b0111#4 sf rn rd rot imm
  | .tstImm c rn rd rot imm => encDpImm c 0b1000#4 true rn rd rot imm
  | .teqImm c rn rd rot imm => encDpImm c 0b1001#4 true rn rd rot imm
  | .cmpImm c rn rd rot imm => encDpImm c 0b1010#4 true rn rd rot imm
  | .cmnImm c rn rd rot imm => encDpImm c 0b1011#4 true rn rd rot imm
  | .orrImm c sf rn rd rot imm => encDpImm c 0b1100#4 sf rn rd rot imm
  | .movImm c sf rd rot imm => encDpImm c 0b1101#4 sf 0 rd rot imm
  | .bicImm c sf rn rd rot imm => encDpImm c 0b1110#4 sf rn rd rot imm
  | .mvnImm c sf rd rot imm => encDpImm c 0b1111#4 sf 0 rd rot imm
  | .undefMedia c => .arm (c.bits ++ 0x6000010#28)
  | .strtImm c u rn rd imm => encTransferImm c false u false true false rn rd imm
  | .ldrtImm c u rn rd imm => encTransferImm c false u false true true rn rd imm
  | .strbtImm c u rn rd imm => encTransferImm c false u true true false rn rd imm
  | .ldrbtImm c u rn rd imm => encTransferImm c false u true true true rn rd imm
  | .strImm c p u w rn rd imm => encTransferImm c p u false w false rn rd imm
  | .ldrImm c p u w rn rd imm => encTransferImm c p u false w true rn rd imm
  | .strbImm c p u w rn rd imm => encTransferImm c p u true w false rn rd imm
  | .ldrbImm c p u w rn rd imm => encTransferImm c p u true w true rn rd imm
  | .strtReg c u rn rd imm sh rm => encTransferReg c false u false true false rn rd imm sh rm
  | .ldrtReg c u rn rd imm sh rm => encTransferReg c false u false true true rn rd imm sh rm
  | .strbtReg c u rn rd imm sh rm => encTransferReg c false u true true false rn rd imm sh rm
  | .ldrbtReg c u rn rd imm sh rm => encTransferReg c false u true true true rn rd imm sh rm
  | .strReg c p u w rn rd imm sh rm => encTransferReg c p u false w false rn rd imm sh rm
  | .ldrReg c p u w rn rd imm sh rm => encTransferReg c p u false w true rn rd imm sh rm
  | .strbReg c p u w rn rd imm sh rm => encTransferReg c p u true w false rn rd imm sh rm
  | .ldrbReg c p u w rn rd imm sh rm => encTransferReg c p u true w true rn rd imm sh rm
  | .stmUser c p u w rn list => encBlock c p u true w false rn list
  | .ldmRestore c p u w rn list => encBlock c p u true w true rn list
  | .ldmUser c p u w rn list => encBlock c p u true w true rn list
  | .stm c p u w rn list => encBlock c p u false w false rn list
  | .ldm c p u w rn list => encBlock c p u false w true rn list
  | .b c imm => .arm (c.bits ++ 0b1010#4 ++ imm)
  | .bl c imm => .arm (c.bits ++ 0b1011#4 ++ imm)
  | .stc c p u n w rn crd cp off => encCoprocTransfer c p u n w false rn crd cp off
  | .ldc c p u n w rn crd cp off => encCoprocTransfer c p u n w true rn crd cp off
  | .cdp c op1 crn crd cp op2 crm => .arm (c.bits ++ 0b1110#4 ++ op1 ++ crn ++ crd ++ cp ++ op2 ++ 0b0#1 ++ crm)
  | .mcr c op1 crn rd cp op2 crm => encCoprocMove c false op1 crn rd cp op2 crm
  | .mrc c op1 crn rd cp op2 crm => encCoprocMove c true op1 crn rd cp op2 crm
  | .swi c comment => .arm (c.bits ++ 0b1111#4 ++ comment)
  | .tLslImm imm rs rd => encThumbImm5 0b00000#5 imm rs rd
  | .tLsrImm imm rs rd => encThumbImm5 0b00001#5 imm rs rd
  | .tAsrImm imm rs rd => encThumbImm5 0b00010#5 imm rs rd
  | .tAddReg rn rs rd => encThumb3 0b0001100#7 (lowBits rn) rs rd
  | .tSubReg rn rs rd => encThumb3 0b0001101#7 (lowBits rn) rs rd
  | .tAddImm3 imm rs rd => encThumb3 0b0001110#7 imm rs rd
  | .tSubImm3 imm rs rd => encThumb3 0b0001111#7 imm rs rd
  | .tMovImm8 rd imm => encThumbImm8 0b00100#5 rd imm
  | .tCmpImm8 rd imm => encThumbImm8 0b00101#5 rd imm
  | .tAddImm8 rd imm => encThumbImm8 0b00110#5 rd imm
  | .tSubImm8 rd imm => encThumbImm8 0b00111#5 rd imm
  | .tAnd rs rd => encThumbAlu 0b0000#4 rs rd
  | .tEor rs rd => encThumbAlu 0b0001#4 rs rd
  | .tLsl rs rd => encThumbAlu 0b0010#4 rs rd
  | .tLsr rs rd => encThumbAlu 0b0011#4 rs rd
  | .tAsr rs rd => encThumbAlu 0b0100#4 rs rd
  | .tAdc rs rd => encThumbAlu 0b0101#4 rs rd
  | .tSbc rs rd => encThumbAlu 0b0110#4 rs rd
  | .tRor rs rd => encThumbAlu 0b0111#4 rs rd
  | .tTst rs rd => encThumbAlu 0b1000#4 rs rd
  | .tNeg rs rd => encThumbAlu 0b1001#4 rs rd
  | .tCmp rs rd => encThumbAlu 0b1010#4 rs rd
  | .tCmn rs rd => encThumbAlu 0b1011#4 rs rd
  | .tOrr rs rd => encThumbAlu 0b1100#4 rs rd
  | .tMul rs rd => encThumbAlu 0b1101#4 rs rd
  | .tBic rs rd => encThumbAlu 0b1110#4 rs rd
  | .tMvn rs rd => encThumbAlu 0b1111#4 rs rd
  | .tAddHi h1 h2 rs rd => encThumbHi 0b00#2 h1 h2 rs rd
  | .tCmpHi h1 h2 rs rd => encThumbHi 0b01#2 h1 h2 rs rd
  | .tMovHi h1 h2 rs rd => encThumbHi 0b10#2 h1 h2 rs rd
  | .tBx h1 h2 rs rd => encThumbHi 0b11#2 h1 h2 rs rd
  | .tLdrPc rd imm => encThumbImm8 0b01001#5 rd imm
  | .tStrReg ro rb rd => encThumb3 0b0101000#7 (lowBits ro) rb rd
  | .tStrhReg ro rb rd => encThumb3 0b0101001#7 (lowBits ro) rb rd
  | .tStrbReg ro rb rd => encThumb3 0b0101010#7 (lowBits ro) rb rd
  | .tLdsbReg ro rb rd => encThumb3 0b0101011#7 (lowBits ro) rb rd
  | .tLdrReg ro rb rd => encThumb3 0b0101100#7 (lowBits ro) rb rd
  | .tLdrhReg ro rb rd => encThumb3 0b0101101#7 (lowBits ro) rb rd
  | .tLdrbReg ro rb rd => encThumb3 0b0101110#7 (lowBits ro) rb rd
  | .tLdshReg ro rb rd => encThumb3 0b0101111#7 (lowBits ro) rb rd
  | .tStrImm imm rb rd => encThumbImm5 0b01100#5 imm rb rd
  | .tLdrImm imm rb rd => encThumbImm5 0b01101#5 imm rb rd
  | .tStrbImm imm rb rd => encThumbImm5 0b01110#5 imm rb rd
  | .tLdrbImm imm rb rd => encThumbImm5 0b01111#5 imm rb rd
  | .tStrhImm imm rb rd => encThumbImm5 0b10000#5 imm rb rd
  | .tLdrhImm imm rb rd => encThumbImm5 0b10001#5 imm rb rd
  | .tStrSp rd imm => encThumbImm8 0b10010#5 rd imm
  | .tLdrSp rd imm => encThumbImm8 0b10011#5 rd imm
  | .tAddPc rd imm => encThumbImm8 0b10100#5 rd imm
  | .tAddSp rd imm => encThumbImm8 0b10101#5 rd imm
  | .tAddSpImm imm => .thumb (0b10110000#8 ++ 0b0#1 ++ imm)
  | .tSubSpImm imm => .thumb (0b10110000#8 ++ 0b1#1 ++ imm)
  | .tPush r list => .thumb (0b1011#4 ++ 0b0#1 ++ 0b10#2 ++ flag r ++ list)
  | .tPop r list => .thumb (0b1011#4 ++ 0b1#1 ++ 0b10#2 ++ flag r ++ list)
  | .tUndef1011 => .thumb 0xB100#16
  | .tStmia rb list => encThumbImm8 0b11000#5 rb list
  | .tLdmia rb list => encThumbImm8 0b11001#5 rb list
  | .tUndefCond => .thumb 0xDE00#16
  | .tSwi comment => .thumb (0b11011111#8 ++ comment)
  | .tBcond c off => .thumb (0b1101#4 ++ c.bits ++ off)
  | .tB off => .thumb (0b11100#5 ++ off)
  | .tUndef11101 => .thumb 0xE800#16
  | .tBlFirst off => .thumb (0b11110#5 ++ off)
  | .tBlSecond off => .thumb (0b11111#5 ++ off)

/-- The instruction set an encoded instruction belongs to. -/
def Code.set : Code → InstrSet
  | .arm _ => .arm
  | .thumb _ => .thumb

/-- The bytes of an encoded instruction, the lowest address first (R202). -/
def Code.bytes : Code → List Byte
  | .arm w => bytesOfWord w
  | .thumb h => bytesOfHalf h

/-- The decoder on an encoded instruction. -/
def decodeCode : Code → Instr
  | .arm w => decodeArm w
  | .thumb h => decodeThumb h

/-- The instruction set of an instruction (R300). -/
def Instr.set (i : Instr) : InstrSet := (encode i).set

end Sys2Proof
end

