-- ==== Sys2Proof/Config.lean ====
section
/-! DEFINITION. What one machine fixes and what the spec leaves open: the eight open parameters of
spec/00_scope.md R7, with the spec's defaults, and the free values, which are opaque constants that
nothing can evaluate. -/

namespace Sys2Proof.Config

/-- UNPRED_MODE (D40): what an UNPREDICTABLE case does. -/
inductive UnpredMode where
  | reference | fault
  deriving DecidableEq, Repr

/-- The values 8 and 12 of PC_RSHIFT_OFFSET (D6) and PC_STORE_OFFSET (D7). -/
inductive PcOffset where
  | eight | twelve
  deriving DecidableEq, Repr

/-- EMPTY_RLIST (D8): what a block transfer with an empty register list does. -/
inductive EmptyRlist where
  | fault | arm7tdmi
  deriving DecidableEq, Repr

/-- LDM_S_PC_BANK (D42): the bank an LDM^ with R15 loads its other registers into. -/
inductive LdmSPcBank where
  | user | current
  deriving DecidableEq, Repr

/-- ABORT_BASE (D10): the base register of an aborted transfer with writeback. -/
inductive AbortBase where
  | restored | updated
  deriving DecidableEq, Repr

/-- HALFWORD_MISALIGNED (D27): the result of a halfword load at an odd address. -/
inductive HalfwordMisaligned where
  | mask | rotate
  deriving DecidableEq, Repr

/-- MUL_CARRY (D32): the C flag after a flag-setting multiply. -/
inductive MulCarry where
  | unchanged | draw
  deriving DecidableEq, Repr

/-- The open parameters of R7. The model takes them as an argument: a field of the state that no
step changes (log entry 5). -/
structure Params where
  unpredMode         : UnpredMode
  pcRshiftOffset     : PcOffset
  pcStoreOffset      : PcOffset
  emptyRlist         : EmptyRlist
  ldmSPcBank         : LdmSPcBank
  abortBase          : AbortBase
  halfwordMisaligned : HalfwordMisaligned
  mulCarry           : MulCarry
  deriving DecidableEq, Repr

/-- The default column of R7. -/
def Params.default : Params where
  unpredMode         := .reference
  pcRshiftOffset     := .eight
  pcStoreOffset      := .eight
  emptyRlist         := .fault
  ldmSPcBank         := .user
  abortBase          := .restored
  halfwordMisaligned := .mask
  mulCarry           := .unchanged

/-- The arbitrary bit that C takes after a flag-setting multiply with MUL_CARRY = draw (R650, U12):
a free value, one for each draw (log entry 6). -/
opaque freeCarry : Nat → Bool

/-- What a load from a device returns: the spec gives no device (R200, R209), so a free value, one
for each draw (log entries 2 and 6). -/
opaque deviceValue : Nat → Word

end Sys2Proof.Config
end

