-- ==== Sys2Proof/Machine/State.lean ====
section
/-! DEFINITION. The state of the machine as plain data, the reasons a call stops, and the state after
reset. The register storage is the 41 words of spec/10_state.md R107. -/

namespace Sys2Proof.Machine

open Sys2Proof.Config

/-- The six register banks (R104); User and System share `usr`. -/
inductive Bank where
  | usr | fiq | irq | svc | abt | und
  deriving DecidableEq, Repr

/-- The slots every bank owns: `slot_r13[b]`, `slot_r14[b]`, `slot_spsr[b]` (R107). -/
structure BankSlots where
  r13  : Word
  r14  : Word
  spsr : Word
  deriving DecidableEq, Repr

/-- The slots of the six banks (R107). -/
structure Banks where
  usr : BankSlots
  fiq : BankSlots
  irq : BankSlots
  svc : BankSlots
  abt : BankSlots
  und : BankSlots
  deriving DecidableEq, Repr

/-- The widths of a port operation: 8, 16 and 32 bits (spec/20_memory.md R201). -/
inductive Width where
  | byte | half | word
  deriving DecidableEq, Repr

/-- One operation issued to the memory port (R201), with whether it succeeded. -/
inductive PortOp where
  | load  (width : Width) (addr : Word) (ok : Bool)
  | store (width : Width) (addr : Word) (value : Word) (ok : Bool)
  deriving DecidableEq, Repr

/-- What the port says of a range of addresses that is not plain memory: "Which addresses exist, which
are read-only and which have side effects is the port's" (R200). -/
inductive RegionKind where
  | absent     -- loads and stores fail
  | readOnly   -- loads are plain, stores fail
  | device     -- loads and stores succeed; what they do there is the device's
  deriving DecidableEq, Repr

/-- A range of addresses of the port's map (log entry 2). -/
structure Region where
  base : Nat
  size : Nat
  kind : RegionKind
  deriving DecidableEq, Repr

/-- One sample of the request lines, taken between two instructions (spec/60_exceptions.md R910,
R911). -/
structure Inputs where
  reset : Bool
  fiq   : Bool
  irq   : Bool
  deriving DecidableEq, Repr

/-- Plain memory: the listed bytes, addresses strictly rising, none equal to what an unlisted
address reads as (`Memory.wf` in Machine/Memory.lean). -/
abbrev Memory := List Host.Cell

/-- The state. The first seven fields are the block's own (spec/10_state.md R107, R123 and R412); the
next four are the memory port and the input lines; `params` are the open parameters of R7; `freeCount`
counts the free values drawn. -/
structure State where
  /-- The live registers x[0] to x[15]; x[15] holds the pc with the pipeline offset (R100, R112). -/
  x         : Vector Word 16
  /-- The current status register (R103). -/
  cpsr      : Word
  /-- The live saved status register (R106). -/
  spsr      : Word
  /-- The bank slots (R107). -/
  banks     : Banks
  /-- `fiq_r[8]` to `fiq_r[12]` (R107). -/
  fiqR      : Vector Word 5
  /-- The output of the call: was program flow redirected? (R8, R412). -/
  branched  : Bool
  /-- Plain memory behind the port (R200, R213). -/
  mem       : Memory
  /-- The port's map: the ranges that are not plain memory (R200). -/
  regions   : List Region
  /-- The port operations issued since the call began, oldest first (R209; log entry 3). -/
  portLog   : List PortOp
  /-- The samples of the request lines at the coming host steps; after the last, every line is
  deasserted (R910; log entry 4). -/
  inputs    : List Inputs
  /-- The open parameters (R7; log entry 5). -/
  params    : Params
  /-- How many free values have been drawn (log entry 6). -/
  freeCount : Nat
  deriving DecidableEq, Repr

/-- The UNPREDICTABLE cases of spec/93_implementation_defined.md that may end in a fault. -/
inductive UCase where
  | u1 | u2 | u3 | u4 | u7 | u8 | u9 | u10 | u11 | u13 | u14 | u15 | u17 | u19 | u22 | u24
  deriving DecidableEq, Repr

/-- The model faults of spec/00_scope.md R20: "no state of the CPU is changed by the faulting
instruction". All are safe: the machine stops where the hardware would go on. -/
inductive Fault where
  /-- `ModelFault("U<n>")`: an UNPREDICTABLE case while UNPRED_MODE = fault (R413). Raised by the
  meanings whose rule says `Unpredictable(n)`. Safe. -/
  | unpredictable (u : UCase)
  /-- `ModelFault("U6")`: a block transfer with an empty register list while EMPTY_RLIST = fault
  (spec/44_block_transfer.md R607). Raised by LDM, STM, PUSH, POP, LDMIA and STMIA. Safe. -/
  | emptyRegisterList
  /-- `ModelFault` of a call of the wrong entry point for `cpsr.T` (spec/40_operands_flags.md R400,
  D49). Raised by `exec` only; `step` always calls the right one. Safe. -/
  | wrongInstructionSet
  deriving DecidableEq, Repr

/-- Refusals. -/
inductive Refusal where
  /-- The instruction has no meaning yet. Raised by an arm of `exec` only; no arm uses it. Safe. -/
  | notModelled (mnemonic : String)
  deriving DecidableEq, Repr

/-- What a meaning answers. -/
abbrev Result := Host.Outcome State Fault Refusal

/-- A bank's slots at reset (R123). -/
def BankSlots.zero : BankSlots := ⟨0, 0, 0⟩

/-- The state after reset (R123, R950, R951): every register and slot zero, `cpsr` 0xD3, x[15] 8. The
reset values of the port's and the model's own fields are choices (log entries 1 to 6). -/
def State.reset : State where
  x         := #v[0, 0, 0, 0, 0, 0, 0, 0, 0, 0, 0, 0, 0, 0, 0, 0x00000008]
  cpsr      := 0x000000D3
  spsr      := 0
  banks     := ⟨.zero, .zero, .zero, .zero, .zero, .zero⟩
  fiqR      := #v[0, 0, 0, 0, 0]
  branched  := false
  mem       := []
  regions   := []
  portLog   := []
  inputs    := []
  params    := Params.default
  freeCount := 0

end Sys2Proof.Machine
end

