-- ==== Sys2Proof/Machine/Memory.lean ====
section
/-! DEFINITION. Plain memory: one byte read and written in the canonical form, and the little-endian
16- and 32-bit accesses built from it in one place (spec/20_memory.md R200, R202, R213). -/

namespace Sys2Proof.Machine

/-- What an address that is not listed reads as. The spec gives no contents at power-on; zero is a
choice (log entry 1). -/
def Memory.unlisted : Byte := 0

/-- The byte at `a`. -/
def Memory.read (m : Memory) (a : Nat) : Byte :=
  match m with
  | [] => Memory.unlisted
  | (k, v) :: rest => if k = a then v else Memory.read rest a

/-- Put a cell before `m`, unless an unlisted address reads as that byte anyway. -/
def Memory.cell (a : Nat) (v : Byte) (m : Memory) : Memory :=
  if v = Memory.unlisted then m else (a, v) :: m

/-- Write the byte `v` at `a`, keeping the canonical form. -/
def Memory.write (m : Memory) (a : Nat) (v : Byte) : Memory :=
  match m with
  | [] => Memory.cell a v []
  | (k, b) :: rest =>
    if a < k then Memory.cell a v ((k, b) :: rest)
    else if a = k then Memory.cell a v rest
    else (k, b) :: Memory.write rest a v

/-- The canonical form of `m` when every listed address is at least `lo`: addresses strictly rising
and inside the 2^32-byte space (R200), no byte equal to what an unlisted address reads as. -/
def Memory.wfFrom (lo : Nat) (m : Memory) : Bool :=
  match m with
  | [] => true
  | (k, v) :: rest => decide (lo ≤ k) && decide (k < 2 ^ 32) && decide (v ≠ Memory.unlisted) &&
      Memory.wfFrom (k + 1) rest

/-- The canonical form of memory. -/
def Memory.wf (m : Memory) : Bool := Memory.wfFrom 0 m

/-- `Load16` of plain memory (R202). -/
def Memory.read16 (m : Memory) (a : Nat) : Half := halfOfBytes (m.read a) (m.read (a + 1))

/-- `Load32` of plain memory (R202). -/
def Memory.read32 (m : Memory) (a : Nat) : Word :=
  wordOfBytes (m.read a) (m.read (a + 1)) (m.read (a + 2)) (m.read (a + 3))

/-- `Store16` of plain memory (R202). -/
def Memory.write16 (m : Memory) (a : Nat) (v : Half) : Memory :=
  (m.write a (field v 0 8)).write (a + 1) (field v 8 8)

/-- `Store32` of plain memory (R202). -/
def Memory.write32 (m : Memory) (a : Nat) (v : Word) : Memory :=
  (((m.write a (field v 0 8)).write (a + 1) (field v 8 8)).write (a + 2) (field v 16 8)).write (a + 3)
    (field v 24 8)

/-- The bytes a port operation of this width moves. -/
def Width.bytes : Width → Nat
  | .byte => 1
  | .half => 2
  | .word => 4

/-- A load of plain memory, zero-extended to 32 bits (R201, R203). -/
def Memory.load (m : Memory) (w : Width) (a : Nat) : Word :=
  match w with
  | .byte => (m.read a).setWidth 32
  | .half => (m.read16 a).setWidth 32
  | .word => m.read32 a

/-- A store to plain memory of the low bytes of `v` (R201, R204). -/
def Memory.store (m : Memory) (w : Width) (a : Nat) (v : Word) : Memory :=
  match w with
  | .byte => m.write a (field v 0 8)
  | .half => m.write16 a (field v 0 16)
  | .word => m.write32 a v

end Sys2Proof.Machine
end

