-- ==== Sys2Proof/Machine/Status.lean ====
section
/-! DEFINITION. The fields of a status value (spec/10_state.md R103 to R105), the modes and their
banks, and the MSR field mask (spec/47_status_system.md R753). -/

namespace Sys2Proof.Machine

/-- N, bit 31. -/
def nBit (st : Word) : Bool := bit st 31
/-- Z, bit 30. -/
def zBit (st : Word) : Bool := bit st 30
/-- C, bit 29. -/
def cBit (st : Word) : Bool := bit st 29
/-- V, bit 28. -/
def vBit (st : Word) : Bool := bit st 28
/-- I, bit 7: 1 masks IRQ. -/
def iBit (st : Word) : Bool := bit st 7
/-- F, bit 6: 1 masks FIQ. -/
def fBit (st : Word) : Bool := bit st 6
/-- T, bit 5: 0 ARM state, 1 Thumb state. -/
def tBit (st : Word) : Bool := bit st 5
/-- M, bits 4:0. -/
def modeField (st : Word) : BitVec 5 := field st 0 5

/-- `st` with bit `i` set to `b`, every other bit kept. -/
def setBit (st : Word) (i : Nat) (b : Bool) : Word :=
  if b then st ||| BitVec.twoPow 32 i else st &&& ~~~(BitVec.twoPow 32 i)

/-- `st` with T set to `b`. -/
def setT (st : Word) (b : Bool) : Word := setBit st 5 b

/-- `st` with the mode field replaced. -/
def setMode (st : Word) (m : BitVec 5) : Word := (st &&& 0xFFFFFFE0) ||| m.setWidth 32

/-- The seven modes (R104). -/
inductive Mode where
  | usr | fiq | irq | svc | abt | und | sys
  deriving DecidableEq, Repr

/-- The 5-bit code of a mode (R104). -/
def Mode.code : Mode → BitVec 5
  | .usr => 0b10000 | .fiq => 0b10001 | .irq => 0b10010 | .svc => 0b10011
  | .abt => 0b10111 | .und => 0b11011 | .sys => 0b11111

/-- The bank a mode selects (R104). -/
def Mode.bank : Mode → Bank
  | .usr => .usr | .fiq => .fiq | .irq => .irq | .svc => .svc
  | .abt => .abt | .und => .und | .sys => .usr

/-- The mode a code names; none for the 25 invalid codes (R104, D2). -/
def Mode.ofCode (m : BitVec 5) : Option Mode :=
  match m.toNat with
  | 0x10 => some .usr
  | 0x11 => some .fiq
  | 0x12 => some .irq
  | 0x13 => some .svc
  | 0x17 => some .abt
  | 0x1B => some .und
  | 0x1F => some .sys
  | _ => none

/-- `Bank(M)` of a status value; none is INVALID (R104). -/
def bankOf (st : Word) : Option Bank := (Mode.ofCode (modeField st)).map Mode.bank

/-- The privilege test `cpsr.M != 0x10` (R105). -/
def privileged (st : Word) : Bool := modeField st != Mode.usr.code

/-- `MsrMask(field_mask)` under the status `st` (R753): f in any mode, s, x and c only outside User. -/
def msrMask (fm : BitVec 4) (st : Word) : Word :=
  (if bit fm 3 then 0xFF000000 else 0) |||
  (if privileged st then
    (if bit fm 2 then 0x00FF0000 else 0) ||| (if bit fm 1 then 0x0000FF00 else 0) |||
    (if bit fm 0 then 0x000000FF else 0)
  else 0)

/-- A status value with the bits of `mask` taken from `v` (R751). -/
def msrMerge (old v mask : Word) : Word := (old &&& ~~~mask) ||| (v &&& mask)

end Sys2Proof.Machine
end

