-- ==== Sys2Proof/Machine/Ops.lean ====
section
/-! DEFINITION. The named operations over registers, the status, the banks, the memory port and the
exceptions. Each follows one rule of spec/10_state.md, spec/20_memory.md or spec/60_exceptions.md. -/

namespace Sys2Proof.Machine

open Sys2Proof.Config

/-! ## Registers and the program counter -/

/-- `x[i]` read (R14). -/
def State.reg (s : State) (r : Reg) : Word := s.x.get r

/-- The storage of `x[i]` written verbatim; only `writeReg` decides what a write of R15 means. -/
def State.setX (r : Reg) (v : Word) (s : State) : State := { s with x := s.x.set r.val v r.isLt }

/-- Is the machine in Thumb state (R118)? -/
def State.thumb (s : State) : Bool := tBit s.cpsr

/-- The live pc, x[15] (R112). -/
def State.pc (s : State) : Word := s.reg 15

/-- The width of an instruction in the current state: 4 or 2 bytes (R113). -/
def State.instrWidth (s : State) : Word := if s.thumb then 2 else 4

/-- The pipeline offset: 8 in ARM state, 4 in Thumb state (R112). -/
def State.pcOffset (s : State) : Word := if s.thumb then 4 else 8

/-- `CurrentInstructionAddress()` (R112). -/
def State.currentAddr (s : State) : Word := s.pc - s.pcOffset

/-- `NextInstructionAddress()` (R112). -/
def State.nextAddr (s : State) : Word := s.pc - s.instrWidth

/-- `advance()` (R113). -/
def State.advance (s : State) : State := s.setX 15 (s.pc + s.instrWidth)

/-- The alignment mask of a pc write in the current state (R114). -/
def State.pcMask (s : State) : Word := if s.thumb then 0xFFFFFFFE else 0xFFFFFFFC

/-- `WritePC(a)`, the program-counter load path (R114). -/
def State.writePC (a : Word) (s : State) : State :=
  { s.setX 15 ((a &&& s.pcMask) + s.pcOffset) with branched := true }

/-- `x[i] <- v` (R14, R102): verbatim for R0 to R14, `WritePC` for R15. -/
def State.writeReg (r : Reg) (v : Word) (s : State) : State :=
  if r = 15 then s.writePC v else s.setX r v

/-! ## Banks and the status register -/

/-- The slots of a bank (R107). -/
def Banks.get (b : Banks) : Bank → BankSlots
  | .usr => b.usr | .fiq => b.fiq | .irq => b.irq | .svc => b.svc | .abt => b.abt | .und => b.und

/-- The slots of one bank replaced (R107). -/
def Banks.set (b : Banks) (k : Bank) (v : BankSlots) : Banks :=
  match k with
  | .usr => { b with usr := v }
  | .fiq => { b with fiq := v }
  | .irq => { b with irq := v }
  | .svc => { b with svc := v }
  | .abt => { b with abt := v }
  | .und => { b with und := v }

/-- The bank that is live; none when the mode code is invalid (R104). -/
def State.bank (s : State) : Option Bank := bankOf s.cpsr

/-- Is the User bank live: User or System mode (R104)? -/
def State.inUserBank (s : State) : Bool := s.bank == some .usr

/-- The live R13, R14 and saved status, as a bank owns them. -/
def State.liveSlots (s : State) : BankSlots := ⟨s.reg 13, s.reg 14, s.spsr⟩

/-- "if Bank(next[4:0]) = INVALID then next[4:0] <- cpsr.M" (R109). -/
def State.coerceMode (next : Word) (s : State) : Word :=
  if (bankOf next).isNone then setMode next (modeField s.cpsr) else next

/-- The live R13, R14 and saved status saved into the outgoing bank's slots (R108). With an invalid
mode there is no bank to save into; no run reaches that (log entry 10). -/
def State.saveBank (s : State) : State :=
  match s.bank with
  | some b => { s with banks := s.banks.set b s.liveSlots }
  | none => s

/-- The full swap of R8 to R12 with `fiq_r[8..12]` (R108). -/
def State.swapFiq (s : State) : State :=
  { s with
    x := ((((s.x.set 8 s.fiqR[0]).set 9 s.fiqR[1]).set 10 s.fiqR[2]).set 11 s.fiqR[3]).set 12 s.fiqR[4]
    fiqR := #v[s.x[8], s.x[9], s.x[10], s.x[11], s.x[12]] }

/-- The incoming bank's slots made live (R108). -/
def State.restoreBank (b : BankSlots) (s : State) : State :=
  { (s.setX 13 b.r13).setX 14 b.r14 with spsr := b.spsr }

/-- The bank switch of LoadStatus from the live bank to bank `bi` (R108). -/
def State.switchBank (bi : Bank) (s : State) : State :=
  let saved := s.saveBank
  let swapped := if s.bank = some .fiq ∨ bi = .fiq then saved.swapFiq else saved
  swapped.restoreBank (saved.banks.get bi)

/-- `LoadStatus(next)`, "the sole mode-switch entry point" (R108, R109). -/
def State.loadStatus (next : Word) (s : State) : State :=
  let next := s.coerceMode next
  match bankOf next with
  | some bi =>
    if s.bank = some bi then { s with cpsr := next }
    else { s.switchBank bi with cpsr := next }
  | none => { s with cpsr := next }

/-! ## The User-mode view -/

/-- `user[i]` read (R111). -/
def State.user (s : State) (r : Reg) : Word :=
  if 8 ≤ r.val ∧ r.val ≤ 12 ∧ s.bank = some .fiq then s.fiqR[r.val - 8]?.getD 0
  else if r = 13 ∧ s.bank ≠ some .usr then s.banks.usr.r13
  else if r = 14 ∧ s.bank ≠ some .usr then s.banks.usr.r14
  else s.reg r

/-- `user[i] <- v` (R111). -/
def State.writeUser (r : Reg) (v : Word) (s : State) : State :=
  if 8 ≤ r.val ∧ r.val ≤ 12 ∧ s.bank = some .fiq then
    { s with fiqR := s.fiqR.setIfInBounds (r.val - 8) v }
  else if r = 13 ∧ s.bank ≠ some .usr then
    { s with banks := { s.banks with usr := { s.banks.usr with r13 := v } } }
  else if r = 14 ∧ s.bank ≠ some .usr then
    { s with banks := { s.banks with usr := { s.banks.usr with r14 := v } } }
  else s.writeReg r v

/-! ## The memory port -/

/-- Does the range touch the `n` bytes from `a`? -/
def Region.touches (r : Region) (a n : Nat) : Bool := decide (r.base < a + n) && decide (a < r.base + r.size)

/-- Does the port fail a load of these bytes (R201)? -/
def State.loadFails (s : State) (w : Width) (a : Word) : Bool :=
  s.regions.any fun r => r.kind == .absent && r.touches a.toNat w.bytes

/-- Does the port fail a store to these bytes (R201)? -/
def State.storeFails (s : State) (w : Width) (a : Word) : Bool :=
  s.regions.any fun r => (r.kind == .absent || r.kind == .readOnly) && r.touches a.toNat w.bytes

/-- Does the access reach a device (R200)? -/
def State.atDevice (s : State) (w : Width) (a : Word) : Bool :=
  s.regions.any fun r => r.kind == .device && r.touches a.toNat w.bytes

/-- Record a port operation (R209). -/
def State.logged (op : PortOp) (s : State) : State := { s with portLog := s.portLog ++ [op] }

/-- The bytes of a value that a port operation of this width returns, zero-extended (R201). -/
def Width.truncate (w : Width) (v : Word) : Word :=
  match w with
  | .byte => v &&& 0x000000FF
  | .half => v &&& 0x0000FFFF
  | .word => v

/-- `Load8`, `Load16`, `Load32` (R201): the value, or none where the port fails. A device's answer is
a free value (log entry 2). -/
def State.portLoad (w : Width) (a : Word) (s : State) : Option Word × State :=
  if s.loadFails w a then (none, s.logged (.load w a false))
  else if s.atDevice w a then
    (some (w.truncate (deviceValue s.freeCount)),
      { s.logged (.load w a true) with freeCount := s.freeCount + 1 })
  else (some (s.mem.load w a.toNat), s.logged (.load w a true))

/-- `Store8`, `Store16`, `Store32` (R201): did the port succeed? A device's registers are outside the
block: a store there changes no plain memory (log entry 2). -/
def State.portStore (w : Width) (a v : Word) (s : State) : Bool × State :=
  if s.storeFails w a then (false, s.logged (.store w a (w.truncate v) false))
  else if s.atDevice w a then (true, s.logged (.store w a (w.truncate v) true))
  else (true, { s.logged (.store w a (w.truncate v) true) with mem := s.mem.store w a.toNat v })

/-- The address masked to the natural alignment of the width (R203, R204). -/
def Width.align (w : Width) (a : Word) : Word :=
  match w with
  | .byte => a
  | .half => a &&& 0xFFFFFFFE
  | .word => a &&& 0xFFFFFFFC

/-- `MemRead(addr, n)` (R203): alignment masking, and for words the rotation by 8 * addr[1:0]. -/
def State.memRead (w : Width) (a : Word) (s : State) : Option Word × State :=
  let (r, s') := s.portLoad w (w.align a)
  match w with
  | .word => (r.map fun v => v.rotateRight (8 * (field a 0 2).toNat), s')
  | _ => (r, s')

/-- `MemWrite(addr, n, v)` (R204): alignment masking, the value unrotated. -/
def State.memWrite (w : Width) (a v : Word) (s : State) : Bool × State := s.portStore w (w.align a) v

/-- The words of a block load, read in order at the given addresses; none at the first failure, and
no later access is made (R601). -/
def State.loadWords (as : List Word) (s : State) : Option (List Word) × State :=
  match as with
  | [] => (some [], s)
  | a :: rest =>
    match s.portLoad .word a with
    | (none, s') => (none, s')
    | (some v, s') =>
      match State.loadWords rest s' with
      | (none, s'') => (none, s'')
      | (some vs, s'') => (some (v :: vs), s'')

/-- The words of a block store, written in order; it stops at the first failure, and the stores
before it remain (R602). -/
def State.storeWords (ws : List (Word × Word)) (s : State) : Bool × State :=
  match ws with
  | [] => (true, s)
  | (a, v) :: rest =>
    match s.portStore .word a v with
    | (false, s') => (false, s')
    | (true, s') => State.storeWords rest s'

/-! ## Exceptions -/

/-- The status an exception installs: mode, T clear, I set, F set for FIQ; the rest kept (R901). -/
def entryStatus (old : Word) (mode : Mode) (setF : Bool) : Word :=
  let new := ((old &&& ~~~(0x0000003F : Word)) ||| mode.code.setWidth 32) ||| 0x00000080
  if setF then new ||| 0x00000040 else new

/-- `Enter(mode, vector, link, setF)`, the one way an exception is taken (R901). -/
def State.enter (mode : Mode) (vector link : Word) (setF : Bool) (s : State) : State :=
  let switched := s.loadStatus (entryStatus s.cpsr mode setF)
  ({ switched with spsr := s.cpsr }.setX 14 link).writePC vector

/-- `raise SWI()` (R902). -/
def State.raiseSwi (s : State) : State := s.enter .svc 0x08 (s.currentAddr + s.instrWidth) false

/-- `raise Undefined()` (R903). -/
def State.raiseUndefined (s : State) : State := s.enter .und 0x04 (s.currentAddr + s.instrWidth) false

/-- `raise DataAbort()` (R904). -/
def State.raiseDataAbort (s : State) : State := s.enter .abt 0x10 (s.currentAddr + 8) false

/-- Prefetch-abort entry, for a failed fetch (R906). -/
def State.raisePrefetchAbort (s : State) : State := s.enter .abt 0x0C (s.currentAddr + 4) false

/-- IRQ entry (R911). -/
def State.takeIrq (s : State) : State := s.enter .irq 0x18 (s.currentAddr + 4) false

/-- FIQ entry (R911). -/
def State.takeFiq (s : State) : State := s.enter .fiq 0x1C (s.currentAddr + 4) true

/-- The return from an exception: the saved status restored, then the pc written for the restored T
(spec/41_data_processing.md R467, spec/60_exceptions.md R920). -/
def State.exceptionReturn (target : Word) (s : State) : State := (s.loadStatus s.spsr).writePC target

/-- `Reset()` (spec/70_reset_and_hazards.md R950): the block's own state re-established; memory, the
port and the inputs to come are not reset. -/
def State.resetBlock (s : State) : State :=
  { s with
    x := State.reset.x
    cpsr := State.reset.cpsr
    spsr := State.reset.spsr
    banks := State.reset.banks
    fiqR := State.reset.fiqR
    branched := false }

/-! ## Ends of a call -/

/-- `Unpredictable(u)` when `b` (R413): with UNPRED_MODE = fault the call ends here, before any write
or access; with `reference` the rule goes on. Where a rule has several cases the order of the guards names
the one that stops it (DEDUCED, log entry 11). -/
def State.guard (s : State) (b : Bool) (u : UCase) (go : Result) : Result :=
  if b && s.params.unpredMode == .fault then .fault (.unpredictable u) else go

/-- The start of a call: `branched <- false` (R400). -/
def State.beginCall (s : State) : State := { s with branched := false }

end Sys2Proof.Machine
end

