-- ==== Sys2Proof/Machine/Flags.lean ====
section
/-! DEFINITION. Conditions and the flag unit (spec/40_operands_flags.md R402, R409 to R411). -/

namespace Sys2Proof.Machine

open Sys2Proof.Config

/-- `Cond(c)` against a status value, the table of R402. -/
def condHolds (c : Cond) (st : Word) : Bool :=
  match c with
  | .eq => zBit st
  | .ne => !zBit st
  | .cs => cBit st
  | .cc => !cBit st
  | .mi => nBit st
  | .pl => !nBit st
  | .vs => vBit st
  | .vc => !vBit st
  | .hi => cBit st && !zBit st
  | .ls => !cBit st || zBit st
  | .ge => nBit st == vBit st
  | .lt => nBit st != vBit st
  | .gt => !zBit st && nBit st == vBit st
  | .le => zBit st || nBit st != vBit st
  | .al => true
  | .nv => false

/-- A result with its carry and overflow. -/
structure AluOut where
  result   : Word
  carry    : Bool
  overflow : Bool
  deriving DecidableEq, Repr

/-- "a 64-bit signed result falls outside the 32-bit signed range" (R409). -/
def signedOverflow (v : Int) : Bool := !(decide (-(2 ^ 31) ≤ v) && decide (v ≤ 2 ^ 31 - 1))

/-- `AddWithCarry(a, b, cin)` (R409). -/
def addWithCarry (a b : Word) (cin : Bool) : AluOut :=
  let wide : BitVec 64 := a.setWidth 64 + b.setWidth 64 + (BitVec.ofBool cin).setWidth 64
  { result := wide.setWidth 32
    carry := bit wide 32
    overflow := signedOverflow (a.toInt + b.toInt + cin.toNat) }

/-- `SubWithCarry(a, b, cin)`: a - b - (1 - cin), carry = NOT borrow (R410). -/
def subWithCarry (a b : Word) (cin : Bool) : AluOut :=
  let wide : BitVec 64 := a.setWidth 64 - b.setWidth 64 - (BitVec.ofBool !cin).setWidth 64
  { result := wide.setWidth 32
    carry := !bit wide 63
    overflow := signedOverflow (a.toInt - b.toInt - (!cin).toNat) }

/-- `N <- N32(v); Z <- Z32(v)` in a status value (R409). -/
def setNZ (st v : Word) : Word := setBit (setBit st 31 (bit v 31)) 30 (v == 0)

/-- The same for a 64-bit result (R409). -/
def setNZ64 (st : Word) (v : BitVec 64) : Word := setBit (setBit st 31 (bit v 63)) 30 (v == 0)

/-- `C <- b` in a status value. -/
def setC (st : Word) (b : Bool) : Word := setBit st 29 b

/-- `V <- b` in a status value. -/
def setV (st : Word) (b : Bool) : Word := setBit st 28 b

/-- `SetFlagsArith(result, C, V)` (R411). -/
def State.setFlagsArith (o : AluOut) (s : State) : State :=
  { s with cpsr := setV (setC (setNZ s.cpsr o.result) o.carry) o.overflow }

/-- `SetFlagsLogic(result, sc)`: V unchanged (R411). -/
def State.setFlagsLogic (v : Word) (sc : Bool) (s : State) : State :=
  { s with cpsr := setC (setNZ s.cpsr v) sc }

/-- N and Z only, C and V unchanged (spec/48_thumb_alu.md R807, R811). -/
def State.setFlagsNZ (v : Word) (s : State) : State := { s with cpsr := setNZ s.cpsr v }

/-- C after a flag-setting multiply: kept, or with MUL_CARRY = draw a free bit (R650, U12). -/
def State.mulCarry (s : State) : State :=
  match s.params.mulCarry with
  | .unchanged => s
  | .draw => { s with cpsr := setC s.cpsr (freeCarry s.freeCount), freeCount := s.freeCount + 1 }

/-- The flags of a 32-bit multiply: N and Z, C per MUL_CARRY (R650). -/
def State.setFlagsMul (v : Word) (s : State) : State := (s.setFlagsNZ v).mulCarry

/-- The flags of a 64-bit multiply: N and Z of the 64-bit result, C per MUL_CARRY (R652). -/
def State.setFlagsMulLong (v : BitVec 64) (s : State) : State :=
  { s with cpsr := setNZ64 s.cpsr v }.mulCarry

end Sys2Proof.Machine
end

