-- ==== Sys2Proof/Machine/Operands.lean ====
section
/-! DEFINITION. Operand forms: the barrel shifter (spec/40_operands_flags.md R404 to R406), the reads
of R15 (R407, R408), the addressing of single transfers (spec/43_load_store.md R550 to R552, R561) and of
block transfers (spec/44_block_transfer.md R600), and the frame every ARM call shares (R400). -/

namespace Sys2Proof.Machine

open Sys2Proof.Config

/-! ## The barrel shifter -/

/-- `ShiftImmOperand(rotate, imm8)` (R404): the value and the shifter carry-out. -/
def shiftImmOperand (rot : BitVec 4) (imm : BitVec 8) (c : Bool) : Word × Bool :=
  let v := (imm.setWidth 32).rotateRight (2 * rot.toNat)
  (v, if rot = 0 then c else bit v 31)

/-- All bits equal to bit 31: an arithmetic shift right by 32 or more (R405, R406). -/
def signFill (m : Word) : Word := if bit m 31 then 0xFFFFFFFF else 0

/-- `ShiftByImm(shift, n, m, c)` (R405). -/
def shiftByImm (sh : Shift) (n : BitVec 5) (m : Word) (c : Bool) : Word × Bool :=
  let k := n.toNat
  match sh with
  | .lsl => if k = 0 then (m, c) else (m <<< k, bit m (32 - k))
  | .lsr => if k = 0 then (0, bit m 31) else (m >>> k, bit m (k - 1))
  | .asr => if k = 0 then (signFill m, bit m 31) else (m.sshiftRight k, bit m (k - 1))
  | .ror =>
    if k = 0 then (((BitVec.ofBool c).setWidth 32 <<< 31) ||| (m >>> 1), bit m 0)
    else (m.rotateRight k, bit m (k - 1))

/-- `ShiftByReg(shift, s, m, c)` (R406), `n` the amount x[Rs][7:0]. -/
def shiftByReg (sh : Shift) (n : BitVec 8) (m : Word) (c : Bool) : Word × Bool :=
  let k := n.toNat
  if k = 0 then (m, c) else
  match sh with
  | .lsl =>
    if k ≤ 31 then (m <<< k, bit m (32 - k)) else if k = 32 then (0, bit m 0) else (0, false)
  | .lsr =>
    if k ≤ 31 then (m >>> k, bit m (k - 1)) else if k = 32 then (0, bit m 31) else (0, false)
  | .asr => if k ≤ 31 then (m.sshiftRight k, bit m (k - 1)) else (signFill m, bit m 31)
  | .ror => if k % 32 = 0 then (m, bit m 31) else (m.rotateRight (k % 32), bit m (k % 32 - 1))

/-! ## R15 as an operand -/

/-- What an offset of 8 or 12 adds to the live pc, which already holds 8. -/
def PcOffset.extra : PcOffset → Word
  | .eight => 0
  | .twelve => 4

/-- `rv(i)`: a register read in a data-processing instruction with a register-specified shift; R15
reads x[15] + (PC_RSHIFT_OFFSET - 8) (R407). -/
def State.shiftedReg (s : State) (r : Reg) : Word :=
  if r = 15 then s.pc + PcOffset.extra s.params.pcRshiftOffset else s.reg r

/-- The value a store takes from R15: x[15] + (PC_STORE_OFFSET - 8) (R408). -/
def State.storedPc (s : State) : Word := s.pc + PcOffset.extra s.params.pcStoreOffset

/-- The value STR stores: Rd, with R15 adjusted (R408). -/
def State.storedReg (s : State) (r : Reg) : Word := if r = 15 then s.storedPc else s.reg r

/-- The value STM^ stores: the User-mode register, with R15 adjusted (R603). -/
def State.storedUser (s : State) (r : Reg) : Word := if r = 15 then s.storedPc else s.user r

/-- x[15] AND 0xFFFFFFFC: the pc as Thumb T6 and T12 read it (R407). -/
def State.alignedPc (s : State) : Word := s.pc &&& 0xFFFFFFFC

/-! ## Single transfers -/

/-- `ShiftByImm` of a register offset, the carry-out discarded (R551). -/
def State.regOffset (s : State) (imm : BitVec 5) (sh : Shift) (rm : Reg) : Word :=
  (shiftByImm sh imm (s.reg rm) (cBit s.cpsr)).1

/-- The offset `immH:immL` of a halfword or signed transfer (R561). -/
def halfOffset (immH immL : BitVec 4) : Word := (immH ++ immL : BitVec 8).setWidth 32

/-- The indexed base: base + offset or base - offset, mod 2^32 (R552). -/
def indexedBase (u : Bool) (base offset : Word) : Word := if u then base + offset else base - offset

/-- The address accessed: the indexed base when P = 1, the base when P = 0 (R552). -/
def indexedAddr (p u : Bool) (base offset : Word) : Word :=
  if p then indexedBase u base offset else base

/-- Is the base written back (R552)? -/
def writesBack (p w : Bool) : Bool := !p || w

/-! ## Block transfers -/

/-- The registers of a list, lowest first (R600). -/
def regsOf (list : BitVec 16) : List Reg := (List.finRange 16).filter fun r => list.getLsbD r.val

/-- The start address of a block transfer of `n` registers (R600). -/
def blockStart (p u : Bool) (base : Word) (n : Nat) : Word :=
  match p, u with
  | false, true => base
  | true, true => base + 4
  | false, false => base - BitVec.ofNat 32 (4 * n) + 4
  | true, false => base - BitVec.ofNat 32 (4 * n)

/-- The base after a block transfer of `n` registers (R600). -/
def blockEnd (u : Bool) (base : Word) (n : Nat) : Word :=
  if u then base + BitVec.ofNat 32 (4 * n) else base - BitVec.ofNat 32 (4 * n)

/-- The `n` word addresses of a block transfer, `(start AND ~3) + 4k` (R600). -/
def blockAddrs (start : Word) (n : Nat) : List Word :=
  (List.range n).map fun k => (start &&& 0xFFFFFFFC) + BitVec.ofNat 32 (4 * k)

/-! ## Calls -/

/-- One ARM call (R400, R403): the entry point is called in ARM state only (D49); a condition that
fails only advances; otherwise the rule of the class runs. -/
def armCall (c : Cond) (s : State) (rule : State → Result) : Result :=
  if s.thumb then .fault .wrongInstructionSet
  else if condHolds c s.cpsr then rule s.beginCall
  else .next s.beginCall.advance

/-- One Thumb call (R400, D49). -/
def thumbCall (s : State) (rule : State → Result) : Result :=
  if s.thumb then rule s.beginCall else .fault .wrongInstructionSet

end Sys2Proof.Machine
end

