-- ==== Sys2Proof/Machine/BlockTransfer.lean ====
section
/-! DEFINITION. ARM block data transfers (spec/44_block_transfer.md R600 to R608). -/

namespace Sys2Proof.Machine

open Sys2Proof.Config

/-! ## The transfer of R600 and R607 -/

/-- A block transfer laid out: the start address, the base after it and the registers in order. -/
structure Block where
  start : Word
  newb  : Word
  regs  : List Reg
  deriving DecidableEq, Repr

/-- The layout of a block transfer (R600). An empty list, met only with EMPTY_RLIST = arm7tdmi, has
R15 alone and counts as 16 registers in the address formulas (R607; for STM^ and LDM^ DEDUCED, log entry
13). -/
def blockOf (p u : Bool) (base : Word) (list : BitVec 16) : Block :=
  let n := if list = 0 then 16 else (regsOf list).length
  { start := blockStart p u base n
    newb := blockEnd u base n
    regs := if list = 0 then [15] else regsOf list }

/-- The word addresses of the transfer (R600). -/
def Block.addrs (b : Block) : List Word := blockAddrs b.start b.regs.length

/-- An empty register list with EMPTY_RLIST = fault ends in `ModelFault("U6")` before any access
(R607). -/
def State.emptyCheck (s : State) (list : BitVec 16) (go : Result) : Result :=
  if list = 0 ∧ s.params.emptyRlist = .fault then .fault .emptyRegisterList else go

/-- The base written back when W = 1. -/
def State.blockBack (w : Bool) (rn : Reg) (newb : Word) (s : State) : State :=
  if w then s.writeReg rn newb else s

/-- After a failed access: the data abort, with ABORT_BASE = updated after the writeback (R608), which for
Rn = 15 is a pc write (DEDUCED, log entry 12). -/
def State.abortBlock (w : Bool) (rn : Reg) (newb : Word) (s : State) : State :=
  if s.params.abortBase = .updated then (s.blockBack w rn newb).raiseDataAbort else s.raiseDataAbort

/-- Write each register of the list with its word, in order, by `put`. -/
def writeEach (put : Reg → Word → State → State) (ps : List (Reg × Word)) (s : State) : State :=
  ps.foldl (fun t p => put p.1 p.2 t) s

/-- A block load: all reads first, then advance, the writeback and `done` on the words read
(R601, R608). -/
def blockLoad (b : Block) (w : Bool) (rn : Reg) (done : List (Reg × Word) → State → State) (s : State) :
    Result :=
  match s.loadWords b.addrs with
  | (none, t) => .next (t.abortBlock w rn b.newb)
  | (some vs, t) => .next (done (b.regs.zip vs) (t.advance.blockBack w rn b.newb))

/-- A block store of the values `val` gives in the state before the instruction (R602, R608). -/
def blockStore (b : Block) (w : Bool) (rn : Reg) (val : Reg → Word) (s : State) : Result :=
  match s.storeWords (b.addrs.zip (b.regs.map val)) with
  | (false, t) => .next (t.abortBlock w rn b.newb)
  | (true, t) => .next (t.advance.blockBack w rn b.newb)

/-- The loads of R601: `x[reg(k)] <- v(k)` in order; R15, the highest number, is last. -/
def loadLive (ps : List (Reg × Word)) (s : State) : State := writeEach State.writeReg ps s

/-- The loads of R604: `user[reg(k)] <- v(k)` in order. -/
def loadUser (ps : List (Reg × Word)) (s : State) : State := writeEach State.writeUser ps s

/-- The registers other than R15. -/
def notPc (ps : List (Reg × Word)) : List (Reg × Word) := ps.filter fun p => p.1 != 15

/-- The word loaded for R15. -/
def loadedPc (ps : List (Reg × Word)) : Word := ((ps.find? fun p => p.1 == 15).map Prod.snd).getD 0

/-- The loads of R605: the other registers to the bank LDM_S_PC_BANK names, the status restored where
the bank has a saved status, then the pc. DESIGN CHOICE (log entry 28): in User and System mode nothing is
restored, as R605 says, although R922 says that the USR bank's slot is read. -/
def loadRestore (ps : List (Reg × Word)) (s : State) : State :=
  let t := match s.params.ldmSPcBank with
    | .user => loadUser (notPc ps) s
    | .current => loadLive (notPc ps) s
  (if t.inUserBank then t else t.loadStatus t.spsr).writePC (loadedPc ps)

/-- Does a list name the register? -/
def inList (list : BitVec 16) (r : Reg) : Bool := list.getLsbD r.val

/-- U7: a store with writeback whose base is in the list and not the lowest register (R606). -/
def baseNotLowest (list : BitVec 16) (r : Reg) : Bool := inList list r && (regsOf list).head? != some r

/-! ## LDM and STM -/

/-- LDM (R601); with the base in the list the loaded value wins (R606). -/
def execLdm (c : Cond) (p u w : Bool) (rn : Reg) (list : BitVec 16) (s : State) : Result :=
  armCall c s fun s => s.emptyCheck list <| s.guard (rn == 15) .u9 <|
    s.guard (w && inList list rn) .u8 <|
    let b := blockOf p u (s.reg rn) list
    blockLoad b w rn loadLive s

/-- STM (R602); the original base is stored (R606). -/
def execStm (c : Cond) (p u w : Bool) (rn : Reg) (list : BitVec 16) (s : State) : Result :=
  armCall c s fun s => s.emptyCheck list <| s.guard (rn == 15) .u9 <|
    s.guard (w && baseNotLowest list rn) .u7 <|
    let b := blockOf p u (s.reg rn) list
    blockStore b w rn s.storedReg s

/-- STM^ (R603). -/
def execStmUser (c : Cond) (p u w : Bool) (rn : Reg) (list : BitVec 16) (s : State) : Result :=
  armCall c s fun s => s.emptyCheck list <| s.guard (rn == 15) .u9 <|
    s.guard (w || s.inUserBank) .u14 <| s.guard (w && baseNotLowest list rn) .u7 <|
    let b := blockOf p u (s.reg rn) list
    blockStore b w rn s.storedUser s

/-- LDM^ without R15 (R604). -/
def execLdmUser (c : Cond) (p u w : Bool) (rn : Reg) (list : BitVec 16) (s : State) : Result :=
  armCall c s fun s => s.emptyCheck list <| s.guard (rn == 15) .u9 <|
    s.guard (w || s.inUserBank) .u14 <| s.guard (w && inList list rn) .u8 <|
    let b := blockOf p u (s.reg rn) list
    blockLoad b w rn loadUser s

/-- LDM^ with R15 (R605); U2 is the restored status with an invalid mode (R109; DEDUCED, log entry
14); in User and System mode the fault is U14 (log entry 28). -/
def execLdmRestore (c : Cond) (p u w : Bool) (rn : Reg) (list : BitVec 16) (s : State) : Result :=
  armCall c s fun s => s.emptyCheck list <| s.guard (rn == 15) .u9 <|
    s.guard (w || s.inUserBank) .u14 <| s.guard (w && inList list rn) .u8 <|
    s.guard (bankOf s.spsr).isNone .u2 <|
    let b := blockOf p u (s.reg rn) list
    blockLoad b w rn loadRestore s

end Sys2Proof.Machine
end

