-- ==== Sys2Proof/Machine/Branch.lean ====
section
/-! DEFINITION. ARM branches (spec/42_branch.md R500 to R502). -/

namespace Sys2Proof.Machine

open Sys2Proof.Config

/-- The branch target `x[15] + LSL(sext_32(imm24), 2)` (R500). -/
def State.branchTarget (s : State) (imm : BitVec 24) : Word := s.pc + imm.signExtend 32 <<< 2

/-- BX to the address `v`: T from bit 0, then the pc for the new T (R502, R830); U19 is an ARM target that
is not word-aligned. -/
def branchExchange (v : Word) (s : State) : Result :=
  s.guard (!bit v 0 && bit v 1) .u19
    (.next ((s.loadStatus (setT s.cpsr (bit v 0))).writePC (v &&& 0xFFFFFFFE)))

/-- B (R500): no advance. -/
def execB (c : Cond) (imm : BitVec 24) (s : State) : Result :=
  armCall c s fun s => .next (s.writePC (s.branchTarget imm))

/-- BL (R501): the link is the address of the next instruction. -/
def execBl (c : Cond) (imm : BitVec 24) (s : State) : Result :=
  armCall c s fun s => .next ((s.setX 14 (s.pc - 4)).writePC (s.branchTarget imm))

/-- BX (R502). -/
def execBx (c : Cond) (rm : Reg) (s : State) : Result :=
  armCall c s fun s => branchExchange (s.reg rm) s

end Sys2Proof.Machine
end

