-- ==== Sys2Proof/Machine/DataProcessing.lean ====
section
/-! DEFINITION. ARM data processing (spec/41_data_processing.md R450 to R469). -/

namespace Sys2Proof.Machine

open Sys2Proof.Config

/-! ## The sixteen operations, R451 to R466: the operation on the first operand `a`, on operand2 with
its shifter carry-out `op`, and on the carry flag -/

/-- What an operation yields: a result with carry and overflow, or a result with the shifter carry-out
(R411). -/
inductive DpOut where
  | arith (o : AluOut)
  | logic (v : Word) (sc : Bool)
  deriving DecidableEq, Repr

/-- The 32-bit result. -/
def DpOut.result : DpOut → Word
  | .arith o => o.result
  | .logic v _ => v

/-- `SetFlags_op` (R450): SetFlagsArith or SetFlagsLogic of R411. -/
def State.setFlagsDp (o : DpOut) (s : State) : State :=
  match o with
  | .arith o => s.setFlagsArith o
  | .logic v sc => s.setFlagsLogic v sc

/-- AND (R451). -/
def opAnd (a : Word) (op : Word × Bool) (_c : Bool) : DpOut := .logic (a &&& op.1) op.2
/-- EOR (R452). -/
def opEor (a : Word) (op : Word × Bool) (_c : Bool) : DpOut := .logic (a ^^^ op.1) op.2
/-- SUB (R453). -/
def opSub (a : Word) (op : Word × Bool) (_c : Bool) : DpOut := .arith (subWithCarry a op.1 true)
/-- RSB (R454). -/
def opRsb (a : Word) (op : Word × Bool) (_c : Bool) : DpOut := .arith (subWithCarry op.1 a true)
/-- ADD (R455). -/
def opAdd (a : Word) (op : Word × Bool) (_c : Bool) : DpOut := .arith (addWithCarry a op.1 false)
/-- ADC (R456). -/
def opAdc (a : Word) (op : Word × Bool) (c : Bool) : DpOut := .arith (addWithCarry a op.1 c)
/-- SBC (R457). -/
def opSbc (a : Word) (op : Word × Bool) (c : Bool) : DpOut := .arith (subWithCarry a op.1 c)
/-- RSC (R458). -/
def opRsc (a : Word) (op : Word × Bool) (c : Bool) : DpOut := .arith (subWithCarry op.1 a c)
/-- TST (R459). -/
def opTst (a : Word) (op : Word × Bool) (_c : Bool) : DpOut := .logic (a &&& op.1) op.2
/-- TEQ (R460). -/
def opTeq (a : Word) (op : Word × Bool) (_c : Bool) : DpOut := .logic (a ^^^ op.1) op.2
/-- CMP (R461). -/
def opCmp (a : Word) (op : Word × Bool) (_c : Bool) : DpOut := .arith (subWithCarry a op.1 true)
/-- CMN (R462). -/
def opCmn (a : Word) (op : Word × Bool) (_c : Bool) : DpOut := .arith (addWithCarry a op.1 false)
/-- ORR (R463). -/
def opOrr (a : Word) (op : Word × Bool) (_c : Bool) : DpOut := .logic (a ||| op.1) op.2
/-- MOV (R464): the first operand is not read. -/
def opMov (op : Word × Bool) : DpOut := .logic op.1 op.2
/-- BIC (R465). -/
def opBic (a : Word) (op : Word × Bool) (_c : Bool) : DpOut := .logic (a &&& ~~~op.1) op.2
/-- MVN (R466): the first operand is not read. -/
def opMvn (op : Word × Bool) : DpOut := .logic (~~~op.1) op.2

/-! ## The skeleton of R450 -/

/-- The carry flag as an operand, from the state before the instruction (R456). -/
def State.carry (s : State) : Bool := cBit s.cpsr

/-- Operand2, a rotated immediate (R404). -/
def State.op2Imm (s : State) (rot : BitVec 4) (imm : BitVec 8) : Word × Bool :=
  shiftImmOperand rot imm s.carry

/-- Operand2, a register shifted by an immediate (R405). -/
def State.op2ShiftImm (s : State) (imm : BitVec 5) (sh : Shift) (rm : Reg) : Word × Bool :=
  shiftByImm sh imm (s.reg rm) s.carry

/-- Operand2, a register shifted by bits 7:0 of a register, R15 read as R407 says (R406). -/
def State.op2ShiftReg (s : State) (rs : Reg) (sh : Shift) (rm : Reg) : Word × Bool :=
  shiftByReg sh (field (s.shiftedReg rs) 0 8) (s.shiftedReg rm) s.carry

/-- `ReturnWithSPSR(result)` (R467), with its checks (U1, U2). -/
def State.returnWithSpsr (s : State) (result : Word) : Result :=
  s.guard s.inUserBank .u1 (s.guard (bankOf s.spsr).isNone .u2
    (.next (s.advance.exceptionReturn result)))

/-- Steps 3 and 4 of R450 for the twelve operations that write Rd. -/
def dpWrite (sf : Bool) (rd : Reg) (o : DpOut) (s : State) : Result :=
  if sf && rd == 15 then s.returnWithSpsr o.result
  else
    let t := s.advance.writeReg rd o.result
    .next (if sf then t.setFlagsDp o else t)

/-- Steps 3 and 4 of R450 for TST, TEQ, CMP and CMN; Rd = 15 is `CompareRestore()` (R468). -/
def dpCompare (rd : Reg) (o : DpOut) (s : State) : Result :=
  if rd = 15 then s.guard true .u22 (.next (s.advance.loadStatus s.spsr))
  else .next (s.advance.setFlagsDp o)

/-- Is R15 among the registers? -/
def namesPc (rs : List Reg) : Bool := rs.any (· == 15)

/-! ## Operand2: shift by immediate -/

/-- AND, shift by immediate (R450, R451). -/
def execAndShiftImm (c : Cond) (sf : Bool) (rn rd : Reg) (imm : BitVec 5) (sh : Shift)
    (rm : Reg) (s : State) : Result :=
  armCall c s fun s =>
    dpWrite sf rd (opAnd (s.reg rn) (s.op2ShiftImm imm sh rm) s.carry) s

/-- EOR, shift by immediate (R450, R452). -/
def execEorShiftImm (c : Cond) (sf : Bool) (rn rd : Reg) (imm : BitVec 5) (sh : Shift)
    (rm : Reg) (s : State) : Result :=
  armCall c s fun s =>
    dpWrite sf rd (opEor (s.reg rn) (s.op2ShiftImm imm sh rm) s.carry) s

/-- SUB, shift by immediate (R450, R453). -/
def execSubShiftImm (c : Cond) (sf : Bool) (rn rd : Reg) (imm : BitVec 5) (sh : Shift)
    (rm : Reg) (s : State) : Result :=
  armCall c s fun s =>
    dpWrite sf rd (opSub (s.reg rn) (s.op2ShiftImm imm sh rm) s.carry) s

/-- RSB, shift by immediate (R450, R454). -/
def execRsbShiftImm (c : Cond) (sf : Bool) (rn rd : Reg) (imm : BitVec 5) (sh : Shift)
    (rm : Reg) (s : State) : Result :=
  armCall c s fun s =>
    dpWrite sf rd (opRsb (s.reg rn) (s.op2ShiftImm imm sh rm) s.carry) s

/-- ADD, shift by immediate (R450, R455). -/
def execAddShiftImm (c : Cond) (sf : Bool) (rn rd : Reg) (imm : BitVec 5) (sh : Shift)
    (rm : Reg) (s : State) : Result :=
  armCall c s fun s =>
    dpWrite sf rd (opAdd (s.reg rn) (s.op2ShiftImm imm sh rm) s.carry) s

/-- ADC, shift by immediate (R450, R456). -/
def execAdcShiftImm (c : Cond) (sf : Bool) (rn rd : Reg) (imm : BitVec 5) (sh : Shift)
    (rm : Reg) (s : State) : Result :=
  armCall c s fun s =>
    dpWrite sf rd (opAdc (s.reg rn) (s.op2ShiftImm imm sh rm) s.carry) s

/-- SBC, shift by immediate (R450, R457). -/
def execSbcShiftImm (c : Cond) (sf : Bool) (rn rd : Reg) (imm : BitVec 5) (sh : Shift)
    (rm : Reg) (s : State) : Result :=
  armCall c s fun s =>
    dpWrite sf rd (opSbc (s.reg rn) (s.op2ShiftImm imm sh rm) s.carry) s

/-- RSC, shift by immediate (R450, R458). -/
def execRscShiftImm (c : Cond) (sf : Bool) (rn rd : Reg) (imm : BitVec 5) (sh : Shift)
    (rm : Reg) (s : State) : Result :=
  armCall c s fun s =>
    dpWrite sf rd (opRsc (s.reg rn) (s.op2ShiftImm imm sh rm) s.carry) s

/-- TST, shift by immediate (R450, R459). -/
def execTstShiftImm (c : Cond) (rn rd : Reg) (imm : BitVec 5) (sh : Shift) (rm : Reg)
    (s : State) : Result :=
  armCall c s fun s =>
    dpCompare rd (opTst (s.reg rn) (s.op2ShiftImm imm sh rm) s.carry) s

/-- TEQ, shift by immediate (R450, R460). -/
def execTeqShiftImm (c : Cond) (rn rd : Reg) (imm : BitVec 5) (sh : Shift) (rm : Reg)
    (s : State) : Result :=
  armCall c s fun s =>
    dpCompare rd (opTeq (s.reg rn) (s.op2ShiftImm imm sh rm) s.carry) s

/-- CMP, shift by immediate (R450, R461). -/
def execCmpShiftImm (c : Cond) (rn rd : Reg) (imm : BitVec 5) (sh : Shift) (rm : Reg)
    (s : State) : Result :=
  armCall c s fun s =>
    dpCompare rd (opCmp (s.reg rn) (s.op2ShiftImm imm sh rm) s.carry) s

/-- CMN, shift by immediate (R450, R462). -/
def execCmnShiftImm (c : Cond) (rn rd : Reg) (imm : BitVec 5) (sh : Shift) (rm : Reg)
    (s : State) : Result :=
  armCall c s fun s =>
    dpCompare rd (opCmn (s.reg rn) (s.op2ShiftImm imm sh rm) s.carry) s

/-- ORR, shift by immediate (R450, R463). -/
def execOrrShiftImm (c : Cond) (sf : Bool) (rn rd : Reg) (imm : BitVec 5) (sh : Shift)
    (rm : Reg) (s : State) : Result :=
  armCall c s fun s =>
    dpWrite sf rd (opOrr (s.reg rn) (s.op2ShiftImm imm sh rm) s.carry) s

/-- MOV, shift by immediate (R450, R464). -/
def execMovShiftImm (c : Cond) (sf : Bool) (rd : Reg) (imm : BitVec 5) (sh : Shift) (rm : Reg)
    (s : State) : Result :=
  armCall c s fun s =>
    dpWrite sf rd (opMov (s.op2ShiftImm imm sh rm)) s

/-- BIC, shift by immediate (R450, R465). -/
def execBicShiftImm (c : Cond) (sf : Bool) (rn rd : Reg) (imm : BitVec 5) (sh : Shift)
    (rm : Reg) (s : State) : Result :=
  armCall c s fun s =>
    dpWrite sf rd (opBic (s.reg rn) (s.op2ShiftImm imm sh rm) s.carry) s

/-- MVN, shift by immediate (R450, R466). -/
def execMvnShiftImm (c : Cond) (sf : Bool) (rd : Reg) (imm : BitVec 5) (sh : Shift) (rm : Reg)
    (s : State) : Result :=
  armCall c s fun s =>
    dpWrite sf rd (opMvn (s.op2ShiftImm imm sh rm)) s

/-! ## Operand2: shift by register -/

/-- AND, shift by register (R450, R451). -/
def execAndShiftReg (c : Cond) (sf : Bool) (rn rd rs : Reg) (sh : Shift) (rm : Reg)
    (s : State) : Result :=
  armCall c s fun s => s.guard (namesPc [rd, rn, rm, rs]) .u4
    (dpWrite sf rd (opAnd (s.shiftedReg rn) (s.op2ShiftReg rs sh rm) s.carry) s)

/-- EOR, shift by register (R450, R452). -/
def execEorShiftReg (c : Cond) (sf : Bool) (rn rd rs : Reg) (sh : Shift) (rm : Reg)
    (s : State) : Result :=
  armCall c s fun s => s.guard (namesPc [rd, rn, rm, rs]) .u4
    (dpWrite sf rd (opEor (s.shiftedReg rn) (s.op2ShiftReg rs sh rm) s.carry) s)

/-- SUB, shift by register (R450, R453). -/
def execSubShiftReg (c : Cond) (sf : Bool) (rn rd rs : Reg) (sh : Shift) (rm : Reg)
    (s : State) : Result :=
  armCall c s fun s => s.guard (namesPc [rd, rn, rm, rs]) .u4
    (dpWrite sf rd (opSub (s.shiftedReg rn) (s.op2ShiftReg rs sh rm) s.carry) s)

/-- RSB, shift by register (R450, R454). -/
def execRsbShiftReg (c : Cond) (sf : Bool) (rn rd rs : Reg) (sh : Shift) (rm : Reg)
    (s : State) : Result :=
  armCall c s fun s => s.guard (namesPc [rd, rn, rm, rs]) .u4
    (dpWrite sf rd (opRsb (s.shiftedReg rn) (s.op2ShiftReg rs sh rm) s.carry) s)

/-- ADD, shift by register (R450, R455). -/
def execAddShiftReg (c : Cond) (sf : Bool) (rn rd rs : Reg) (sh : Shift) (rm : Reg)
    (s : State) : Result :=
  armCall c s fun s => s.guard (namesPc [rd, rn, rm, rs]) .u4
    (dpWrite sf rd (opAdd (s.shiftedReg rn) (s.op2ShiftReg rs sh rm) s.carry) s)

/-- ADC, shift by register (R450, R456). -/
def execAdcShiftReg (c : Cond) (sf : Bool) (rn rd rs : Reg) (sh : Shift) (rm : Reg)
    (s : State) : Result :=
  armCall c s fun s => s.guard (namesPc [rd, rn, rm, rs]) .u4
    (dpWrite sf rd (opAdc (s.shiftedReg rn) (s.op2ShiftReg rs sh rm) s.carry) s)

/-- SBC, shift by register (R450, R457). -/
def execSbcShiftReg (c : Cond) (sf : Bool) (rn rd rs : Reg) (sh : Shift) (rm : Reg)
    (s : State) : Result :=
  armCall c s fun s => s.guard (namesPc [rd, rn, rm, rs]) .u4
    (dpWrite sf rd (opSbc (s.shiftedReg rn) (s.op2ShiftReg rs sh rm) s.carry) s)

/-- RSC, shift by register (R450, R458). -/
def execRscShiftReg (c : Cond) (sf : Bool) (rn rd rs : Reg) (sh : Shift) (rm : Reg)
    (s : State) : Result :=
  armCall c s fun s => s.guard (namesPc [rd, rn, rm, rs]) .u4
    (dpWrite sf rd (opRsc (s.shiftedReg rn) (s.op2ShiftReg rs sh rm) s.carry) s)

/-- TST, shift by register (R450, R459). -/
def execTstShiftReg (c : Cond) (rn rd rs : Reg) (sh : Shift) (rm : Reg) (s : State) : Result :=
  armCall c s fun s => s.guard (namesPc [rd, rn, rm, rs]) .u4
    (dpCompare rd (opTst (s.shiftedReg rn) (s.op2ShiftReg rs sh rm) s.carry) s)

/-- TEQ, shift by register (R450, R460). -/
def execTeqShiftReg (c : Cond) (rn rd rs : Reg) (sh : Shift) (rm : Reg) (s : State) : Result :=
  armCall c s fun s => s.guard (namesPc [rd, rn, rm, rs]) .u4
    (dpCompare rd (opTeq (s.shiftedReg rn) (s.op2ShiftReg rs sh rm) s.carry) s)

/-- CMP, shift by register (R450, R461). -/
def execCmpShiftReg (c : Cond) (rn rd rs : Reg) (sh : Shift) (rm : Reg) (s : State) : Result :=
  armCall c s fun s => s.guard (namesPc [rd, rn, rm, rs]) .u4
    (dpCompare rd (opCmp (s.shiftedReg rn) (s.op2ShiftReg rs sh rm) s.carry) s)

/-- CMN, shift by register (R450, R462). -/
def execCmnShiftReg (c : Cond) (rn rd rs : Reg) (sh : Shift) (rm : Reg) (s : State) : Result :=
  armCall c s fun s => s.guard (namesPc [rd, rn, rm, rs]) .u4
    (dpCompare rd (opCmn (s.shiftedReg rn) (s.op2ShiftReg rs sh rm) s.carry) s)

/-- ORR, shift by register (R450, R463). -/
def execOrrShiftReg (c : Cond) (sf : Bool) (rn rd rs : Reg) (sh : Shift) (rm : Reg)
    (s : State) : Result :=
  armCall c s fun s => s.guard (namesPc [rd, rn, rm, rs]) .u4
    (dpWrite sf rd (opOrr (s.shiftedReg rn) (s.op2ShiftReg rs sh rm) s.carry) s)

/-- MOV, shift by register (R450, R464). -/
def execMovShiftReg (c : Cond) (sf : Bool) (rd rs : Reg) (sh : Shift) (rm : Reg)
    (s : State) : Result :=
  armCall c s fun s => s.guard (namesPc [rd, rm, rs]) .u4
    (dpWrite sf rd (opMov (s.op2ShiftReg rs sh rm)) s)

/-- BIC, shift by register (R450, R465). -/
def execBicShiftReg (c : Cond) (sf : Bool) (rn rd rs : Reg) (sh : Shift) (rm : Reg)
    (s : State) : Result :=
  armCall c s fun s => s.guard (namesPc [rd, rn, rm, rs]) .u4
    (dpWrite sf rd (opBic (s.shiftedReg rn) (s.op2ShiftReg rs sh rm) s.carry) s)

/-- MVN, shift by register (R450, R466). -/
def execMvnShiftReg (c : Cond) (sf : Bool) (rd rs : Reg) (sh : Shift) (rm : Reg)
    (s : State) : Result :=
  armCall c s fun s => s.guard (namesPc [rd, rm, rs]) .u4
    (dpWrite sf rd (opMvn (s.op2ShiftReg rs sh rm)) s)

/-! ## Operand2: immediate -/

/-- AND, immediate (R450, R451). -/
def execAndImm (c : Cond) (sf : Bool) (rn rd : Reg) (rot : BitVec 4) (imm : BitVec 8)
    (s : State) : Result :=
  armCall c s fun s =>
    dpWrite sf rd (opAnd (s.reg rn) (s.op2Imm rot imm) s.carry) s

/-- EOR, immediate (R450, R452). -/
def execEorImm (c : Cond) (sf : Bool) (rn rd : Reg) (rot : BitVec 4) (imm : BitVec 8)
    (s : State) : Result :=
  armCall c s fun s =>
    dpWrite sf rd (opEor (s.reg rn) (s.op2Imm rot imm) s.carry) s

/-- SUB, immediate (R450, R453). -/
def execSubImm (c : Cond) (sf : Bool) (rn rd : Reg) (rot : BitVec 4) (imm : BitVec 8)
    (s : State) : Result :=
  armCall c s fun s =>
    dpWrite sf rd (opSub (s.reg rn) (s.op2Imm rot imm) s.carry) s

/-- RSB, immediate (R450, R454). -/
def execRsbImm (c : Cond) (sf : Bool) (rn rd : Reg) (rot : BitVec 4) (imm : BitVec 8)
    (s : State) : Result :=
  armCall c s fun s =>
    dpWrite sf rd (opRsb (s.reg rn) (s.op2Imm rot imm) s.carry) s

/-- ADD, immediate (R450, R455). -/
def execAddImm (c : Cond) (sf : Bool) (rn rd : Reg) (rot : BitVec 4) (imm : BitVec 8)
    (s : State) : Result :=
  armCall c s fun s =>
    dpWrite sf rd (opAdd (s.reg rn) (s.op2Imm rot imm) s.carry) s

/-- ADC, immediate (R450, R456). -/
def execAdcImm (c : Cond) (sf : Bool) (rn rd : Reg) (rot : BitVec 4) (imm : BitVec 8)
    (s : State) : Result :=
  armCall c s fun s =>
    dpWrite sf rd (opAdc (s.reg rn) (s.op2Imm rot imm) s.carry) s

/-- SBC, immediate (R450, R457). -/
def execSbcImm (c : Cond) (sf : Bool) (rn rd : Reg) (rot : BitVec 4) (imm : BitVec 8)
    (s : State) : Result :=
  armCall c s fun s =>
    dpWrite sf rd (opSbc (s.reg rn) (s.op2Imm rot imm) s.carry) s

/-- RSC, immediate (R450, R458). -/
def execRscImm (c : Cond) (sf : Bool) (rn rd : Reg) (rot : BitVec 4) (imm : BitVec 8)
    (s : State) : Result :=
  armCall c s fun s =>
    dpWrite sf rd (opRsc (s.reg rn) (s.op2Imm rot imm) s.carry) s

/-- TST, immediate (R450, R459). -/
def execTstImm (c : Cond) (rn rd : Reg) (rot : BitVec 4) (imm : BitVec 8) (s : State) : Result :=
  armCall c s fun s =>
    dpCompare rd (opTst (s.reg rn) (s.op2Imm rot imm) s.carry) s

/-- TEQ, immediate (R450, R460). -/
def execTeqImm (c : Cond) (rn rd : Reg) (rot : BitVec 4) (imm : BitVec 8) (s : State) : Result :=
  armCall c s fun s =>
    dpCompare rd (opTeq (s.reg rn) (s.op2Imm rot imm) s.carry) s

/-- CMP, immediate (R450, R461). -/
def execCmpImm (c : Cond) (rn rd : Reg) (rot : BitVec 4) (imm : BitVec 8) (s : State) : Result :=
  armCall c s fun s =>
    dpCompare rd (opCmp (s.reg rn) (s.op2Imm rot imm) s.carry) s

/-- CMN, immediate (R450, R462). -/
def execCmnImm (c : Cond) (rn rd : Reg) (rot : BitVec 4) (imm : BitVec 8) (s : State) : Result :=
  armCall c s fun s =>
    dpCompare rd (opCmn (s.reg rn) (s.op2Imm rot imm) s.carry) s

/-- ORR, immediate (R450, R463). -/
def execOrrImm (c : Cond) (sf : Bool) (rn rd : Reg) (rot : BitVec 4) (imm : BitVec 8)
    (s : State) : Result :=
  armCall c s fun s =>
    dpWrite sf rd (opOrr (s.reg rn) (s.op2Imm rot imm) s.carry) s

/-- MOV, immediate (R450, R464). -/
def execMovImm (c : Cond) (sf : Bool) (rd : Reg) (rot : BitVec 4) (imm : BitVec 8)
    (s : State) : Result :=
  armCall c s fun s =>
    dpWrite sf rd (opMov (s.op2Imm rot imm)) s

/-- BIC, immediate (R450, R465). -/
def execBicImm (c : Cond) (sf : Bool) (rn rd : Reg) (rot : BitVec 4) (imm : BitVec 8)
    (s : State) : Result :=
  armCall c s fun s =>
    dpWrite sf rd (opBic (s.reg rn) (s.op2Imm rot imm) s.carry) s

/-- MVN, immediate (R450, R466). -/
def execMvnImm (c : Cond) (sf : Bool) (rd : Reg) (rot : BitVec 4) (imm : BitVec 8)
    (s : State) : Result :=
  armCall c s fun s =>
    dpWrite sf rd (opMvn (s.op2Imm rot imm)) s

end Sys2Proof.Machine
end

