-- ==== Sys2Proof/Machine/LoadStore.lean ====
section
/-! DEFINITION. ARM single data transfers (spec/43_load_store.md R550 to R567). -/

namespace Sys2Proof.Machine

open Sys2Proof.Config

/-! ## Indexing and its ends, R552 and R566 -/

/-- The address accessed, the base after the transfer and whether it is written back (R552). -/
structure Indexing where
  addr  : Word
  newb  : Word
  wback : Bool
  deriving DecidableEq, Repr

/-- Indexing from the fields P, U, W, the base and the offset (R552). DESIGN CHOICE (log entry 26): with
Rn = 15 the base is the current address + 8, as R552 says, and not what the example of R567 gives. -/
def indexing (p u w : Bool) (base offset : Word) : Indexing where
  addr  := indexedAddr p u base offset
  newb  := indexedBase u base offset
  wback := writesBack p w

/-- The indexing of a transfer without writeback, at `addr`. -/
def atAddress (addr : Word) : Indexing := ⟨addr, addr, false⟩

/-- The register combinations of U9 that every writeback has (R552). -/
def Indexing.overlap (ix : Indexing) (rn rd : Reg) : Bool := ix.wback && (rn == 15 || rn == rd)

/-- After a successful access: advance, then the writeback (R566). -/
def State.endAccess (ix : Indexing) (rn : Reg) (s : State) : State :=
  if ix.wback then s.advance.writeReg rn ix.newb else s.advance

/-- After a failed access: the data abort; with ABORT_BASE = updated the base is written first, Rn != 15
(R566). -/
def State.abortAccess (ix : Indexing) (rn : Reg) (s : State) : State :=
  if s.params.abortBase = .updated ∧ ix.wback = true ∧ rn ≠ 15 then (s.setX rn ix.newb).raiseDataAbort
  else s.raiseDataAbort

/-- The end of a load, given the port's answer: the writeback, then the destination, so that the loaded
value wins (R553, R566). -/
def State.endLoad (ix : Indexing) (rn rd : Reg) (fix : Word → Word) (r : Option Word × State) : Result :=
  match r with
  | (none, s) => .next (s.abortAccess ix rn)
  | (some v, s) => .next ((s.endAccess ix rn).writeReg rd (fix v))

/-- The end of a store, given the port's answer (R555, R566). -/
def State.endStore (ix : Indexing) (rn : Reg) (r : Bool × State) : Result :=
  match r with
  | (false, s) => .next (s.abortAccess ix rn)
  | (true, s) => .next (s.endAccess ix rn)

/-- A load of one register: `fix` is what the rule does to the value read. -/
def singleLoad (w : Width) (ix : Indexing) (rn rd : Reg) (fix : Word → Word) (s : State) : Result :=
  State.endLoad ix rn rd fix (s.memRead w ix.addr)

/-- A store of one value. -/
def singleStore (w : Width) (ix : Indexing) (rn : Reg) (v : Word) (s : State) : Result :=
  State.endStore ix rn (s.memWrite w ix.addr v)

/-- The mode forced to User for one access: `LoadStatus(cpsr with M <- 0x10)` (R557). -/
def State.forceUser (s : State) : State := s.loadStatus (setMode s.cpsr Mode.usr.code)

/-- A load with user-mode access (R557): the mode is restored before any abort is raised. -/
def userLoad (w : Width) (ix : Indexing) (rn rd : Reg) (s : State) : Result :=
  let (r, t) := s.forceUser.memRead w ix.addr
  State.endLoad ix rn rd id (r, t.loadStatus s.cpsr)

/-- A store with user-mode access (R559). -/
def userStore (w : Width) (ix : Indexing) (rn : Reg) (v : Word) (s : State) : Result :=
  let (ok, t) := s.forceUser.memWrite w ix.addr v
  State.endStore ix rn (ok, t.loadStatus s.cpsr)

/-! ## What a load makes of the value read -/

/-- LDRH at `addr`: an odd address gives the aligned halfword, or with HALFWORD_MISALIGNED = rotate its
rotation by 8 (R562). -/
def loadedHalf (m : HalfwordMisaligned) (addr h : Word) : Word :=
  if bit addr 0 && m == .rotate then h.rotateRight 8 else h

/-- LDRSB: the byte sign-extended (R564). -/
def loadedSignedByte (v : Word) : Word := (field v 0 8).signExtend 32

/-- LDRSH at `addr` (R565). -/
def loadedSignedHalf (m : HalfwordMisaligned) (addr h : Word) : Word :=
  if bit addr 0 && m == .rotate then (field h 8 8).signExtend 32 else (field h 0 16).signExtend 32

/-! ## The checks of each form, all before the access (R413) -/

/-- LDR and STR: U9 (R552); `more` is U9's Rm = 15 of a register offset (R551). -/
def wordCall (more : Bool) (ix : Indexing) (rn rd : Reg) (s : State) (go : Result) : Result :=
  s.guard (ix.overlap rn rd || more) .u9 go

/-- The byte forms: U9 also for Rd = 15 (R554, R556, R567); for LDRBT and STRBT that is DEDUCED (log
entry 20). -/
def byteCall (more : Bool) (ix : Indexing) (rn rd : Reg) (s : State) (go : Result) : Result :=
  s.guard (ix.overlap rn rd || more || rd == 15) .u9 go

/-- The halfword and signed forms: U9 as for bytes, and U10 for P = 0 with W = 1 (R561). DESIGN CHOICE (log
entry 27): where both are met the fault is U10, although R561 comes to U9 first. -/
def halfCall (p w more : Bool) (ix : Indexing) (rn rd : Reg) (s : State) (go : Result) : Result :=
  s.guard (!p && w) .u10 (s.guard (ix.overlap rn rd || more || rd == 15) .u9 go)

/-- U15: a halfword load at an odd address (R562, R565), checked before the access (DEDUCED, log entry
24). -/
def oddCall (ix : Indexing) (s : State) (go : Result) : Result := s.guard (bit ix.addr 0) .u15 go

/-! ## Word and byte transfers -/

/-- STR, immediate offset (R555, R550). -/
def execStrImm (c : Cond) (p u w : Bool) (rn rd : Reg) (imm : BitVec 12) (s : State) : Result :=
  armCall c s fun s =>
    let ix := indexing p u w (s.reg rn) (imm.setWidth 32)
    wordCall false ix rn rd s (singleStore .word ix rn (s.storedReg rd) s)

/-- LDR, immediate offset (R553, R550). -/
def execLdrImm (c : Cond) (p u w : Bool) (rn rd : Reg) (imm : BitVec 12) (s : State) : Result :=
  armCall c s fun s =>
    let ix := indexing p u w (s.reg rn) (imm.setWidth 32)
    wordCall false ix rn rd s (singleLoad .word ix rn rd id s)

/-- STRB, immediate offset (R556, R550). -/
def execStrbImm (c : Cond) (p u w : Bool) (rn rd : Reg) (imm : BitVec 12) (s : State) : Result :=
  armCall c s fun s =>
    let ix := indexing p u w (s.reg rn) (imm.setWidth 32)
    byteCall false ix rn rd s (singleStore .byte ix rn (s.storedReg rd) s)

/-- LDRB, immediate offset (R554, R550). -/
def execLdrbImm (c : Cond) (p u w : Bool) (rn rd : Reg) (imm : BitVec 12) (s : State) : Result :=
  armCall c s fun s =>
    let ix := indexing p u w (s.reg rn) (imm.setWidth 32)
    byteCall false ix rn rd s (singleLoad .byte ix rn rd id s)

/-- STRT, immediate offset (R559, R550). -/
def execStrtImm (c : Cond) (u : Bool) (rn rd : Reg) (imm : BitVec 12) (s : State) : Result :=
  armCall c s fun s =>
    let ix := indexing false u true (s.reg rn) (imm.setWidth 32)
    wordCall false ix rn rd s (userStore .word ix rn (s.storedReg rd) s)

/-- LDRT, immediate offset (R557, R550). -/
def execLdrtImm (c : Cond) (u : Bool) (rn rd : Reg) (imm : BitVec 12) (s : State) : Result :=
  armCall c s fun s =>
    let ix := indexing false u true (s.reg rn) (imm.setWidth 32)
    wordCall false ix rn rd s (userLoad .word ix rn rd s)

/-- STRBT, immediate offset (R560, R550). -/
def execStrbtImm (c : Cond) (u : Bool) (rn rd : Reg) (imm : BitVec 12) (s : State) : Result :=
  armCall c s fun s =>
    let ix := indexing false u true (s.reg rn) (imm.setWidth 32)
    byteCall false ix rn rd s (userStore .byte ix rn (s.storedReg rd) s)

/-- LDRBT, immediate offset (R558, R550). -/
def execLdrbtImm (c : Cond) (u : Bool) (rn rd : Reg) (imm : BitVec 12) (s : State) : Result :=
  armCall c s fun s =>
    let ix := indexing false u true (s.reg rn) (imm.setWidth 32)
    byteCall false ix rn rd s (userLoad .byte ix rn rd s)

/-- STR, register offset (R555, R551). -/
def execStrReg (c : Cond) (p u w : Bool) (rn rd : Reg) (imm : BitVec 5) (sh : Shift) (rm : Reg)
    (s : State) : Result :=
  armCall c s fun s =>
    let ix := indexing p u w (s.reg rn) (s.regOffset imm sh rm)
    wordCall (rm == 15) ix rn rd s (singleStore .word ix rn (s.storedReg rd) s)

/-- LDR, register offset (R553, R551). -/
def execLdrReg (c : Cond) (p u w : Bool) (rn rd : Reg) (imm : BitVec 5) (sh : Shift) (rm : Reg)
    (s : State) : Result :=
  armCall c s fun s =>
    let ix := indexing p u w (s.reg rn) (s.regOffset imm sh rm)
    wordCall (rm == 15) ix rn rd s (singleLoad .word ix rn rd id s)

/-- STRB, register offset (R556, R551). -/
def execStrbReg (c : Cond) (p u w : Bool) (rn rd : Reg) (imm : BitVec 5) (sh : Shift) (rm : Reg)
    (s : State) : Result :=
  armCall c s fun s =>
    let ix := indexing p u w (s.reg rn) (s.regOffset imm sh rm)
    byteCall (rm == 15) ix rn rd s (singleStore .byte ix rn (s.storedReg rd) s)

/-- LDRB, register offset (R554, R551). -/
def execLdrbReg (c : Cond) (p u w : Bool) (rn rd : Reg) (imm : BitVec 5) (sh : Shift) (rm : Reg)
    (s : State) : Result :=
  armCall c s fun s =>
    let ix := indexing p u w (s.reg rn) (s.regOffset imm sh rm)
    byteCall (rm == 15) ix rn rd s (singleLoad .byte ix rn rd id s)

/-- STRT, register offset (R559, R551). -/
def execStrtReg (c : Cond) (u : Bool) (rn rd : Reg) (imm : BitVec 5) (sh : Shift) (rm : Reg)
    (s : State) : Result :=
  armCall c s fun s =>
    let ix := indexing false u true (s.reg rn) (s.regOffset imm sh rm)
    wordCall (rm == 15) ix rn rd s (userStore .word ix rn (s.storedReg rd) s)

/-- LDRT, register offset (R557, R551). -/
def execLdrtReg (c : Cond) (u : Bool) (rn rd : Reg) (imm : BitVec 5) (sh : Shift) (rm : Reg)
    (s : State) : Result :=
  armCall c s fun s =>
    let ix := indexing false u true (s.reg rn) (s.regOffset imm sh rm)
    wordCall (rm == 15) ix rn rd s (userLoad .word ix rn rd s)

/-- STRBT, register offset (R560, R551). -/
def execStrbtReg (c : Cond) (u : Bool) (rn rd : Reg) (imm : BitVec 5) (sh : Shift) (rm : Reg)
    (s : State) : Result :=
  armCall c s fun s =>
    let ix := indexing false u true (s.reg rn) (s.regOffset imm sh rm)
    byteCall (rm == 15) ix rn rd s (userStore .byte ix rn (s.storedReg rd) s)

/-- LDRBT, register offset (R558, R551). -/
def execLdrbtReg (c : Cond) (u : Bool) (rn rd : Reg) (imm : BitVec 5) (sh : Shift) (rm : Reg)
    (s : State) : Result :=
  armCall c s fun s =>
    let ix := indexing false u true (s.reg rn) (s.regOffset imm sh rm)
    byteCall (rm == 15) ix rn rd s (userLoad .byte ix rn rd s)

/-! ## Halfword and signed transfers -/

/-- STRH, register offset (R563, R561). -/
def execStrhReg (c : Cond) (p u w : Bool) (rn rd rm : Reg) (s : State) : Result :=
  armCall c s fun s =>
    let ix := indexing p u w (s.reg rn) (s.reg rm)
    halfCall p w (rm == 15) ix rn rd s (singleStore .half ix rn (s.storedReg rd) s)

/-- LDRH, register offset (R562, R561). -/
def execLdrhReg (c : Cond) (p u w : Bool) (rn rd rm : Reg) (s : State) : Result :=
  armCall c s fun s =>
    let ix := indexing p u w (s.reg rn) (s.reg rm)
    halfCall p w (rm == 15) ix rn rd s (oddCall ix s
      (singleLoad .half ix rn rd (loadedHalf s.params.halfwordMisaligned ix.addr) s))

/-- LDRSB, register offset (R564, R561). -/
def execLdrsbReg (c : Cond) (p u w : Bool) (rn rd rm : Reg) (s : State) : Result :=
  armCall c s fun s =>
    let ix := indexing p u w (s.reg rn) (s.reg rm)
    halfCall p w (rm == 15) ix rn rd s (singleLoad .byte ix rn rd loadedSignedByte s)

/-- LDRSH, register offset (R565, R561). -/
def execLdrshReg (c : Cond) (p u w : Bool) (rn rd rm : Reg) (s : State) : Result :=
  armCall c s fun s =>
    let ix := indexing p u w (s.reg rn) (s.reg rm)
    halfCall p w (rm == 15) ix rn rd s (oddCall ix s
      (singleLoad .half ix rn rd (loadedSignedHalf s.params.halfwordMisaligned ix.addr) s))

/-- STRH, immediate offset (R563, R561). -/
def execStrhImm (c : Cond) (p u w : Bool) (rn rd : Reg) (immH immL : BitVec 4)
    (s : State) : Result :=
  armCall c s fun s =>
    let ix := indexing p u w (s.reg rn) (halfOffset immH immL)
    halfCall p w false ix rn rd s (singleStore .half ix rn (s.storedReg rd) s)

/-- LDRH, immediate offset (R562, R561). -/
def execLdrhImm (c : Cond) (p u w : Bool) (rn rd : Reg) (immH immL : BitVec 4)
    (s : State) : Result :=
  armCall c s fun s =>
    let ix := indexing p u w (s.reg rn) (halfOffset immH immL)
    halfCall p w false ix rn rd s (oddCall ix s
      (singleLoad .half ix rn rd (loadedHalf s.params.halfwordMisaligned ix.addr) s))

/-- LDRSB, immediate offset (R564, R561). -/
def execLdrsbImm (c : Cond) (p u w : Bool) (rn rd : Reg) (immH immL : BitVec 4)
    (s : State) : Result :=
  armCall c s fun s =>
    let ix := indexing p u w (s.reg rn) (halfOffset immH immL)
    halfCall p w false ix rn rd s (singleLoad .byte ix rn rd loadedSignedByte s)

/-- LDRSH, immediate offset (R565, R561). -/
def execLdrshImm (c : Cond) (p u w : Bool) (rn rd : Reg) (immH immL : BitVec 4)
    (s : State) : Result :=
  armCall c s fun s =>
    let ix := indexing p u w (s.reg rn) (halfOffset immH immL)
    halfCall p w false ix rn rd s (oddCall ix s
      (singleLoad .half ix rn rd (loadedSignedHalf s.params.halfwordMisaligned ix.addr) s))

end Sys2Proof.Machine
end

