-- ==== Sys2Proof/Machine/Multiply.lean ====
section
/-! DEFINITION. ARM multiply and multiply-long (spec/45_multiply.md R650 to R655). -/

namespace Sys2Proof.Machine

open Sys2Proof.Config

/-! ## Shared steps -/

/-- The end of MUL and MLA: R650. -/
def mulWrite (sf : Bool) (rd : Reg) (result : Word) (s : State) : Result :=
  let t := s.advance.writeReg rd result
  .next (if sf then t.setFlagsMul result else t)

/-- The end of the long forms: RdLo, then RdHi, then the flags (R652). -/
def mulLongWrite (sf : Bool) (rdHi rdLo : Reg) (r : BitVec 64) (s : State) : Result :=
  let t := (s.advance.writeReg rdLo (field r 0 32)).writeReg rdHi (field r 32 32)
  .next (if sf then t.setFlagsMulLong r else t)

/-- The register combinations of U11 for the long forms (R652). -/
def mulLongOverlap (rdHi rdLo rs rm : Reg) : Bool :=
  rdHi == rdLo || rm == rdHi || rm == rdLo || namesPc [rdHi, rdLo, rm, rs]

/-- The unsigned 64-bit product (R652). -/
def mulUnsigned (a b : Word) : BitVec 64 := a.setWidth 64 * b.setWidth 64

/-- The signed 64-bit product, mod 2^64 (R654). -/
def mulSigned (a b : Word) : BitVec 64 := a.signExtend 64 * b.signExtend 64

/-- `x[RdHi] : x[RdLo]`, the 64-bit accumulator (R653). -/
def State.accumulator (s : State) (rdHi rdLo : Reg) : BitVec 64 := s.reg rdHi ++ s.reg rdLo

/-! ## The six multiplies -/

/-- MUL (R650); the Rn field is not read. -/
def execMul (c : Cond) (sf : Bool) (rd _rn rs rm : Reg) (s : State) : Result :=
  armCall c s fun s => s.guard (rd == rm || namesPc [rd, rm, rs]) .u11
    (mulWrite sf rd (s.reg rm * s.reg rs) s)

/-- MLA (R651). -/
def execMla (c : Cond) (sf : Bool) (rd rn rs rm : Reg) (s : State) : Result :=
  armCall c s fun s => s.guard (rd == rm || namesPc [rd, rm, rs, rn]) .u11
    (mulWrite sf rd (s.reg rm * s.reg rs + s.reg rn) s)

/-- UMULL (R652). -/
def execUmull (c : Cond) (sf : Bool) (rdHi rdLo rs rm : Reg) (s : State) : Result :=
  armCall c s fun s => s.guard (mulLongOverlap rdHi rdLo rs rm) .u11
    (mulLongWrite sf rdHi rdLo (mulUnsigned (s.reg rm) (s.reg rs)) s)

/-- UMLAL (R653). -/
def execUmlal (c : Cond) (sf : Bool) (rdHi rdLo rs rm : Reg) (s : State) : Result :=
  armCall c s fun s => s.guard (mulLongOverlap rdHi rdLo rs rm) .u11
    (mulLongWrite sf rdHi rdLo (mulUnsigned (s.reg rm) (s.reg rs) + s.accumulator rdHi rdLo) s)

/-- SMULL (R654). -/
def execSmull (c : Cond) (sf : Bool) (rdHi rdLo rs rm : Reg) (s : State) : Result :=
  armCall c s fun s => s.guard (mulLongOverlap rdHi rdLo rs rm) .u11
    (mulLongWrite sf rdHi rdLo (mulSigned (s.reg rm) (s.reg rs)) s)

/-- SMLAL (R655). -/
def execSmlal (c : Cond) (sf : Bool) (rdHi rdLo rs rm : Reg) (s : State) : Result :=
  armCall c s fun s => s.guard (mulLongOverlap rdHi rdLo rs rm) .u11
    (mulLongWrite sf rdHi rdLo (mulSigned (s.reg rm) (s.reg rs) + s.accumulator rdHi rdLo) s)

end Sys2Proof.Machine
end

