-- ==== Sys2Proof/Machine/StatusSystem.lean ====
section
/-! DEFINITION. MRS, MSR, SWI, the coprocessor instructions and the undefined class
(spec/47_status_system.md R750 to R760). -/

namespace Sys2Proof.Machine

open Sys2Proof.Config

/-! ## Status transfer -/

/-- MSR of the value `v` (R751): to `cpsr` by LoadStatus after the advance, or into `spsr`. -/
def statusWrite (r : Bool) (fm : BitVec 4) (v : Word) (s : State) : Result :=
  if r then
    s.guard s.inUserBank .u1
      (.next { s.advance with spsr := msrMerge s.spsr v (msrMask fm s.cpsr) })
  else
    let new := msrMerge s.cpsr v (msrMask fm s.cpsr)
    s.guard (bankOf new).isNone .u2 (s.guard (tBit new != s.thumb) .u3
      (.next (s.advance.loadStatus new)))

/-- MRS (R750). -/
def execMrs (c : Cond) (r : Bool) (rd : Reg) (s : State) : Result :=
  armCall c s fun s => s.guard (r && s.inUserBank) .u1 <| s.guard (rd == 15) .u24 <|
    .next (s.advance.writeReg rd (if r then s.spsr else s.cpsr))

/-- MSR of a register (R751, R753). -/
def execMsrReg (c : Cond) (r : Bool) (fm : BitVec 4) (rm : Reg) (s : State) : Result :=
  armCall c s fun s => statusWrite r fm (s.reg rm) s

/-- MSR of a rotated immediate (R752, R404); the shifter carry-out is not used. -/
def execMsrImm (c : Cond) (r : Bool) (fm rot : BitVec 4) (imm : BitVec 8) (s : State) : Result :=
  armCall c s fun s => statusWrite r fm (shiftImmOperand rot imm s.carry).1 s

/-! ## Software interrupt -/

/-- SWI (R754): the comment is ignored. -/
def execSwi (c : Cond) (_comment : BitVec 24) (s : State) : Result :=
  armCall c s fun s => .next s.raiseSwi

/-! ## Coprocessor instructions: no coprocessor is attached, every one is undefined -/

/-- CDP (R755): no operand is used. -/
def execCdp (c : Cond) (_op1 _crn _crd _cp : BitVec 4) (_op2 : BitVec 3) (_crm : BitVec 4)
    (s : State) : Result :=
  armCall c s fun s => .next s.raiseUndefined

/-- LDC (R756): no operand is used. -/
def execLdc (c : Cond) (_p _u _n _w : Bool) (_rn : Reg) (_crd _cp : BitVec 4) (_off : BitVec 8)
    (s : State) : Result :=
  armCall c s fun s => .next s.raiseUndefined

/-- STC (R757): no operand is used. -/
def execStc (c : Cond) (_p _u _n _w : Bool) (_rn : Reg) (_crd _cp : BitVec 4) (_off : BitVec 8)
    (s : State) : Result :=
  armCall c s fun s => .next s.raiseUndefined

/-- MCR (R758): no operand is used. -/
def execMcr (c : Cond) (_op1 : BitVec 3) (_crn : BitVec 4) (_rd : Reg) (_cp : BitVec 4)
    (_op2 : BitVec 3) (_crm : BitVec 4) (s : State) : Result :=
  armCall c s fun s => .next s.raiseUndefined

/-- MRC (R759): no operand is used. -/
def execMrc (c : Cond) (_op1 : BitVec 3) (_crn : BitVec 4) (_rd : Reg) (_cp : BitVec 4)
    (_op2 : BitVec 3) (_crm : BitVec 4) (s : State) : Result :=
  armCall c s fun s => .next s.raiseUndefined

/-! ## Undefined instructions, R760 -/

/-- Rows 5 to 7 of R302: the multiply and extra load-store space. -/
def execUndefMul (c : Cond) (s : State) : Result :=
  armCall c s fun s => .next s.raiseUndefined

/-- Row 10 of R302: the miscellaneous space. -/
def execUndefMisc (c : Cond) (s : State) : Result :=
  armCall c s fun s => .next s.raiseUndefined

/-- Row 12 of R302: the move-immediate-to-status space. -/
def execUndefMsrImm (c : Cond) (s : State) : Result :=
  armCall c s fun s => .next s.raiseUndefined

/-- Row 16 of R302: the media space. -/
def execUndefMedia (c : Cond) (s : State) : Result :=
  armCall c s fun s => .next s.raiseUndefined

end Sys2Proof.Machine
end

