-- ==== Sys2Proof/Machine/Swap.lean ====
section
/-! DEFINITION. ARM single data swap (spec/46_swap.md R700, R701). -/

namespace Sys2Proof.Machine

open Sys2Proof.Config

/-- SWP and SWPB: the read, then the write, then the destination; a failed access raises the data abort
(R700, R701). -/
def swap (w : Width) (addr src : Word) (rd : Reg) (s : State) : Result :=
  match s.memRead w addr with
  | (none, t) => .next t.raiseDataAbort
  | (some v, t) =>
    match t.memWrite w addr src with
    | (false, t') => .next t'.raiseDataAbort
    | (true, t') => .next (t'.advance.writeReg rd v)

/-- The register combinations of U13 (R700). -/
def swapOverlap (rn rd rm : Reg) : Bool := rn == 15 || rd == 15 || rm == 15 || rn == rd || rn == rm

/-- SWP (R700). -/
def execSwp (c : Cond) (rn rd rm : Reg) (s : State) : Result :=
  armCall c s fun s => s.guard (swapOverlap rn rd rm) .u13
    (swap .word (s.reg rn) (s.reg rm) rd s)

/-- SWPB (R701). -/
def execSwpb (c : Cond) (rn rd rm : Reg) (s : State) : Result :=
  armCall c s fun s => s.guard (swapOverlap rn rd rm) .u13
    (swap .byte (s.reg rn) (s.reg rm) rd s)

end Sys2Proof.Machine
end

