-- ==== Sys2Proof/Machine/ThumbAlu.lean ====
section
/-! DEFINITION. Thumb shifts, arithmetic, logic, high-register operations and BX (spec/48_thumb_alu.md
R800 to R834). -/

namespace Sys2Proof.Machine

open Sys2Proof.Config

/-! ## Shared ends of a Thumb rule: advance, then the writes (R414) -/

/-- `x[Rd] <- v; N, Z <- v; C <- sc` (R800, R813). -/
def thumbShift (rd : Reg) (r : Word × Bool) (s : State) : Result :=
  .next ((s.advance.setX rd r.1).setFlagsLogic r.1 r.2)

/-- `x[Rd] <- r; SetFlagsArith(r, c, v)` (R803). -/
def thumbArith (rd : Reg) (o : AluOut) (s : State) : Result :=
  .next ((s.advance.setX rd o.result).setFlagsArith o)

/-- `SetFlagsArith(r, c, v)`, no register written (R808). -/
def thumbCompare (o : AluOut) (s : State) : Result := .next (s.advance.setFlagsArith o)

/-- `x[Rd] <- r; N, Z <- r`; C and V unchanged (R807, R811). -/
def thumbLogic (rd : Reg) (r : Word) (s : State) : Result :=
  .next ((s.advance.setX rd r).setFlagsNZ r)

/-- `x[Rd] <- r`, no flag (R827, R831). -/
def thumbMove (rd : Reg) (r : Word) (s : State) : Result := .next (s.advance.writeReg rd r)

/-- The register `h:n` of a high-register form (R325). -/
def highReg (h : Bool) (n : LowReg) : Reg := ⟨8 * h.toNat + n.val, by cases h <;> simp <;> omega⟩

/-- The amount of a register shift, bits 7:0 of Rs (R813). -/
def State.shiftAmount (s : State) (rs : LowReg) : BitVec 8 := field (s.reg rs.reg) 0 8

/-- Does the form name two low registers (U17, R827)? -/
def bothLow (h1 h2 : Bool) : Bool := !h1 && !h2

/-! ## Move shifted register (T1) -/

/-- LSL Rd, Rs, #imm5 (R800). -/
def execTLslImm (imm : BitVec 5) (rs rd : LowReg) (s : State) : Result :=
  thumbCall s fun s => thumbShift rd.reg (shiftByImm .lsl imm (s.reg rs.reg) s.carry) s

/-- LSR Rd, Rs, #imm5 (R801). -/
def execTLsrImm (imm : BitVec 5) (rs rd : LowReg) (s : State) : Result :=
  thumbCall s fun s => thumbShift rd.reg (shiftByImm .lsr imm (s.reg rs.reg) s.carry) s

/-- ASR Rd, Rs, #imm5 (R802). -/
def execTAsrImm (imm : BitVec 5) (rs rd : LowReg) (s : State) : Result :=
  thumbCall s fun s => thumbShift rd.reg (shiftByImm .asr imm (s.reg rs.reg) s.carry) s

/-! ## Add and subtract (T2) -/

/-- ADD Rd, Rs, Rn (R803). -/
def execTAddReg (rn rs rd : LowReg) (s : State) : Result :=
  thumbCall s fun s => thumbArith rd.reg (addWithCarry (s.reg rs.reg) (s.reg rn.reg) false) s

/-- SUB Rd, Rs, Rn (R804). -/
def execTSubReg (rn rs rd : LowReg) (s : State) : Result :=
  thumbCall s fun s => thumbArith rd.reg (subWithCarry (s.reg rs.reg) (s.reg rn.reg) true) s

/-- ADD Rd, Rs, #imm3 (R805). -/
def execTAddImm3 (imm : BitVec 3) (rs rd : LowReg) (s : State) : Result :=
  thumbCall s fun s => thumbArith rd.reg (addWithCarry (s.reg rs.reg) (imm.setWidth 32) false) s

/-- SUB Rd, Rs, #imm3 (R806). -/
def execTSubImm3 (imm : BitVec 3) (rs rd : LowReg) (s : State) : Result :=
  thumbCall s fun s => thumbArith rd.reg (subWithCarry (s.reg rs.reg) (imm.setWidth 32) true) s

/-! ## Move, compare, add and subtract immediate (T3) -/

/-- MOV Rd, #imm8 (R807). -/
def execTMovImm8 (rd : LowReg) (imm : BitVec 8) (s : State) : Result :=
  thumbCall s fun s => thumbLogic rd.reg (imm.setWidth 32) s

/-- CMP Rd, #imm8 (R808). -/
def execTCmpImm8 (rd : LowReg) (imm : BitVec 8) (s : State) : Result :=
  thumbCall s fun s => thumbCompare (subWithCarry (s.reg rd.reg) (imm.setWidth 32) true) s

/-- ADD Rd, #imm8 (R809). -/
def execTAddImm8 (rd : LowReg) (imm : BitVec 8) (s : State) : Result :=
  thumbCall s fun s => thumbArith rd.reg (addWithCarry (s.reg rd.reg) (imm.setWidth 32) false) s

/-- SUB Rd, #imm8 (R810). -/
def execTSubImm8 (rd : LowReg) (imm : BitVec 8) (s : State) : Result :=
  thumbCall s fun s => thumbArith rd.reg (subWithCarry (s.reg rd.reg) (imm.setWidth 32) true) s

/-! ## ALU operations (T4) -/

/-- AND (R811). -/
def execTAnd (rs rd : LowReg) (s : State) : Result :=
  thumbCall s fun s => thumbLogic rd.reg (s.reg rd.reg &&& s.reg rs.reg) s

/-- EOR (R812). -/
def execTEor (rs rd : LowReg) (s : State) : Result :=
  thumbCall s fun s => thumbLogic rd.reg (s.reg rd.reg ^^^ s.reg rs.reg) s

/-- LSL (R813). -/
def execTLsl (rs rd : LowReg) (s : State) : Result :=
  thumbCall s fun s => thumbShift rd.reg (shiftByReg .lsl (s.shiftAmount rs) (s.reg rd.reg) s.carry) s

/-- LSR (R814). -/
def execTLsr (rs rd : LowReg) (s : State) : Result :=
  thumbCall s fun s => thumbShift rd.reg (shiftByReg .lsr (s.shiftAmount rs) (s.reg rd.reg) s.carry) s

/-- ASR (R815). -/
def execTAsr (rs rd : LowReg) (s : State) : Result :=
  thumbCall s fun s => thumbShift rd.reg (shiftByReg .asr (s.shiftAmount rs) (s.reg rd.reg) s.carry) s

/-- ADC (R816). -/
def execTAdc (rs rd : LowReg) (s : State) : Result :=
  thumbCall s fun s => thumbArith rd.reg (addWithCarry (s.reg rd.reg) (s.reg rs.reg) s.carry) s

/-- SBC (R817). -/
def execTSbc (rs rd : LowReg) (s : State) : Result :=
  thumbCall s fun s => thumbArith rd.reg (subWithCarry (s.reg rd.reg) (s.reg rs.reg) s.carry) s

/-- ROR (R818). -/
def execTRor (rs rd : LowReg) (s : State) : Result :=
  thumbCall s fun s => thumbShift rd.reg (shiftByReg .ror (s.shiftAmount rs) (s.reg rd.reg) s.carry) s

/-- TST (R819). -/
def execTTst (rs rd : LowReg) (s : State) : Result :=
  thumbCall s fun s => .next (s.advance.setFlagsNZ (s.reg rd.reg &&& s.reg rs.reg))

/-- NEG (R820). -/
def execTNeg (rs rd : LowReg) (s : State) : Result :=
  thumbCall s fun s => thumbArith rd.reg (subWithCarry 0 (s.reg rs.reg) true) s

/-- CMP (R821). -/
def execTCmp (rs rd : LowReg) (s : State) : Result :=
  thumbCall s fun s => thumbCompare (subWithCarry (s.reg rd.reg) (s.reg rs.reg) true) s

/-- CMN (R822). -/
def execTCmn (rs rd : LowReg) (s : State) : Result :=
  thumbCall s fun s => thumbCompare (addWithCarry (s.reg rd.reg) (s.reg rs.reg) false) s

/-- ORR (R823). -/
def execTOrr (rs rd : LowReg) (s : State) : Result :=
  thumbCall s fun s => thumbLogic rd.reg (s.reg rd.reg ||| s.reg rs.reg) s

/-- MUL (R824). -/
def execTMul (rs rd : LowReg) (s : State) : Result :=
  thumbCall s fun s => s.guard (rd == rs) .u11
    (.next ((s.advance.setX rd.reg (s.reg rd.reg * s.reg rs.reg)).setFlagsMul (s.reg rd.reg * s.reg rs.reg)))

/-- BIC (R825). -/
def execTBic (rs rd : LowReg) (s : State) : Result :=
  thumbCall s fun s => thumbLogic rd.reg (s.reg rd.reg &&& ~~~s.reg rs.reg) s

/-- MVN (R826). -/
def execTMvn (rs rd : LowReg) (s : State) : Result :=
  thumbCall s fun s => thumbLogic rd.reg (~~~s.reg rs.reg) s

/-! ## High-register operations and BX (T5) -/

/-- ADD Rd/Hd, Rs/Hs (R827). -/
def execTAddHi (h1 h2 : Bool) (rs rd : LowReg) (s : State) : Result :=
  thumbCall s fun s => s.guard (bothLow h1 h2) .u17
    (thumbMove (highReg h1 rd) (s.reg (highReg h1 rd) + s.reg (highReg h2 rs)) s)

/-- CMP Rd/Hd, Rs/Hs (R828): never a status restore. -/
def execTCmpHi (h1 h2 : Bool) (rs rd : LowReg) (s : State) : Result :=
  thumbCall s fun s => s.guard (bothLow h1 h2) .u17
    (thumbCompare (subWithCarry (s.reg (highReg h1 rd)) (s.reg (highReg h2 rs)) true) s)

/-- MOV Rd/Hd, Rs/Hs (R829). -/
def execTMovHi (h1 h2 : Bool) (rs rd : LowReg) (s : State) : Result :=
  thumbCall s fun s => s.guard (bothLow h1 h2) .u17
    (thumbMove (highReg h1 rd) (s.reg (highReg h2 rs)) s)

/-- BX Rs/Hs (R830); bits 2:0 are ignored. -/
def execTBx (h1 h2 : Bool) (rs _rd : LowReg) (s : State) : Result :=
  thumbCall s fun s => s.guard h1 .u17 (branchExchange (s.reg (highReg h2 rs)) s)

/-! ## Load address and stack-pointer adjust (T12, T13) -/

/-- ADD Rd, PC, #imm (R831). -/
def execTAddPc (rd : LowReg) (imm : BitVec 8) (s : State) : Result :=
  thumbCall s fun s => thumbMove rd.reg (s.alignedPc + imm.setWidth 32 <<< 2) s

/-- ADD Rd, SP, #imm (R832). -/
def execTAddSp (rd : LowReg) (imm : BitVec 8) (s : State) : Result :=
  thumbCall s fun s => thumbMove rd.reg (s.reg 13 + imm.setWidth 32 <<< 2) s

/-- ADD SP, #imm (R833). -/
def execTAddSpImm (imm : BitVec 7) (s : State) : Result :=
  thumbCall s fun s => thumbMove 13 (s.reg 13 + imm.setWidth 32 <<< 2) s

/-- SUB SP, #imm (R834). -/
def execTSubSpImm (imm : BitVec 7) (s : State) : Result :=
  thumbCall s fun s => thumbMove 13 (s.reg 13 - imm.setWidth 32 <<< 2) s

end Sys2Proof.Machine
end

