-- ==== Sys2Proof/Machine/ThumbBranch.lean ====
section
/-! DEFINITION. Thumb branches, SWI and the undefined halfwords (spec/49_thumb_memory_branch.md R871 to
R876). -/

namespace Sys2Proof.Machine

open Sys2Proof.Config

/-- B<cond> label (R871). -/
def execTBcond (c : Cond) (off : BitVec 8) (s : State) : Result :=
  thumbCall s fun s =>
    .next (if condHolds c s.cpsr then s.writePC (s.pc + off.signExtend 32 <<< 1) else s.advance)

/-- SWI imm8 (R872): the comment is ignored. -/
def execTSwi (_comment : BitVec 8) (s : State) : Result :=
  thumbCall s fun s => .next s.raiseSwi

/-- B label (R873). -/
def execTB (off : BitVec 11) (s : State) : Result :=
  thumbCall s fun s => .next (s.writePC (s.pc + off.signExtend 32 <<< 1))

/-- BL, first half (R874): the partial offset goes to the link register. -/
def execTBlFirst (off : BitVec 11) (s : State) : Result :=
  thumbCall s fun s => .next (s.setX 14 (s.pc + off.signExtend 32 <<< 12)).advance

/-- BL, second half (R875): the target is the old link plus the low offset. -/
def execTBlSecond (off : BitVec 11) (s : State) : Result :=
  thumbCall s fun s =>
    .next ((s.setX 14 ((s.pc - 2) ||| 1)).writePC (s.reg 14 + off.setWidth 32 <<< 1))

/-- Row 40 of R320 (R876). -/
def execTUndef1011 (s : State) : Result :=
  thumbCall s fun s => .next s.raiseUndefined

/-- Row 43 of R320 (R876). -/
def execTUndefCond (s : State) : Result :=
  thumbCall s fun s => .next s.raiseUndefined

/-- Row 47 of R320 (R876). -/
def execTUndef11101 (s : State) : Result :=
  thumbCall s fun s => .next s.raiseUndefined

end Sys2Proof.Machine
end

