-- ==== Sys2Proof/Machine/ThumbMemory.lean ====
section
/-! DEFINITION. Thumb loads, stores and block transfers (spec/49_thumb_memory_branch.md R850 to R870). -/

namespace Sys2Proof.Machine

open Sys2Proof.Config

/-! ## Single transfers: the ARM primitives without writeback (R414) -/

/-- A Thumb load at `addr`. -/
def thumbLoad (w : Width) (addr : Word) (rd : LowReg) (fix : Word → Word) (s : State) : Result :=
  singleLoad w (atAddress addr) rd.reg rd.reg fix s

/-- A Thumb store at `addr`. -/
def thumbStore (w : Width) (addr : Word) (rd : LowReg) (s : State) : Result :=
  singleStore w (atAddress addr) rd.reg (s.reg rd.reg) s

/-- Rb + Ro, the address of T7 and T8 (R851). -/
def State.baseOffset (s : State) (rb ro : LowReg) : Word := s.reg rb.reg + s.reg ro.reg

/-- LDRH at `addr`, U15 when it is odd (R856). -/
def thumbLoadHalf (addr : Word) (rd : LowReg) (s : State) : Result :=
  s.guard (bit addr 0) .u15 (thumbLoad .half addr rd (loadedHalf s.params.halfwordMisaligned addr) s)

/-- LDSH at `addr` (R858). -/
def thumbLoadSignedHalf (addr : Word) (rd : LowReg) (s : State) : Result :=
  s.guard (bit addr 0) .u15
    (thumbLoad .half addr rd (loadedSignedHalf s.params.halfwordMisaligned addr) s)

/-- LDR Rd, [PC, #imm] (R850). -/
def execTLdrPc (rd : LowReg) (imm : BitVec 8) (s : State) : Result :=
  thumbCall s fun s => thumbLoad .word (s.alignedPc + imm.setWidth 32 <<< 2) rd id s

/-- STR Rd, [Rb, Ro] (R851). -/
def execTStrReg (ro rb rd : LowReg) (s : State) : Result :=
  thumbCall s fun s => thumbStore .word (s.baseOffset rb ro) rd s

/-- STRH Rd, [Rb, Ro] (R852). -/
def execTStrhReg (ro rb rd : LowReg) (s : State) : Result :=
  thumbCall s fun s => thumbStore .half (s.baseOffset rb ro) rd s

/-- STRB Rd, [Rb, Ro] (R853). -/
def execTStrbReg (ro rb rd : LowReg) (s : State) : Result :=
  thumbCall s fun s => thumbStore .byte (s.baseOffset rb ro) rd s

/-- LDSB Rd, [Rb, Ro] (R854). -/
def execTLdsbReg (ro rb rd : LowReg) (s : State) : Result :=
  thumbCall s fun s => thumbLoad .byte (s.baseOffset rb ro) rd loadedSignedByte s

/-- LDR Rd, [Rb, Ro] (R855). -/
def execTLdrReg (ro rb rd : LowReg) (s : State) : Result :=
  thumbCall s fun s => thumbLoad .word (s.baseOffset rb ro) rd id s

/-- LDRH Rd, [Rb, Ro] (R856). -/
def execTLdrhReg (ro rb rd : LowReg) (s : State) : Result :=
  thumbCall s fun s => thumbLoadHalf (s.baseOffset rb ro) rd s

/-- LDRB Rd, [Rb, Ro] (R857). -/
def execTLdrbReg (ro rb rd : LowReg) (s : State) : Result :=
  thumbCall s fun s => thumbLoad .byte (s.baseOffset rb ro) rd id s

/-- LDSH Rd, [Rb, Ro] (R858). -/
def execTLdshReg (ro rb rd : LowReg) (s : State) : Result :=
  thumbCall s fun s => thumbLoadSignedHalf (s.baseOffset rb ro) rd s

/-- STR Rd, [Rb, #imm] (R859). -/
def execTStrImm (imm : BitVec 5) (rb rd : LowReg) (s : State) : Result :=
  thumbCall s fun s => thumbStore .word (s.reg rb.reg + imm.setWidth 32 <<< 2) rd s

/-- LDR Rd, [Rb, #imm] (R860). -/
def execTLdrImm (imm : BitVec 5) (rb rd : LowReg) (s : State) : Result :=
  thumbCall s fun s => thumbLoad .word (s.reg rb.reg + imm.setWidth 32 <<< 2) rd id s

/-- STRB Rd, [Rb, #imm] (R861). -/
def execTStrbImm (imm : BitVec 5) (rb rd : LowReg) (s : State) : Result :=
  thumbCall s fun s => thumbStore .byte (s.reg rb.reg + imm.setWidth 32) rd s

/-- LDRB Rd, [Rb, #imm] (R862). -/
def execTLdrbImm (imm : BitVec 5) (rb rd : LowReg) (s : State) : Result :=
  thumbCall s fun s => thumbLoad .byte (s.reg rb.reg + imm.setWidth 32) rd id s

/-- STRH Rd, [Rb, #imm] (R863). -/
def execTStrhImm (imm : BitVec 5) (rb rd : LowReg) (s : State) : Result :=
  thumbCall s fun s => thumbStore .half (s.reg rb.reg + imm.setWidth 32 <<< 1) rd s

/-- LDRH Rd, [Rb, #imm] (R864). -/
def execTLdrhImm (imm : BitVec 5) (rb rd : LowReg) (s : State) : Result :=
  thumbCall s fun s => thumbLoadHalf (s.reg rb.reg + imm.setWidth 32 <<< 1) rd s

/-- STR Rd, [SP, #imm] (R865). -/
def execTStrSp (rd : LowReg) (imm : BitVec 8) (s : State) : Result :=
  thumbCall s fun s => thumbStore .word (s.reg 13 + imm.setWidth 32 <<< 2) rd s

/-- LDR Rd, [SP, #imm] (R866). -/
def execTLdrSp (rd : LowReg) (imm : BitVec 8) (s : State) : Result :=
  thumbCall s fun s => thumbLoad .word (s.reg 13 + imm.setWidth 32 <<< 2) rd id s

/-! ## Push, pop and multiple transfers: block transfers with writeback (R867 to R870) -/

/-- The list of a Thumb block transfer: R0 to R7, and register `extra` when `r` is set. -/
def thumbList (list : BitVec 8) (r : Bool) (extra : Nat) : BitVec 16 :=
  list.setWidth 16 ||| (if r then BitVec.twoPow 16 extra else 0)

/-- The value PUSH stores: the register; for the empty list's R15, x[15] + 2 (R867). -/
def State.pushed (s : State) (r : Reg) : Word := if r = 15 then s.pc + 2 else s.reg r

/-- PUSH, which is STMDB SP! (R867). -/
def execTPush (r : Bool) (list : BitVec 8) (s : State) : Result :=
  thumbCall s fun s => s.emptyCheck (thumbList list r 14)
    (blockStore (blockOf true false (s.reg 13) (thumbList list r 14)) true 13 s.pushed s)

/-- POP, which is LDMIA SP! (R868). -/
def execTPop (r : Bool) (list : BitVec 8) (s : State) : Result :=
  thumbCall s fun s => s.emptyCheck (thumbList list r 15)
    (blockLoad (blockOf false true (s.reg 13) (thumbList list r 15)) true 13 loadLive s)

/-- STMIA Rb! (R869). -/
def execTStmia (rb : LowReg) (list : BitVec 8) (s : State) : Result :=
  thumbCall s fun s => s.emptyCheck (thumbList list false 0) <|
    s.guard (baseNotLowest (thumbList list false 0) rb.reg) .u7 <|
    blockStore (blockOf false true (s.reg rb.reg) (thumbList list false 0)) true rb.reg s.storedReg s

/-- LDMIA Rb! (R870). -/
def execTLdmia (rb : LowReg) (list : BitVec 8) (s : State) : Result :=
  thumbCall s fun s => s.emptyCheck (thumbList list false 0) <|
    s.guard (inList (thumbList list false 0) rb.reg) .u8 <|
    blockLoad (blockOf false true (s.reg rb.reg) (thumbList list false 0)) true rb.reg loadLive s

end Sys2Proof.Machine
end

