-- ==== Sys2Proof/Machine/Dispatch.lean ====
section
/-! DEFINITION. The dispatcher: one arm per instruction, each one call of its meaning
(spec/40_operands_flags.md R400). -/

namespace Sys2Proof.Machine

/-- One call of an entry point with the decoded instruction (R400). -/
def exec (i : Instr) (s : State) : Host.Outcome State Fault Refusal :=
  match i with
  | .bx c rm => Sys2Proof.Machine.execBx c rm s
  | .mul c sf rd rn rs rm => Sys2Proof.Machine.execMul c sf rd rn rs rm s
  | .mla c sf rd rn rs rm => Sys2Proof.Machine.execMla c sf rd rn rs rm s
  | .umull c sf rdHi rdLo rs rm => Sys2Proof.Machine.execUmull c sf rdHi rdLo rs rm s
  | .umlal c sf rdHi rdLo rs rm => Sys2Proof.Machine.execUmlal c sf rdHi rdLo rs rm s
  | .smull c sf rdHi rdLo rs rm => Sys2Proof.Machine.execSmull c sf rdHi rdLo rs rm s
  | .smlal c sf rdHi rdLo rs rm => Sys2Proof.Machine.execSmlal c sf rdHi rdLo rs rm s
  | .swp c rn rd rm => Sys2Proof.Machine.execSwp c rn rd rm s
  | .swpb c rn rd rm => Sys2Proof.Machine.execSwpb c rn rd rm s
  | .strhReg c p u w rn rd rm => Sys2Proof.Machine.execStrhReg c p u w rn rd rm s
  | .ldrhReg c p u w rn rd rm => Sys2Proof.Machine.execLdrhReg c p u w rn rd rm s
  | .ldrsbReg c p u w rn rd rm => Sys2Proof.Machine.execLdrsbReg c p u w rn rd rm s
  | .ldrshReg c p u w rn rd rm => Sys2Proof.Machine.execLdrshReg c p u w rn rd rm s
  | .strhImm c p u w rn rd immH immL => Sys2Proof.Machine.execStrhImm c p u w rn rd immH immL s
  | .ldrhImm c p u w rn rd immH immL => Sys2Proof.Machine.execLdrhImm c p u w rn rd immH immL s
  | .ldrsbImm c p u w rn rd immH immL => Sys2Proof.Machine.execLdrsbImm c p u w rn rd immH immL s
  | .ldrshImm c p u w rn rd immH immL => Sys2Proof.Machine.execLdrshImm c p u w rn rd immH immL s
  | .undefMul c => Sys2Proof.Machine.execUndefMul c s
  | .mrs c r rd => Sys2Proof.Machine.execMrs c r rd s
  | .msrReg c r fm rm => Sys2Proof.Machine.execMsrReg c r fm rm s
  | .undefMisc c => Sys2Proof.Machine.execUndefMisc c s
  | .msrImm c r fm rot imm => Sys2Proof.Machine.execMsrImm c r fm rot imm s
  | .undefMsrImm c => Sys2Proof.Machine.execUndefMsrImm c s
  | .andShiftImm c sf rn rd imm sh rm => Sys2Proof.Machine.execAndShiftImm c sf rn rd imm sh rm s
  | .eorShiftImm c sf rn rd imm sh rm => Sys2Proof.Machine.execEorShiftImm c sf rn rd imm sh rm s
  | .subShiftImm c sf rn rd imm sh rm => Sys2Proof.Machine.execSubShiftImm c sf rn rd imm sh rm s
  | .rsbShiftImm c sf rn rd imm sh rm => Sys2Proof.Machine.execRsbShiftImm c sf rn rd imm sh rm s
  | .addShiftImm c sf rn rd imm sh rm => Sys2Proof.Machine.execAddShiftImm c sf rn rd imm sh rm s
  | .adcShiftImm c sf rn rd imm sh rm => Sys2Proof.Machine.execAdcShiftImm c sf rn rd imm sh rm s
  | .sbcShiftImm c sf rn rd imm sh rm => Sys2Proof.Machine.execSbcShiftImm c sf rn rd imm sh rm s
  | .rscShiftImm c sf rn rd imm sh rm => Sys2Proof.Machine.execRscShiftImm c sf rn rd imm sh rm s
  | .tstShiftImm c rn rd imm sh rm => Sys2Proof.Machine.execTstShiftImm c rn rd imm sh rm s
  | .teqShiftImm c rn rd imm sh rm => Sys2Proof.Machine.execTeqShiftImm c rn rd imm sh rm s
  | .cmpShiftImm c rn rd imm sh rm => Sys2Proof.Machine.execCmpShiftImm c rn rd imm sh rm s
  | .cmnShiftImm c rn rd imm sh rm => Sys2Proof.Machine.execCmnShiftImm c rn rd imm sh rm s
  | .orrShiftImm c sf rn rd imm sh rm => Sys2Proof.Machine.execOrrShiftImm c sf rn rd imm sh rm s
  | .movShiftImm c sf rd imm sh rm => Sys2Proof.Machine.execMovShiftImm c sf rd imm sh rm s
  | .bicShiftImm c sf rn rd imm sh rm => Sys2Proof.Machine.execBicShiftImm c sf rn rd imm sh rm s
  | .mvnShiftImm c sf rd imm sh rm => Sys2Proof.Machine.execMvnShiftImm c sf rd imm sh rm s
  | .andShiftReg c sf rn rd rs sh rm => Sys2Proof.Machine.execAndShiftReg c sf rn rd rs sh rm s
  | .eorShiftReg c sf rn rd rs sh rm => Sys2Proof.Machine.execEorShiftReg c sf rn rd rs sh rm s
  | .subShiftReg c sf rn rd rs sh rm => Sys2Proof.Machine.execSubShiftReg c sf rn rd rs sh rm s
  | .rsbShiftReg c sf rn rd rs sh rm => Sys2Proof.Machine.execRsbShiftReg c sf rn rd rs sh rm s
  | .addShiftReg c sf rn rd rs sh rm => Sys2Proof.Machine.execAddShiftReg c sf rn rd rs sh rm s
  | .adcShiftReg c sf rn rd rs sh rm => Sys2Proof.Machine.execAdcShiftReg c sf rn rd rs sh rm s
  | .sbcShiftReg c sf rn rd rs sh rm => Sys2Proof.Machine.execSbcShiftReg c sf rn rd rs sh rm s
  | .rscShiftReg c sf rn rd rs sh rm => Sys2Proof.Machine.execRscShiftReg c sf rn rd rs sh rm s
  | .tstShiftReg c rn rd rs sh rm => Sys2Proof.Machine.execTstShiftReg c rn rd rs sh rm s
  | .teqShiftReg c rn rd rs sh rm => Sys2Proof.Machine.execTeqShiftReg c rn rd rs sh rm s
  | .cmpShiftReg c rn rd rs sh rm => Sys2Proof.Machine.execCmpShiftReg c rn rd rs sh rm s
  | .cmnShiftReg c rn rd rs sh rm => Sys2Proof.Machine.execCmnShiftReg c rn rd rs sh rm s
  | .orrShiftReg c sf rn rd rs sh rm => Sys2Proof.Machine.execOrrShiftReg c sf rn rd rs sh rm s
  | .movShiftReg c sf rd rs sh rm => Sys2Proof.Machine.execMovShiftReg c sf rd rs sh rm s
  | .bicShiftReg c sf rn rd rs sh rm => Sys2Proof.Machine.execBicShiftReg c sf rn rd rs sh rm s
  | .mvnShiftReg c sf rd rs sh rm => Sys2Proof.Machine.execMvnShiftReg c sf rd rs sh rm s
  | .andImm c sf rn rd rot imm => Sys2Proof.Machine.execAndImm c sf rn rd rot imm s
  | .eorImm c sf rn rd rot imm => Sys2Proof.Machine.execEorImm c sf rn rd rot imm s
  | .subImm c sf rn rd rot imm => Sys2Proof.Machine.execSubImm c sf rn rd rot imm s
  | .rsbImm c sf rn rd rot imm => Sys2Proof.Machine.execRsbImm c sf rn rd rot imm s
  | .addImm c sf rn rd rot imm => Sys2Proof.Machine.execAddImm c sf rn rd rot imm s
  | .adcImm c sf rn rd rot imm => Sys2Proof.Machine.execAdcImm c sf rn rd rot imm s
  | .sbcImm c sf rn rd rot imm => Sys2Proof.Machine.execSbcImm c sf rn rd rot imm s
  | .rscImm c sf rn rd rot imm => Sys2Proof.Machine.execRscImm c sf rn rd rot imm s
  | .tstImm c rn rd rot imm => Sys2Proof.Machine.execTstImm c rn rd rot imm s
  | .teqImm c rn rd rot imm => Sys2Proof.Machine.execTeqImm c rn rd rot imm s
  | .cmpImm c rn rd rot imm => Sys2Proof.Machine.execCmpImm c rn rd rot imm s
  | .cmnImm c rn rd rot imm => Sys2Proof.Machine.execCmnImm c rn rd rot imm s
  | .orrImm c sf rn rd rot imm => Sys2Proof.Machine.execOrrImm c sf rn rd rot imm s
  | .movImm c sf rd rot imm => Sys2Proof.Machine.execMovImm c sf rd rot imm s
  | .bicImm c sf rn rd rot imm => Sys2Proof.Machine.execBicImm c sf rn rd rot imm s
  | .mvnImm c sf rd rot imm => Sys2Proof.Machine.execMvnImm c sf rd rot imm s
  | .undefMedia c => Sys2Proof.Machine.execUndefMedia c s
  | .strtImm c u rn rd imm => Sys2Proof.Machine.execStrtImm c u rn rd imm s
  | .ldrtImm c u rn rd imm => Sys2Proof.Machine.execLdrtImm c u rn rd imm s
  | .strbtImm c u rn rd imm => Sys2Proof.Machine.execStrbtImm c u rn rd imm s
  | .ldrbtImm c u rn rd imm => Sys2Proof.Machine.execLdrbtImm c u rn rd imm s
  | .strImm c p u w rn rd imm => Sys2Proof.Machine.execStrImm c p u w rn rd imm s
  | .ldrImm c p u w rn rd imm => Sys2Proof.Machine.execLdrImm c p u w rn rd imm s
  | .strbImm c p u w rn rd imm => Sys2Proof.Machine.execStrbImm c p u w rn rd imm s
  | .ldrbImm c p u w rn rd imm => Sys2Proof.Machine.execLdrbImm c p u w rn rd imm s
  | .strtReg c u rn rd imm sh rm => Sys2Proof.Machine.execStrtReg c u rn rd imm sh rm s
  | .ldrtReg c u rn rd imm sh rm => Sys2Proof.Machine.execLdrtReg c u rn rd imm sh rm s
  | .strbtReg c u rn rd imm sh rm => Sys2Proof.Machine.execStrbtReg c u rn rd imm sh rm s
  | .ldrbtReg c u rn rd imm sh rm => Sys2Proof.Machine.execLdrbtReg c u rn rd imm sh rm s
  | .strReg c p u w rn rd imm sh rm => Sys2Proof.Machine.execStrReg c p u w rn rd imm sh rm s
  | .ldrReg c p u w rn rd imm sh rm => Sys2Proof.Machine.execLdrReg c p u w rn rd imm sh rm s
  | .strbReg c p u w rn rd imm sh rm => Sys2Proof.Machine.execStrbReg c p u w rn rd imm sh rm s
  | .ldrbReg c p u w rn rd imm sh rm => Sys2Proof.Machine.execLdrbReg c p u w rn rd imm sh rm s
  | .stmUser c p u w rn list => Sys2Proof.Machine.execStmUser c p u w rn list s
  | .ldmRestore c p u w rn list => Sys2Proof.Machine.execLdmRestore c p u w rn list s
  | .ldmUser c p u w rn list => Sys2Proof.Machine.execLdmUser c p u w rn list s
  | .stm c p u w rn list => Sys2Proof.Machine.execStm c p u w rn list s
  | .ldm c p u w rn list => Sys2Proof.Machine.execLdm c p u w rn list s
  | .b c imm => Sys2Proof.Machine.execB c imm s
  | .bl c imm => Sys2Proof.Machine.execBl c imm s
  | .stc c p u n w rn crd cp off => Sys2Proof.Machine.execStc c p u n w rn crd cp off s
  | .ldc c p u n w rn crd cp off => Sys2Proof.Machine.execLdc c p u n w rn crd cp off s
  | .cdp c op1 crn crd cp op2 crm => Sys2Proof.Machine.execCdp c op1 crn crd cp op2 crm s
  | .mcr c op1 crn rd cp op2 crm => Sys2Proof.Machine.execMcr c op1 crn rd cp op2 crm s
  | .mrc c op1 crn rd cp op2 crm => Sys2Proof.Machine.execMrc c op1 crn rd cp op2 crm s
  | .swi c comment => Sys2Proof.Machine.execSwi c comment s
  | .tLslImm imm rs rd => Sys2Proof.Machine.execTLslImm imm rs rd s
  | .tLsrImm imm rs rd => Sys2Proof.Machine.execTLsrImm imm rs rd s
  | .tAsrImm imm rs rd => Sys2Proof.Machine.execTAsrImm imm rs rd s
  | .tAddReg rn rs rd => Sys2Proof.Machine.execTAddReg rn rs rd s
  | .tSubReg rn rs rd => Sys2Proof.Machine.execTSubReg rn rs rd s
  | .tAddImm3 imm rs rd => Sys2Proof.Machine.execTAddImm3 imm rs rd s
  | .tSubImm3 imm rs rd => Sys2Proof.Machine.execTSubImm3 imm rs rd s
  | .tMovImm8 rd imm => Sys2Proof.Machine.execTMovImm8 rd imm s
  | .tCmpImm8 rd imm => Sys2Proof.Machine.execTCmpImm8 rd imm s
  | .tAddImm8 rd imm => Sys2Proof.Machine.execTAddImm8 rd imm s
  | .tSubImm8 rd imm => Sys2Proof.Machine.execTSubImm8 rd imm s
  | .tAnd rs rd => Sys2Proof.Machine.execTAnd rs rd s
  | .tEor rs rd => Sys2Proof.Machine.execTEor rs rd s
  | .tLsl rs rd => Sys2Proof.Machine.execTLsl rs rd s
  | .tLsr rs rd => Sys2Proof.Machine.execTLsr rs rd s
  | .tAsr rs rd => Sys2Proof.Machine.execTAsr rs rd s
  | .tAdc rs rd => Sys2Proof.Machine.execTAdc rs rd s
  | .tSbc rs rd => Sys2Proof.Machine.execTSbc rs rd s
  | .tRor rs rd => Sys2Proof.Machine.execTRor rs rd s
  | .tTst rs rd => Sys2Proof.Machine.execTTst rs rd s
  | .tNeg rs rd => Sys2Proof.Machine.execTNeg rs rd s
  | .tCmp rs rd => Sys2Proof.Machine.execTCmp rs rd s
  | .tCmn rs rd => Sys2Proof.Machine.execTCmn rs rd s
  | .tOrr rs rd => Sys2Proof.Machine.execTOrr rs rd s
  | .tMul rs rd => Sys2Proof.Machine.execTMul rs rd s
  | .tBic rs rd => Sys2Proof.Machine.execTBic rs rd s
  | .tMvn rs rd => Sys2Proof.Machine.execTMvn rs rd s
  | .tAddHi h1 h2 rs rd => Sys2Proof.Machine.execTAddHi h1 h2 rs rd s
  | .tCmpHi h1 h2 rs rd => Sys2Proof.Machine.execTCmpHi h1 h2 rs rd s
  | .tMovHi h1 h2 rs rd => Sys2Proof.Machine.execTMovHi h1 h2 rs rd s
  | .tBx h1 h2 rs rd => Sys2Proof.Machine.execTBx h1 h2 rs rd s
  | .tLdrPc rd imm => Sys2Proof.Machine.execTLdrPc rd imm s
  | .tStrReg ro rb rd => Sys2Proof.Machine.execTStrReg ro rb rd s
  | .tStrhReg ro rb rd => Sys2Proof.Machine.execTStrhReg ro rb rd s
  | .tStrbReg ro rb rd => Sys2Proof.Machine.execTStrbReg ro rb rd s
  | .tLdsbReg ro rb rd => Sys2Proof.Machine.execTLdsbReg ro rb rd s
  | .tLdrReg ro rb rd => Sys2Proof.Machine.execTLdrReg ro rb rd s
  | .tLdrhReg ro rb rd => Sys2Proof.Machine.execTLdrhReg ro rb rd s
  | .tLdrbReg ro rb rd => Sys2Proof.Machine.execTLdrbReg ro rb rd s
  | .tLdshReg ro rb rd => Sys2Proof.Machine.execTLdshReg ro rb rd s
  | .tStrImm imm rb rd => Sys2Proof.Machine.execTStrImm imm rb rd s
  | .tLdrImm imm rb rd => Sys2Proof.Machine.execTLdrImm imm rb rd s
  | .tStrbImm imm rb rd => Sys2Proof.Machine.execTStrbImm imm rb rd s
  | .tLdrbImm imm rb rd => Sys2Proof.Machine.execTLdrbImm imm rb rd s
  | .tStrhImm imm rb rd => Sys2Proof.Machine.execTStrhImm imm rb rd s
  | .tLdrhImm imm rb rd => Sys2Proof.Machine.execTLdrhImm imm rb rd s
  | .tStrSp rd imm => Sys2Proof.Machine.execTStrSp rd imm s
  | .tLdrSp rd imm => Sys2Proof.Machine.execTLdrSp rd imm s
  | .tAddPc rd imm => Sys2Proof.Machine.execTAddPc rd imm s
  | .tAddSp rd imm => Sys2Proof.Machine.execTAddSp rd imm s
  | .tAddSpImm imm => Sys2Proof.Machine.execTAddSpImm imm s
  | .tSubSpImm imm => Sys2Proof.Machine.execTSubSpImm imm s
  | .tPush r list => Sys2Proof.Machine.execTPush r list s
  | .tPop r list => Sys2Proof.Machine.execTPop r list s
  | .tUndef1011 => Sys2Proof.Machine.execTUndef1011 s
  | .tStmia rb list => Sys2Proof.Machine.execTStmia rb list s
  | .tLdmia rb list => Sys2Proof.Machine.execTLdmia rb list s
  | .tUndefCond => Sys2Proof.Machine.execTUndefCond s
  | .tSwi comment => Sys2Proof.Machine.execTSwi comment s
  | .tBcond c off => Sys2Proof.Machine.execTBcond c off s
  | .tB off => Sys2Proof.Machine.execTB off s
  | .tUndef11101 => Sys2Proof.Machine.execTUndef11101 s
  | .tBlFirst off => Sys2Proof.Machine.execTBlFirst off s
  | .tBlSecond off => Sys2Proof.Machine.execTBlSecond off s

end Sys2Proof.Machine
end

