-- ==== Sys2Proof/Machine/HostStep.lean ====
section
/-! DEFINITION. The parts of the host step (spec/60_exceptions.md R910): the sample of the request lines,
the fetch (spec/20_memory.md R205), and an instruction placed where the next fetch reads it. -/

namespace Sys2Proof.Machine

/-- Every request line deasserted. -/
def Inputs.quiet : Inputs := ⟨false, false, false⟩

/-- The sample of the request lines this step takes (R910, R911; log entry 4). -/
def State.sample (s : State) : Inputs := s.inputs.head?.getD Inputs.quiet

/-- The start of a host step: the sample is consumed, the port log is empty (log entries 3 and 4) and
`branched` is the coming call's (log entry 22). -/
def State.beginStep (s : State) : State :=
  { s with inputs := s.inputs.tail, portLog := [], branched := false }

/-- The port operation of a fetch: Load16 in Thumb state, Load32 in ARM state (R205). -/
def State.fetchWidth (s : State) : Width := if s.thumb then .half else .word

/-- The address of a fetch: the current instruction address, masked (R205). -/
def State.fetchAddr (s : State) : Word := s.fetchWidth.align s.currentAddr

/-- The fetch, unrotated; none where the port fails (R205). -/
def State.fetch (s : State) : Option Word × State := s.portLoad s.fetchWidth s.fetchAddr

/-- The instruction a fetched word or halfword is, for the instruction set `cpsr.T` selects (R118). -/
def State.decodeFetched (s : State) (w : Word) : Instr :=
  if s.thumb then decodeThumb (w.setWidth 16) else decodeArm w

/-- The fetch and the execution call of R910; a failed fetch is the prefetch abort (R906). -/
def State.fetchThen (s : State) (call : Instr → State → Result) : Result :=
  match s.fetch with
  | (none, t) => .next t.raisePrefetchAbort
  | (some w, t) => call (t.decodeFetched w) t

/-- The order of R910: reset, FIQ, IRQ, then the next instruction. -/
def State.hostStep (s : State) (call : Instr → State → Result) : Result :=
  let lines := s.sample
  let t := s.beginStep
  if lines.reset then .next t.resetBlock
  else if lines.fiq && !fBit t.cpsr then .next t.takeFiq
  else if lines.irq && !iBit t.cpsr then .next t.takeIrq
  else t.fetchThen call

/-- `s` with the instruction set that an instruction of `nbits` bits belongs to selected. -/
def State.selectSet (nbits : Nat) (s : State) : State :=
  { s with cpsr := setT s.cpsr (decide (nbits ≤ 16)) }

/-- `s` with the instruction whose bits are `w` in plain memory where the next fetch reads it, no
region over those bytes and no request line asserted at the next step (log entry 9). -/
def State.placeWord (w : Nat) (s : State) : State :=
  let a := s.fetchAddr
  { s with
    mem := s.mem.store s.fetchWidth a.toNat (BitVec.ofNat 32 w)
    regions := s.regions.filter fun r => !r.touches a.toNat s.fetchWidth.bytes
    inputs := s.inputs.set 0 Inputs.quiet }

end Sys2Proof.Machine
end

