-- ==== Sys2Proof/Machine/Step.lean ====
section
/-! DEFINITION. One step of the machine: the host step of spec/60_exceptions.md R910 around `exec`. -/

namespace Sys2Proof.Machine

/-- One host step (R910). -/
def step (s : State) : Host.Outcome State Fault Refusal := s.hostStep exec

/-- `s` with an instruction of `nbits` bits `w` placed so that the very next step fetches and runs it
(log entry 9). -/
def State.withFetchWord (s : State) (nbits w : Nat) : State := (s.selectSet nbits).placeWord w

end Sys2Proof.Machine
end

