-- ==== Sys2Proof/Safety.lean ====
section
/-! DEFINITION. The words the claims are written in: the properties of the state that every step keeps,
and what a rule of the spec says an instruction leaves, written with exact arithmetic and without the
meanings' own helpers. -/

namespace Sys2Proof.Safety

open Sys2Proof.Machine

/-! ## The invariant -/

/-- The mode field names one of the seven modes (spec/10_state.md R104, R109). -/
def LegalMode (s : State) : Prop := (bankOf s.cpsr).isSome = true

/-- The pc is aligned for the instruction set in force (spec/10_state.md R114, R115). -/
def PcAligned (s : State) : Prop := s.pc.toNat % (if s.thumb then 2 else 4) = 0

/-- The alignment the block promises for a port operation (spec/20_memory.md R201): an even address
for a halfword, a multiple of four for a word. -/
def AlignedOp : PortOp → Prop
  | .load w a _ => a.toNat % w.bytes = 0
  | .store w a _ _ => a.toNat % w.bytes = 0

/-- Every port operation of the call is aligned (spec/20_memory.md R201). -/
def AlignedPort (s : State) : Prop := ∀ op ∈ s.portLog, AlignedOp op

/-- The invariant of the machine: a legal mode, an aligned pc, aligned port operations, and memory in its
canonical form. -/
structure Sound (s : State) : Prop where
  mode   : LegalMode s
  pc     : PcAligned s
  port   : AlignedPort s
  memory : s.mem.wf = true

/-! ## When an instruction runs -/

/-- An ARM instruction whose condition passes, in ARM state (spec/40_operands_flags.md R400). -/
def ArmReady (c : Cond) (s : State) : Prop := s.thumb = false ∧ condHolds c s.cpsr = true

/-- Thumb state. -/
def ThumbReady (s : State) : Prop := s.thumb = true

/-- The UNPREDICTABLE cases of an instruction in the order its rule checks them: is the case met, and
its number (spec/40_operands_flags.md R413). -/
abbrev Checks := List (Bool × UCase)

/-- No case stops the instruction: UNPRED_MODE = reference, or none is met (R413). -/
def Clear (cs : Checks) (s : State) : Prop :=
  s.params.unpredMode = .reference ∨ ∀ k ∈ cs, k.1 = false

/-- The case `u` stops the instruction: UNPRED_MODE = fault, and `u` is the first case met (R413). -/
def StopsAt (cs : Checks) (s : State) (u : UCase) : Prop :=
  s.params.unpredMode = .fault ∧ (cs.find? fun k => k.1).map Prod.snd = some u

/-- The instruction `i` runs as `run` says where no case stops it, and ends in the fault of the case that
stops it (R413). -/
def Guarded (i : Instr) (cs : Checks) (s : State) (run : Prop) : Prop :=
  (Clear cs s → run) ∧ ∀ u, StopsAt cs s u → exec i s = .fault (.unpredictable u)

/-- The condition of an ARM instruction; none for the Thumb instructions. -/
def conditionOf : Instr → Option Cond
  | .bx c _ => some c
  | .mul c _ _ _ _ _ => some c
  | .mla c _ _ _ _ _ => some c
  | .umull c _ _ _ _ _ => some c
  | .umlal c _ _ _ _ _ => some c
  | .smull c _ _ _ _ _ => some c
  | .smlal c _ _ _ _ _ => some c
  | .swp c _ _ _ => some c
  | .swpb c _ _ _ => some c
  | .strhReg c _ _ _ _ _ _ => some c
  | .ldrhReg c _ _ _ _ _ _ => some c
  | .ldrsbReg c _ _ _ _ _ _ => some c
  | .ldrshReg c _ _ _ _ _ _ => some c
  | .strhImm c _ _ _ _ _ _ _ => some c
  | .ldrhImm c _ _ _ _ _ _ _ => some c
  | .ldrsbImm c _ _ _ _ _ _ _ => some c
  | .ldrshImm c _ _ _ _ _ _ _ => some c
  | .undefMul c => some c
  | .mrs c _ _ => some c
  | .msrReg c _ _ _ => some c
  | .undefMisc c => some c
  | .msrImm c _ _ _ _ => some c
  | .undefMsrImm c => some c
  | .andShiftImm c _ _ _ _ _ _ => some c
  | .eorShiftImm c _ _ _ _ _ _ => some c
  | .subShiftImm c _ _ _ _ _ _ => some c
  | .rsbShiftImm c _ _ _ _ _ _ => some c
  | .addShiftImm c _ _ _ _ _ _ => some c
  | .adcShiftImm c _ _ _ _ _ _ => some c
  | .sbcShiftImm c _ _ _ _ _ _ => some c
  | .rscShiftImm c _ _ _ _ _ _ => some c
  | .tstShiftImm c _ _ _ _ _ => some c
  | .teqShiftImm c _ _ _ _ _ => some c
  | .cmpShiftImm c _ _ _ _ _ => some c
  | .cmnShiftImm c _ _ _ _ _ => some c
  | .orrShiftImm c _ _ _ _ _ _ => some c
  | .movShiftImm c _ _ _ _ _ => some c
  | .bicShiftImm c _ _ _ _ _ _ => some c
  | .mvnShiftImm c _ _ _ _ _ => some c
  | .andShiftReg c _ _ _ _ _ _ => some c
  | .eorShiftReg c _ _ _ _ _ _ => some c
  | .subShiftReg c _ _ _ _ _ _ => some c
  | .rsbShiftReg c _ _ _ _ _ _ => some c
  | .addShiftReg c _ _ _ _ _ _ => some c
  | .adcShiftReg c _ _ _ _ _ _ => some c
  | .sbcShiftReg c _ _ _ _ _ _ => some c
  | .rscShiftReg c _ _ _ _ _ _ => some c
  | .tstShiftReg c _ _ _ _ _ => some c
  | .teqShiftReg c _ _ _ _ _ => some c
  | .cmpShiftReg c _ _ _ _ _ => some c
  | .cmnShiftReg c _ _ _ _ _ => some c
  | .orrShiftReg c _ _ _ _ _ _ => some c
  | .movShiftReg c _ _ _ _ _ => some c
  | .bicShiftReg c _ _ _ _ _ _ => some c
  | .mvnShiftReg c _ _ _ _ _ => some c
  | .andImm c _ _ _ _ _ => some c
  | .eorImm c _ _ _ _ _ => some c
  | .subImm c _ _ _ _ _ => some c
  | .rsbImm c _ _ _ _ _ => some c
  | .addImm c _ _ _ _ _ => some c
  | .adcImm c _ _ _ _ _ => some c
  | .sbcImm c _ _ _ _ _ => some c
  | .rscImm c _ _ _ _ _ => some c
  | .tstImm c _ _ _ _ => some c
  | .teqImm c _ _ _ _ => some c
  | .cmpImm c _ _ _ _ => some c
  | .cmnImm c _ _ _ _ => some c
  | .orrImm c _ _ _ _ _ => some c
  | .movImm c _ _ _ _ => some c
  | .bicImm c _ _ _ _ _ => some c
  | .mvnImm c _ _ _ _ => some c
  | .undefMedia c => some c
  | .strtImm c _ _ _ _ => some c
  | .ldrtImm c _ _ _ _ => some c
  | .strbtImm c _ _ _ _ => some c
  | .ldrbtImm c _ _ _ _ => some c
  | .strImm c _ _ _ _ _ _ => some c
  | .ldrImm c _ _ _ _ _ _ => some c
  | .strbImm c _ _ _ _ _ _ => some c
  | .ldrbImm c _ _ _ _ _ _ => some c
  | .strtReg c _ _ _ _ _ _ => some c
  | .ldrtReg c _ _ _ _ _ _ => some c
  | .strbtReg c _ _ _ _ _ _ => some c
  | .ldrbtReg c _ _ _ _ _ _ => some c
  | .strReg c _ _ _ _ _ _ _ _ => some c
  | .ldrReg c _ _ _ _ _ _ _ _ => some c
  | .strbReg c _ _ _ _ _ _ _ _ => some c
  | .ldrbReg c _ _ _ _ _ _ _ _ => some c
  | .stmUser c _ _ _ _ _ => some c
  | .ldmRestore c _ _ _ _ _ => some c
  | .ldmUser c _ _ _ _ _ => some c
  | .stm c _ _ _ _ _ => some c
  | .ldm c _ _ _ _ _ => some c
  | .b c _ => some c
  | .bl c _ => some c
  | .stc c _ _ _ _ _ _ _ _ => some c
  | .ldc c _ _ _ _ _ _ _ _ => some c
  | .cdp c _ _ _ _ _ _ => some c
  | .mcr c _ _ _ _ _ _ => some c
  | .mrc c _ _ _ _ _ _ => some c
  | .swi c _ => some c
  | _ => none

/-! ## What an instruction leaves -/

/-- The pc moved on by `w` bytes, no branch taken (spec/10_state.md R113). -/
def advanced (w : Word) (s : State) : State := { s.setX 15 (s.pc + w) with branched := false }

/-- The pc written: masked for the instruction set in force, the pipeline offset added back
(spec/10_state.md R114). -/
def jumped (a : Word) (s : State) : State :=
  { s.setX 15 (if s.thumb then (a &&& 0xFFFFFFFE) + 4 else (a &&& 0xFFFFFFFC) + 8) with branched := true }

/-- A register written by an instruction: R15 is the pc write (spec/10_state.md R102). -/
def put (r : Reg) (v : Word) (s : State) : State := if r = 15 then jumped v s else s.setX r v

/-- The status replaced, no bank switched. -/
def withStatus (st : Word) (s : State) : State := { s with cpsr := st }

/-- The four flags of a status value replaced, bits 27:0 kept (spec/40_operands_flags.md R411). -/
def withFlags (st : Word) (n z c v : Bool) : Word :=
  BitVec.ofBool n ++ BitVec.ofBool z ++ BitVec.ofBool c ++ BitVec.ofBool v ++ st.extractLsb' 0 28

/-- N and Z of a result, C and V given. -/
def flagsOf (st r : Word) (c v : Bool) : Word := withFlags st r.msb (r == 0) c v

/-- Does an exact signed result lie outside the 32-bit range (spec/40_operands_flags.md R409)? -/
def outOfRange (v : Int) : Bool := decide (v < -2147483648 ∨ 2147483647 < v)

/-- The exact sum narrowed to 32 bits. -/
def exactSum (a b : Word) (cin : Bool) : Word := BitVec.ofNat 32 (a.toNat + b.toNat + cin.toNat)

/-- The status after an addition: carry out of 32 bits, signed overflow (R409, R411). -/
def sumStatus (st a b : Word) (cin : Bool) : Word :=
  flagsOf st (exactSum a b cin) (decide (4294967296 ≤ a.toNat + b.toNat + cin.toNat))
    (outOfRange (a.toInt + b.toInt + cin.toNat))

/-- The exact difference a - b - (1 - cin) narrowed to 32 bits. -/
def exactDiff (a b : Word) (cin : Bool) : Word := BitVec.ofInt 32 (a.toInt - b.toInt - (!cin).toNat)

/-- The status after a subtraction: C is NOT borrow (R410, R411). -/
def diffStatus (st a b : Word) (cin : Bool) : Word :=
  flagsOf st (exactDiff a b cin) (decide (b.toNat + (!cin).toNat ≤ a.toNat))
    (outOfRange (a.toInt - b.toInt - (!cin).toNat))

/-- The status after a logical operation: C from the shifter, V kept (R411). -/
def logicStatus (st r : Word) (sc : Bool) : Word := flagsOf st r sc (st.getLsbD 28)

/-- The status after an operation that writes N and Z only. -/
def nzStatus (st r : Word) : Word := flagsOf st r (st.getLsbD 29) (st.getLsbD 28)

/-- What an operation on `a`, operand2 `b`, the shifter carry-out `sc` and the status `st` gives: the
result and the status a flag-setting form leaves (spec/41_data_processing.md R451 to R466). -/
abbrev Operation := Word → Word → Bool → Word → Word × Word

/-- AND, TST (R451, R459). -/
def andOp : Operation := fun a b sc st => (a &&& b, logicStatus st (a &&& b) sc)
/-- EOR, TEQ (R452, R460). -/
def eorOp : Operation := fun a b sc st => (a ^^^ b, logicStatus st (a ^^^ b) sc)
/-- SUB, CMP (R453, R461). -/
def subOp : Operation := fun a b _ st => (exactDiff a b true, diffStatus st a b true)
/-- RSB (R454). -/
def rsbOp : Operation := fun a b _ st => (exactDiff b a true, diffStatus st b a true)
/-- ADD, CMN (R455, R462). -/
def addOp : Operation := fun a b _ st => (exactSum a b false, sumStatus st a b false)
/-- ADC (R456). -/
def adcOp : Operation := fun a b _ st =>
  (exactSum a b (st.getLsbD 29), sumStatus st a b (st.getLsbD 29))
/-- SBC (R457). -/
def sbcOp : Operation := fun a b _ st =>
  (exactDiff a b (st.getLsbD 29), diffStatus st a b (st.getLsbD 29))
/-- RSC (R458). -/
def rscOp : Operation := fun a b _ st =>
  (exactDiff b a (st.getLsbD 29), diffStatus st b a (st.getLsbD 29))
/-- ORR (R463). -/
def orrOp : Operation := fun a b sc st => (a ||| b, logicStatus st (a ||| b) sc)
/-- MOV (R464). -/
def movOp : Operation := fun _ b sc st => (b, logicStatus st b sc)
/-- BIC (R465). -/
def bicOp : Operation := fun a b sc st => (a &&& ~~~b, logicStatus st (a &&& ~~~b) sc)
/-- MVN (R466). -/
def mvnOp : Operation := fun _ b sc st => (~~~b, logicStatus st (~~~b) sc)

/-- The register R15 read in a data-processing instruction with a register shift
(spec/40_operands_flags.md R407). -/
def shiftRead (s : State) (r : Reg) : Word :=
  if r = 15 then s.pc + (if s.params.pcRshiftOffset = .twelve then 4 else 0) else s.reg r

/-- The value stored for a register: R15 as R408 of spec/40_operands_flags.md says. -/
def storeRead (s : State) (r : Reg) : Word :=
  if r = 15 then s.pc + (if s.params.pcStoreOffset = .twelve then 4 else 0) else s.reg r

/-- The value STM^ stores for a register: the User-mode register, R15 as R408 says
(spec/44_block_transfer.md R603). -/
def userStoreRead (s : State) (r : Reg) : Word := if r = 15 then storeRead s 15 else s.user r

/-- A status value with T set to `b`, the other 31 bits kept. -/
def withT (st : Word) (b : Bool) : Word := st.extractLsb' 6 26 ++ BitVec.ofBool b ++ st.extractLsb' 0 5

/-- A status value with the bytes that the field mask names taken from `v`: the top byte in any mode, the
other three only when privileged (spec/47_status_system.md R753). -/
def fieldMerge (priv : Bool) (fm : BitVec 4) (old v : Word) : Word :=
  (if fm.getLsbD 3 then v.extractLsb' 24 8 else old.extractLsb' 24 8) ++
  (if priv && fm.getLsbD 2 then v.extractLsb' 16 8 else old.extractLsb' 16 8) ++
  (if priv && fm.getLsbD 1 then v.extractLsb' 8 8 else old.extractLsb' 8 8) ++
  (if priv && fm.getLsbD 0 then v.extractLsb' 0 8 else old.extractLsb' 0 8)

/-- The register H:n of a high-register Thumb form (spec/48_thumb_alu.md section 5). -/
def anyReg (h : Bool) (n : LowReg) : Reg := if h then ⟨n.val + 8, by omega⟩ else n.reg

/-- The instruction ends with register `rd` holding `v` and the status `st`, the pc moved on by `w`; when
`rd` is R15 the pc is written instead. -/
def Ends (i : Instr) (w : Word) (rd : Reg) (v st : Word) (s : State) : Prop :=
  exec i s = .next (withStatus st (put rd v (advanced w s)))

/-- The instruction ends with the status `st` and the pc moved on by `w`, no register written. -/
def EndsStatus (i : Instr) (w : Word) (st : Word) (s : State) : Prop :=
  exec i s = .next (withStatus st (advanced w s))

/-- MSR of the value `v`, `form` giving the instruction for R = 0 and R = 1: the merge into the saved status,
or into the status by LoadStatus after the advance (spec/47_status_system.md R751). -/
def WritesStatus (form : Bool → Instr) (fm : BitVec 4) (v : Word) (s : State) : Prop :=
  let new := fun old => fieldMerge (modeField s.cpsr != 0b10000) fm old v
  Guarded (form true) [(s.inUserBank, .u1)] s
    (exec (form true) s = .next { advanced 4 s with spsr := new s.spsr }) ∧
  Guarded (form false)
    [((bankOf (new s.cpsr)).isNone, .u2), ((new s.cpsr).getLsbD 5 != s.thumb, .u3)] s
    (exec (form false) s = .next ((advanced 4 s).loadStatus (new s.cpsr)))

/-! ## Data processing -/

/-- Operand2 of a data-processing instruction (spec/41_data_processing.md R450). -/
inductive Operand2 where
  | imm (rot : BitVec 4) (k : BitVec 8)
  | byImm (n : BitVec 5) (sh : Shift) (rm : Reg)
  | byReg (rs : Reg) (sh : Shift) (rm : Reg)
  deriving DecidableEq, Repr

/-- The value of operand2 and the shifter carry-out (spec/40_operands_flags.md R404 to R407). -/
def Operand2.value (o : Operand2) (s : State) : Word × Bool :=
  match o with
  | .imm rot k => shiftImmOperand rot k (s.cpsr.getLsbD 29)
  | .byImm n sh rm => shiftByImm sh n (s.reg rm) (s.cpsr.getLsbD 29)
  | .byReg rs sh rm =>
    shiftByReg sh ((shiftRead s rs).extractLsb' 0 8) (shiftRead s rm) (s.cpsr.getLsbD 29)

/-- The first operand, Rn, as this form of operand2 reads it (R407). -/
def Operand2.first (o : Operand2) (rn : Reg) (s : State) : Word :=
  match o with
  | .byReg _ _ _ => shiftRead s rn
  | _ => s.reg rn

/-- U4: the register-shift form names R15, in operand2 or in the fields `rs` (R450). -/
def Operand2.u4 (o : Operand2) (others : List Reg) : Bool :=
  match o with
  | .byReg rs _ rm => decide (15 ∈ rs :: rm :: others)
  | _ => false

/-- The instruction of one operation with this operand2, from its three constructors. -/
def dpForm (f : Cond → Bool → Reg → Reg → BitVec 4 → BitVec 8 → Instr)
    (g : Cond → Bool → Reg → Reg → BitVec 5 → Shift → Reg → Instr)
    (h : Cond → Bool → Reg → Reg → Reg → Shift → Reg → Instr) (c : Cond) (sf : Bool) (rn rd : Reg) :
    Operand2 → Instr
  | .imm rot k => f c sf rn rd rot k
  | .byImm n sh rm => g c sf rn rd n sh rm
  | .byReg rs sh rm => h c sf rn rd rs sh rm

/-- The same for MOV and MVN, which have no Rn. -/
def moveForm (f : Cond → Bool → Reg → BitVec 4 → BitVec 8 → Instr)
    (g : Cond → Bool → Reg → BitVec 5 → Shift → Reg → Instr)
    (h : Cond → Bool → Reg → Reg → Shift → Reg → Instr) (c : Cond) (sf : Bool) (rd : Reg) :
    Operand2 → Instr
  | .imm rot k => f c sf rd rot k
  | .byImm n sh rm => g c sf rd n sh rm
  | .byReg rs sh rm => h c sf rd rs sh rm

/-- The same for TST, TEQ, CMP and CMN, which always set the flags. -/
def testForm (f : Cond → Reg → Reg → BitVec 4 → BitVec 8 → Instr)
    (g : Cond → Reg → Reg → BitVec 5 → Shift → Reg → Instr)
    (h : Cond → Reg → Reg → Reg → Shift → Reg → Instr) (c : Cond) (rn rd : Reg) : Operand2 → Instr
  | .imm rot k => f c rn rd rot k
  | .byImm n sh rm => g c rn rd n sh rm
  | .byReg rs sh rm => h c rn rd rs sh rm

/-- The return from an exception: the saved status restored, then the pc written for the restored T
(R467). -/
def returned (a : Word) (s : State) : State := jumped a ((advanced 4 s).loadStatus s.spsr)

/-- What R450 and R467 say of the instruction `i` with result and status `r` and the U4 check `u4`. -/
def Processes (i : Instr) (u4 sf : Bool) (rd : Reg) (r : Word × Word) (s : State) : Prop :=
  if sf = true ∧ rd = 15 then
    Guarded i [(u4, .u4), (s.inUserBank, .u1), ((bankOf s.spsr).isNone, .u2)] s
      (exec i s = .next (returned r.1 s))
  else Guarded i [(u4, .u4)] s (Ends i 4 rd r.1 (if sf then r.2 else s.cpsr) s)

/-- What R450 and R468 say of a comparison `i` with the status `st` and the U4 check `u4`. -/
def ComparesTo (i : Instr) (u4 : Bool) (rd : Reg) (st : Word) (s : State) : Prop :=
  if rd = 15 then
    Guarded i [(u4, .u4), (true, .u22)] s (exec i s = .next ((advanced 4 s).loadStatus s.spsr))
  else Guarded i [(u4, .u4)] s (EndsStatus i 4 st s)

/-! ## Multiply -/

/-- N and Z written, V kept; C kept, or with MUL_CARRY = draw the next free bit (spec/45_multiply.md
R650). -/
def mulFlags (n z : Bool) (t : State) : State :=
  match t.params.mulCarry with
  | .unchanged => withStatus (withFlags t.cpsr n z (t.cpsr.getLsbD 29) (t.cpsr.getLsbD 28)) t
  | .draw =>
    { withStatus (withFlags t.cpsr n z (Config.freeCarry t.freeCount) (t.cpsr.getLsbD 28)) t with
      freeCount := t.freeCount + 1 }

/-- The end of a 32-bit multiply (R650, R651). -/
def mulEnd (w : Word) (sf : Bool) (rd : Reg) (r : Word) (s : State) : State :=
  let t := put rd r (advanced w s)
  if sf then mulFlags r.msb (r == 0) t else t

/-- The end of a 64-bit multiply: RdLo, then RdHi, then the flags (R652). -/
def mulLongEnd (sf : Bool) (rdHi rdLo : Reg) (r : BitVec 64) (s : State) : State :=
  let t := put rdHi (r.extractLsb' 32 32) (put rdLo (r.extractLsb' 0 32) (advanced 4 s))
  if sf then mulFlags r.msb (r == 0) t else t

/-- The accumulator RdHi:RdLo as a number (R653). -/
def accumulated (s : State) (rdHi rdLo : Reg) : Nat := (s.reg rdHi).toNat * 2 ^ 32 + (s.reg rdLo).toNat

/-- U11 of the long multiplies (R652). -/
def longOverlap (rdHi rdLo rs rm : Reg) : Bool :=
  decide (rdHi = rdLo ∨ rm = rdHi ∨ rm = rdLo ∨ 15 ∈ [rdHi, rdLo, rm, rs])

/-! ## Single transfers -/

/-- The offset of a word or byte transfer (spec/43_load_store.md R550, R551). -/
inductive Offset where
  | imm (n : BitVec 12)
  | reg (n : BitVec 5) (sh : Shift) (rm : Reg)
  deriving DecidableEq, Repr

/-- Its value (R550, R551). -/
def Offset.value (o : Offset) (s : State) : Word :=
  match o with
  | .imm n => BitVec.ofNat 32 n.toNat
  | .reg n sh rm => (shiftByImm sh n (s.reg rm) (s.cpsr.getLsbD 29)).1

/-- U9: the register of the offset is R15 (R551). -/
def Offset.isPc : Offset → Bool
  | .imm _ => false
  | .reg _ _ rm => rm == 15

/-- The instruction with this offset, from its two constructors. -/
def offsetForm (f : Cond → Bool → Bool → Bool → Reg → Reg → BitVec 12 → Instr)
    (g : Cond → Bool → Bool → Bool → Reg → Reg → BitVec 5 → Shift → Reg → Instr) (c : Cond)
    (p u w : Bool) (rn rd : Reg) : Offset → Instr
  | .imm n => f c p u w rn rd n
  | .reg n sh rm => g c p u w rn rd n sh rm

/-- The T form with this offset, from its two constructors. -/
def userForm (f : Cond → Bool → Reg → Reg → BitVec 12 → Instr)
    (g : Cond → Bool → Reg → Reg → BitVec 5 → Shift → Reg → Instr) (c : Cond) (u : Bool) (rn rd : Reg) :
    Offset → Instr
  | .imm n => f c u rn rd n
  | .reg n sh rm => g c u rn rd n sh rm

/-- The offset of a halfword or signed transfer (R561). -/
inductive HalfOffset where
  | imm (high low : BitVec 4)
  | reg (rm : Reg)
  deriving DecidableEq, Repr

/-- Its value (R561). -/
def HalfOffset.value (o : HalfOffset) (s : State) : Word :=
  match o with
  | .imm high low => BitVec.ofNat 32 (16 * high.toNat + low.toNat)
  | .reg rm => s.reg rm

/-- U9: the register of the offset is R15 (R561). -/
def HalfOffset.isPc : HalfOffset → Bool
  | .imm _ _ => false
  | .reg rm => rm == 15

/-- The halfword or signed instruction with this offset, from its two constructors. -/
def halfForm (f : Cond → Bool → Bool → Bool → Reg → Reg → BitVec 4 → BitVec 4 → Instr)
    (g : Cond → Bool → Bool → Bool → Reg → Reg → Reg → Instr) (c : Cond) (p u w : Bool) (rn rd : Reg) :
    HalfOffset → Instr
  | .imm high low => f c p u w rn rd high low
  | .reg rm => g c p u w rn rd rm

/-- After the access: the pc moved on and, with writeback, the base written (R566). -/
def transferEnd (w : Word) (wback : Bool) (rn : Reg) (newb : Word) (t : State) : State :=
  if wback then put rn newb (advanced w t) else advanced w t

/-- The state a failed access of a transfer leaves (R566, spec/60_exceptions.md R904): the data abort, the
base written first with ABORT_BASE = updated. -/
def aborted (wback : Bool) (rn : Reg) (newb : Word) (t : State) : State :=
  if t.params.abortBase = .updated ∧ wback = true ∧ rn ≠ 15 then (t.setX rn newb).raiseDataAbort
  else t.raiseDataAbort

/-- The instruction loads from `addr`: where the port answers `v`, register `rd` receives `fix v` after
the writeback; where the port fails, the data abort is taken (R553, R566). -/
def Loads (i : Instr) (w : Word) (width : Width) (addr : Word) (wback : Bool) (rn : Reg) (newb : Word)
    (rd : Reg) (fix : Word → Word) (s : State) : Prop :=
  (∀ v t, s.portLoad width (width.align addr) = (some v, t) →
    exec i s = .next (put rd (fix v) (transferEnd w wback rn newb t))) ∧
  ∀ t, s.portLoad width (width.align addr) = (none, t) → exec i s = .next (aborted wback rn newb t)

/-- The instruction stores `v` at `addr`: where the port accepts it the writeback follows; where the
port fails, the data abort is taken (R555, R566). -/
def Stores (i : Instr) (w : Word) (width : Width) (addr : Word) (wback : Bool) (rn : Reg) (newb v : Word)
    (s : State) : Prop :=
  (∀ t, s.portStore width (width.align addr) v = (true, t) →
    exec i s = .next (transferEnd w wback rn newb t)) ∧
  ∀ t, s.portStore width (width.align addr) v = (false, t) → exec i s = .next (aborted wback rn newb t)

/-- A word rotated right by eight times the low two address bits (spec/20_memory.md R203). -/
def rotated (addr v : Word) : Word := v.rotateRight (8 * (addr.toNat % 4))

/-- A halfword as LDRH gives it (R562). -/
def halfRead (s : State) (addr h : Word) : Word :=
  if addr.toNat % 2 = 1 ∧ s.params.halfwordMisaligned = .rotate then h.rotateRight 8 else h

/-- A halfword as LDRSH gives it (R565). -/
def signedHalfRead (s : State) (addr h : Word) : Word :=
  if addr.toNat % 2 = 1 ∧ s.params.halfwordMisaligned = .rotate
  then (h.extractLsb' 8 8).signExtend 32 else (h.extractLsb' 0 16).signExtend 32

/-- A byte sign-extended (R564). -/
def signedByte (v : Word) : Word := (v.extractLsb' 0 8).signExtend 32

/-- Is the address odd? U15 of the halfword loads (R562). -/
def isOdd (addr : Word) : Bool := decide (addr.toNat % 2 = 1)

/-- The base after indexing (R552). -/
def newBase (u : Bool) (base offset : Word) : Word := if u then base + offset else base - offset

/-- The address accessed (R552). -/
def accessAt (p u : Bool) (base offset : Word) : Word := if p then newBase u base offset else base

/-- Is the base written back (R552)? -/
def isWriteback (p w : Bool) : Bool := !p || w

/-- U9 of the writeback: the base is R15 or the transferred register (R552). -/
def baseClash (wback : Bool) (rn rd : Reg) : Bool := wback && (rn == 15 || rn == rd)

/-- The live bank's own slots made equal to the live registers. Those slots are stale while the bank is
live: "no rule reads them" (spec/10_state.md R107). Two states that agree after this agree on everything
a rule reads. -/
def settled (s : State) : State := s.saveBank

/-- The instruction ends in a state that agrees with `t` on everything a rule reads. -/
def EndsLike (i : Instr) (s t : State) : Prop := ∃ t', exec i s = .next t' ∧ settled t' = settled t

/-- A T form loads as the post-indexed form does (R557). -/
def UserLoads (i : Instr) (width : Width) (addr : Word) (rn : Reg) (newb : Word) (rd : Reg)
    (fix : Word → Word) (s : State) : Prop :=
  (∀ v t, s.portLoad width (width.align addr) = (some v, t) →
    EndsLike i s (put rd (fix v) (transferEnd 4 true rn newb t))) ∧
  ∀ t, s.portLoad width (width.align addr) = (none, t) → EndsLike i s (aborted true rn newb t)

/-- A T form stores as the post-indexed form does (R559). -/
def UserStores (i : Instr) (width : Width) (addr : Word) (rn : Reg) (newb v : Word) (s : State) : Prop :=
  (∀ t, s.portStore width (width.align addr) v = (true, t) →
    EndsLike i s (transferEnd 4 true rn newb t)) ∧
  ∀ t, s.portStore width (width.align addr) v = (false, t) → EndsLike i s (aborted true rn newb t)

/-- SWP and SWPB with the address `addr` and the value `src` (spec/46_swap.md R700, R701). -/
def Swaps (i : Instr) (width : Width) (addr src : Word) (rd : Reg) (fix : Word → Word) (s : State) : Prop :=
  (∀ v t t', s.portLoad width (width.align addr) = (some v, t) →
    t.portStore width (width.align addr) src = (true, t') →
    exec i s = .next (put rd (fix v) (advanced 4 t'))) ∧
  (∀ t, s.portLoad width (width.align addr) = (none, t) → exec i s = .next t.raiseDataAbort) ∧
  ∀ v t t', s.portLoad width (width.align addr) = (some v, t) →
    t.portStore width (width.align addr) src = (false, t') → exec i s = .next t'.raiseDataAbort

/-! ## Block transfers -/

/-- The registers a list names, lowest first (spec/44_block_transfer.md R600). -/
def named (list : BitVec 16) : List Reg := (List.finRange 16).filter fun r => list.getLsbD r.val

/-- How many registers a list names (R600). -/
def listCount (list : BitVec 16) : Nat := (named list).length

/-- The lowest address of a block transfer of `n` registers, before the mask (R600). -/
def lowestAddr (p u : Bool) (base : Word) (n : Nat) : Word :=
  let bytes := BitVec.ofNat 32 (4 * n)
  if u then (if p then base + 4 else base) else (if p then base - bytes else base - bytes + 4)

/-- The base after a block transfer of `n` registers (R600). -/
def blockBase (u : Bool) (base : Word) (n : Nat) : Word :=
  if u then base + BitVec.ofNat 32 (4 * n) else base - BitVec.ofNat 32 (4 * n)

/-- The word addresses of a block transfer of `n` registers from `start` (R600). -/
def wordAddrs (start : Word) (n : Nat) : List Word :=
  (List.range n).map fun k => BitVec.ofNat 32 (start.toNat / 4 * 4 + 4 * k)

/-- The registers written in the order of the list, R15 by the pc write (R601). -/
def putAll (ps : List (Reg × Word)) (s : State) : State := ps.foldl (fun t p => put p.1 p.2 t) s

/-- The User-mode registers written in the order of the list (R604). -/
def putUser (ps : List (Reg × Word)) (s : State) : State := ps.foldl (fun t p => t.writeUser p.1 p.2) s

/-- The status restore of LDM^ with R15: the other registers, the saved status where the bank has one,
then the pc (R605). -/
def putRestore (ps : List (Reg × Word)) (s : State) : State :=
  let others := ps.filter fun p => p.1 ≠ 15
  let t := if s.params.ldmSPcBank = .user then putUser others s else putAll others s
  let t' := if t.inUserBank then t else t.loadStatus t.spsr
  jumped ((ps.getLast?.map Prod.snd).getD 0) t'

/-- The state a failed access of a block transfer leaves (R608). -/
def blockAborted (w : Bool) (rn : Reg) (newb : Word) (t : State) : State :=
  if t.params.abortBase = .updated ∧ w = true then (put rn newb t).raiseDataAbort else t.raiseDataAbort

/-- The instruction loads the words at `as` in order, writes the base back when `w`, then gives the
registers `regs` the words by `done`; a failed read is the data abort (R601, R608). -/
def LoadsBlock (i : Instr) (width : Word) (as : List Word) (regs : List Reg) (w : Bool) (rn : Reg)
    (newb : Word) (done : List (Reg × Word) → State → State) (s : State) : Prop :=
  (∀ vs t, s.loadWords as = (some vs, t) →
    exec i s = .next (done (regs.zip vs) (transferEnd width w rn newb t))) ∧
  ∀ t, s.loadWords as = (none, t) → exec i s = .next (blockAborted w rn newb t)

/-- The instruction stores the words `vs` at `as` in order and writes the base back when `w`; a failed
write is the data abort, the stores before it made (R602, R608). -/
def StoresBlock (i : Instr) (width : Word) (as vs : List Word) (w : Bool) (rn : Reg) (newb : Word)
    (s : State) : Prop :=
  (∀ t, s.storeWords (as.zip vs) = (true, t) → exec i s = .next (transferEnd width w rn newb t)) ∧
  ∀ t, s.storeWords (as.zip vs) = (false, t) → exec i s = .next (blockAborted w rn newb t)

/-- The list of PUSH and POP: R0 to R7 and, with R = 1, register `extra` (spec/49_thumb_memory_branch.md
R867, R868). -/
def withExtra (list : BitVec 8) (r : Bool) (extra : Nat) : BitVec 16 :=
  BitVec.ofNat 16 (list.toNat + if r then 2 ^ extra else 0)

/-! ## What an instruction stores to -/

/-- The bytes a transfer of this width at `addr` touches: the aligned address and the width. -/
def span (width : Width) (addr : Word) : List (Nat × Nat) := [((width.align addr).toNat, width.bytes)]

/-- The spans of a block store of `n` words from the lowest address `start`. -/
def blockSpan (start : Word) (n : Nat) : List (Nat × Nat) := (wordAddrs start n).map fun a => (a.toNat, 4)

/-- The bytes a block store to the list touches; an empty list stores one word and counts as 16 in the
address (R607). -/
def listSpan (p u : Bool) (base : Word) (list : BitVec 16) : List (Nat × Nat) :=
  if list = 0 then blockSpan (lowestAddr p u base 16) 1
  else blockSpan (lowestAddr p u base (listCount list)) (listCount list)

/-- The addresses and lengths an instruction stores to in the state `s`, from the rule of each storing
form; every other instruction stores nothing. -/
def storeSpans (i : Instr) (s : State) : List (Nat × Nat) :=
  match i with
  | .strImm _ p u _ rn _ n => span .word (accessAt p u (s.reg rn) (Offset.imm n |>.value s))
  | .strReg _ p u _ rn _ n sh rm => span .word (accessAt p u (s.reg rn) (Offset.reg n sh rm |>.value s))
  | .strbImm _ p u _ rn _ n => span .byte (accessAt p u (s.reg rn) (Offset.imm n |>.value s))
  | .strbReg _ p u _ rn _ n sh rm => span .byte (accessAt p u (s.reg rn) (Offset.reg n sh rm |>.value s))
  | .strtImm _ _ rn _ _ => span .word (s.reg rn)
  | .strtReg _ _ rn _ _ _ _ => span .word (s.reg rn)
  | .strbtImm _ _ rn _ _ => span .byte (s.reg rn)
  | .strbtReg _ _ rn _ _ _ _ => span .byte (s.reg rn)
  | .strhImm _ p u _ rn _ h l => span .half (accessAt p u (s.reg rn) (HalfOffset.imm h l |>.value s))
  | .strhReg _ p u _ rn _ rm => span .half (accessAt p u (s.reg rn) (HalfOffset.reg rm |>.value s))
  | .swp _ rn _ _ => span .word (s.reg rn)
  | .swpb _ rn _ _ => span .byte (s.reg rn)
  | .stm _ p u _ rn list => listSpan p u (s.reg rn) list
  | .stmUser _ p u _ rn list => listSpan p u (s.reg rn) list
  | .tStrReg ro rb _ => span .word (s.reg rb.reg + s.reg ro.reg)
  | .tStrhReg ro rb _ => span .half (s.reg rb.reg + s.reg ro.reg)
  | .tStrbReg ro rb _ => span .byte (s.reg rb.reg + s.reg ro.reg)
  | .tStrImm n rb _ => span .word (s.reg rb.reg + BitVec.ofNat 32 (4 * n.toNat))
  | .tStrbImm n rb _ => span .byte (s.reg rb.reg + BitVec.ofNat 32 n.toNat)
  | .tStrhImm n rb _ => span .half (s.reg rb.reg + BitVec.ofNat 32 (2 * n.toNat))
  | .tStrSp _ n => span .word (s.reg 13 + BitVec.ofNat 32 (4 * n.toNat))
  | .tPush r list => listSpan true false (s.reg 13) (withExtra list r 14)
  | .tStmia rb list => listSpan false true (s.reg rb.reg) (withExtra list false 0)
  | _ => []

/-- An address outside every span. -/
def Outside (spans : List (Nat × Nat)) (a : Nat) : Prop := ∀ p ∈ spans, a < p.1 ∨ p.1 + p.2 ≤ a

/-! ## Ends of a call -/

/-- The exceptions an instruction can enter, with their vectors (spec/60_exceptions.md R900). -/
def instrEntries : List (Mode × Word) := [(.und, 0x04), (.svc, 0x08), (.abt, 0x10)]

/-- `t` is in a privileged mode because an instruction of `s` entered an exception: the status, the saved
status and the pc are those of the entry (spec/60_exceptions.md R901). -/
def EnteredException (s t : State) : Prop :=
  ∃ e ∈ instrEntries, modeField t.cpsr = e.1.code ∧ t.thumb = false ∧ iBit t.cpsr = true ∧
    t.spsr = s.cpsr ∧ t.pc = e.2 + 8

/-- The state with UNPRED_MODE set. -/
def withUnpred (m : Sys2Proof.Config.UnpredMode) (s : State) : State :=
  { s with params := { s.params with unpredMode := m } }

end Sys2Proof.Safety
end

