-- ==== Sys2Proof/Certificates/Slice0/Obligations.lean ====
section
/-! DEFINITION. The statements for the provers. Each docstring names the rules of spec/ a statement
formalises; a clause that rests on a choice of the model names the log entry. -/

open Sys2Proof Sys2Proof.Machine Sys2Proof.Safety

/-! ## Encoding -/

/-- Words written out bit by bit from the encodings of spec/30_encoding.md decode to the instructions
they stand for (rows of R302 and R320). -/
def Obligations.WordsDecode : Prop :=
  decodeArm 0b11100000100000010000000100000010 = .addShiftImm .al false 1 0 2 .lsl 2 ∧
  decodeArm 0b11100101101100010000000000000100 = .ldrImm .al true true true 1 0 4 ∧
  decodeArm 0b11100001110100010000000010110010 = .ldrhImm .al true true false 1 0 0 2 ∧
  decodeArm 0b11101000111111011000000000000001 = .ldmRestore .al false true true 13 0x8001 ∧
  decodeArm 0b11100000111100010000001110010010 = .smlal .al true 1 0 3 2 ∧
  decodeArm 0b11100001001010011111000000000000 = .msrReg .al false 0b1001 0 ∧
  decodeArm 0b11101111000000000000000001100100 = .swi .al 0x64 ∧
  decodeArm 0b11100111111100000000000011110000 = .undefMedia .al ∧
  decodeThumb 0b0001100010001000 = .tAddReg 2 1 0 ∧
  decodeThumb 0b1011010100000011 = .tPush true 3 ∧
  decodeThumb 0b1101000000000010 = .tBcond .eq 2 ∧
  decodeThumb 0b1111100000000010 = .tBlSecond 2

/-- Decoding the bytes of an encoded well-formed instruction gives the instruction and the bytes after
it, with every operand at every value (R300, R302, R320). -/
def Obligations.DecodeEncode : Prop :=
  ∀ i rest, i.wf = true → decode i.set ((encode i).bytes ++ rest) = .ok (i, rest)

/-- Both classifications are total and never leave their instruction set: every word is a well-formed ARM
instruction, every halfword a well-formed Thumb instruction (R302, R320). -/
def Obligations.DecodeTotal : Prop :=
  (∀ w, (decodeArm w).wf = true ∧ (decodeArm w).set = .arm) ∧
  ∀ h, (decodeThumb h).wf = true ∧ (decodeThumb h).set = .thumb

/-! ## Reset, the host step and the invariant -/

/-- The value of every element after reset (spec/10_state.md R123). -/
def Obligations.ResetState : Prop :=
  (∀ r : Reg, r ≠ 15 → State.reset.reg r = 0) ∧ State.reset.pc = 0x00000008 ∧
  State.reset.cpsr = 0x000000D3 ∧ State.reset.spsr = 0 ∧
  (∀ b, State.reset.banks.get b = ⟨0, 0, 0⟩) ∧ (∀ k, (h : k < 5) → State.reset.fiqR[k] = 0) ∧
  State.reset.branched = false ∧ modeField State.reset.cpsr = Mode.svc.code ∧
  State.reset.thumb = false ∧ State.reset.currentAddr = 0

/-- The state after reset meets the invariant. The empty memory of reset is the model's choice (log
entry 1). -/
def Obligations.ResetIsSound : Prop := Sound State.reset

/-- The reset input, sampled first in every step and in any state, gives every element of R123 its reset
value and resets no memory (spec/70_reset_and_hazards.md R950). -/
def Obligations.ResetInput : Prop :=
  ∀ s, s.sample.reset = true → ∃ t, step s = .next t ∧ t.x = State.reset.x ∧ t.cpsr = 0x000000D3 ∧
    t.spsr = 0 ∧ (∀ b, t.banks.get b = ⟨0, 0, 0⟩) ∧ t.fiqR = State.reset.fiqR ∧ t.branched = false ∧
    t.pc = 0x00000008 ∧ t.mem = s.mem ∧ t.regions = s.regions ∧ t.portLog = []

/-- When the bytes at the current instruction address are plain memory and decode to `i`, and no request
line is taken, a step is `exec` of `i` in that state: the sample consumed, the fetch alone in the port log,
`branched` cleared (spec/60_exceptions.md R910, spec/20_memory.md R205). The port log and the schedule of
samples are the model's (log entries 3 and 4). -/
def Obligations.StepRunsDecoded : Prop :=
  ∀ s i, s.sample.reset = false → (s.sample.fiq = false ∨ fBit s.cpsr = true) →
    (s.sample.irq = false ∨ iBit s.cpsr = true) →
    let w : Width := if s.thumb then .half else .word
    let a := w.align s.currentAddr
    (∀ r ∈ s.regions, r.touches a.toNat w.bytes = false) →
    decode (if s.thumb then .thumb else .arm)
      ((List.range w.bytes).map fun k => s.mem.read (a.toNat + k)) = .ok (i, []) →
    step s = exec i
      { s with inputs := s.inputs.tail, portLog := [.load w a true], branched := false }

/-- Interrupts are taken between instructions, FIQ before IRQ, each where its line is asserted and its mask
bit is clear, with the link A + 4 (R910, R911). -/
def Obligations.InterruptOrder : Prop :=
  ∀ s, LegalMode s → s.sample.reset = false →
    (s.sample.fiq = true → fBit s.cpsr = false → ∃ t, step s = .next t ∧
      modeField t.cpsr = 0b10001 ∧ iBit t.cpsr = true ∧ fBit t.cpsr = true ∧ t.thumb = false ∧
      t.spsr = s.cpsr ∧ t.reg 14 = s.currentAddr + 4 ∧ t.pc = 0x1C + 8 ∧ t.branched = true ∧
      t.mem = s.mem ∧ t.portLog = []) ∧
    ((s.sample.fiq = false ∨ fBit s.cpsr = true) → s.sample.irq = true → iBit s.cpsr = false →
      ∃ t, step s = .next t ∧ modeField t.cpsr = 0b10010 ∧ iBit t.cpsr = true ∧
        fBit t.cpsr = fBit s.cpsr ∧ t.thumb = false ∧ t.spsr = s.cpsr ∧
        t.reg 14 = s.currentAddr + 4 ∧ t.pc = 0x18 + 8 ∧ t.branched = true ∧ t.mem = s.mem ∧
        t.portLog = [])

/-- A failed fetch takes the prefetch abort: no instruction executes, the link is A + 4 in both states
(R906). -/
def Obligations.PrefetchAbort : Prop :=
  ∀ s, LegalMode s → s.sample.reset = false → (s.sample.fiq = false ∨ fBit s.cpsr = true) →
    (s.sample.irq = false ∨ iBit s.cpsr = true) →
    s.loadFails s.fetchWidth (s.fetchWidth.align s.currentAddr) = true →
    ∃ t, step s = .next t ∧ modeField t.cpsr = 0b10111 ∧ iBit t.cpsr = true ∧
      fBit t.cpsr = fBit s.cpsr ∧ t.thumb = false ∧ t.spsr = s.cpsr ∧
      t.reg 14 = s.currentAddr + 4 ∧ t.pc = 0x0C + 8 ∧ t.branched = true ∧ t.mem = s.mem ∧
      ∀ r : Reg, r.val < 8 → t.reg r = s.reg r

/-- Every step keeps the invariant: a legal mode (R109), a pc aligned for the instruction set in force
(R115), port operations at aligned addresses (R201), memory in its canonical form. -/
def Obligations.StepKeepsInv : Prop := ∀ s t, Sound s → step s = .next t → Sound t

/-- No step is refused, and with UNPRED_MODE = reference the only stop is the empty register list of
EMPTY_RLIST = fault: ordinary data never ends a run (spec/00_scope.md R7, R20). -/
def Obligations.StepAnswers : Prop :=
  (∀ s r, step s ≠ .refused r) ∧
  (∀ s, s.params.unpredMode = .reference → s.params.emptyRlist = .arm7tdmi → ∃ t, step s = .next t) ∧
  ∀ s, s.params.unpredMode = .reference →
    (∃ t, step s = .next t) ∨ step s = .fault .emptyRegisterList

/-- What one UNPRED_MODE answers the other answers: with `fault` an instruction either stops in an
UNPREDICTABLE case or ends as with `reference` (spec/40_operands_flags.md R413). -/
def Obligations.FaultModeRefines : Prop :=
  ∀ i s, (∃ u, exec i (withUnpred .fault s) = .fault (.unpredictable u)) ∨
    match exec i (withUnpred .reference s) with
    | .next t => exec i (withUnpred .fault s) = .next (withUnpred .fault t)
    | .fault f => exec i (withUnpred .fault s) = .fault f
    | .refused r => exec i (withUnpred .fault s) = .refused r

/-- An instruction that runs in User mode, no UNPREDICTABLE case met, leaves User mode only by entering an
exception (spec/60_exceptions.md R931). -/
def Obligations.UserGainsNoPrivilege : Prop :=
  ∀ i s t, modeField s.cpsr = Mode.usr.code → s.params.unpredMode = .fault → exec i s = .next t →
    modeField t.cpsr = Mode.usr.code ∨ EnteredException s t

/-- No step changes the port's map or the open parameters, every step consumes one sample, and the count of
free values never falls. These fields are the model's own (log entries 2, 4, 5 and 6). -/
def Obligations.StepKeepsPort : Prop :=
  ∀ s t, step s = .next t → t.params = s.params ∧ t.regions = s.regions ∧ t.inputs = s.inputs.tail ∧
    s.freeCount ≤ t.freeCount

/-- Every instruction that ends in a next state leaves every byte of memory outside the bytes its form
stores to; a form that stores nothing leaves all of memory (spec/20_memory.md R204, R207). -/
def Obligations.MemoryFrame : Prop :=
  ∀ i s t, s.mem.wf = true → exec i s = .next t →
    ∀ a, Outside (storeSpans i s) a → t.mem.read a = s.mem.read a

/-! ## Registers, status and banks -/

/-- LoadStatus (spec/10_state.md R108): within a bank only the status changes; between two banks R13, R14
and the saved status are exchanged with the slots, and R8 to R12 with `fiq_r` when FIQ is one of the two. An
invalid mode is replaced by the current one (R109). -/
def Obligations.LoadStatus : Prop :=
  ∀ s next bo, bankOf s.cpsr = some bo →
    (bankOf next = none →
      s.loadStatus next = withStatus (next.extractLsb' 5 27 ++ modeField s.cpsr) s) ∧
    (bankOf next = some bo → s.loadStatus next = withStatus next s) ∧
    ∀ bi, bankOf next = some bi → bi ≠ bo →
      let t := s.loadStatus next
      t.cpsr = next ∧ t.reg 13 = (s.banks.get bi).r13 ∧ t.reg 14 = (s.banks.get bi).r14 ∧
      t.spsr = (s.banks.get bi).spsr ∧
      t.banks = s.banks.set bo ⟨s.reg 13, s.reg 14, s.spsr⟩ ∧
      (∀ k, (h : k < 5) → t.x[8 + k] = (if bo = .fiq ∨ bi = .fiq then s.fiqR[k] else s.x[8 + k]) ∧
        t.fiqR[k] = (if bo = .fiq ∨ bi = .fiq then s.x[8 + k] else s.fiqR[k])) ∧
      (∀ r : Reg, r.val < 8 ∨ r = 15 → t.reg r = s.reg r) ∧ t.branched = s.branched ∧
      t.mem = s.mem ∧ t.portLog = s.portLog ∧ t.inputs = s.inputs ∧ t.freeCount = s.freeCount

/-- Switching to another mode and back restores every register, the saved status and the status; the
whole state is as it was but for the stale slots of the live bank (R121, the spec's own inference: "[derived:
from rule R108]"). -/
def Obligations.ModeRoundTrip : Prop :=
  ∀ s next, LegalMode s → (bankOf next).isSome = true →
    let t := (s.loadStatus next).loadStatus s.cpsr
    (∀ r, t.reg r = s.reg r) ∧ t.spsr = s.spsr ∧ t.cpsr = s.cpsr ∧ t.fiqR = s.fiqR ∧
    settled t = settled s

/-- The User-mode view: reading or writing `user[i]` is what a switch to User mode, the access and the
switch back do (R111, the spec's own inference: "[derived: from rule R108, rule R110 and the round-trip
property of rule R121]"). -/
def Obligations.UserView : Prop :=
  ∀ s next, LegalMode s → modeField next = Mode.usr.code →
    (∀ r, s.user r = (s.loadStatus next).reg r) ∧
    (∀ r v, r ≠ 15 →
      settled (s.writeUser r v) = settled (((s.loadStatus next).setX r v).loadStatus s.cpsr)) ∧
    ∀ v, s.writeUser 15 v = jumped v s

/-- An exception entry (spec/60_exceptions.md R901): T clear, I set, F set when asked, the mode replaced
and every other status bit kept; the old status saved, the link and the vector written; the banks of
the two modes exchanged; R0 to R7 and memory left. -/
def Obligations.ExceptionEntry : Prop :=
  ∀ (s : State) (m : Mode) (v l : Word) (f : Bool) bo, bankOf s.cpsr = some bo →
    let t := s.enter m v l f
    t.cpsr = s.cpsr.extractLsb' 8 24 ++ 1#1 ++ BitVec.ofBool (f || s.cpsr.getLsbD 6) ++ 0#1 ++ m.code ∧
    t.spsr = s.cpsr ∧ t.reg 14 = l ∧ t.pc = (v &&& 0xFFFFFFFC) + 8 ∧ t.branched = true ∧
    t.reg 13 = (if m.bank = bo then s.reg 13 else (s.banks.get m.bank).r13) ∧
    t.banks = (if m.bank = bo then s.banks else s.banks.set bo ⟨s.reg 13, s.reg 14, s.spsr⟩) ∧
    (∀ k, (h : k < 5) →
      t.x[8 + k] = (if (bo = .fiq) = (m.bank = .fiq) then s.x[8 + k] else s.fiqR[k]) ∧
      t.fiqR[k] = (if (bo = .fiq) = (m.bank = .fiq) then s.fiqR[k] else s.x[8 + k])) ∧
    (∀ r : Reg, r.val < 8 → t.reg r = s.reg r) ∧ t.mem = s.mem ∧ t.portLog = s.portLog

/-- The pc rules: the current and the next instruction address (spec/10_state.md R112), advance (R113),
WritePC (R114), and the register write that sends R15 to WritePC (R102). -/
def Obligations.PcRules : Prop :=
  ∀ s, s.currentAddr = s.pc - (if s.thumb then 4 else 8) ∧
    s.nextAddr = s.pc - (if s.thumb then 2 else 4) ∧
    s.advance = s.setX 15 (s.pc + (if s.thumb then 2 else 4)) ∧
    (∀ a, s.writePC a = jumped a s) ∧
    (∀ a, (s.writePC a).currentAddr = a &&& (if s.thumb then 0xFFFFFFFE else 0xFFFFFFFC)) ∧
    ∀ r v, (s.writeReg r v).reg r = (if r = 15 then (s.writePC v).pc else v) ∧
      ∀ q, q ≠ r → (s.writeReg r v).reg q = s.reg q

/-! ## Conditions, shifter and flags -/

/-- The condition table (spec/40_operands_flags.md R402). -/
def Obligations.ConditionTable : Prop :=
  ∀ n z c v : Bool, ∀ rest : BitVec 28,
    let st : Word := BitVec.ofBool n ++ BitVec.ofBool z ++ BitVec.ofBool c ++ BitVec.ofBool v ++ rest
    (condHolds .eq st = true ↔ z = true) ∧ (condHolds .ne st = true ↔ z = false) ∧
    (condHolds .cs st = true ↔ c = true) ∧ (condHolds .cc st = true ↔ c = false) ∧
    (condHolds .mi st = true ↔ n = true) ∧ (condHolds .pl st = true ↔ n = false) ∧
    (condHolds .vs st = true ↔ v = true) ∧ (condHolds .vc st = true ↔ v = false) ∧
    (condHolds .hi st = true ↔ c = true ∧ z = false) ∧
    (condHolds .ls st = true ↔ c = false ∨ z = true) ∧
    (condHolds .ge st = true ↔ n = v) ∧ (condHolds .lt st = true ↔ n ≠ v) ∧
    (condHolds .gt st = true ↔ z = false ∧ n = v) ∧ (condHolds .le st = true ↔ z = true ∨ n ≠ v) ∧
    condHolds .al st = true ∧ condHolds .nv st = false

/-- An ARM instruction whose condition fails only advances, whatever it is: an undefined or coprocessor
encoding raises nothing, a register list is not checked (R403). -/
def Obligations.FailedConditionOnlyAdvances : Prop :=
  ∀ i c s, conditionOf i = some c → s.thumb = false → condHolds c s.cpsr = false →
    exec i s = .next (advanced 4 s)

/-- The rotated immediate (R404). -/
def Obligations.RotatedImmediate : Prop :=
  ∀ (rot : BitVec 4) (imm : BitVec 8) (c : Bool),
    let v := (shiftImmOperand rot imm c).1
    (∀ j, j < 32 → v.getLsbD j = imm.getLsbD ((j + 2 * rot.toNat) % 32)) ∧
    (shiftImmOperand rot imm c).2 = (if rot = 0 then c else v.getLsbD 31)

/-- The register shifted by an immediate: 32 and RRX where the amount field is 0 (R405). -/
def Obligations.ShiftByImmediate : Prop :=
  ∀ (n : BitVec 5) (m : Word) (c : Bool),
    let k := n.toNat
    (shiftByImm .lsl n m c = (BitVec.ofNat 32 (m.toNat * 2 ^ k), if k = 0 then c else m.getLsbD (32 - k))) ∧
    (shiftByImm .lsr n m c =
      if k = 0 then (0, m.msb) else (BitVec.ofNat 32 (m.toNat / 2 ^ k), m.getLsbD (k - 1))) ∧
    (shiftByImm .asr n m c =
      if k = 0 then (if m.msb then 0xFFFFFFFF else 0, m.msb)
      else (BitVec.ofInt 32 (m.toInt / 2 ^ k), m.getLsbD (k - 1))) ∧
    (k = 0 → shiftByImm .ror n m c =
      (BitVec.ofNat 32 ((if c then 2 ^ 31 else 0) + m.toNat / 2), m.getLsbD 0)) ∧
    (k ≠ 0 → (∀ j, j < 32 → (shiftByImm .ror n m c).1.getLsbD j = m.getLsbD ((j + k) % 32)) ∧
      (shiftByImm .ror n m c).2 = m.getLsbD (k - 1))

/-- The register shifted by a register amount of 0 to 255 (R406). -/
def Obligations.ShiftByRegister : Prop :=
  ∀ (n : BitVec 8) (m : Word) (c : Bool),
    let k := n.toNat
    (k = 0 → ∀ sh, shiftByReg sh n m c = (m, c)) ∧
    (k ≠ 0 →
      (shiftByReg .lsl n m c = if k ≤ 31 then (BitVec.ofNat 32 (m.toNat * 2 ^ k), m.getLsbD (32 - k))
        else (0, if k = 32 then m.getLsbD 0 else false)) ∧
      (shiftByReg .lsr n m c = if k ≤ 31 then (BitVec.ofNat 32 (m.toNat / 2 ^ k), m.getLsbD (k - 1))
        else (0, if k = 32 then m.msb else false)) ∧
      (shiftByReg .asr n m c =
        if k ≤ 31 then (BitVec.ofInt 32 (m.toInt / 2 ^ k), m.getLsbD (k - 1))
        else (if m.msb then 0xFFFFFFFF else 0, m.msb)) ∧
      (k % 32 = 0 → shiftByReg .ror n m c = (m, m.msb)) ∧
      (k % 32 ≠ 0 → (∀ j, j < 32 → (shiftByReg .ror n m c).1.getLsbD j = m.getLsbD ((j + k) % 32)) ∧
        (shiftByReg .ror n m c).2 = m.getLsbD (k % 32 - 1)))

/-- The flag unit: the 33rd bit of the exact sum, NOT borrow, the signed range (R409, R410), and the
flag writes, which change the four flag bits only (R411). -/
def Obligations.FlagUnit : Prop :=
  (∀ a b cin, addWithCarry a b cin = ⟨exactSum a b cin,
    decide (2 ^ 32 ≤ a.toNat + b.toNat + cin.toNat), outOfRange (a.toInt + b.toInt + cin.toNat)⟩) ∧
  (∀ a b cin, subWithCarry a b cin = ⟨exactDiff a b cin, decide (b.toNat + (!cin).toNat ≤ a.toNat),
    outOfRange (a.toInt - b.toInt - (!cin).toNat)⟩) ∧
  (∀ s o, s.setFlagsArith o = withStatus (withFlags s.cpsr o.result.msb (o.result == 0) o.carry o.overflow) s) ∧
  ∀ s v sc, s.setFlagsLogic v sc = withStatus (withFlags s.cpsr v.msb (v == 0) sc (s.cpsr.getLsbD 28)) s

/-! ## ARM data processing: all three forms of operand2, R15 as the destination, U4 -/

/-- AND, EOR, ORR and BIC (spec/41_data_processing.md R451, R452, R463, R465). With S and
Rd = 15, that the fault is the first met of U4, U1, U2 is DEDUCED by the model (log entry 11). -/
def Obligations.ArmLogical : Prop :=
  ∀ p ∈ [(dpForm .andImm .andShiftImm .andShiftReg, andOp), (dpForm .eorImm .eorShiftImm .eorShiftReg, eorOp),
    (dpForm .orrImm .orrShiftImm .orrShiftReg, orrOp), (dpForm .bicImm .bicShiftImm .bicShiftReg, bicOp)],
  ∀ c sf rn rd o s, ArmReady c s →
    Processes (p.1 c sf rn rd o) (o.u4 [rd, rn]) sf rd
      (p.2 (o.first rn s) (o.value s).1 (o.value s).2 s.cpsr) s

/-- MOV and MVN (R464, R466). With S and Rd = 15, that the
fault is the first met of U4, U1, U2 is DEDUCED by the model (log entry 11). That
U4 does not look at the unused Rn field is DEDUCED from R318 (log entry 19). -/
def Obligations.ArmMoves : Prop :=
  ∀ p ∈ [(moveForm .movImm .movShiftImm .movShiftReg, movOp), (moveForm .mvnImm .mvnShiftImm .mvnShiftReg, mvnOp)],
  ∀ c sf rd o s, ArmReady c s →
    Processes (p.1 c sf rd o) (o.u4 [rd]) sf rd (p.2 0 (o.value s).1 (o.value s).2 s.cpsr) s

/-- SUB, RSB and ADD (R453, R454, R455). With S and Rd = 15, that the
fault is the first met of U4, U1, U2 is DEDUCED by the model (log entry 11). -/
def Obligations.ArmAddSubtract : Prop :=
  ∀ p ∈ [(dpForm .subImm .subShiftImm .subShiftReg, subOp), (dpForm .rsbImm .rsbShiftImm .rsbShiftReg, rsbOp),
    (dpForm .addImm .addShiftImm .addShiftReg, addOp)],
  ∀ c sf rn rd o s, ArmReady c s →
    Processes (p.1 c sf rn rd o) (o.u4 [rd, rn]) sf rd
      (p.2 (o.first rn s) (o.value s).1 (o.value s).2 s.cpsr) s

/-- ADC, SBC and RSC, with the carry of the state before the instruction (R456, R457, R458). With S and
Rd = 15, that the fault is the first met of U4, U1, U2 is DEDUCED by the model (log entry 11). -/
def Obligations.ArmWithCarry : Prop :=
  ∀ p ∈ [(dpForm .adcImm .adcShiftImm .adcShiftReg, adcOp), (dpForm .sbcImm .sbcShiftImm .sbcShiftReg, sbcOp),
    (dpForm .rscImm .rscShiftImm .rscShiftReg, rscOp)],
  ∀ c sf rn rd o s, ArmReady c s →
    Processes (p.1 c sf rn rd o) (o.u4 [rd, rn]) sf rd
      (p.2 (o.first rn s) (o.value s).1 (o.value s).2 s.cpsr) s

/-- TST, TEQ, CMP and CMN, and their status restore with Rd = 15 (R459 to R462, R468). With Rd = 15, that U4
is named before U22 is DEDUCED by the model (log entry 11). -/
def Obligations.ArmComparisons : Prop :=
  ∀ p ∈ [(testForm .tstImm .tstShiftImm .tstShiftReg, andOp), (testForm .teqImm .teqShiftImm .teqShiftReg, eorOp),
    (testForm .cmpImm .cmpShiftImm .cmpShiftReg, subOp), (testForm .cmnImm .cmnShiftImm .cmnShiftReg, addOp)],
  ∀ c rn rd o s, ArmReady c s →
    ComparesTo (p.1 c rn rd o) (o.u4 [rd, rn]) rd
      (p.2 (o.first rn s) (o.value s).1 (o.value s).2 s.cpsr).2 s

/-! ## ARM multiply, transfers and swap -/

/-- MUL and MLA, with the free carry of MUL_CARRY = draw (spec/45_multiply.md R650, R651; log entry 6). -/
def Obligations.ArmMultiply : Prop :=
  ∀ c sf rd rn rs rm s, ArmReady c s →
    Guarded (.mul c sf rd rn rs rm) [(decide (rd = rm ∨ 15 ∈ [rd, rm, rs]), .u11)] s
      (exec (.mul c sf rd rn rs rm) s =
        .next (mulEnd 4 sf rd (BitVec.ofNat 32 ((s.reg rm).toNat * (s.reg rs).toNat)) s)) ∧
    Guarded (.mla c sf rd rn rs rm) [(decide (rd = rm ∨ 15 ∈ [rd, rm, rs, rn]), .u11)] s
      (exec (.mla c sf rd rn rs rm) s =
        .next (mulEnd 4 sf rd
          (BitVec.ofNat 32 ((s.reg rm).toNat * (s.reg rs).toNat + (s.reg rn).toNat)) s))

/-- The four long multiplies: exact products, the 64-bit accumulator, N and Z of the 64-bit result (R652
to R655). -/
def Obligations.ArmMultiplyLong : Prop :=
  ∀ c sf hi lo rs rm s, ArmReady c s →
    let a := s.reg rm
    let b := s.reg rs
    let acc := accumulated s hi lo
    ∀ p ∈ [(Instr.umull c sf hi lo rs rm, BitVec.ofNat 64 (a.toNat * b.toNat)),
      (.umlal c sf hi lo rs rm, BitVec.ofNat 64 (a.toNat * b.toNat + acc)),
      (.smull c sf hi lo rs rm, BitVec.ofInt 64 (a.toInt * b.toInt)),
      (.smlal c sf hi lo rs rm, BitVec.ofInt 64 (a.toInt * b.toInt + acc))],
    Guarded p.1 [(longOverlap hi lo rs rm, .u11)] s (exec p.1 s = .next (mulLongEnd sf hi lo p.2 s))

/-- LDR and LDRB, both offsets, every indexing, R15 as destination, the abort (spec/43_load_store.md
R553, R554). With Rn = 15 the base is the current address + 8 (log entry 26). -/
def Obligations.ArmLoads : Prop :=
  ∀ c p u w rn rd o s, ArmReady c s →
    let base := s.reg rn
    let addr := accessAt p u base (o.value s)
    let newb := newBase u base (o.value s)
    let wb := isWriteback p w
    Guarded (offsetForm .ldrImm .ldrReg c p u w rn rd o) [(baseClash wb rn rd || o.isPc, .u9)] s
      (Loads (offsetForm .ldrImm .ldrReg c p u w rn rd o) 4 .word addr wb rn newb rd (rotated addr) s) ∧
    Guarded (offsetForm .ldrbImm .ldrbReg c p u w rn rd o)
      [(baseClash wb rn rd || o.isPc || rd == 15, .u9)] s
      (Loads (offsetForm .ldrbImm .ldrbReg c p u w rn rd o) 4 .byte addr wb rn newb rd id s)

/-- STR, STRB and STRH, every offset and indexing, R15 as the value, the abort (R555, R556, R563). For STRH,
that the fault is U10 where U9 is met too is the model's choice (log entry 27, against the order of R561;
R413 gives none, log entry 11); the value of R15 in STRB and STRH is DEDUCED (log entry 21); the base with
Rn = 15 is that of log entry 26. -/
def Obligations.ArmStores : Prop :=
  ∀ c p u w rn rd s, ArmReady c s →
    let base := s.reg rn
    let wb := isWriteback p w
    (∀ o : Offset,
      let addr := accessAt p u base (o.value s)
      let newb := newBase u base (o.value s)
      Guarded (offsetForm .strImm .strReg c p u w rn rd o) [(baseClash wb rn rd || o.isPc, .u9)] s
        (Stores (offsetForm .strImm .strReg c p u w rn rd o) 4 .word addr wb rn newb (storeRead s rd) s) ∧
      Guarded (offsetForm .strbImm .strbReg c p u w rn rd o)
        [(baseClash wb rn rd || o.isPc || rd == 15, .u9)] s
        (Stores (offsetForm .strbImm .strbReg c p u w rn rd o) 4 .byte addr wb rn newb (storeRead s rd) s)) ∧
    ∀ o : HalfOffset,
      let addr := accessAt p u base (o.value s)
      let newb := newBase u base (o.value s)
      Guarded (halfForm .strhImm .strhReg c p u w rn rd o)
        [(!p && w, .u10), (baseClash wb rn rd || o.isPc || rd == 15, .u9)] s
        (Stores (halfForm .strhImm .strhReg c p u w rn rd o) 4 .half addr wb rn newb (storeRead s rd) s)

/-- LDRH, LDRSB and LDRSH, both offsets, the odd address of HALFWORD_MISALIGNED (R562, R564, R565). The model's
own are: U10 is named before U9 (log entry 27, against the order of R561) and U9 before U15 (DEDUCED, log
entry 11); U15 stops before the access, even one that would fail (DEDUCED, log entry 24); the base with
Rn = 15 is that of log entry 26. -/
def Obligations.ArmHalfwordLoads : Prop :=
  ∀ c p u w rn rd (o : HalfOffset) s, ArmReady c s →
    let base := s.reg rn
    let addr := accessAt p u base (o.value s)
    let newb := newBase u base (o.value s)
    let wb := isWriteback p w
    let u9 := baseClash wb rn rd || o.isPc || rd == 15
    Guarded (halfForm .ldrhImm .ldrhReg c p u w rn rd o) [(!p && w, .u10), (u9, .u9), (isOdd addr, .u15)] s
      (Loads (halfForm .ldrhImm .ldrhReg c p u w rn rd o) 4 .half addr wb rn newb rd (halfRead s addr) s) ∧
    Guarded (halfForm .ldrsbImm .ldrsbReg c p u w rn rd o) [(!p && w, .u10), (u9, .u9)] s
      (Loads (halfForm .ldrsbImm .ldrsbReg c p u w rn rd o) 4 .byte addr wb rn newb rd signedByte s) ∧
    Guarded (halfForm .ldrshImm .ldrshReg c p u w rn rd o)
      [(!p && w, .u10), (u9, .u9), (isOdd addr, .u15)] s
      (Loads (halfForm .ldrshImm .ldrshReg c p u w rn rd o) 4 .half addr wb rn newb rd
        (signedHalfRead s addr) s)

/-- LDRT and LDRBT load as the post-indexed forms do, in the original mode's registers, and an abort is
entered from the original mode (R557, R558). That Rd = 15 is U9 in LDRBT and not in LDRT is DEDUCED by the
model (log entry 20); the two agree up to the stale slots of the live bank (log entry 15). -/
def Obligations.ArmUserLoads : Prop :=
  ∀ c u rn rd (o : Offset) s, ArmReady c s → LegalMode s →
    let base := s.reg rn
    let newb := newBase u base (o.value s)
    Guarded (userForm .ldrtImm .ldrtReg c u rn rd o) [(baseClash true rn rd || o.isPc, .u9)] s
      (UserLoads (userForm .ldrtImm .ldrtReg c u rn rd o) .word base rn newb rd (rotated base) s) ∧
    Guarded (userForm .ldrbtImm .ldrbtReg c u rn rd o) [(baseClash true rn rd || o.isPc || rd == 15, .u9)] s
      (UserLoads (userForm .ldrbtImm .ldrbtReg c u rn rd o) .byte base rn newb rd id s)

/-- STRT and STRBT store as the post-indexed forms do (R559, R560). That Rd = 15 is U9 in STRBT and not in STRT
is DEDUCED by the model (log entry 20), and so is the value of R15 stored (log entry 21); the two agree up
to the stale slots of the live bank (log entry 15). -/
def Obligations.ArmUserStores : Prop :=
  ∀ c u rn rd (o : Offset) s, ArmReady c s → LegalMode s →
    let base := s.reg rn
    let newb := newBase u base (o.value s)
    Guarded (userForm .strtImm .strtReg c u rn rd o) [(baseClash true rn rd || o.isPc, .u9)] s
      (UserStores (userForm .strtImm .strtReg c u rn rd o) .word base rn newb (storeRead s rd) s) ∧
    Guarded (userForm .strbtImm .strbtReg c u rn rd o) [(baseClash true rn rd || o.isPc || rd == 15, .u9)] s
      (UserStores (userForm .strbtImm .strbtReg c u rn rd o) .byte base rn newb (storeRead s rd) s)

/-- SWP and SWPB: the read, then the write of the old Rm, then Rd (spec/46_swap.md R700, R701). -/
def Obligations.ArmSwaps : Prop :=
  ∀ c rn rd rm s, ArmReady c s →
    let u13 := decide (15 ∈ [rn, rd, rm] ∨ rn = rd ∨ rn = rm)
    Guarded (.swp c rn rd rm) [(u13, .u13)] s
      (Swaps (.swp c rn rd rm) .word (s.reg rn) (s.reg rm) rd (rotated (s.reg rn)) s) ∧
    Guarded (.swpb c rn rd rm) [(u13, .u13)] s
      (Swaps (.swpb c rn rd rm) .byte (s.reg rn) (s.reg rm) rd id s)

/-! ## ARM block transfers -/

/-- The four addressing modes and the order of the list: the lowest-numbered register goes to the lowest
address, words are not rotated (spec/44_block_transfer.md R600). -/
def Obligations.BlockAddressing : Prop :=
  ∀ p u base (list : BitVec 16), list ≠ 0 →
    let b := blockOf p u base list
    let n := listCount list
    b.start = lowestAddr p u base n ∧ b.newb = blockBase u base n ∧ b.regs = named list ∧
    b.addrs = wordAddrs b.start n ∧ (named list).Pairwise (· < ·) ∧
    (∀ r : Reg, r ∈ named list ↔ list.getLsbD r.val = true) ∧
    ∀ k, (h : k < b.addrs.length) → b.addrs[k].toNat = (b.start.toNat / 4 * 4 + 4 * k) % 2 ^ 32

/-- In plain memory the words of a block load are those at its addresses, in order, unrotated (R600,
R601). -/
def Obligations.BlockWords : Prop :=
  ∀ (as : List Word) (s : State), (∀ a ∈ as, ∀ r ∈ s.regions, r.touches a.toNat 4 = false) →
    s.loadWords as = (some (as.map fun a => s.mem.read32 a.toNat),
      { s with portLog := s.portLog ++ as.map fun a => .load .word a true })

/-- LDM (R601, R606, R608). DEDUCED by the model: with Rn = 15 and ABORT_BASE = updated an abort writes the pc
first (log entry 12), and U9 is named before U8 (log entry 11). -/
def Obligations.ArmLdm : Prop :=
  ∀ c p u w rn list s, ArmReady c s → list ≠ 0 →
    let base := s.reg rn
    let n := listCount list
    Guarded (.ldm c p u w rn list) [(rn == 15, .u9), (w && list.getLsbD rn.val, .u8)] s
      (LoadsBlock (.ldm c p u w rn list) 4 (wordAddrs (lowestAddr p u base n) n) (named list) w rn
        (blockBase u base n) putAll s)

/-- STM (R602, R606, R608). DEDUCED by the model: with Rn = 15 and ABORT_BASE = updated an abort writes the pc
first (log entry 12), and U9 is named before U7 (log entry 11). -/
def Obligations.ArmStm : Prop :=
  ∀ c p u w rn list s, ArmReady c s → list ≠ 0 →
    let base := s.reg rn
    let n := listCount list
    let u7 := w && list.getLsbD rn.val && decide ((named list).head? ≠ some rn)
    Guarded (.stm c p u w rn list) [(rn == 15, .u9), (u7, .u7)] s
      (StoresBlock (.stm c p u w rn list) 4 (wordAddrs (lowestAddr p u base n) n)
        ((named list).map (storeRead s)) w rn (blockBase u base n) s)

/-- STM^ stores the User-mode registers, and LDM^ without R15 loads them (R603, R604). DEDUCED by the model:
with Rn = 15 and ABORT_BASE = updated an abort writes the pc first (log entry 12), and the case named is the
first met of U9, U14, then U7 or U8 (log entry 11). -/
def Obligations.ArmUserBankTransfers : Prop :=
  ∀ c p u w rn list s, ArmReady c s → list ≠ 0 →
    let base := s.reg rn
    let n := listCount list
    let u7 := w && list.getLsbD rn.val && decide ((named list).head? ≠ some rn)
    Guarded (.stmUser c p u w rn list) [(rn == 15, .u9), (w || s.inUserBank, .u14), (u7, .u7)] s
      (StoresBlock (.stmUser c p u w rn list) 4 (wordAddrs (lowestAddr p u base n) n)
        ((named list).map (userStoreRead s)) w rn (blockBase u base n) s) ∧
    Guarded (.ldmUser c p u w rn list)
      [(rn == 15, .u9), (w || s.inUserBank, .u14), (w && list.getLsbD rn.val, .u8)] s
      (LoadsBlock (.ldmUser c p u w rn list) 4 (wordAddrs (lowestAddr p u base n) n) (named list) w rn
        (blockBase u base n) putUser s)

/-- LDM^ with R15: the other registers to the bank of LDM_S_PC_BANK, the status restored, then the pc
(R605). DEDUCED by the model: the check U2 of the restored status, which R109 asks of every LoadStatus and
R605 does not list (log entry 14); with Rn = 15 and ABORT_BASE = updated an abort writes the pc first (log
entry 12); the case named is the first met of U9, U14, U8, U2 (log entry 11). The model's choice: in User and
System mode nothing is restored and the case is U14, as R605 says and R922 does not (log entry 28). -/
def Obligations.ArmLdmRestore : Prop :=
  ∀ c p u w rn list s, ArmReady c s → list.getLsbD 15 = true →
    let base := s.reg rn
    let n := listCount list
    Guarded (.ldmRestore c p u w rn list)
      [(rn == 15, .u9), (w || s.inUserBank, .u14), (w && list.getLsbD rn.val, .u8),
        ((bankOf s.spsr).isNone, .u2)] s
      (LoadsBlock (.ldmRestore c p u w rn list) 4 (wordAddrs (lowestAddr p u base n) n) (named list) w rn
        (blockBase u base n) putRestore s)

/-- An empty register list: EMPTY_RLIST = fault stops before any access; arm7tdmi transfers R15 alone and
moves the base by 0x40 (R607; spec/49_thumb_memory_branch.md R867 to R870). The empty STM^ and LDM^, and the
value an empty STMIA stores, follow R607 by inference (log entry 13). DEDUCED too: the empty list stops
before U9, and U9 before U14 (log entry 11); with Rn = 15 and ABORT_BASE = updated an abort writes the pc
first (log entry 12). -/
def Obligations.EmptyRegisterList : Prop :=
  (∀ c p u w rn s, ArmReady c s →
    (s.params.emptyRlist = .fault → ∀ i ∈ [Instr.ldm c p u w rn 0, .stm c p u w rn 0, .ldmUser c p u w rn 0,
      .stmUser c p u w rn 0], exec i s = .fault .emptyRegisterList) ∧
    (s.params.emptyRlist = .arm7tdmi →
      let as := wordAddrs (lowestAddr p u (s.reg rn) 16) 1
      let newb := blockBase u (s.reg rn) 16
      let u14 := (w || s.inUserBank, UCase.u14)
      Guarded (.ldm c p u w rn 0) [(rn == 15, .u9)] s
        (LoadsBlock (.ldm c p u w rn 0) 4 as [15] w rn newb putAll s) ∧
      Guarded (.stm c p u w rn 0) [(rn == 15, .u9)] s
        (StoresBlock (.stm c p u w rn 0) 4 as [storeRead s 15] w rn newb s) ∧
      Guarded (.ldmUser c p u w rn 0) [(rn == 15, .u9), u14] s
        (LoadsBlock (.ldmUser c p u w rn 0) 4 as [15] w rn newb putUser s) ∧
      Guarded (.stmUser c p u w rn 0) [(rn == 15, .u9), u14] s
        (StoresBlock (.stmUser c p u w rn 0) 4 as [storeRead s 15] w rn newb s))) ∧
  ∀ (rb : LowReg) s, ThumbReady s →
    (s.params.emptyRlist = .fault → ∀ i ∈ [Instr.tPush false 0, .tPop false 0, .tStmia rb 0, .tLdmia rb 0],
      exec i s = .fault .emptyRegisterList) ∧
    (s.params.emptyRlist = .arm7tdmi →
      StoresBlock (.tPush false 0) 2 (wordAddrs (s.reg 13 - 0x40) 1) [s.pc + 2] true 13 (s.reg 13 - 0x40) s ∧
      LoadsBlock (.tPop false 0) 2 (wordAddrs (s.reg 13) 1) [15] true 13 (s.reg 13 + 0x40) putAll s ∧
      StoresBlock (.tStmia rb 0) 2 (wordAddrs (s.reg rb.reg) 1) [storeRead s 15] true rb.reg
        (s.reg rb.reg + 0x40) s ∧
      LoadsBlock (.tLdmia rb 0) 2 (wordAddrs (s.reg rb.reg) 1) [15] true rb.reg (s.reg rb.reg + 0x40)
        putAll s)

/-! ## ARM branches, status transfer and the instructions that enter an exception -/

/-- B, BL and BX (spec/42_branch.md R500, R501, R502). -/
def Obligations.ArmBranches : Prop :=
  ∀ c s, ArmReady c s →
    (∀ imm, exec (.b c imm) s = .next (jumped (s.pc + BitVec.ofInt 32 (4 * imm.toInt)) s)) ∧
    (∀ imm, exec (.bl c imm) s =
      .next (jumped (s.pc + BitVec.ofInt 32 (4 * imm.toInt)) (s.setX 14 (s.pc - 4)))) ∧
    ∀ rm, Guarded (.bx c rm) [(!(s.reg rm).getLsbD 0 && (s.reg rm).getLsbD 1, .u19)] s
      (exec (.bx c rm) s = .next (jumped ((s.reg rm).extractLsb' 1 31 ++ 0#1)
        (withStatus (withT s.cpsr ((s.reg rm).getLsbD 0)) s)))

/-- MRS and both forms of MSR: the field mask of the mode, LoadStatus, the saved status
(spec/47_status_system.md R750 to R753). That U1 is named before U24, and U2 before U3, is DEDUCED by the
model (log entry 11). -/
def Obligations.StatusTransfers : Prop :=
  ∀ c s, ArmReady c s →
    (∀ r rd, Guarded (.mrs c r rd) [(r && s.inUserBank, .u1), (rd == 15, .u24)] s
      (Ends (.mrs c r rd) 4 rd (if r then s.spsr else s.cpsr) s.cpsr s)) ∧
    (∀ fm rm, WritesStatus (fun r => .msrReg c r fm rm) fm (s.reg rm) s) ∧
    ∀ fm (rot : BitVec 4) (k : BitVec 8), WritesStatus (fun r => .msrImm c r fm rot k) fm
      ((BitVec.ofNat 32 k.toNat).rotateRight (2 * rot.toNat)) s

/-- SWI enters Supervisor mode at 0x08; the coprocessor instructions and the undefined classes enter
Undefined mode at 0x04; each with the address of the next instruction as the link, and with no other
effect (spec/47_status_system.md R754 to R760, spec/49_thumb_memory_branch.md R872, R876). -/
def Obligations.ExceptionInstructions : Prop :=
  (∀ c s, ArmReady c s →
    (∀ k, exec (.swi c k) s = .next (s.enter .svc 0x08 (s.pc - 8 + 4) false)) ∧
    ∀ i, (i ∈ [Instr.undefMul c, .undefMisc c, .undefMsrImm c, .undefMedia c] ∨
        (∃ op1 crn crd cp op2 crm, i = .cdp c op1 crn crd cp op2 crm) ∨
        (∃ p u n w rn crd cp off, i = .ldc c p u n w rn crd cp off ∨ i = .stc c p u n w rn crd cp off) ∨
        ∃ op1 crn rd cp op2 crm, i = .mcr c op1 crn rd cp op2 crm ∨ i = .mrc c op1 crn rd cp op2 crm) →
      exec i s = .next (s.enter .und 0x04 (s.pc - 8 + 4) false)) ∧
  ∀ s, ThumbReady s →
    (∀ k, exec (.tSwi k) s = .next (s.enter .svc 0x08 (s.pc - 4 + 2) false)) ∧
    ∀ i ∈ [Instr.tUndef1011, .tUndefCond, .tUndef11101],
      exec i s = .next (s.enter .und 0x04 (s.pc - 4 + 2) false)

/-- The vector table: mode, vector, F and link of each entry (spec/60_exceptions.md R900). -/
def Obligations.VectorTable : Prop :=
  ∀ s : State,
    let cur := s.pc - (if s.thumb then 4 else 8)
    let width := if s.thumb then 2 else 4
    s.raiseUndefined = s.enter .und 0x04 (cur + width) false ∧
    s.raiseSwi = s.enter .svc 0x08 (cur + width) false ∧
    s.raisePrefetchAbort = s.enter .abt 0x0C (cur + 4) false ∧
    s.raiseDataAbort = s.enter .abt 0x10 (cur + 8) false ∧
    s.takeIrq = s.enter .irq 0x18 (cur + 4) false ∧ s.takeFiq = s.enter .fiq 0x1C (cur + 4) true

/-! ## Thumb -/

/-- The Thumb shifts by an immediate and by a register: N, Z and C written, V kept
(spec/48_thumb_alu.md R800 to R802, R813 to R815, R818). -/
def Obligations.ThumbShifts : Prop :=
  ∀ (rs rd : LowReg) s, ThumbReady s →
    (∀ imm, ∀ p ∈ [(Instr.tLslImm imm rs rd, Shift.lsl), (.tLsrImm imm rs rd, .lsr), (.tAsrImm imm rs rd, .asr)],
      let r := shiftByImm p.2 imm (s.reg rs.reg) (s.cpsr.getLsbD 29)
      Ends p.1 2 rd.reg r.1 (logicStatus s.cpsr r.1 r.2) s) ∧
    ∀ p ∈ [(Instr.tLsl rs rd, Shift.lsl), (.tLsr rs rd, .lsr), (.tAsr rs rd, .asr), (.tRor rs rd, .ror)],
      let r := shiftByReg p.2 ((s.reg rs.reg).extractLsb' 0 8) (s.reg rd.reg) (s.cpsr.getLsbD 29)
      Ends p.1 2 rd.reg r.1 (logicStatus s.cpsr r.1 r.2) s

/-- The Thumb additions and subtractions that write a register and all four flags (R803 to R806, R809,
R810, R816, R817, R820). -/
def Obligations.ThumbArithmetic : Prop :=
  ∀ s, ThumbReady s →
    (∀ rn rs rd : LowReg,
      Ends (.tAddReg rn rs rd) 2 rd.reg (exactSum (s.reg rs.reg) (s.reg rn.reg) false)
        (sumStatus s.cpsr (s.reg rs.reg) (s.reg rn.reg) false) s ∧
      Ends (.tSubReg rn rs rd) 2 rd.reg (exactDiff (s.reg rs.reg) (s.reg rn.reg) true)
        (diffStatus s.cpsr (s.reg rs.reg) (s.reg rn.reg) true) s) ∧
    (∀ (k : BitVec 3) (rs rd : LowReg),
      Ends (.tAddImm3 k rs rd) 2 rd.reg (exactSum (s.reg rs.reg) (BitVec.ofNat 32 k.toNat) false)
        (sumStatus s.cpsr (s.reg rs.reg) (BitVec.ofNat 32 k.toNat) false) s ∧
      Ends (.tSubImm3 k rs rd) 2 rd.reg (exactDiff (s.reg rs.reg) (BitVec.ofNat 32 k.toNat) true)
        (diffStatus s.cpsr (s.reg rs.reg) (BitVec.ofNat 32 k.toNat) true) s) ∧
    (∀ (rd : LowReg) (k : BitVec 8),
      Ends (.tAddImm8 rd k) 2 rd.reg (exactSum (s.reg rd.reg) (BitVec.ofNat 32 k.toNat) false)
        (sumStatus s.cpsr (s.reg rd.reg) (BitVec.ofNat 32 k.toNat) false) s ∧
      Ends (.tSubImm8 rd k) 2 rd.reg (exactDiff (s.reg rd.reg) (BitVec.ofNat 32 k.toNat) true)
        (diffStatus s.cpsr (s.reg rd.reg) (BitVec.ofNat 32 k.toNat) true) s) ∧
    ∀ rs rd : LowReg,
      Ends (.tAdc rs rd) 2 rd.reg (exactSum (s.reg rd.reg) (s.reg rs.reg) (s.cpsr.getLsbD 29))
        (sumStatus s.cpsr (s.reg rd.reg) (s.reg rs.reg) (s.cpsr.getLsbD 29)) s ∧
      Ends (.tSbc rs rd) 2 rd.reg (exactDiff (s.reg rd.reg) (s.reg rs.reg) (s.cpsr.getLsbD 29))
        (diffStatus s.cpsr (s.reg rd.reg) (s.reg rs.reg) (s.cpsr.getLsbD 29)) s ∧
      Ends (.tNeg rs rd) 2 rd.reg (exactDiff 0 (s.reg rs.reg) true)
        (diffStatus s.cpsr 0 (s.reg rs.reg) true) s

/-- The Thumb comparisons write the four flags and no register; the high-register CMP restores no status
(R808, R821, R822, R828). -/
def Obligations.ThumbCompares : Prop :=
  ∀ s, ThumbReady s →
    (∀ (rd : LowReg) (k : BitVec 8), EndsStatus (.tCmpImm8 rd k) 2
      (diffStatus s.cpsr (s.reg rd.reg) (BitVec.ofNat 32 k.toNat) true) s) ∧
    (∀ rs rd : LowReg,
      EndsStatus (.tCmp rs rd) 2 (diffStatus s.cpsr (s.reg rd.reg) (s.reg rs.reg) true) s ∧
      EndsStatus (.tCmn rs rd) 2 (sumStatus s.cpsr (s.reg rd.reg) (s.reg rs.reg) false) s) ∧
    ∀ h1 h2 (rs rd : LowReg), Guarded (.tCmpHi h1 h2 rs rd) [(!h1 && !h2, .u17)] s
      (EndsStatus (.tCmpHi h1 h2 rs rd) 2
        (diffStatus s.cpsr (s.reg (anyReg h1 rd)) (s.reg (anyReg h2 rs)) true) s)

/-- The Thumb logical operations, MOV immediate, TST and MUL: N and Z written, C and V kept, C free after
MUL with MUL_CARRY = draw (R807, R811, R812, R819, R823 to R826; log entry 6). -/
def Obligations.ThumbLogical : Prop :=
  ∀ s, ThumbReady s →
    (∀ (rd : LowReg) (k : BitVec 8), Ends (.tMovImm8 rd k) 2 rd.reg (BitVec.ofNat 32 k.toNat)
      (withFlags s.cpsr false (k == 0) (s.cpsr.getLsbD 29) (s.cpsr.getLsbD 28)) s) ∧
    ∀ rs rd : LowReg,
      let a := s.reg rd.reg
      let b := s.reg rs.reg
      (∀ p ∈ [(Instr.tAnd rs rd, a &&& b), (.tEor rs rd, a ^^^ b), (.tOrr rs rd, a ||| b),
          (.tBic rs rd, a &&& ~~~b), (.tMvn rs rd, ~~~b)],
        Ends p.1 2 rd.reg p.2 (nzStatus s.cpsr p.2) s) ∧
      EndsStatus (.tTst rs rd) 2 (nzStatus s.cpsr (a &&& b)) s ∧
      Guarded (.tMul rs rd) [(rd == rs, .u11)] s
        (exec (.tMul rs rd) s = .next (mulEnd 2 true rd.reg (BitVec.ofNat 32 (a.toNat * b.toNat)) s))

/-- The high-register ADD and MOV, BX, and the pc and stack-pointer forms: no flag written (R827, R829
to R834). For BX, that U17 is named before U19 is DEDUCED by the model (log entry 11). -/
def Obligations.ThumbHighAndStack : Prop :=
  ∀ s, ThumbReady s →
    (∀ h1 h2 (rs rd : LowReg),
      let d := anyReg h1 rd
      let m := anyReg h2 rs
      Guarded (.tAddHi h1 h2 rs rd) [(!h1 && !h2, .u17)] s
        (Ends (.tAddHi h1 h2 rs rd) 2 d (s.reg d + s.reg m) s.cpsr s) ∧
      Guarded (.tMovHi h1 h2 rs rd) [(!h1 && !h2, .u17)] s
        (Ends (.tMovHi h1 h2 rs rd) 2 d (s.reg m) s.cpsr s) ∧
      Guarded (.tBx h1 h2 rs rd) [(h1, .u17), (!(s.reg m).getLsbD 0 && (s.reg m).getLsbD 1, .u19)] s
        (exec (.tBx h1 h2 rs rd) s = .next (jumped ((s.reg m).extractLsb' 1 31 ++ 0#1)
          (withStatus (withT s.cpsr ((s.reg m).getLsbD 0)) s)))) ∧
    (∀ (rd : LowReg) (k : BitVec 8),
      Ends (.tAddPc rd k) 2 rd.reg ((s.pc &&& 0xFFFFFFFC) + BitVec.ofNat 32 (4 * k.toNat)) s.cpsr s ∧
      Ends (.tAddSp rd k) 2 rd.reg (s.reg 13 + BitVec.ofNat 32 (4 * k.toNat)) s.cpsr s) ∧
    ∀ k : BitVec 7,
      Ends (.tAddSpImm k) 2 13 (s.reg 13 + BitVec.ofNat 32 (4 * k.toNat)) s.cpsr s ∧
      Ends (.tSubSpImm k) 2 13 (s.reg 13 - BitVec.ofNat 32 (4 * k.toNat)) s.cpsr s

/-- The Thumb loads (spec/49_thumb_memory_branch.md R850, R854 to R858, R860, R862, R864, R866). That U15 of
LDRH and LDSH stops before the access, even one that would fail, is DEDUCED by the model (log entry 24). -/
def Obligations.ThumbLoads : Prop :=
  ∀ s (rd : LowReg), ThumbReady s →
    let loads := fun i width addr fix => Loads i 2 width addr false rd.reg 0 rd.reg fix s
    (∀ k : BitVec 8, loads (.tLdrPc rd k) .word ((s.pc &&& 0xFFFFFFFC) + BitVec.ofNat 32 (4 * k.toNat)) id ∧
      let sp := s.reg 13 + BitVec.ofNat 32 (4 * k.toNat)
      loads (.tLdrSp rd k) .word sp (rotated sp)) ∧
    (∀ ro rb : LowReg,
      let a := s.reg rb.reg + s.reg ro.reg
      loads (.tLdsbReg ro rb rd) .byte a signedByte ∧ loads (.tLdrReg ro rb rd) .word a (rotated a) ∧
      loads (.tLdrbReg ro rb rd) .byte a id ∧
      Guarded (.tLdrhReg ro rb rd) [(isOdd a, .u15)] s (loads (.tLdrhReg ro rb rd) .half a (halfRead s a)) ∧
      Guarded (.tLdshReg ro rb rd) [(isOdd a, .u15)] s
        (loads (.tLdshReg ro rb rd) .half a (signedHalfRead s a))) ∧
    ∀ (k : BitVec 5) (rb : LowReg),
      let a4 := s.reg rb.reg + BitVec.ofNat 32 (4 * k.toNat)
      let a2 := s.reg rb.reg + BitVec.ofNat 32 (2 * k.toNat)
      loads (.tLdrImm k rb rd) .word a4 (rotated a4) ∧
      loads (.tLdrbImm k rb rd) .byte (s.reg rb.reg + BitVec.ofNat 32 k.toNat) id ∧
      Guarded (.tLdrhImm k rb rd) [(isOdd a2, .u15)] s (loads (.tLdrhImm k rb rd) .half a2 (halfRead s a2))

/-- The Thumb stores (R851 to R853, R859, R861, R863, R865). -/
def Obligations.ThumbStores : Prop :=
  ∀ s (rd : LowReg), ThumbReady s →
    let stores := fun i width addr => Stores i 2 width addr false rd.reg 0 (s.reg rd.reg) s
    (∀ ro rb : LowReg,
      let a := s.reg rb.reg + s.reg ro.reg
      stores (.tStrReg ro rb rd) .word a ∧ stores (.tStrhReg ro rb rd) .half a ∧
      stores (.tStrbReg ro rb rd) .byte a) ∧
    (∀ (k : BitVec 5) (rb : LowReg),
      stores (.tStrImm k rb rd) .word (s.reg rb.reg + BitVec.ofNat 32 (4 * k.toNat)) ∧
      stores (.tStrhImm k rb rd) .half (s.reg rb.reg + BitVec.ofNat 32 (2 * k.toNat)) ∧
      stores (.tStrbImm k rb rd) .byte (s.reg rb.reg + BitVec.ofNat 32 k.toNat)) ∧
    ∀ k : BitVec 8, stores (.tStrSp rd k) .word (s.reg 13 + BitVec.ofNat 32 (4 * k.toNat))

/-- PUSH, POP, STMIA and LDMIA of a list that is not empty (R867 to R870). -/
def Obligations.ThumbBlockTransfers : Prop :=
  ∀ s, ThumbReady s →
    (∀ (list : BitVec 8) r, (list ≠ 0 ∨ r = true) →
      let l := withExtra list r 14
      let l' := withExtra list r 15
      let n := listCount l
      let start := s.reg 13 - BitVec.ofNat 32 (4 * n)
      StoresBlock (.tPush r list) 2 (wordAddrs start n) ((named l).map s.reg) true 13 start s ∧
      LoadsBlock (.tPop r list) 2 (wordAddrs (s.reg 13) n) (named l') true 13
        (s.reg 13 + BitVec.ofNat 32 (4 * n)) putAll s) ∧
    ∀ (list : BitVec 8) (rb : LowReg), list ≠ 0 →
      let l := withExtra list false 0
      let n := listCount l
      let newb := s.reg rb.reg + BitVec.ofNat 32 (4 * n)
      Guarded (.tStmia rb list) [(list.getLsbD rb.val && decide ((named l).head? ≠ some rb.reg), .u7)] s
        (StoresBlock (.tStmia rb list) 2 (wordAddrs (s.reg rb.reg) n) ((named l).map s.reg) true rb.reg newb s) ∧
      Guarded (.tLdmia rb list) [(list.getLsbD rb.val, .u8)] s
        (LoadsBlock (.tLdmia rb list) 2 (wordAddrs (s.reg rb.reg) n) (named l) true rb.reg newb putAll s)

/-- The Thumb branches, and the pair of BL halves (R871, R873, R874, R875). -/
def Obligations.ThumbBranches : Prop :=
  ∀ s, ThumbReady s →
    (∀ c (k : BitVec 8), exec (.tBcond c k) s = .next (if condHolds c s.cpsr = true
      then jumped (s.pc + BitVec.ofInt 32 (2 * k.toInt)) s else advanced 2 s)) ∧
    (∀ k : BitVec 11, exec (.tB k) s = .next (jumped (s.pc + BitVec.ofInt 32 (2 * k.toInt)) s)) ∧
    (∀ k : BitVec 11, exec (.tBlFirst k) s =
      .next (advanced 2 (s.setX 14 (s.pc + BitVec.ofInt 32 (4096 * k.toInt))))) ∧
    (∀ k : BitVec 11, exec (.tBlSecond k) s =
      .next (jumped (s.reg 14 + BitVec.ofNat 32 (2 * k.toNat)) (s.setX 14 ((s.pc - 2) ||| 1)))) ∧
    ∀ (hi lo : BitVec 11) t u, exec (.tBlFirst hi) s = .next t → exec (.tBlSecond lo) t = .next u →
      u.currentAddr = (s.pc + BitVec.ofInt 32 (2 * (hi ++ lo : BitVec 22).toInt)) &&& 0xFFFFFFFE ∧
      u.reg 14 = (s.currentAddr + 4) ||| 1

/-! ## Memory -/

/-- The memory port. A load of plain memory answers the little-endian bytes there, zero-extended; a store
to it changes its own bytes only, byte `k` of the value at address `a + k`, and keeps the form of memory;
an access the port fails changes nothing; each is recorded once, and no access changes another part of the
state. A word stored at an address whose low
two bits are k reads back from that address rotated right by 8k (spec/20_memory.md R201 to R204). The
ranges where the port fails and the record are the model's (log entries 2 and 3). -/
def Obligations.PlainMemory : Prop :=
  ∀ (s : State) (w : Width) (a : Word),
    (s.loadFails w a = false → s.atDevice w a = false → ∃ v : Word,
      s.portLoad w a = (some v, { s with portLog := s.portLog ++ [.load w a true] }) ∧
      v.toNat < 2 ^ (8 * w.bytes) ∧
      ∀ k, k < w.bytes → v.extractLsb' (8 * k) 8 = s.mem.read (a.toNat + k)) ∧
    (s.loadFails w a = true →
      s.portLoad w a = (none, { s with portLog := s.portLog ++ [.load w a false] })) ∧
    (∃ log n, (s.portLoad w a).2 = { s with portLog := log, freeCount := n }) ∧
    ∀ v : Word,
      let b := w.align a
      let low := BitVec.ofNat 32 (v.toNat % 2 ^ (8 * w.bytes))
      (s.storeFails w b = true →
        s.memWrite w a v = (false, { s with portLog := s.portLog ++ [.store w b low false] })) ∧
      (∃ m log, (s.memWrite w a v).2 = { s with mem := m, portLog := log }) ∧
      (s.storeFails w b = false → s.atDevice w b = false → s.mem.wf = true →
        ∃ t, s.memWrite w a v = (true, t) ∧ t.mem.wf = true ∧
          t.portLog = s.portLog ++ [.store w b low true] ∧
          (∀ k, k < w.bytes → t.mem.read (b.toNat + k) = v.extractLsb' (8 * k) 8) ∧
          (∀ c, (c < b.toNat ∨ b.toNat + w.bytes ≤ c) → t.mem.read c = s.mem.read c) ∧
          (w = .word → (t.memRead w a).1 = some (v.rotateRight (8 * (a.toNat % 4)))))
end

