-- ==== Sys2Proof/Laws/Decode.lean ====
section
/-! SUPPORT. Decode and encode: how a row of R302 or R320 is selected, and what the fields of an encoded
word are, one lemma for each format. `Laws/PerInstr.lean` puts them together. -/

namespace Sys2Proof

open BitVec

/-! ## Bits and fields of an appended word -/

theorem field_high {n m lo : Nat} (len : Nat) (x : BitVec n) (y : BitVec m) (h : m ≤ lo) :
    field (x ++ y) lo len = field x (lo - m) len := extractLsb'_append_eq_of_le h

theorem field_low {n m lo len : Nat} (x : BitVec n) (y : BitVec m) (h : lo + len ≤ m) :
    field (x ++ y) lo len = field y lo len := extractLsb'_append_eq_of_add_le h

theorem bit_high {n m i : Nat} (x : BitVec n) (y : BitVec m) (h : m ≤ i) :
    bit (x ++ y) i = bit x (i - m) := by
  simp [bit, getLsbD_append, Nat.not_lt.mpr h]

theorem bit_low {n m i : Nat} (x : BitVec n) (y : BitVec m) (h : i < m) :
    bit (x ++ y) i = bit y i := by
  simp [bit, getLsbD_append, h]

theorem field_all {n : Nat} (x : BitVec n) : field x 0 n = x := by
  apply eq_of_getLsbD_eq
  intro i hi
  simp [field, hi]

theorem bit_flag (b : Bool) : bit (flag b) 0 = b := by cases b <;> rfl

theorem toFin_regBits (r : Reg) : (regBits r).toFin = r := rfl

theorem toFin_lowBits (r : LowReg) : (lowBits r).toFin = r := rfl

theorem Cond.ofBits_bits (c : Cond) : Cond.ofBits c.bits = c := by cases c <;> rfl

theorem Shift.ofBits_bits (sh : Shift) : Shift.ofBits sh.bits = sh := by cases sh <;> rfl

theorem hits_iff {n : Nat} (v m a : BitVec n) :
    hits v m a = true ↔ ∀ i, i < n → (v.getLsbD i && m.getLsbD i) = a.getLsbD i := by
  unfold hits
  rw [beq_iff_eq]
  refine ⟨fun h i _ => by rw [← h, getLsbD_and], fun h => eq_of_getLsbD_eq fun i hi => ?_⟩
  rw [getLsbD_and]
  exact h i hi

/-! ## ARM rows -/

/-- A mask and value that concern only bits 27:20 and 7:4, as those of R302 do, are two smaller
tests. -/
theorem hits_parts (w m v : Word) (hm : m &&& 0x0FF000F0 = m) (hv : v &&& 0x0FF000F0 = v) :
    hits w m v = (hits (field w 20 8) (field m 20 8) (field v 20 8) &&
      hits (field w 4 4) (field m 4 4) (field v 4 4)) := by
  rw [Bool.eq_iff_iff, Bool.and_eq_true, hits_iff, hits_iff, hits_iff]
  constructor
  · intro h
    refine ⟨fun i hi => ?_, fun i hi => ?_⟩
    · have := h (20 + i) (by omega)
      simpa [field, hi] using this
    · have := h (4 + i) (by omega)
      simpa [field, hi] using this
  · rintro ⟨h1, h2⟩ i hi
    by_cases h : (20 ≤ i ∧ i < 28) ∨ (4 ≤ i ∧ i < 8)
    · rcases h with h | h
      · have := h1 (i - 20) (by omega)
        simpa [field, show i - 20 < 8 by omega, show 20 + (i - 20) = i by omega] using this
      · have := h2 (i - 4) (by omega)
        simpa [field, show i - 4 < 4 by omega, show 4 + (i - 4) = i by omega] using this
    · have hz : (0x0FF000F0 : Word).getLsbD i = false := by
        clear h1 h2 hm hv
        revert h
        revert hi
        revert i
        decide
      rw [← hm, ← hv, getLsbD_and, getLsbD_and, hz]
      simp

/-- The chain of tests of `decodeArm`, with what each row answers left open. -/
def armSelect {α : Type} (hit : Word → Word → Bool) (ext : Bool) (k : Nat → α) : α :=
  if hit 0x0FF000F0 0x01200010 then k 0
  else if hit 0x0FC000F0 0x00000090 then k 1
  else if hit 0x0F8000F0 0x00800090 then k 2
  else if hit 0x0FB000F0 0x01000090 then k 3
  else if (hit 0x0E400090 0x00000090 || hit 0x0E400090 0x00400090) && ext then k 4
  else if hit 0x0E000090 0x00000090 then k 5
  else if hit 0x0FB000F0 0x01000000 then k 6
  else if hit 0x0FB000F0 0x01200000 then k 7
  else if hit 0x0F900000 0x01000000 then k 8
  else if hit 0x0FB00000 0x03200000 then k 9
  else if hit 0x0FB00000 0x03000000 then k 10
  else if hit 0x0E000010 0x00000000 then k 11
  else if hit 0x0E000090 0x00000010 then k 12
  else if hit 0x0E000000 0x02000000 then k 13
  else if hit 0x0E000010 0x06000010 then k 14
  else if hit 0x0E000000 0x04000000 then k 15
  else if hit 0x0E000010 0x06000000 then k 16
  else if hit 0x0E000000 0x08000000 then k 17
  else if hit 0x0E000000 0x0A000000 then k 18
  else if hit 0x0E000000 0x0C000000 then k 19
  else if hit 0x0F000010 0x0E000000 then k 20
  else if hit 0x0F000010 0x0E000010 then k 21
  else k 22

theorem armSelect_map {α : Type} (hit : Word → Word → Bool) (ext : Bool) (f : Nat → α) :
    armSelect hit ext f = f (armSelect hit ext id) := by
  simp only [armSelect, apply_ite f, id]

/-- What the row selected answers. -/
def armBody (w : Word) (k : Nat) : Instr :=
  let c := Cond.ofBits (field w 28 4)
  match k with
  | 0 => .bx c (regField w 0)
  | 1 => decodeMultiply c w
  | 2 => decodeMultiply c w
  | 3 =>
    if bit w 22 then .swpb c (regField w 16) (regField w 12) (regField w 0)
    else .swp c (regField w 16) (regField w 12) (regField w 0)
  | 4 => decodeHalfword c w
  | 5 => .undefMul c
  | 6 => .mrs c (bit w 22) (regField w 12)
  | 7 => .msrReg c (bit w 22) (field w 16 4) (regField w 0)
  | 8 => .undefMisc c
  | 9 => .msrImm c (bit w 22) (field w 16 4) (field w 8 4) (field w 0 8)
  | 10 => .undefMsrImm c
  | 11 => decodeDpShiftImm c w
  | 12 => decodeDpShiftReg c w
  | 13 => decodeDpImm c w
  | 14 => .undefMedia c
  | 15 => decodeTransferImm c w
  | 16 => decodeTransferReg c w
  | 17 => decodeBlock c w
  | 18 => if bit w 24 then .bl c (field w 0 24) else .b c (field w 0 24)
  | 19 => decodeCoprocTransfer c w
  | 20 =>
    .cdp c (field w 20 4) (field w 16 4) (field w 12 4) (field w 8 4) (field w 5 3) (field w 0 4)
  | 21 =>
    if bit w 20 then
      .mrc c (field w 21 3) (field w 16 4) (regField w 12) (field w 8 4) (field w 5 3) (field w 0 4)
    else
      .mcr c (field w 21 3) (field w 16 4) (regField w 12) (field w 8 4) (field w 5 3) (field w 0 4)
  | _ => .swi c (field w 0 24)

/-- The row of R302 that a word hits, from its bits 27:20 and 7:4. -/
def armRow (op : BitVec 8) (n : BitVec 4) : Nat :=
  armSelect (fun m v => hits op (field m 20 8) (field v 20 8) && hits n (field m 4 4) (field v 4 4))
    (field n 1 2 != 0 && (bit op 0 || field n 1 2 == 1)) id

theorem field_field {n : Nat} (w : BitVec n) (lo len lo' len' : Nat) (h : lo' + len' ≤ len) :
    field (field w lo len) lo' len' = field w (lo + lo') len' := by
  apply eq_of_getLsbD_eq
  intro i hi
  simp [field, hi, show lo' + i < len by omega, Nat.add_assoc]

theorem bit_field {n : Nat} (w : BitVec n) (lo len i : Nat) (h : i < len) :
    bit (field w lo len) i = bit w (lo + i) := by
  simp [field, bit, h]

theorem decodeArm_row (w : Word) :
    decodeArm w = armBody w (armRow (field w 20 8) (field w 4 4)) := by
  have e : decodeArm w = armSelect (hits w) (field w 5 2 != 0 && (bit w 20 || field w 5 2 == 1))
      (armBody w) := rfl
  rw [e, armSelect_map, armRow, field_field w 4 4 1 2 (by decide), bit_field w 20 8 0 (by decide)]
  congr 1
  unfold armSelect
  simp (decide := true) only [hits_parts]

/-- Eight bits as a value. -/
def pack8 (b7 b6 b5 b4 b3 b2 b1 b0 : Bool) : BitVec 8 :=
  flag b7 ++ flag b6 ++ flag b5 ++ flag b4 ++ flag b3 ++ flag b2 ++ flag b1 ++ flag b0

/-- Four bits as a value. -/
def pack4 (b3 b2 b1 b0 : Bool) : BitVec 4 := flag b3 ++ flag b2 ++ flag b1 ++ flag b0

theorem field_pack8 (w : Word) (lo : Nat) :
    field w lo 8 = pack8 (bit w (lo + 7)) (bit w (lo + 6)) (bit w (lo + 5)) (bit w (lo + 4))
      (bit w (lo + 3)) (bit w (lo + 2)) (bit w (lo + 1)) (bit w lo) := by
  apply eq_of_getLsbD_eq
  intro i hi
  unfold pack8
  change getLsbD _ i = getLsbD (w := 1 + 1 + 1 + 1 + 1 + 1 + 1 + 1) _ i
  simp only [field, flag, bit, getLsbD_extractLsb', getLsbD_append]
  interval_cases i <;> simp

theorem field_pack4 (w : Word) (lo : Nat) :
    field w lo 4 = pack4 (bit w (lo + 3)) (bit w (lo + 2)) (bit w (lo + 1)) (bit w lo) := by
  apply eq_of_getLsbD_eq
  intro i hi
  unfold pack4
  change getLsbD _ i = getLsbD (w := 1 + 1 + 1 + 1) _ i
  simp only [field, flag, bit, getLsbD_extractLsb', getLsbD_append]
  interval_cases i <;> simp

/-- The row from the twelve bits. -/
def armRowOf (b27 b26 b25 b24 b23 b22 b21 b20 b7 b6 b5 b4 : Bool) : Nat :=
  armRow (pack8 b27 b26 b25 b24 b23 b22 b21 b20) (pack4 b7 b6 b5 b4)

theorem decodeArm_bits (w : Word) :
    decodeArm w = armBody w (armRowOf (bit w 27) (bit w 26) (bit w 25) (bit w 24) (bit w 23)
      (bit w 22) (bit w 21) (bit w 20) (bit w 7) (bit w 6) (bit w 5) (bit w 4)) := by
  rw [decodeArm_row, field_pack8, field_pack4]
  rfl

/-! ## Thumb rows -/

/-- The chain of tests of `decodeThumb`. -/
def thumbSelect {α : Type} (hit : Half → Half → Bool) (k : Nat → α) : α :=
  if hit 0xF800 0x0000 then k 0
  else if hit 0xF800 0x0800 then k 1
  else if hit 0xF800 0x1000 then k 2
  else if hit 0xFE00 0x1800 then k 3
  else if hit 0xFE00 0x1A00 then k 4
  else if hit 0xFE00 0x1C00 then k 5
  else if hit 0xFE00 0x1E00 then k 6
  else if hit 0xF800 0x2000 then k 7
  else if hit 0xF800 0x2800 then k 8
  else if hit 0xF800 0x3000 then k 9
  else if hit 0xF800 0x3800 then k 10
  else if hit 0xFC00 0x4000 then k 11
  else if hit 0xFF00 0x4400 then k 12
  else if hit 0xFF00 0x4500 then k 13
  else if hit 0xFF00 0x4600 then k 14
  else if hit 0xFF00 0x4700 then k 15
  else if hit 0xF800 0x4800 then k 16
  else if hit 0xFE00 0x5000 then k 17
  else if hit 0xFE00 0x5200 then k 18
  else if hit 0xFE00 0x5400 then k 19
  else if hit 0xFE00 0x5600 then k 20
  else if hit 0xFE00 0x5800 then k 21
  else if hit 0xFE00 0x5A00 then k 22
  else if hit 0xFE00 0x5C00 then k 23
  else if hit 0xFE00 0x5E00 then k 24
  else if hit 0xF800 0x6000 then k 25
  else if hit 0xF800 0x6800 then k 26
  else if hit 0xF800 0x7000 then k 27
  else if hit 0xF800 0x7800 then k 28
  else if hit 0xF800 0x8000 then k 29
  else if hit 0xF800 0x8800 then k 30
  else if hit 0xF800 0x9000 then k 31
  else if hit 0xF800 0x9800 then k 32
  else if hit 0xF800 0xA000 then k 33
  else if hit 0xF800 0xA800 then k 34
  else if hit 0xFF80 0xB000 then k 35
  else if hit 0xFF80 0xB080 then k 36
  else if hit 0xFE00 0xB400 then k 37
  else if hit 0xFE00 0xBC00 then k 38
  else if hit 0xF000 0xB000 then k 39
  else if hit 0xF800 0xC000 then k 40
  else if hit 0xF800 0xC800 then k 41
  else if hit 0xFF00 0xDE00 then k 42
  else if hit 0xFF00 0xDF00 then k 43
  else if hit 0xF000 0xD000 then k 44
  else if hit 0xF800 0xE000 then k 45
  else if hit 0xF800 0xE800 then k 46
  else if hit 0xF800 0xF000 then k 47
  else k 48

theorem thumbSelect_map {α : Type} (hit : Half → Half → Bool) (f : Nat → α) :
    thumbSelect hit f = f (thumbSelect hit id) := by
  simp only [thumbSelect, apply_ite f, id]

/-- What the Thumb row selected answers. -/
def thumbBody (h : Half) (k : Nat) : Instr :=
  match k with
  | 0 => .tLslImm (field h 6 5) (lowField h 3) (lowField h 0)
  | 1 => .tLsrImm (field h 6 5) (lowField h 3) (lowField h 0)
  | 2 => .tAsrImm (field h 6 5) (lowField h 3) (lowField h 0)
  | 3 => .tAddReg (lowField h 6) (lowField h 3) (lowField h 0)
  | 4 => .tSubReg (lowField h 6) (lowField h 3) (lowField h 0)
  | 5 => .tAddImm3 (field h 6 3) (lowField h 3) (lowField h 0)
  | 6 => .tSubImm3 (field h 6 3) (lowField h 3) (lowField h 0)
  | 7 => .tMovImm8 (lowField h 8) (field h 0 8)
  | 8 => .tCmpImm8 (lowField h 8) (field h 0 8)
  | 9 => .tAddImm8 (lowField h 8) (field h 0 8)
  | 10 => .tSubImm8 (lowField h 8) (field h 0 8)
  | 11 => decodeThumbAlu h
  | 12 => .tAddHi (bit h 7) (bit h 6) (lowField h 3) (lowField h 0)
  | 13 => .tCmpHi (bit h 7) (bit h 6) (lowField h 3) (lowField h 0)
  | 14 => .tMovHi (bit h 7) (bit h 6) (lowField h 3) (lowField h 0)
  | 15 => .tBx (bit h 7) (bit h 6) (lowField h 3) (lowField h 0)
  | 16 => .tLdrPc (lowField h 8) (field h 0 8)
  | 17 => .tStrReg (lowField h 6) (lowField h 3) (lowField h 0)
  | 18 => .tStrhReg (lowField h 6) (lowField h 3) (lowField h 0)
  | 19 => .tStrbReg (lowField h 6) (lowField h 3) (lowField h 0)
  | 20 => .tLdsbReg (lowField h 6) (lowField h 3) (lowField h 0)
  | 21 => .tLdrReg (lowField h 6) (lowField h 3) (lowField h 0)
  | 22 => .tLdrhReg (lowField h 6) (lowField h 3) (lowField h 0)
  | 23 => .tLdrbReg (lowField h 6) (lowField h 3) (lowField h 0)
  | 24 => .tLdshReg (lowField h 6) (lowField h 3) (lowField h 0)
  | 25 => .tStrImm (field h 6 5) (lowField h 3) (lowField h 0)
  | 26 => .tLdrImm (field h 6 5) (lowField h 3) (lowField h 0)
  | 27 => .tStrbImm (field h 6 5) (lowField h 3) (lowField h 0)
  | 28 => .tLdrbImm (field h 6 5) (lowField h 3) (lowField h 0)
  | 29 => .tStrhImm (field h 6 5) (lowField h 3) (lowField h 0)
  | 30 => .tLdrhImm (field h 6 5) (lowField h 3) (lowField h 0)
  | 31 => .tStrSp (lowField h 8) (field h 0 8)
  | 32 => .tLdrSp (lowField h 8) (field h 0 8)
  | 33 => .tAddPc (lowField h 8) (field h 0 8)
  | 34 => .tAddSp (lowField h 8) (field h 0 8)
  | 35 => .tAddSpImm (field h 0 7)
  | 36 => .tSubSpImm (field h 0 7)
  | 37 => .tPush (bit h 8) (field h 0 8)
  | 38 => .tPop (bit h 8) (field h 0 8)
  | 39 => .tUndef1011
  | 40 => .tStmia (lowField h 8) (field h 0 8)
  | 41 => .tLdmia (lowField h 8) (field h 0 8)
  | 42 => .tUndefCond
  | 43 => .tSwi (field h 0 8)
  | 44 => .tBcond (Cond.ofBits (field h 8 4)) (field h 0 8)
  | 45 => .tB (field h 0 11)
  | 46 => .tUndef11101
  | 47 => .tBlFirst (field h 0 11)
  | _ => .tBlSecond (field h 0 11)

/-- A mask and value that concern only bits 15:6, as those of R320 do. -/
theorem hits_top (h m v : Half) (hm : m &&& 0xFFC0 = m) (hv : v &&& 0xFFC0 = v) :
    hits h m v = hits (field h 6 10) (field m 6 10) (field v 6 10) := by
  rw [Bool.eq_iff_iff, hits_iff, hits_iff]
  constructor
  · intro e i hi
    have := e (6 + i) (by omega)
    simpa [field, hi] using this
  · intro e i hi
    by_cases h6 : 6 ≤ i
    · have := e (i - 6) (by omega)
      simpa [field, show i - 6 < 10 by omega, show 6 + (i - 6) = i by omega] using this
    · have hz : (0xFFC0 : Half).getLsbD i = false := by
        clear e hm hv
        revert h6
        revert hi
        revert i
        decide
      rw [← hm, ← hv, getLsbD_and, getLsbD_and, hz]
      simp

/-- Ten bits as a value. -/
def pack10 (b9 b8 b7 b6 b5 b4 b3 b2 b1 b0 : Bool) : BitVec 10 :=
  flag b9 ++ flag b8 ++ flag b7 ++ flag b6 ++ flag b5 ++ flag b4 ++ flag b3 ++ flag b2 ++ flag b1 ++
    flag b0

theorem field_pack10 (h : Half) :
    field h 6 10 = pack10 (bit h 15) (bit h 14) (bit h 13) (bit h 12) (bit h 11) (bit h 10) (bit h 9)
      (bit h 8) (bit h 7) (bit h 6) := by
  apply eq_of_getLsbD_eq
  intro i hi
  unfold pack10
  change getLsbD _ i = getLsbD (w := 1 + 1 + 1 + 1 + 1 + 1 + 1 + 1 + 1 + 1) _ i
  simp only [field, flag, bit, getLsbD_extractLsb', getLsbD_append]
  interval_cases i <;> simp

/-- The Thumb row from the ten bits. -/
def thumbRowOf (b15 b14 b13 b12 b11 b10 b9 b8 b7 b6 : Bool) : Nat :=
  thumbSelect (fun m v => hits (pack10 b15 b14 b13 b12 b11 b10 b9 b8 b7 b6) (field m 6 10)
    (field v 6 10)) id

theorem decodeThumb_bits (h : Half) :
    decodeThumb h = thumbBody h (thumbRowOf (bit h 15) (bit h 14) (bit h 13) (bit h 12) (bit h 11)
      (bit h 10) (bit h 9) (bit h 8) (bit h 7) (bit h 6)) := by
  have e : decodeThumb h = thumbSelect (hits h) (thumbBody h) := rfl
  rw [e, thumbSelect_map, thumbRowOf, ← field_pack10]
  congr 1
  unfold thumbSelect
  simp (decide := true) only [hits_top]

/-- Every word of row 10 of R302, the undefined control space, would be an MRS or an MSR (register) if rows 8
and 9 did not test bits 7:4: ignoring those bits leaves row 10 no word (log entry 25). -/
theorem hits_row10_outside_bits_7_4 {w : Word} (h : hits w 0x0F900000 0x01000000 = true) :
    hits w 0x0FB00000 0x01000000 = true ∨ hits w 0x0FB00000 0x01200000 = true := by
  have split : w &&& 0x0FB00000 = (w &&& 0x0F900000) ||| (w &&& BitVec.twoPow 32 21) := by
    rw [← BitVec.and_or_distrib_left]; rfl
  simp only [hits, beq_iff_eq] at h ⊢
  rw [split, h, BitVec.and_twoPow]
  cases w.getLsbD 21 <;> decide

end Sys2Proof
end

