-- ==== Sys2Proof/Laws/Formats.lean ====
section
/-! SUPPORT. The fields of an encoded word, one lemma for each encoding format of
spec/30_encoding.md. -/

set_option linter.unusedSimpArgs false

namespace Sys2Proof

/-- The row of R302 that a word hits, from its twelve bits. -/
def armBits {n : Nat} (w : BitVec n) : Nat :=
  armRowOf (bit w 27) (bit w 26) (bit w 25) (bit w 24) (bit w 23) (bit w 22) (bit w 21) (bit w 20)
    (bit w 7) (bit w 6) (bit w 5) (bit w 4)

/-- The row of R320 that a halfword hits, from its ten bits. -/
def thumbBits {n : Nat} (w : BitVec n) : Nat :=
  thumbRowOf (bit w 15) (bit w 14) (bit w 13) (bit w 12) (bit w 11) (bit w 10) (bit w 9) (bit w 8)
    (bit w 7) (bit w 6)

theorem decodeArm_word (w : Word) : decodeArm w = armBody w (armBits w) := decodeArm_bits w

theorem decodeThumb_half (h : Half) : decodeThumb h = thumbBody h (thumbBits h) :=
    decodeThumb_bits h

theorem encDpShiftImm_word (c : Cond) (op : BitVec 4) (sf : Bool) (rn rd : Reg) (imm : BitVec 5)
    (sh : Shift) (rm : Reg) : ∃ w : Word, encDpShiftImm c op sf rn rd imm sh rm = .arm w ∧
    armBits w = armRowOf false false false (bit op 3) (bit op 2) (bit op 1) (bit op 0) sf (bit imm
        0) (bit sh.bits 1) (bit sh.bits 0) false ∧
    bit w 20 = sf ∧
    field w 28 4 = c.bits ∧
    field w 21 4 = op ∧
    regField w 16 = rn ∧
    regField w 12 = rd ∧
    field w 7 5 = imm ∧
    field w 5 2 = sh.bits ∧
    regField w 0 = rm := by
  refine ⟨_, rfl, ?_, ?_, ?_, ?_, ?_, ?_, ?_, ?_, ?_⟩
  · change armBits (n := 4 + 3 + 4 + 1 + 4 + 4 + 5 + 2 + 1 + 4) _ = _
    simp (disch := omega) only [armBits, bit_high, bit_low, Nat.reduceSub, bit_flag]
    rfl
  · change bit (n := 4 + 3 + 4 + 1 + 4 + 4 + 5 + 2 + 1 + 4) _ 20 = _
    simp (disch := omega) only [bit_high, bit_low, Nat.reduceSub, bit_flag]
  · change field (n := 4 + 3 + 4 + 1 + 4 + 4 + 5 + 2 + 1 + 4) _ 28 4 = _
    simp (disch := omega) only [regField, lowField, field_high, field_low, Nat.reduceSub,
        field_all, toFin_regBits, toFin_lowBits]
  · change field (n := 4 + 3 + 4 + 1 + 4 + 4 + 5 + 2 + 1 + 4) _ 21 4 = _
    simp (disch := omega) only [regField, lowField, field_high, field_low, Nat.reduceSub,
        field_all, toFin_regBits, toFin_lowBits]
  · change regField (n := 4 + 3 + 4 + 1 + 4 + 4 + 5 + 2 + 1 + 4) _ 16 = _
    simp (disch := omega) only [regField, lowField, field_high, field_low, Nat.reduceSub,
        field_all, toFin_regBits, toFin_lowBits]
  · change regField (n := 4 + 3 + 4 + 1 + 4 + 4 + 5 + 2 + 1 + 4) _ 12 = _
    simp (disch := omega) only [regField, lowField, field_high, field_low, Nat.reduceSub,
        field_all, toFin_regBits, toFin_lowBits]
  · change field (n := 4 + 3 + 4 + 1 + 4 + 4 + 5 + 2 + 1 + 4) _ 7 5 = _
    simp (disch := omega) only [regField, lowField, field_high, field_low, Nat.reduceSub,
        field_all, toFin_regBits, toFin_lowBits]
  · change field (n := 4 + 3 + 4 + 1 + 4 + 4 + 5 + 2 + 1 + 4) _ 5 2 = _
    simp (disch := omega) only [regField, lowField, field_high, field_low, Nat.reduceSub,
        field_all, toFin_regBits, toFin_lowBits]
  · change regField (n := 4 + 3 + 4 + 1 + 4 + 4 + 5 + 2 + 1 + 4) _ 0 = _
    simp (disch := omega) only [regField, lowField, field_high, field_low, Nat.reduceSub,
        field_all, toFin_regBits, toFin_lowBits]

theorem encDpShiftReg_word (c : Cond) (op : BitVec 4) (sf : Bool) (rn rd rs : Reg) (sh : Shift)
    (rm : Reg) : ∃ w : Word, encDpShiftReg c op sf rn rd rs sh rm = .arm w ∧
    armBits w = armRowOf false false false (bit op 3) (bit op 2) (bit op 1) (bit op 0) sf false
        (bit sh.bits 1) (bit sh.bits 0) true ∧
    bit w 20 = sf ∧
    field w 28 4 = c.bits ∧
    field w 21 4 = op ∧
    regField w 16 = rn ∧
    regField w 12 = rd ∧
    regField w 8 = rs ∧
    field w 5 2 = sh.bits ∧
    regField w 0 = rm := by
  refine ⟨_, rfl, ?_, ?_, ?_, ?_, ?_, ?_, ?_, ?_, ?_⟩
  · change armBits (n := 4 + 3 + 4 + 1 + 4 + 4 + 4 + 1 + 2 + 1 + 4) _ = _
    simp (disch := omega) only [armBits, bit_high, bit_low, Nat.reduceSub, bit_flag]
    rfl
  · change bit (n := 4 + 3 + 4 + 1 + 4 + 4 + 4 + 1 + 2 + 1 + 4) _ 20 = _
    simp (disch := omega) only [bit_high, bit_low, Nat.reduceSub, bit_flag]
  · change field (n := 4 + 3 + 4 + 1 + 4 + 4 + 4 + 1 + 2 + 1 + 4) _ 28 4 = _
    simp (disch := omega) only [regField, lowField, field_high, field_low, Nat.reduceSub,
        field_all, toFin_regBits, toFin_lowBits]
  · change field (n := 4 + 3 + 4 + 1 + 4 + 4 + 4 + 1 + 2 + 1 + 4) _ 21 4 = _
    simp (disch := omega) only [regField, lowField, field_high, field_low, Nat.reduceSub,
        field_all, toFin_regBits, toFin_lowBits]
  · change regField (n := 4 + 3 + 4 + 1 + 4 + 4 + 4 + 1 + 2 + 1 + 4) _ 16 = _
    simp (disch := omega) only [regField, lowField, field_high, field_low, Nat.reduceSub,
        field_all, toFin_regBits, toFin_lowBits]
  · change regField (n := 4 + 3 + 4 + 1 + 4 + 4 + 4 + 1 + 2 + 1 + 4) _ 12 = _
    simp (disch := omega) only [regField, lowField, field_high, field_low, Nat.reduceSub,
        field_all, toFin_regBits, toFin_lowBits]
  · change regField (n := 4 + 3 + 4 + 1 + 4 + 4 + 4 + 1 + 2 + 1 + 4) _ 8 = _
    simp (disch := omega) only [regField, lowField, field_high, field_low, Nat.reduceSub,
        field_all, toFin_regBits, toFin_lowBits]
  · change field (n := 4 + 3 + 4 + 1 + 4 + 4 + 4 + 1 + 2 + 1 + 4) _ 5 2 = _
    simp (disch := omega) only [regField, lowField, field_high, field_low, Nat.reduceSub,
        field_all, toFin_regBits, toFin_lowBits]
  · change regField (n := 4 + 3 + 4 + 1 + 4 + 4 + 4 + 1 + 2 + 1 + 4) _ 0 = _
    simp (disch := omega) only [regField, lowField, field_high, field_low, Nat.reduceSub,
        field_all, toFin_regBits, toFin_lowBits]

theorem encDpImm_word (c : Cond) (op : BitVec 4) (sf : Bool) (rn rd : Reg) (rot : BitVec 4) (imm :
    BitVec 8) : ∃ w : Word, encDpImm c op sf rn rd rot imm = .arm w ∧
    armBits w = armRowOf false false true (bit op 3) (bit op 2) (bit op 1) (bit op 0) sf (bit imm
        7) (bit imm 6) (bit imm 5) (bit imm 4) ∧
    bit w 20 = sf ∧
    field w 28 4 = c.bits ∧
    field w 21 4 = op ∧
    regField w 16 = rn ∧
    regField w 12 = rd ∧
    field w 8 4 = rot ∧
    field w 0 8 = imm := by
  refine ⟨_, rfl, ?_, ?_, ?_, ?_, ?_, ?_, ?_, ?_⟩
  · change armBits (n := 4 + 3 + 4 + 1 + 4 + 4 + 4 + 8) _ = _
    simp (disch := omega) only [armBits, bit_high, bit_low, Nat.reduceSub, bit_flag]
    rfl
  · change bit (n := 4 + 3 + 4 + 1 + 4 + 4 + 4 + 8) _ 20 = _
    simp (disch := omega) only [bit_high, bit_low, Nat.reduceSub, bit_flag]
  · change field (n := 4 + 3 + 4 + 1 + 4 + 4 + 4 + 8) _ 28 4 = _
    simp (disch := omega) only [regField, lowField, field_high, field_low, Nat.reduceSub,
        field_all, toFin_regBits, toFin_lowBits]
  · change field (n := 4 + 3 + 4 + 1 + 4 + 4 + 4 + 8) _ 21 4 = _
    simp (disch := omega) only [regField, lowField, field_high, field_low, Nat.reduceSub,
        field_all, toFin_regBits, toFin_lowBits]
  · change regField (n := 4 + 3 + 4 + 1 + 4 + 4 + 4 + 8) _ 16 = _
    simp (disch := omega) only [regField, lowField, field_high, field_low, Nat.reduceSub,
        field_all, toFin_regBits, toFin_lowBits]
  · change regField (n := 4 + 3 + 4 + 1 + 4 + 4 + 4 + 8) _ 12 = _
    simp (disch := omega) only [regField, lowField, field_high, field_low, Nat.reduceSub,
        field_all, toFin_regBits, toFin_lowBits]
  · change field (n := 4 + 3 + 4 + 1 + 4 + 4 + 4 + 8) _ 8 4 = _
    simp (disch := omega) only [regField, lowField, field_high, field_low, Nat.reduceSub,
        field_all, toFin_regBits, toFin_lowBits]
  · change field (n := 4 + 3 + 4 + 1 + 4 + 4 + 4 + 8) _ 0 8 = _
    simp (disch := omega) only [regField, lowField, field_high, field_low, Nat.reduceSub,
        field_all, toFin_regBits, toFin_lowBits]

theorem encMultiply_word (c : Cond) (kind : BitVec 3) (sf : Bool) (rd rn rs rm : Reg) : ∃ w :
    Word, encMultiply c kind sf rd rn rs rm = .arm w ∧
    armBits w = armRowOf false false false false (bit kind 2) (bit kind 1) (bit kind 0) sf true
        false false true ∧
    bit w 20 = sf ∧
    bit w 23 = bit kind 2 ∧
    bit w 22 = bit kind 1 ∧
    bit w 21 = bit kind 0 ∧
    field w 28 4 = c.bits ∧
    field w 21 3 = kind ∧
    regField w 16 = rd ∧
    regField w 12 = rn ∧
    regField w 8 = rs ∧
    regField w 0 = rm := by
  refine ⟨_, rfl, ?_, ?_, ?_, ?_, ?_, ?_, ?_, ?_, ?_, ?_, ?_⟩
  · change armBits (n := 4 + 4 + 3 + 1 + 4 + 4 + 4 + 4 + 4) _ = _
    simp (disch := omega) only [armBits, bit_high, bit_low, Nat.reduceSub, bit_flag]
    rfl
  · change bit (n := 4 + 4 + 3 + 1 + 4 + 4 + 4 + 4 + 4) _ 20 = _
    simp (disch := omega) only [bit_high, bit_low, Nat.reduceSub, bit_flag]
  · change bit (n := 4 + 4 + 3 + 1 + 4 + 4 + 4 + 4 + 4) _ 23 = _
    simp (disch := omega) only [bit_high, bit_low, Nat.reduceSub, bit_flag]
  · change bit (n := 4 + 4 + 3 + 1 + 4 + 4 + 4 + 4 + 4) _ 22 = _
    simp (disch := omega) only [bit_high, bit_low, Nat.reduceSub, bit_flag]
  · change bit (n := 4 + 4 + 3 + 1 + 4 + 4 + 4 + 4 + 4) _ 21 = _
    simp (disch := omega) only [bit_high, bit_low, Nat.reduceSub, bit_flag]
  · change field (n := 4 + 4 + 3 + 1 + 4 + 4 + 4 + 4 + 4) _ 28 4 = _
    simp (disch := omega) only [regField, lowField, field_high, field_low, Nat.reduceSub,
        field_all, toFin_regBits, toFin_lowBits]
  · change field (n := 4 + 4 + 3 + 1 + 4 + 4 + 4 + 4 + 4) _ 21 3 = _
    simp (disch := omega) only [regField, lowField, field_high, field_low, Nat.reduceSub,
        field_all, toFin_regBits, toFin_lowBits]
  · change regField (n := 4 + 4 + 3 + 1 + 4 + 4 + 4 + 4 + 4) _ 16 = _
    simp (disch := omega) only [regField, lowField, field_high, field_low, Nat.reduceSub,
        field_all, toFin_regBits, toFin_lowBits]
  · change regField (n := 4 + 4 + 3 + 1 + 4 + 4 + 4 + 4 + 4) _ 12 = _
    simp (disch := omega) only [regField, lowField, field_high, field_low, Nat.reduceSub,
        field_all, toFin_regBits, toFin_lowBits]
  · change regField (n := 4 + 4 + 3 + 1 + 4 + 4 + 4 + 4 + 4) _ 8 = _
    simp (disch := omega) only [regField, lowField, field_high, field_low, Nat.reduceSub,
        field_all, toFin_regBits, toFin_lowBits]
  · change regField (n := 4 + 4 + 3 + 1 + 4 + 4 + 4 + 4 + 4) _ 0 = _
    simp (disch := omega) only [regField, lowField, field_high, field_low, Nat.reduceSub,
        field_all, toFin_regBits, toFin_lowBits]

theorem encSwap_word (c : Cond) (b : Bool) (rn rd rm : Reg) : ∃ w : Word, encSwap c b rn rd rm =
    .arm w ∧
    armBits w = armRowOf false false false true false b false false true false false true ∧
    bit w 22 = b ∧
    field w 28 4 = c.bits ∧
    regField w 16 = rn ∧
    regField w 12 = rd ∧
    regField w 0 = rm := by
  refine ⟨_, rfl, ?_, ?_, ?_, ?_, ?_, ?_⟩
  · change armBits (n := 4 + 5 + 1 + 2 + 4 + 4 + 4 + 4 + 4) _ = _
    simp (disch := omega) only [armBits, bit_high, bit_low, Nat.reduceSub, bit_flag]
    rfl
  · change bit (n := 4 + 5 + 1 + 2 + 4 + 4 + 4 + 4 + 4) _ 22 = _
    simp (disch := omega) only [bit_high, bit_low, Nat.reduceSub, bit_flag]
  · change field (n := 4 + 5 + 1 + 2 + 4 + 4 + 4 + 4 + 4) _ 28 4 = _
    simp (disch := omega) only [regField, lowField, field_high, field_low, Nat.reduceSub,
        field_all, toFin_regBits, toFin_lowBits]
  · change regField (n := 4 + 5 + 1 + 2 + 4 + 4 + 4 + 4 + 4) _ 16 = _
    simp (disch := omega) only [regField, lowField, field_high, field_low, Nat.reduceSub,
        field_all, toFin_regBits, toFin_lowBits]
  · change regField (n := 4 + 5 + 1 + 2 + 4 + 4 + 4 + 4 + 4) _ 12 = _
    simp (disch := omega) only [regField, lowField, field_high, field_low, Nat.reduceSub,
        field_all, toFin_regBits, toFin_lowBits]
  · change regField (n := 4 + 5 + 1 + 2 + 4 + 4 + 4 + 4 + 4) _ 0 = _
    simp (disch := omega) only [regField, lowField, field_high, field_low, Nat.reduceSub,
        field_all, toFin_regBits, toFin_lowBits]

theorem encHalfword_word (c : Cond) (p u imm w l s h : Bool) (rn rd : Reg) (hi lo : BitVec 4) : ∃
    v : Word, encHalfword c p u imm w l s h rn rd hi lo = .arm v ∧
    armBits v = armRowOf false false false p u imm w l true s h true ∧
    bit v 24 = p ∧
    bit v 23 = u ∧
    bit v 22 = imm ∧
    bit v 21 = w ∧
    bit v 20 = l ∧
    bit v 6 = s ∧
    bit v 5 = h ∧
    field v 28 4 = c.bits ∧
    regField v 16 = rn ∧
    regField v 12 = rd ∧
    field v 8 4 = hi ∧
    regField v 8 = hi.toFin ∧
    field v 0 4 = lo ∧
    regField v 0 = lo.toFin := by
  refine ⟨_, rfl, ?_, ?_, ?_, ?_, ?_, ?_, ?_, ?_, ?_, ?_, ?_, ?_, ?_, ?_, ?_⟩
  · change armBits (n := 4 + 3 + 1 + 1 + 1 + 1 + 1 + 4 + 4 + 4 + 1 + 1 + 1 + 1 + 4) _ = _
    simp (disch := omega) only [armBits, bit_high, bit_low, Nat.reduceSub, bit_flag]
    rfl
  · change bit (n := 4 + 3 + 1 + 1 + 1 + 1 + 1 + 4 + 4 + 4 + 1 + 1 + 1 + 1 + 4) _ 24 = _
    simp (disch := omega) only [bit_high, bit_low, Nat.reduceSub, bit_flag]
  · change bit (n := 4 + 3 + 1 + 1 + 1 + 1 + 1 + 4 + 4 + 4 + 1 + 1 + 1 + 1 + 4) _ 23 = _
    simp (disch := omega) only [bit_high, bit_low, Nat.reduceSub, bit_flag]
  · change bit (n := 4 + 3 + 1 + 1 + 1 + 1 + 1 + 4 + 4 + 4 + 1 + 1 + 1 + 1 + 4) _ 22 = _
    simp (disch := omega) only [bit_high, bit_low, Nat.reduceSub, bit_flag]
  · change bit (n := 4 + 3 + 1 + 1 + 1 + 1 + 1 + 4 + 4 + 4 + 1 + 1 + 1 + 1 + 4) _ 21 = _
    simp (disch := omega) only [bit_high, bit_low, Nat.reduceSub, bit_flag]
  · change bit (n := 4 + 3 + 1 + 1 + 1 + 1 + 1 + 4 + 4 + 4 + 1 + 1 + 1 + 1 + 4) _ 20 = _
    simp (disch := omega) only [bit_high, bit_low, Nat.reduceSub, bit_flag]
  · change bit (n := 4 + 3 + 1 + 1 + 1 + 1 + 1 + 4 + 4 + 4 + 1 + 1 + 1 + 1 + 4) _ 6 = _
    simp (disch := omega) only [bit_high, bit_low, Nat.reduceSub, bit_flag]
  · change bit (n := 4 + 3 + 1 + 1 + 1 + 1 + 1 + 4 + 4 + 4 + 1 + 1 + 1 + 1 + 4) _ 5 = _
    simp (disch := omega) only [bit_high, bit_low, Nat.reduceSub, bit_flag]
  · change field (n := 4 + 3 + 1 + 1 + 1 + 1 + 1 + 4 + 4 + 4 + 1 + 1 + 1 + 1 + 4) _ 28 4 = _
    simp (disch := omega) only [regField, lowField, field_high, field_low, Nat.reduceSub,
        field_all, toFin_regBits, toFin_lowBits]
  · change regField (n := 4 + 3 + 1 + 1 + 1 + 1 + 1 + 4 + 4 + 4 + 1 + 1 + 1 + 1 + 4) _ 16 = _
    simp (disch := omega) only [regField, lowField, field_high, field_low, Nat.reduceSub,
        field_all, toFin_regBits, toFin_lowBits]
  · change regField (n := 4 + 3 + 1 + 1 + 1 + 1 + 1 + 4 + 4 + 4 + 1 + 1 + 1 + 1 + 4) _ 12 = _
    simp (disch := omega) only [regField, lowField, field_high, field_low, Nat.reduceSub,
        field_all, toFin_regBits, toFin_lowBits]
  · change field (n := 4 + 3 + 1 + 1 + 1 + 1 + 1 + 4 + 4 + 4 + 1 + 1 + 1 + 1 + 4) _ 8 4 = _
    simp (disch := omega) only [regField, lowField, field_high, field_low, Nat.reduceSub,
        field_all, toFin_regBits, toFin_lowBits]
  · change regField (n := 4 + 3 + 1 + 1 + 1 + 1 + 1 + 4 + 4 + 4 + 1 + 1 + 1 + 1 + 4) _ 8 = _
    simp (disch := omega) only [regField, lowField, field_high, field_low, Nat.reduceSub,
        field_all, toFin_regBits, toFin_lowBits]
  · change field (n := 4 + 3 + 1 + 1 + 1 + 1 + 1 + 4 + 4 + 4 + 1 + 1 + 1 + 1 + 4) _ 0 4 = _
    simp (disch := omega) only [regField, lowField, field_high, field_low, Nat.reduceSub,
        field_all, toFin_regBits, toFin_lowBits]
  · change regField (n := 4 + 3 + 1 + 1 + 1 + 1 + 1 + 4 + 4 + 4 + 1 + 1 + 1 + 1 + 4) _ 0 = _
    simp (disch := omega) only [regField, lowField, field_high, field_low, Nat.reduceSub,
        field_all, toFin_regBits, toFin_lowBits]

theorem encTransferImm_word (c : Cond) (p u b w l : Bool) (rn rd : Reg) (imm : BitVec 12) : ∃ v :
    Word, encTransferImm c p u b w l rn rd imm = .arm v ∧
    armBits v = armRowOf false true false p u b w l (bit imm 7) (bit imm 6) (bit imm 5) (bit imm
        4) ∧
    bit v 24 = p ∧
    bit v 23 = u ∧
    bit v 22 = b ∧
    bit v 21 = w ∧
    bit v 20 = l ∧
    field v 28 4 = c.bits ∧
    regField v 16 = rn ∧
    regField v 12 = rd ∧
    field v 0 12 = imm := by
  refine ⟨_, rfl, ?_, ?_, ?_, ?_, ?_, ?_, ?_, ?_, ?_, ?_⟩
  · change armBits (n := 4 + 3 + 1 + 1 + 1 + 1 + 1 + 4 + 4 + 12) _ = _
    simp (disch := omega) only [armBits, bit_high, bit_low, Nat.reduceSub, bit_flag]
    rfl
  · change bit (n := 4 + 3 + 1 + 1 + 1 + 1 + 1 + 4 + 4 + 12) _ 24 = _
    simp (disch := omega) only [bit_high, bit_low, Nat.reduceSub, bit_flag]
  · change bit (n := 4 + 3 + 1 + 1 + 1 + 1 + 1 + 4 + 4 + 12) _ 23 = _
    simp (disch := omega) only [bit_high, bit_low, Nat.reduceSub, bit_flag]
  · change bit (n := 4 + 3 + 1 + 1 + 1 + 1 + 1 + 4 + 4 + 12) _ 22 = _
    simp (disch := omega) only [bit_high, bit_low, Nat.reduceSub, bit_flag]
  · change bit (n := 4 + 3 + 1 + 1 + 1 + 1 + 1 + 4 + 4 + 12) _ 21 = _
    simp (disch := omega) only [bit_high, bit_low, Nat.reduceSub, bit_flag]
  · change bit (n := 4 + 3 + 1 + 1 + 1 + 1 + 1 + 4 + 4 + 12) _ 20 = _
    simp (disch := omega) only [bit_high, bit_low, Nat.reduceSub, bit_flag]
  · change field (n := 4 + 3 + 1 + 1 + 1 + 1 + 1 + 4 + 4 + 12) _ 28 4 = _
    simp (disch := omega) only [regField, lowField, field_high, field_low, Nat.reduceSub,
        field_all, toFin_regBits, toFin_lowBits]
  · change regField (n := 4 + 3 + 1 + 1 + 1 + 1 + 1 + 4 + 4 + 12) _ 16 = _
    simp (disch := omega) only [regField, lowField, field_high, field_low, Nat.reduceSub,
        field_all, toFin_regBits, toFin_lowBits]
  · change regField (n := 4 + 3 + 1 + 1 + 1 + 1 + 1 + 4 + 4 + 12) _ 12 = _
    simp (disch := omega) only [regField, lowField, field_high, field_low, Nat.reduceSub,
        field_all, toFin_regBits, toFin_lowBits]
  · change field (n := 4 + 3 + 1 + 1 + 1 + 1 + 1 + 4 + 4 + 12) _ 0 12 = _
    simp (disch := omega) only [regField, lowField, field_high, field_low, Nat.reduceSub,
        field_all, toFin_regBits, toFin_lowBits]

theorem encTransferReg_word (c : Cond) (p u b w l : Bool) (rn rd : Reg) (imm : BitVec 5) (sh :
    Shift) (rm : Reg) : ∃ v : Word, encTransferReg c p u b w l rn rd imm sh rm = .arm v ∧
    armBits v = armRowOf false true true p u b w l (bit imm 0) (bit sh.bits 1) (bit sh.bits 0)
        false ∧
    bit v 24 = p ∧
    bit v 23 = u ∧
    bit v 22 = b ∧
    bit v 21 = w ∧
    bit v 20 = l ∧
    field v 28 4 = c.bits ∧
    regField v 16 = rn ∧
    regField v 12 = rd ∧
    field v 7 5 = imm ∧
    field v 5 2 = sh.bits ∧
    regField v 0 = rm := by
  refine ⟨_, rfl, ?_, ?_, ?_, ?_, ?_, ?_, ?_, ?_, ?_, ?_, ?_, ?_⟩
  · change armBits (n := 4 + 3 + 1 + 1 + 1 + 1 + 1 + 4 + 4 + 5 + 2 + 1 + 4) _ = _
    simp (disch := omega) only [armBits, bit_high, bit_low, Nat.reduceSub, bit_flag]
    rfl
  · change bit (n := 4 + 3 + 1 + 1 + 1 + 1 + 1 + 4 + 4 + 5 + 2 + 1 + 4) _ 24 = _
    simp (disch := omega) only [bit_high, bit_low, Nat.reduceSub, bit_flag]
  · change bit (n := 4 + 3 + 1 + 1 + 1 + 1 + 1 + 4 + 4 + 5 + 2 + 1 + 4) _ 23 = _
    simp (disch := omega) only [bit_high, bit_low, Nat.reduceSub, bit_flag]
  · change bit (n := 4 + 3 + 1 + 1 + 1 + 1 + 1 + 4 + 4 + 5 + 2 + 1 + 4) _ 22 = _
    simp (disch := omega) only [bit_high, bit_low, Nat.reduceSub, bit_flag]
  · change bit (n := 4 + 3 + 1 + 1 + 1 + 1 + 1 + 4 + 4 + 5 + 2 + 1 + 4) _ 21 = _
    simp (disch := omega) only [bit_high, bit_low, Nat.reduceSub, bit_flag]
  · change bit (n := 4 + 3 + 1 + 1 + 1 + 1 + 1 + 4 + 4 + 5 + 2 + 1 + 4) _ 20 = _
    simp (disch := omega) only [bit_high, bit_low, Nat.reduceSub, bit_flag]
  · change field (n := 4 + 3 + 1 + 1 + 1 + 1 + 1 + 4 + 4 + 5 + 2 + 1 + 4) _ 28 4 = _
    simp (disch := omega) only [regField, lowField, field_high, field_low, Nat.reduceSub,
        field_all, toFin_regBits, toFin_lowBits]
  · change regField (n := 4 + 3 + 1 + 1 + 1 + 1 + 1 + 4 + 4 + 5 + 2 + 1 + 4) _ 16 = _
    simp (disch := omega) only [regField, lowField, field_high, field_low, Nat.reduceSub,
        field_all, toFin_regBits, toFin_lowBits]
  · change regField (n := 4 + 3 + 1 + 1 + 1 + 1 + 1 + 4 + 4 + 5 + 2 + 1 + 4) _ 12 = _
    simp (disch := omega) only [regField, lowField, field_high, field_low, Nat.reduceSub,
        field_all, toFin_regBits, toFin_lowBits]
  · change field (n := 4 + 3 + 1 + 1 + 1 + 1 + 1 + 4 + 4 + 5 + 2 + 1 + 4) _ 7 5 = _
    simp (disch := omega) only [regField, lowField, field_high, field_low, Nat.reduceSub,
        field_all, toFin_regBits, toFin_lowBits]
  · change field (n := 4 + 3 + 1 + 1 + 1 + 1 + 1 + 4 + 4 + 5 + 2 + 1 + 4) _ 5 2 = _
    simp (disch := omega) only [regField, lowField, field_high, field_low, Nat.reduceSub,
        field_all, toFin_regBits, toFin_lowBits]
  · change regField (n := 4 + 3 + 1 + 1 + 1 + 1 + 1 + 4 + 4 + 5 + 2 + 1 + 4) _ 0 = _
    simp (disch := omega) only [regField, lowField, field_high, field_low, Nat.reduceSub,
        field_all, toFin_regBits, toFin_lowBits]

theorem encBlock_word (c : Cond) (p u s w l : Bool) (rn : Reg) (list : BitVec 16) : ∃ v : Word,
    encBlock c p u s w l rn list = .arm v ∧
    armBits v = armRowOf true false false p u s w l (bit list 7) (bit list 6) (bit list 5) (bit
        list 4) ∧
    bit v 24 = p ∧
    bit v 23 = u ∧
    bit v 22 = s ∧
    bit v 21 = w ∧
    bit v 20 = l ∧
    bit v 15 = bit list 15 ∧
    field v 28 4 = c.bits ∧
    regField v 16 = rn ∧
    field v 0 16 = list := by
  refine ⟨_, rfl, ?_, ?_, ?_, ?_, ?_, ?_, ?_, ?_, ?_, ?_⟩
  · change armBits (n := 4 + 3 + 1 + 1 + 1 + 1 + 1 + 4 + 16) _ = _
    simp (disch := omega) only [armBits, bit_high, bit_low, Nat.reduceSub, bit_flag]
    rfl
  · change bit (n := 4 + 3 + 1 + 1 + 1 + 1 + 1 + 4 + 16) _ 24 = _
    simp (disch := omega) only [bit_high, bit_low, Nat.reduceSub, bit_flag]
  · change bit (n := 4 + 3 + 1 + 1 + 1 + 1 + 1 + 4 + 16) _ 23 = _
    simp (disch := omega) only [bit_high, bit_low, Nat.reduceSub, bit_flag]
  · change bit (n := 4 + 3 + 1 + 1 + 1 + 1 + 1 + 4 + 16) _ 22 = _
    simp (disch := omega) only [bit_high, bit_low, Nat.reduceSub, bit_flag]
  · change bit (n := 4 + 3 + 1 + 1 + 1 + 1 + 1 + 4 + 16) _ 21 = _
    simp (disch := omega) only [bit_high, bit_low, Nat.reduceSub, bit_flag]
  · change bit (n := 4 + 3 + 1 + 1 + 1 + 1 + 1 + 4 + 16) _ 20 = _
    simp (disch := omega) only [bit_high, bit_low, Nat.reduceSub, bit_flag]
  · change bit (n := 4 + 3 + 1 + 1 + 1 + 1 + 1 + 4 + 16) _ 15 = _
    simp (disch := omega) only [bit_high, bit_low, Nat.reduceSub, bit_flag]
  · change field (n := 4 + 3 + 1 + 1 + 1 + 1 + 1 + 4 + 16) _ 28 4 = _
    simp (disch := omega) only [regField, lowField, field_high, field_low, Nat.reduceSub,
        field_all, toFin_regBits, toFin_lowBits]
  · change regField (n := 4 + 3 + 1 + 1 + 1 + 1 + 1 + 4 + 16) _ 16 = _
    simp (disch := omega) only [regField, lowField, field_high, field_low, Nat.reduceSub,
        field_all, toFin_regBits, toFin_lowBits]
  · change field (n := 4 + 3 + 1 + 1 + 1 + 1 + 1 + 4 + 16) _ 0 16 = _
    simp (disch := omega) only [regField, lowField, field_high, field_low, Nat.reduceSub,
        field_all, toFin_regBits, toFin_lowBits]

theorem encCoprocTransfer_word (c : Cond) (p u n w l : Bool) (rn : Reg) (crd cp : BitVec 4) (off :
    BitVec 8) : ∃ v : Word, encCoprocTransfer c p u n w l rn crd cp off = .arm v ∧
    armBits v = armRowOf true true false p u n w l (bit off 7) (bit off 6) (bit off 5) (bit off 4) ∧
    bit v 24 = p ∧
    bit v 23 = u ∧
    bit v 22 = n ∧
    bit v 21 = w ∧
    bit v 20 = l ∧
    field v 28 4 = c.bits ∧
    regField v 16 = rn ∧
    field v 12 4 = crd ∧
    field v 8 4 = cp ∧
    field v 0 8 = off := by
  refine ⟨_, rfl, ?_, ?_, ?_, ?_, ?_, ?_, ?_, ?_, ?_, ?_, ?_⟩
  · change armBits (n := 4 + 3 + 1 + 1 + 1 + 1 + 1 + 4 + 4 + 4 + 8) _ = _
    simp (disch := omega) only [armBits, bit_high, bit_low, Nat.reduceSub, bit_flag]
    rfl
  · change bit (n := 4 + 3 + 1 + 1 + 1 + 1 + 1 + 4 + 4 + 4 + 8) _ 24 = _
    simp (disch := omega) only [bit_high, bit_low, Nat.reduceSub, bit_flag]
  · change bit (n := 4 + 3 + 1 + 1 + 1 + 1 + 1 + 4 + 4 + 4 + 8) _ 23 = _
    simp (disch := omega) only [bit_high, bit_low, Nat.reduceSub, bit_flag]
  · change bit (n := 4 + 3 + 1 + 1 + 1 + 1 + 1 + 4 + 4 + 4 + 8) _ 22 = _
    simp (disch := omega) only [bit_high, bit_low, Nat.reduceSub, bit_flag]
  · change bit (n := 4 + 3 + 1 + 1 + 1 + 1 + 1 + 4 + 4 + 4 + 8) _ 21 = _
    simp (disch := omega) only [bit_high, bit_low, Nat.reduceSub, bit_flag]
  · change bit (n := 4 + 3 + 1 + 1 + 1 + 1 + 1 + 4 + 4 + 4 + 8) _ 20 = _
    simp (disch := omega) only [bit_high, bit_low, Nat.reduceSub, bit_flag]
  · change field (n := 4 + 3 + 1 + 1 + 1 + 1 + 1 + 4 + 4 + 4 + 8) _ 28 4 = _
    simp (disch := omega) only [regField, lowField, field_high, field_low, Nat.reduceSub,
        field_all, toFin_regBits, toFin_lowBits]
  · change regField (n := 4 + 3 + 1 + 1 + 1 + 1 + 1 + 4 + 4 + 4 + 8) _ 16 = _
    simp (disch := omega) only [regField, lowField, field_high, field_low, Nat.reduceSub,
        field_all, toFin_regBits, toFin_lowBits]
  · change field (n := 4 + 3 + 1 + 1 + 1 + 1 + 1 + 4 + 4 + 4 + 8) _ 12 4 = _
    simp (disch := omega) only [regField, lowField, field_high, field_low, Nat.reduceSub,
        field_all, toFin_regBits, toFin_lowBits]
  · change field (n := 4 + 3 + 1 + 1 + 1 + 1 + 1 + 4 + 4 + 4 + 8) _ 8 4 = _
    simp (disch := omega) only [regField, lowField, field_high, field_low, Nat.reduceSub,
        field_all, toFin_regBits, toFin_lowBits]
  · change field (n := 4 + 3 + 1 + 1 + 1 + 1 + 1 + 4 + 4 + 4 + 8) _ 0 8 = _
    simp (disch := omega) only [regField, lowField, field_high, field_low, Nat.reduceSub,
        field_all, toFin_regBits, toFin_lowBits]

theorem encCoprocMove_word (c : Cond) (l : Bool) (op1 : BitVec 3) (crn : BitVec 4) (rd : Reg) (cp
    : BitVec 4) (op2 : BitVec 3) (crm : BitVec 4) : ∃ w : Word, encCoprocMove c l op1 crn rd cp
        op2 crm = .arm w ∧
    armBits w = armRowOf true true true false (bit op1 2) (bit op1 1) (bit op1 0) l (bit op2 2)
        (bit op2 1) (bit op2 0) true ∧
    bit w 20 = l ∧
    field w 28 4 = c.bits ∧
    field w 21 3 = op1 ∧
    field w 16 4 = crn ∧
    regField w 12 = rd ∧
    field w 8 4 = cp ∧
    field w 5 3 = op2 ∧
    field w 0 4 = crm := by
  refine ⟨_, rfl, ?_, ?_, ?_, ?_, ?_, ?_, ?_, ?_, ?_⟩
  · change armBits (n := 4 + 4 + 3 + 1 + 4 + 4 + 4 + 3 + 1 + 4) _ = _
    simp (disch := omega) only [armBits, bit_high, bit_low, Nat.reduceSub, bit_flag]
    rfl
  · change bit (n := 4 + 4 + 3 + 1 + 4 + 4 + 4 + 3 + 1 + 4) _ 20 = _
    simp (disch := omega) only [bit_high, bit_low, Nat.reduceSub, bit_flag]
  · change field (n := 4 + 4 + 3 + 1 + 4 + 4 + 4 + 3 + 1 + 4) _ 28 4 = _
    simp (disch := omega) only [regField, lowField, field_high, field_low, Nat.reduceSub,
        field_all, toFin_regBits, toFin_lowBits]
  · change field (n := 4 + 4 + 3 + 1 + 4 + 4 + 4 + 3 + 1 + 4) _ 21 3 = _
    simp (disch := omega) only [regField, lowField, field_high, field_low, Nat.reduceSub,
        field_all, toFin_regBits, toFin_lowBits]
  · change field (n := 4 + 4 + 3 + 1 + 4 + 4 + 4 + 3 + 1 + 4) _ 16 4 = _
    simp (disch := omega) only [regField, lowField, field_high, field_low, Nat.reduceSub,
        field_all, toFin_regBits, toFin_lowBits]
  · change regField (n := 4 + 4 + 3 + 1 + 4 + 4 + 4 + 3 + 1 + 4) _ 12 = _
    simp (disch := omega) only [regField, lowField, field_high, field_low, Nat.reduceSub,
        field_all, toFin_regBits, toFin_lowBits]
  · change field (n := 4 + 4 + 3 + 1 + 4 + 4 + 4 + 3 + 1 + 4) _ 8 4 = _
    simp (disch := omega) only [regField, lowField, field_high, field_low, Nat.reduceSub,
        field_all, toFin_regBits, toFin_lowBits]
  · change field (n := 4 + 4 + 3 + 1 + 4 + 4 + 4 + 3 + 1 + 4) _ 5 3 = _
    simp (disch := omega) only [regField, lowField, field_high, field_low, Nat.reduceSub,
        field_all, toFin_regBits, toFin_lowBits]
  · change field (n := 4 + 4 + 3 + 1 + 4 + 4 + 4 + 3 + 1 + 4) _ 0 4 = _
    simp (disch := omega) only [regField, lowField, field_high, field_low, Nat.reduceSub,
        field_all, toFin_regBits, toFin_lowBits]

theorem encThumbImm5_word (op : BitVec 5) (imm : BitVec 5) (rs rd : LowReg) : ∃ w : Half,
    encThumbImm5 op imm rs rd = .thumb w ∧
    thumbBits w = thumbRowOf (bit op 4) (bit op 3) (bit op 2) (bit op 1) (bit op 0) (bit imm 4)
        (bit imm 3) (bit imm 2) (bit imm 1) (bit imm 0) ∧
    field w 11 5 = op ∧
    field w 6 5 = imm ∧
    lowField w 3 = rs ∧
    lowField w 0 = rd := by
  refine ⟨_, rfl, ?_, ?_, ?_, ?_, ?_⟩
  · change thumbBits (n := 5 + 5 + 3 + 3) _ = _
    simp (disch := omega) only [thumbBits, bit_high, bit_low, Nat.reduceSub, bit_flag]
  · change field (n := 5 + 5 + 3 + 3) _ 11 5 = _
    simp (disch := omega) only [regField, lowField, field_high, field_low, Nat.reduceSub,
        field_all, toFin_regBits, toFin_lowBits]
  · change field (n := 5 + 5 + 3 + 3) _ 6 5 = _
    simp (disch := omega) only [regField, lowField, field_high, field_low, Nat.reduceSub,
        field_all, toFin_regBits, toFin_lowBits]
  · change lowField (n := 5 + 5 + 3 + 3) _ 3 = _
    simp (disch := omega) only [regField, lowField, field_high, field_low, Nat.reduceSub,
        field_all, toFin_regBits, toFin_lowBits]
  · change lowField (n := 5 + 5 + 3 + 3) _ 0 = _
    simp (disch := omega) only [regField, lowField, field_high, field_low, Nat.reduceSub,
        field_all, toFin_regBits, toFin_lowBits]

theorem encThumb3_word (op : BitVec 7) (x : BitVec 3) (rs rd : LowReg) : ∃ w : Half, encThumb3 op
    x rs rd = .thumb w ∧
    thumbBits w = thumbRowOf (bit op 6) (bit op 5) (bit op 4) (bit op 3) (bit op 2) (bit op 1)
        (bit op 0) (bit x 2) (bit x 1) (bit x 0) ∧
    field w 9 7 = op ∧
    field w 6 3 = x ∧
    lowField w 6 = x.toFin ∧
    lowField w 3 = rs ∧
    lowField w 0 = rd := by
  refine ⟨_, rfl, ?_, ?_, ?_, ?_, ?_, ?_⟩
  · change thumbBits (n := 7 + 3 + 3 + 3) _ = _
    simp (disch := omega) only [thumbBits, bit_high, bit_low, Nat.reduceSub, bit_flag]
  · change field (n := 7 + 3 + 3 + 3) _ 9 7 = _
    simp (disch := omega) only [regField, lowField, field_high, field_low, Nat.reduceSub,
        field_all, toFin_regBits, toFin_lowBits]
  · change field (n := 7 + 3 + 3 + 3) _ 6 3 = _
    simp (disch := omega) only [regField, lowField, field_high, field_low, Nat.reduceSub,
        field_all, toFin_regBits, toFin_lowBits]
  · change lowField (n := 7 + 3 + 3 + 3) _ 6 = _
    simp (disch := omega) only [regField, lowField, field_high, field_low, Nat.reduceSub,
        field_all, toFin_regBits, toFin_lowBits]
  · change lowField (n := 7 + 3 + 3 + 3) _ 3 = _
    simp (disch := omega) only [regField, lowField, field_high, field_low, Nat.reduceSub,
        field_all, toFin_regBits, toFin_lowBits]
  · change lowField (n := 7 + 3 + 3 + 3) _ 0 = _
    simp (disch := omega) only [regField, lowField, field_high, field_low, Nat.reduceSub,
        field_all, toFin_regBits, toFin_lowBits]

theorem encThumbImm8_word (op : BitVec 5) (rd : LowReg) (imm : BitVec 8) : ∃ w : Half,
    encThumbImm8 op rd imm = .thumb w ∧
    thumbBits w = thumbRowOf (bit op 4) (bit op 3) (bit op 2) (bit op 1) (bit op 0) (bit (lowBits
        rd) 2) (bit (lowBits rd) 1) (bit (lowBits rd) 0) (bit imm 7) (bit imm 6) ∧
    field w 11 5 = op ∧
    lowField w 8 = rd ∧
    field w 0 8 = imm := by
  refine ⟨_, rfl, ?_, ?_, ?_, ?_⟩
  · change thumbBits (n := 5 + 3 + 8) _ = _
    simp (disch := omega) only [thumbBits, bit_high, bit_low, Nat.reduceSub, bit_flag]
  · change field (n := 5 + 3 + 8) _ 11 5 = _
    simp (disch := omega) only [regField, lowField, field_high, field_low, Nat.reduceSub,
        field_all, toFin_regBits, toFin_lowBits]
  · change lowField (n := 5 + 3 + 8) _ 8 = _
    simp (disch := omega) only [regField, lowField, field_high, field_low, Nat.reduceSub,
        field_all, toFin_regBits, toFin_lowBits]
  · change field (n := 5 + 3 + 8) _ 0 8 = _
    simp (disch := omega) only [regField, lowField, field_high, field_low, Nat.reduceSub,
        field_all, toFin_regBits, toFin_lowBits]

theorem encThumbAlu_word (op : BitVec 4) (rs rd : LowReg) : ∃ w : Half, encThumbAlu op rs rd =
    .thumb w ∧
    thumbBits w = thumbRowOf false true false false false false (bit op 3) (bit op 2) (bit op 1)
        (bit op 0) ∧
    field w 6 4 = op ∧
    lowField w 3 = rs ∧
    lowField w 0 = rd := by
  refine ⟨_, rfl, ?_, ?_, ?_, ?_⟩
  · change thumbBits (n := 6 + 4 + 3 + 3) _ = _
    simp (disch := omega) only [thumbBits, bit_high, bit_low, Nat.reduceSub, bit_flag]
    rfl
  · change field (n := 6 + 4 + 3 + 3) _ 6 4 = _
    simp (disch := omega) only [regField, lowField, field_high, field_low, Nat.reduceSub,
        field_all, toFin_regBits, toFin_lowBits]
  · change lowField (n := 6 + 4 + 3 + 3) _ 3 = _
    simp (disch := omega) only [regField, lowField, field_high, field_low, Nat.reduceSub,
        field_all, toFin_regBits, toFin_lowBits]
  · change lowField (n := 6 + 4 + 3 + 3) _ 0 = _
    simp (disch := omega) only [regField, lowField, field_high, field_low, Nat.reduceSub,
        field_all, toFin_regBits, toFin_lowBits]

theorem encThumbHi_word (op : BitVec 2) (h1 h2 : Bool) (rs rd : LowReg) : ∃ w : Half, encThumbHi
    op h1 h2 rs rd = .thumb w ∧
    thumbBits w = thumbRowOf false true false false false true (bit op 1) (bit op 0) h1 h2 ∧
    bit w 7 = h1 ∧
    bit w 6 = h2 ∧
    field w 8 2 = op ∧
    lowField w 3 = rs ∧
    lowField w 0 = rd := by
  refine ⟨_, rfl, ?_, ?_, ?_, ?_, ?_, ?_⟩
  · change thumbBits (n := 6 + 2 + 1 + 1 + 3 + 3) _ = _
    simp (disch := omega) only [thumbBits, bit_high, bit_low, Nat.reduceSub, bit_flag]
    rfl
  · change bit (n := 6 + 2 + 1 + 1 + 3 + 3) _ 7 = _
    simp (disch := omega) only [bit_high, bit_low, Nat.reduceSub, bit_flag]
  · change bit (n := 6 + 2 + 1 + 1 + 3 + 3) _ 6 = _
    simp (disch := omega) only [bit_high, bit_low, Nat.reduceSub, bit_flag]
  · change field (n := 6 + 2 + 1 + 1 + 3 + 3) _ 8 2 = _
    simp (disch := omega) only [regField, lowField, field_high, field_low, Nat.reduceSub,
        field_all, toFin_regBits, toFin_lowBits]
  · change lowField (n := 6 + 2 + 1 + 1 + 3 + 3) _ 3 = _
    simp (disch := omega) only [regField, lowField, field_high, field_low, Nat.reduceSub,
        field_all, toFin_regBits, toFin_lowBits]
  · change lowField (n := 6 + 2 + 1 + 1 + 3 + 3) _ 0 = _
    simp (disch := omega) only [regField, lowField, field_high, field_low, Nat.reduceSub,
        field_all, toFin_regBits, toFin_lowBits]

theorem enc_bx (c : Cond) (rm : Reg) : ∃ w : Word, encode (.bx c rm) = .arm w ∧
    armBits w = armRowOf false false false true false false true false false false false true ∧
    field w 28 4 = c.bits ∧
    regField w 0 = rm := by
  refine ⟨_, rfl, ?_, ?_, ?_⟩
  · change armBits (n := 4 + 8 + 12 + 4 + 4) _ = _
    simp (disch := omega) only [armBits, bit_high, bit_low, Nat.reduceSub, bit_flag]
    rfl
  · change field (n := 4 + 8 + 12 + 4 + 4) _ 28 4 = _
    simp (disch := omega) only [regField, lowField, field_high, field_low, Nat.reduceSub,
        field_all, toFin_regBits, toFin_lowBits]
  · change regField (n := 4 + 8 + 12 + 4 + 4) _ 0 = _
    simp (disch := omega) only [regField, lowField, field_high, field_low, Nat.reduceSub,
        field_all, toFin_regBits, toFin_lowBits]

theorem enc_undefMul (c : Cond) : ∃ w : Word, encode (.undefMul c) = .arm w ∧
    armBits w = armRowOf false false false false false false false false true true false true ∧
    field w 28 4 = c.bits := by
  refine ⟨_, rfl, ?_, ?_⟩
  · change armBits (n := 4 + 28) _ = _
    simp (disch := omega) only [armBits, bit_high, bit_low, Nat.reduceSub, bit_flag]
    rfl
  · change field (n := 4 + 28) _ 28 4 = _
    simp (disch := omega) only [regField, lowField, field_high, field_low, Nat.reduceSub,
        field_all, toFin_regBits, toFin_lowBits]

theorem enc_mrs (c : Cond) (r : Bool) (rd : Reg) : ∃ w : Word, encode (.mrs c r rd) = .arm w ∧
    armBits w = armRowOf false false false true false r false false false false false false ∧
    bit w 22 = r ∧
    field w 28 4 = c.bits ∧
    regField w 12 = rd := by
  refine ⟨_, rfl, ?_, ?_, ?_, ?_⟩
  · change armBits (n := 4 + 5 + 1 + 2 + 4 + 4 + 12) _ = _
    simp (disch := omega) only [armBits, bit_high, bit_low, Nat.reduceSub, bit_flag]
    rfl
  · change bit (n := 4 + 5 + 1 + 2 + 4 + 4 + 12) _ 22 = _
    simp (disch := omega) only [bit_high, bit_low, Nat.reduceSub, bit_flag]
  · change field (n := 4 + 5 + 1 + 2 + 4 + 4 + 12) _ 28 4 = _
    simp (disch := omega) only [regField, lowField, field_high, field_low, Nat.reduceSub,
        field_all, toFin_regBits, toFin_lowBits]
  · change regField (n := 4 + 5 + 1 + 2 + 4 + 4 + 12) _ 12 = _
    simp (disch := omega) only [regField, lowField, field_high, field_low, Nat.reduceSub,
        field_all, toFin_regBits, toFin_lowBits]

theorem enc_msrReg (c : Cond) (r : Bool) (fm : BitVec 4) (rm : Reg) : ∃ w : Word, encode (.msrReg
    c r fm rm) = .arm w ∧
    armBits w = armRowOf false false false true false r true false false false false false ∧
    bit w 22 = r ∧
    field w 28 4 = c.bits ∧
    field w 16 4 = fm ∧
    regField w 0 = rm := by
  refine ⟨_, rfl, ?_, ?_, ?_, ?_, ?_⟩
  · change armBits (n := 4 + 5 + 1 + 2 + 4 + 4 + 8 + 4) _ = _
    simp (disch := omega) only [armBits, bit_high, bit_low, Nat.reduceSub, bit_flag]
    rfl
  · change bit (n := 4 + 5 + 1 + 2 + 4 + 4 + 8 + 4) _ 22 = _
    simp (disch := omega) only [bit_high, bit_low, Nat.reduceSub, bit_flag]
  · change field (n := 4 + 5 + 1 + 2 + 4 + 4 + 8 + 4) _ 28 4 = _
    simp (disch := omega) only [regField, lowField, field_high, field_low, Nat.reduceSub,
        field_all, toFin_regBits, toFin_lowBits]
  · change field (n := 4 + 5 + 1 + 2 + 4 + 4 + 8 + 4) _ 16 4 = _
    simp (disch := omega) only [regField, lowField, field_high, field_low, Nat.reduceSub,
        field_all, toFin_regBits, toFin_lowBits]
  · change regField (n := 4 + 5 + 1 + 2 + 4 + 4 + 8 + 4) _ 0 = _
    simp (disch := omega) only [regField, lowField, field_high, field_low, Nat.reduceSub,
        field_all, toFin_regBits, toFin_lowBits]

theorem enc_undefMisc (c : Cond) : ∃ w : Word, encode (.undefMisc c) = .arm w ∧
    armBits w = armRowOf false false false true false false false false false false true false ∧
    field w 28 4 = c.bits := by
  refine ⟨_, rfl, ?_, ?_⟩
  · change armBits (n := 4 + 28) _ = _
    simp (disch := omega) only [armBits, bit_high, bit_low, Nat.reduceSub, bit_flag]
    rfl
  · change field (n := 4 + 28) _ 28 4 = _
    simp (disch := omega) only [regField, lowField, field_high, field_low, Nat.reduceSub,
        field_all, toFin_regBits, toFin_lowBits]

theorem enc_msrImm (c : Cond) (r : Bool) (fm : BitVec 4) (rot : BitVec 4) (imm : BitVec 8) : ∃ w :
    Word, encode (.msrImm c r fm rot imm) = .arm w ∧
    armBits w = armRowOf false false true true false r true false (bit imm 7) (bit imm 6) (bit imm
        5) (bit imm 4) ∧
    bit w 22 = r ∧
    field w 28 4 = c.bits ∧
    field w 16 4 = fm ∧
    field w 8 4 = rot ∧
    field w 0 8 = imm := by
  refine ⟨_, rfl, ?_, ?_, ?_, ?_, ?_, ?_⟩
  · change armBits (n := 4 + 5 + 1 + 2 + 4 + 4 + 4 + 8) _ = _
    simp (disch := omega) only [armBits, bit_high, bit_low, Nat.reduceSub, bit_flag]
    rfl
  · change bit (n := 4 + 5 + 1 + 2 + 4 + 4 + 4 + 8) _ 22 = _
    simp (disch := omega) only [bit_high, bit_low, Nat.reduceSub, bit_flag]
  · change field (n := 4 + 5 + 1 + 2 + 4 + 4 + 4 + 8) _ 28 4 = _
    simp (disch := omega) only [regField, lowField, field_high, field_low, Nat.reduceSub,
        field_all, toFin_regBits, toFin_lowBits]
  · change field (n := 4 + 5 + 1 + 2 + 4 + 4 + 4 + 8) _ 16 4 = _
    simp (disch := omega) only [regField, lowField, field_high, field_low, Nat.reduceSub,
        field_all, toFin_regBits, toFin_lowBits]
  · change field (n := 4 + 5 + 1 + 2 + 4 + 4 + 4 + 8) _ 8 4 = _
    simp (disch := omega) only [regField, lowField, field_high, field_low, Nat.reduceSub,
        field_all, toFin_regBits, toFin_lowBits]
  · change field (n := 4 + 5 + 1 + 2 + 4 + 4 + 4 + 8) _ 0 8 = _
    simp (disch := omega) only [regField, lowField, field_high, field_low, Nat.reduceSub,
        field_all, toFin_regBits, toFin_lowBits]

theorem enc_undefMsrImm (c : Cond) : ∃ w : Word, encode (.undefMsrImm c) = .arm w ∧
    armBits w = armRowOf false false true true false false false false false false false false ∧
    field w 28 4 = c.bits := by
  refine ⟨_, rfl, ?_, ?_⟩
  · change armBits (n := 4 + 28) _ = _
    simp (disch := omega) only [armBits, bit_high, bit_low, Nat.reduceSub, bit_flag]
    rfl
  · change field (n := 4 + 28) _ 28 4 = _
    simp (disch := omega) only [regField, lowField, field_high, field_low, Nat.reduceSub,
        field_all, toFin_regBits, toFin_lowBits]

theorem enc_undefMedia (c : Cond) : ∃ w : Word, encode (.undefMedia c) = .arm w ∧
    armBits w = armRowOf false true true false false false false false false false false true ∧
    field w 28 4 = c.bits := by
  refine ⟨_, rfl, ?_, ?_⟩
  · change armBits (n := 4 + 28) _ = _
    simp (disch := omega) only [armBits, bit_high, bit_low, Nat.reduceSub, bit_flag]
    rfl
  · change field (n := 4 + 28) _ 28 4 = _
    simp (disch := omega) only [regField, lowField, field_high, field_low, Nat.reduceSub,
        field_all, toFin_regBits, toFin_lowBits]

theorem enc_b (c : Cond) (imm : BitVec 24) : ∃ w : Word, encode (.b c imm) = .arm w ∧
    armBits w = armRowOf true false true false (bit imm 23) (bit imm 22) (bit imm 21) (bit imm 20)
        (bit imm 7) (bit imm 6) (bit imm 5) (bit imm 4) ∧
    bit w 24 = false ∧
    field w 28 4 = c.bits ∧
    field w 0 24 = imm := by
  refine ⟨_, rfl, ?_, ?_, ?_, ?_⟩
  · change armBits (n := 4 + 4 + 24) _ = _
    simp (disch := omega) only [armBits, bit_high, bit_low, Nat.reduceSub, bit_flag]
    rfl
  · change bit (n := 4 + 4 + 24) _ 24 = _
    simp (disch := omega) only [bit_high, bit_low, Nat.reduceSub, bit_flag]
    rfl
  · change field (n := 4 + 4 + 24) _ 28 4 = _
    simp (disch := omega) only [regField, lowField, field_high, field_low, Nat.reduceSub,
        field_all, toFin_regBits, toFin_lowBits]
  · change field (n := 4 + 4 + 24) _ 0 24 = _
    simp (disch := omega) only [regField, lowField, field_high, field_low, Nat.reduceSub,
        field_all, toFin_regBits, toFin_lowBits]

theorem enc_bl (c : Cond) (imm : BitVec 24) : ∃ w : Word, encode (.bl c imm) = .arm w ∧
    armBits w = armRowOf true false true true (bit imm 23) (bit imm 22) (bit imm 21) (bit imm 20)
        (bit imm 7) (bit imm 6) (bit imm 5) (bit imm 4) ∧
    bit w 24 = true ∧
    field w 28 4 = c.bits ∧
    field w 0 24 = imm := by
  refine ⟨_, rfl, ?_, ?_, ?_, ?_⟩
  · change armBits (n := 4 + 4 + 24) _ = _
    simp (disch := omega) only [armBits, bit_high, bit_low, Nat.reduceSub, bit_flag]
    rfl
  · change bit (n := 4 + 4 + 24) _ 24 = _
    simp (disch := omega) only [bit_high, bit_low, Nat.reduceSub, bit_flag]
    rfl
  · change field (n := 4 + 4 + 24) _ 28 4 = _
    simp (disch := omega) only [regField, lowField, field_high, field_low, Nat.reduceSub,
        field_all, toFin_regBits, toFin_lowBits]
  · change field (n := 4 + 4 + 24) _ 0 24 = _
    simp (disch := omega) only [regField, lowField, field_high, field_low, Nat.reduceSub,
        field_all, toFin_regBits, toFin_lowBits]

theorem enc_cdp (c : Cond) (op1 : BitVec 4) (crn : BitVec 4) (crd : BitVec 4) (cp : BitVec 4) (op2
    : BitVec 3) (crm : BitVec 4) : ∃ w : Word, encode (.cdp c op1 crn crd cp op2 crm) = .arm w ∧
    armBits w = armRowOf true true true false (bit op1 3) (bit op1 2) (bit op1 1) (bit op1 0) (bit
        op2 2) (bit op2 1) (bit op2 0) false ∧
    field w 28 4 = c.bits ∧
    field w 20 4 = op1 ∧
    field w 16 4 = crn ∧
    field w 12 4 = crd ∧
    field w 8 4 = cp ∧
    field w 5 3 = op2 ∧
    field w 0 4 = crm := by
  refine ⟨_, rfl, ?_, ?_, ?_, ?_, ?_, ?_, ?_, ?_⟩
  · change armBits (n := 4 + 4 + 4 + 4 + 4 + 4 + 3 + 1 + 4) _ = _
    simp (disch := omega) only [armBits, bit_high, bit_low, Nat.reduceSub, bit_flag]
    rfl
  · change field (n := 4 + 4 + 4 + 4 + 4 + 4 + 3 + 1 + 4) _ 28 4 = _
    simp (disch := omega) only [regField, lowField, field_high, field_low, Nat.reduceSub,
        field_all, toFin_regBits, toFin_lowBits]
  · change field (n := 4 + 4 + 4 + 4 + 4 + 4 + 3 + 1 + 4) _ 20 4 = _
    simp (disch := omega) only [regField, lowField, field_high, field_low, Nat.reduceSub,
        field_all, toFin_regBits, toFin_lowBits]
  · change field (n := 4 + 4 + 4 + 4 + 4 + 4 + 3 + 1 + 4) _ 16 4 = _
    simp (disch := omega) only [regField, lowField, field_high, field_low, Nat.reduceSub,
        field_all, toFin_regBits, toFin_lowBits]
  · change field (n := 4 + 4 + 4 + 4 + 4 + 4 + 3 + 1 + 4) _ 12 4 = _
    simp (disch := omega) only [regField, lowField, field_high, field_low, Nat.reduceSub,
        field_all, toFin_regBits, toFin_lowBits]
  · change field (n := 4 + 4 + 4 + 4 + 4 + 4 + 3 + 1 + 4) _ 8 4 = _
    simp (disch := omega) only [regField, lowField, field_high, field_low, Nat.reduceSub,
        field_all, toFin_regBits, toFin_lowBits]
  · change field (n := 4 + 4 + 4 + 4 + 4 + 4 + 3 + 1 + 4) _ 5 3 = _
    simp (disch := omega) only [regField, lowField, field_high, field_low, Nat.reduceSub,
        field_all, toFin_regBits, toFin_lowBits]
  · change field (n := 4 + 4 + 4 + 4 + 4 + 4 + 3 + 1 + 4) _ 0 4 = _
    simp (disch := omega) only [regField, lowField, field_high, field_low, Nat.reduceSub,
        field_all, toFin_regBits, toFin_lowBits]

theorem enc_swi (c : Cond) (comment : BitVec 24) : ∃ w : Word, encode (.swi c comment) = .arm w ∧
    armBits w = armRowOf true true true true (bit comment 23) (bit comment 22) (bit comment 21)
        (bit comment 20) (bit comment 7) (bit comment 6) (bit comment 5) (bit comment 4) ∧
    field w 28 4 = c.bits ∧
    field w 0 24 = comment := by
  refine ⟨_, rfl, ?_, ?_, ?_⟩
  · change armBits (n := 4 + 4 + 24) _ = _
    simp (disch := omega) only [armBits, bit_high, bit_low, Nat.reduceSub, bit_flag]
    rfl
  · change field (n := 4 + 4 + 24) _ 28 4 = _
    simp (disch := omega) only [regField, lowField, field_high, field_low, Nat.reduceSub,
        field_all, toFin_regBits, toFin_lowBits]
  · change field (n := 4 + 4 + 24) _ 0 24 = _
    simp (disch := omega) only [regField, lowField, field_high, field_low, Nat.reduceSub,
        field_all, toFin_regBits, toFin_lowBits]

theorem enc_tAddSpImm (imm : BitVec 7) : ∃ w : Half, encode (.tAddSpImm imm) = .thumb w ∧
    thumbBits w = thumbRowOf true false true true false false false false false (bit imm 6) ∧
    field w 0 7 = imm := by
  refine ⟨_, rfl, ?_, ?_⟩
  · change thumbBits (n := 8 + 1 + 7) _ = _
    simp (disch := omega) only [thumbBits, bit_high, bit_low, Nat.reduceSub, bit_flag]
    rfl
  · change field (n := 8 + 1 + 7) _ 0 7 = _
    simp (disch := omega) only [regField, lowField, field_high, field_low, Nat.reduceSub,
        field_all, toFin_regBits, toFin_lowBits]

theorem enc_tSubSpImm (imm : BitVec 7) : ∃ w : Half, encode (.tSubSpImm imm) = .thumb w ∧
    thumbBits w = thumbRowOf true false true true false false false false true (bit imm 6) ∧
    field w 0 7 = imm := by
  refine ⟨_, rfl, ?_, ?_⟩
  · change thumbBits (n := 8 + 1 + 7) _ = _
    simp (disch := omega) only [thumbBits, bit_high, bit_low, Nat.reduceSub, bit_flag]
    rfl
  · change field (n := 8 + 1 + 7) _ 0 7 = _
    simp (disch := omega) only [regField, lowField, field_high, field_low, Nat.reduceSub,
        field_all, toFin_regBits, toFin_lowBits]

theorem enc_tPush (r : Bool) (list : BitVec 8) : ∃ w : Half, encode (.tPush r list) = .thumb w ∧
    thumbBits w = thumbRowOf true false true true false true false r (bit list 7) (bit list 6) ∧
    bit w 8 = r ∧
    field w 0 8 = list := by
  refine ⟨_, rfl, ?_, ?_, ?_⟩
  · change thumbBits (n := 4 + 1 + 2 + 1 + 8) _ = _
    simp (disch := omega) only [thumbBits, bit_high, bit_low, Nat.reduceSub, bit_flag]
    rfl
  · change bit (n := 4 + 1 + 2 + 1 + 8) _ 8 = _
    simp (disch := omega) only [bit_high, bit_low, Nat.reduceSub, bit_flag]
  · change field (n := 4 + 1 + 2 + 1 + 8) _ 0 8 = _
    simp (disch := omega) only [regField, lowField, field_high, field_low, Nat.reduceSub,
        field_all, toFin_regBits, toFin_lowBits]

theorem enc_tPop (r : Bool) (list : BitVec 8) : ∃ w : Half, encode (.tPop r list) = .thumb w ∧
    thumbBits w = thumbRowOf true false true true true true false r (bit list 7) (bit list 6) ∧
    bit w 8 = r ∧
    field w 0 8 = list := by
  refine ⟨_, rfl, ?_, ?_, ?_⟩
  · change thumbBits (n := 4 + 1 + 2 + 1 + 8) _ = _
    simp (disch := omega) only [thumbBits, bit_high, bit_low, Nat.reduceSub, bit_flag]
    rfl
  · change bit (n := 4 + 1 + 2 + 1 + 8) _ 8 = _
    simp (disch := omega) only [bit_high, bit_low, Nat.reduceSub, bit_flag]
  · change field (n := 4 + 1 + 2 + 1 + 8) _ 0 8 = _
    simp (disch := omega) only [regField, lowField, field_high, field_low, Nat.reduceSub,
        field_all, toFin_regBits, toFin_lowBits]

theorem enc_tUndef1011 : ∃ w : Half, encode .tUndef1011 = .thumb w ∧
    thumbBits w = thumbRowOf true false true true false false false true false false := by
  refine ⟨_, rfl, ?_⟩
  · change thumbBits (n := 16) _ = _
    simp (disch := omega) only [thumbBits, bit_high, bit_low, Nat.reduceSub, bit_flag]
    rfl

theorem enc_tUndefCond : ∃ w : Half, encode .tUndefCond = .thumb w ∧
    thumbBits w = thumbRowOf true true false true true true true false false false := by
  refine ⟨_, rfl, ?_⟩
  · change thumbBits (n := 16) _ = _
    simp (disch := omega) only [thumbBits, bit_high, bit_low, Nat.reduceSub, bit_flag]
    rfl

theorem enc_tSwi (comment : BitVec 8) : ∃ w : Half, encode (.tSwi comment) = .thumb w ∧
    thumbBits w = thumbRowOf true true false true true true true true (bit comment 7) (bit comment
        6) ∧
    field w 0 8 = comment := by
  refine ⟨_, rfl, ?_, ?_⟩
  · change thumbBits (n := 8 + 8) _ = _
    simp (disch := omega) only [thumbBits, bit_high, bit_low, Nat.reduceSub, bit_flag]
    rfl
  · change field (n := 8 + 8) _ 0 8 = _
    simp (disch := omega) only [regField, lowField, field_high, field_low, Nat.reduceSub,
        field_all, toFin_regBits, toFin_lowBits]

theorem enc_tBcond (c : Cond) (off : BitVec 8) : ∃ w : Half, encode (.tBcond c off) = .thumb w ∧
    thumbBits w = thumbRowOf true true false true (bit c.bits 3) (bit c.bits 2) (bit c.bits 1)
        (bit c.bits 0) (bit off 7) (bit off 6) ∧
    field w 8 4 = c.bits ∧
    field w 0 8 = off := by
  refine ⟨_, rfl, ?_, ?_, ?_⟩
  · change thumbBits (n := 4 + 4 + 8) _ = _
    simp (disch := omega) only [thumbBits, bit_high, bit_low, Nat.reduceSub, bit_flag]
    rfl
  · change field (n := 4 + 4 + 8) _ 8 4 = _
    simp (disch := omega) only [regField, lowField, field_high, field_low, Nat.reduceSub,
        field_all, toFin_regBits, toFin_lowBits]
  · change field (n := 4 + 4 + 8) _ 0 8 = _
    simp (disch := omega) only [regField, lowField, field_high, field_low, Nat.reduceSub,
        field_all, toFin_regBits, toFin_lowBits]

theorem enc_tB (off : BitVec 11) : ∃ w : Half, encode (.tB off) = .thumb w ∧
    thumbBits w = thumbRowOf true true true false false (bit off 10) (bit off 9) (bit off 8) (bit
        off 7) (bit off 6) ∧
    field w 0 11 = off := by
  refine ⟨_, rfl, ?_, ?_⟩
  · change thumbBits (n := 5 + 11) _ = _
    simp (disch := omega) only [thumbBits, bit_high, bit_low, Nat.reduceSub, bit_flag]
    rfl
  · change field (n := 5 + 11) _ 0 11 = _
    simp (disch := omega) only [regField, lowField, field_high, field_low, Nat.reduceSub,
        field_all, toFin_regBits, toFin_lowBits]

theorem enc_tUndef11101 : ∃ w : Half, encode .tUndef11101 = .thumb w ∧
    thumbBits w = thumbRowOf true true true false true false false false false false := by
  refine ⟨_, rfl, ?_⟩
  · change thumbBits (n := 16) _ = _
    simp (disch := omega) only [thumbBits, bit_high, bit_low, Nat.reduceSub, bit_flag]
    rfl

theorem enc_tBlFirst (off : BitVec 11) : ∃ w : Half, encode (.tBlFirst off) = .thumb w ∧
    thumbBits w = thumbRowOf true true true true false (bit off 10) (bit off 9) (bit off 8) (bit
        off 7) (bit off 6) ∧
    field w 0 11 = off := by
  refine ⟨_, rfl, ?_, ?_⟩
  · change thumbBits (n := 5 + 11) _ = _
    simp (disch := omega) only [thumbBits, bit_high, bit_low, Nat.reduceSub, bit_flag]
    rfl
  · change field (n := 5 + 11) _ 0 11 = _
    simp (disch := omega) only [regField, lowField, field_high, field_low, Nat.reduceSub,
        field_all, toFin_regBits, toFin_lowBits]

theorem enc_tBlSecond (off : BitVec 11) : ∃ w : Half, encode (.tBlSecond off) = .thumb w ∧
    thumbBits w = thumbRowOf true true true true true (bit off 10) (bit off 9) (bit off 8) (bit
        off 7) (bit off 6) ∧
    field w 0 11 = off := by
  refine ⟨_, rfl, ?_, ?_⟩
  · change thumbBits (n := 5 + 11) _ = _
    simp (disch := omega) only [thumbBits, bit_high, bit_low, Nat.reduceSub, bit_flag]
    rfl
  · change field (n := 5 + 11) _ 0 11 = _
    simp (disch := omega) only [regField, lowField, field_high, field_low, Nat.reduceSub,
        field_all, toFin_regBits, toFin_lowBits]

end Sys2Proof
end

