-- ==== Sys2Proof/Laws/Memory.lean ====
section
/-! SUPPORT. The laws of plain memory: every write keeps the canonical form, a read after a write gives
the byte written, and a write leaves every other byte alone. -/

namespace Sys2Proof.Machine

/-! ## One byte -/

theorem Memory.wfFrom_mono {lo lo' : Nat} {m : Memory} (h : lo' ≤ lo) (hm : Memory.wfFrom lo m = true) :
    Memory.wfFrom lo' m = true := by
  cases m with
  | nil => rfl
  | cons c rest =>
    simp only [Memory.wfFrom, Bool.and_eq_true, decide_eq_true_eq] at hm ⊢
    exact ⟨⟨⟨h.trans hm.1.1.1, hm.1.1.2⟩, hm.1.2⟩, hm.2⟩

/-- Below the first possible address nothing is listed. -/
theorem Memory.read_below {lo a : Nat} {m : Memory} (hm : Memory.wfFrom lo m = true) (h : a < lo) :
    m.read a = Memory.unlisted := by
  induction m generalizing lo with
  | nil => rfl
  | cons c rest ih =>
    simp only [Memory.wfFrom, Bool.and_eq_true, decide_eq_true_eq] at hm
    obtain ⟨⟨⟨h1, -⟩, -⟩, h4⟩ := hm
    simp only [Memory.read]
    rw [if_neg (by omega)]
    exact ih h4 (by omega)

theorem Memory.read_cell {lo : Nat} {m : Memory} (a : Nat) (v : Byte) (b : Nat) (h : a < lo)
    (hm : Memory.wfFrom lo m = true) : (Memory.cell a v m).read b = if a = b then v else m.read b := by
  unfold Memory.cell
  split
  · next hv =>
    split
    · next hab => rw [hv, ← hab, Memory.read_below hm h]
    · rfl
  · rfl

theorem Memory.wf_cell {lo : Nat} {m : Memory} (a : Nat) (v : Byte) (hl : lo ≤ a) (ha : a < 2 ^ 32)
    (hm : Memory.wfFrom (a + 1) m = true) : Memory.wfFrom lo (Memory.cell a v m) = true := by
  unfold Memory.cell
  split
  · exact Memory.wfFrom_mono (by omega) hm
  · next hv =>
    simp only [Memory.wfFrom, Bool.and_eq_true, decide_eq_true_eq]
    exact ⟨⟨⟨hl, ha⟩, hv⟩, hm⟩

theorem Memory.wfFrom_write {lo : Nat} {m : Memory} (a : Nat) (v : Byte) (hl : lo ≤ a) (ha : a < 2 ^ 32)
    (hm : Memory.wfFrom lo m = true) : Memory.wfFrom lo (m.write a v) = true := by
  induction m generalizing lo with
  | nil => exact Memory.wf_cell a v hl ha rfl
  | cons c rest ih =>
    obtain ⟨k, b⟩ := c
    have hm' := hm
    simp only [Memory.wfFrom, Bool.and_eq_true, decide_eq_true_eq] at hm
    obtain ⟨⟨⟨h1, h2⟩, h3⟩, h4⟩ := hm
    simp only [Memory.write]
    split
    · refine Memory.wf_cell a v hl ha ?_
      simp only [Memory.wfFrom, Bool.and_eq_true, decide_eq_true_eq]
      exact ⟨⟨⟨by omega, h2⟩, h3⟩, h4⟩
    · split
      · next he => exact Memory.wf_cell a v hl ha (he ▸ h4)
      · simp only [Memory.wfFrom, Bool.and_eq_true, decide_eq_true_eq]
        exact ⟨⟨⟨h1, h2⟩, h3⟩, ih (by omega) h4⟩

theorem Memory.read_write_from {lo : Nat} {m : Memory} (a : Nat) (v : Byte) (b : Nat)
    (hm : Memory.wfFrom lo m = true) : (m.write a v).read b = if a = b then v else m.read b := by
  induction m generalizing lo with
  | nil => exact Memory.read_cell a v b (Nat.lt_succ_self a) rfl
  | cons c rest ih =>
    obtain ⟨k, w⟩ := c
    have hm' := hm
    simp only [Memory.wfFrom, Bool.and_eq_true, decide_eq_true_eq] at hm
    obtain ⟨⟨⟨h1, h2⟩, h3⟩, h4⟩ := hm
    simp only [Memory.write]
    split
    · refine Memory.read_cell (lo := k) a v b (by omega) ?_
      simp only [Memory.wfFrom, Bool.and_eq_true, decide_eq_true_eq]
      exact ⟨⟨⟨Nat.le_refl k, h2⟩, h3⟩, h4⟩
    · split
      · next hak =>
        subst hak
        rw [Memory.read_cell (lo := a + 1) a v b (by omega) h4]
        simp only [Memory.read]
        split <;> simp_all
      · simp only [Memory.read]
        rw [ih h4]
        split <;> split <;> simp_all

/-- A write keeps the canonical form. -/
theorem Memory.wf_write {m : Memory} {a : Nat} (v : Byte) (ha : a < 2 ^ 32) (hm : m.wf = true) :
    (m.write a v).wf = true := Memory.wfFrom_write a v (Nat.zero_le a) ha hm

/-- A read after a write: the byte written at its address, every other byte as before. -/
theorem Memory.read_write {m : Memory} (a : Nat) (v : Byte) (b : Nat) (hm : m.wf = true) :
    (m.write a v).read b = if a = b then v else m.read b := Memory.read_write_from a v b hm

/-! ## Halfwords and words -/

theorem Width.bytes_le (w : Width) : w.bytes ≤ 4 := by cases w <;> decide

theorem Memory.wf_store {m : Memory} {a : Nat} (w : Width) (v : Word) (ha : a + w.bytes ≤ 2 ^ 32)
    (hm : m.wf = true) : (m.store w a v).wf = true := by
  cases w <;> simp only [Width.bytes] at ha <;>
    simp only [Memory.store, Memory.write16, Memory.write32] <;>
    repeat' (first | exact hm | apply Memory.wf_write | omega)

/-- A store leaves every byte outside its own bytes alone. -/
theorem Memory.read_store_outside {m : Memory} {a b : Nat} (w : Width) (v : Word) (ha : a + w.bytes ≤ 2 ^ 32)
    (hm : m.wf = true) (hb : b < a ∨ a + w.bytes ≤ b) : (m.store w a v).read b = m.read b := by
  cases w <;> simp only [Width.bytes] at ha hb
  · simp only [Memory.store]
    rw [Memory.read_write _ _ _ hm, if_neg (by omega)]
  · have h1 : (m.write a (field v 0 8)).wf = true := Memory.wf_write _ (by omega) hm
    simp only [Memory.store, Memory.write16]
    rw [Memory.read_write _ _ _ (Memory.wf_write _ (by omega) hm), if_neg (by omega),
      Memory.read_write _ _ _ hm, if_neg (by omega)]
  · simp only [Memory.store, Memory.write32]
    rw [Memory.read_write _ _ _ (by repeat' (first | exact hm | apply Memory.wf_write | omega)),
      if_neg (by omega),
      Memory.read_write _ _ _ (by repeat' (first | exact hm | apply Memory.wf_write | omega)),
      if_neg (by omega),
      Memory.read_write _ _ _ (by repeat' (first | exact hm | apply Memory.wf_write | omega)),
      if_neg (by omega), Memory.read_write _ _ _ hm, if_neg (by omega)]

/-- The bytes of a store: byte `i` of the value at address `a + i`, least significant first. -/
theorem Memory.read_store_inside {m : Memory} {a i : Nat} (w : Width) (v : Word)
    (ha : a + w.bytes ≤ 2 ^ 32) (hm : m.wf = true) (hi : i < w.bytes) :
    (m.store w a v).read (a + i) = v.extractLsb' (8 * i) 8 := by
  cases w <;> simp only [Width.bytes] at ha hi
  · obtain rfl : i = 0 := by omega
    simp only [Memory.store]
    rw [Memory.read_write _ _ _ hm, if_pos (by omega)]
    rfl
  · simp only [Memory.store, Memory.write16]
    rw [Memory.read_write _ _ _ (Memory.wf_write _ (by omega) hm), Memory.read_write _ _ _ hm]
    obtain rfl | rfl : i = 0 ∨ i = 1 := by omega
    · rw [if_neg (by omega), if_pos (by omega)]
      simp only [field]
      ext j hj
      simp
    · rw [if_pos (by omega)]
      simp only [field]
      ext j hj
      simp
  · simp only [Memory.store, Memory.write32]
    rw [Memory.read_write _ _ _ (by repeat' (first | exact hm | apply Memory.wf_write | omega)),
      Memory.read_write _ _ _ (by repeat' (first | exact hm | apply Memory.wf_write | omega)),
      Memory.read_write _ _ _ (by repeat' (first | exact hm | apply Memory.wf_write | omega)),
      Memory.read_write _ _ _ hm]
    obtain rfl | rfl | rfl | rfl : i = 0 ∨ i = 1 ∨ i = 2 ∨ i = 3 := by omega
    · rw [if_neg (by omega), if_neg (by omega), if_neg (by omega), if_pos (by omega)]
      rfl
    · rw [if_neg (by omega), if_neg (by omega), if_pos (by omega)]
      rfl
    · rw [if_neg (by omega), if_pos (by omega)]
      rfl
    · rw [if_pos (by omega)]
      rfl

/-! ## Aligned accesses -/

theorem and_FFFFFFFE (a : Word) : a &&& (0xFFFFFFFE : Word) = (a >>> 1) <<< 1 := by
  ext i hi
  interval_cases i <;> simp

theorem and_FFFFFFFC (a : Word) : a &&& (0xFFFFFFFC : Word) = (a >>> 2) <<< 2 := by
  ext i hi
  interval_cases i <;> simp

theorem Width.align_toNat (w : Width) (a : Word) : (w.align a).toNat = a.toNat - a.toNat % w.bytes := by
  cases w <;> simp only [Width.align, Width.bytes]
  · omega
  · rw [and_FFFFFFFE]
    have := a.isLt
    simp only [BitVec.toNat_shiftLeft, BitVec.toNat_ushiftRight, Nat.shiftLeft_eq, Nat.shiftRight_eq_div_pow]
    omega
  · rw [and_FFFFFFFC]
    have := a.isLt
    simp only [BitVec.toNat_shiftLeft, BitVec.toNat_ushiftRight, Nat.shiftLeft_eq, Nat.shiftRight_eq_div_pow]
    omega

/-- An aligned access ends inside the address space. -/
theorem Width.align_fits (w : Width) (a : Word) : (w.align a).toNat + w.bytes ≤ 2 ^ 32 := by
  rw [Width.align_toNat]
  have := a.isLt
  cases w <;> simp only [Width.bytes] <;> omega

/-- An aligned address is a multiple of the width. -/
theorem Width.align_mod (w : Width) (a : Word) : (w.align a).toNat % w.bytes = 0 := by
  rw [Width.align_toNat]
  cases w <;> simp only [Width.bytes] <;> omega

/-- An access at an address that is a multiple of the width ends inside the address space. -/
theorem Width.fits_of_mod (w : Width) (a : Word) (h : a.toNat % w.bytes = 0) :
    a.toNat + w.bytes ≤ 2 ^ 32 := by
  have := a.isLt
  cases w <;> simp only [Width.bytes] at h ⊢ <;> omega

end Sys2Proof.Machine
end

