-- ==== Sys2Proof/Laws/State.lean ====
section
/-! SUPPORT. One lemma for each field of the state after each named operation, so that no later proof
unfolds a record update; and the reads of the registers after the operations that write them. -/

namespace Sys2Proof.Machine

@[simp] theorem State.setX_x (r : Reg) (v : Word) (s : State) : (s.setX r v).x = s.x.set r.val v
    r.isLt := rfl
@[simp] theorem State.setX_cpsr (r : Reg) (v : Word) (s : State) : (s.setX r v).cpsr = s.cpsr := rfl
@[simp] theorem State.setX_spsr (r : Reg) (v : Word) (s : State) : (s.setX r v).spsr = s.spsr := rfl
@[simp] theorem State.setX_banks (r : Reg) (v : Word) (s : State) : (s.setX r v).banks = s.banks
    := rfl
@[simp] theorem State.setX_fiqR (r : Reg) (v : Word) (s : State) : (s.setX r v).fiqR = s.fiqR := rfl
@[simp] theorem State.setX_branched (r : Reg) (v : Word) (s : State) : (s.setX r v).branched =
    s.branched := rfl
@[simp] theorem State.setX_mem (r : Reg) (v : Word) (s : State) : (s.setX r v).mem = s.mem := rfl
@[simp] theorem State.setX_regions (r : Reg) (v : Word) (s : State) : (s.setX r v).regions =
    s.regions := rfl
@[simp] theorem State.setX_portLog (r : Reg) (v : Word) (s : State) : (s.setX r v).portLog =
    s.portLog := rfl
@[simp] theorem State.setX_inputs (r : Reg) (v : Word) (s : State) : (s.setX r v).inputs =
    s.inputs := rfl
@[simp] theorem State.setX_params (r : Reg) (v : Word) (s : State) : (s.setX r v).params =
    s.params := rfl
@[simp] theorem State.setX_freeCount (r : Reg) (v : Word) (s : State) : (s.setX r v).freeCount =
    s.freeCount := rfl

@[simp] theorem State.advance_x (s : State) : s.advance.x = s.x.set 15 (s.pc + s.instrWidth) := rfl
@[simp] theorem State.advance_cpsr (s : State) : s.advance.cpsr = s.cpsr := rfl
@[simp] theorem State.advance_spsr (s : State) : s.advance.spsr = s.spsr := rfl
@[simp] theorem State.advance_banks (s : State) : s.advance.banks = s.banks := rfl
@[simp] theorem State.advance_fiqR (s : State) : s.advance.fiqR = s.fiqR := rfl
@[simp] theorem State.advance_branched (s : State) : s.advance.branched = s.branched := rfl
@[simp] theorem State.advance_mem (s : State) : s.advance.mem = s.mem := rfl
@[simp] theorem State.advance_regions (s : State) : s.advance.regions = s.regions := rfl
@[simp] theorem State.advance_portLog (s : State) : s.advance.portLog = s.portLog := rfl
@[simp] theorem State.advance_inputs (s : State) : s.advance.inputs = s.inputs := rfl
@[simp] theorem State.advance_params (s : State) : s.advance.params = s.params := rfl
@[simp] theorem State.advance_freeCount (s : State) : s.advance.freeCount = s.freeCount := rfl

@[simp] theorem State.writePC_x (a : Word) (s : State) : (s.writePC a).x = s.x.set 15 ((a &&&
    s.pcMask) + s.pcOffset) := rfl
@[simp] theorem State.writePC_cpsr (a : Word) (s : State) : (s.writePC a).cpsr = s.cpsr := rfl
@[simp] theorem State.writePC_spsr (a : Word) (s : State) : (s.writePC a).spsr = s.spsr := rfl
@[simp] theorem State.writePC_banks (a : Word) (s : State) : (s.writePC a).banks = s.banks := rfl
@[simp] theorem State.writePC_fiqR (a : Word) (s : State) : (s.writePC a).fiqR = s.fiqR := rfl
@[simp] theorem State.writePC_branched (a : Word) (s : State) : (s.writePC a).branched = true := rfl
@[simp] theorem State.writePC_mem (a : Word) (s : State) : (s.writePC a).mem = s.mem := rfl
@[simp] theorem State.writePC_regions (a : Word) (s : State) : (s.writePC a).regions = s.regions
    := rfl
@[simp] theorem State.writePC_portLog (a : Word) (s : State) : (s.writePC a).portLog = s.portLog
    := rfl
@[simp] theorem State.writePC_inputs (a : Word) (s : State) : (s.writePC a).inputs = s.inputs := rfl
@[simp] theorem State.writePC_params (a : Word) (s : State) : (s.writePC a).params = s.params := rfl
@[simp] theorem State.writePC_freeCount (a : Word) (s : State) : (s.writePC a).freeCount =
    s.freeCount := rfl

@[simp] theorem State.writeReg_cpsr (r : Reg) (v : Word) (s : State) : (s.writeReg r v).cpsr =
    s.cpsr := by
  unfold State.writeReg
  split <;> rfl
@[simp] theorem State.writeReg_spsr (r : Reg) (v : Word) (s : State) : (s.writeReg r v).spsr =
    s.spsr := by
  unfold State.writeReg
  split <;> rfl
@[simp] theorem State.writeReg_banks (r : Reg) (v : Word) (s : State) : (s.writeReg r v).banks =
    s.banks := by
  unfold State.writeReg
  split <;> rfl
@[simp] theorem State.writeReg_fiqR (r : Reg) (v : Word) (s : State) : (s.writeReg r v).fiqR =
    s.fiqR := by
  unfold State.writeReg
  split <;> rfl
@[simp] theorem State.writeReg_mem (r : Reg) (v : Word) (s : State) : (s.writeReg r v).mem = s.mem
    := by
  unfold State.writeReg
  split <;> rfl
@[simp] theorem State.writeReg_regions (r : Reg) (v : Word) (s : State) : (s.writeReg r v).regions
    = s.regions := by
  unfold State.writeReg
  split <;> rfl
@[simp] theorem State.writeReg_portLog (r : Reg) (v : Word) (s : State) : (s.writeReg r v).portLog
    = s.portLog := by
  unfold State.writeReg
  split <;> rfl
@[simp] theorem State.writeReg_inputs (r : Reg) (v : Word) (s : State) : (s.writeReg r v).inputs =
    s.inputs := by
  unfold State.writeReg
  split <;> rfl
@[simp] theorem State.writeReg_params (r : Reg) (v : Word) (s : State) : (s.writeReg r v).params =
    s.params := by
  unfold State.writeReg
  split <;> rfl
@[simp] theorem State.writeReg_freeCount (r : Reg) (v : Word) (s : State) : (s.writeReg r
    v).freeCount = s.freeCount := by
  unfold State.writeReg
  split <;> rfl

@[simp] theorem State.saveBank_x (s : State) : s.saveBank.x = s.x := by
  unfold State.saveBank
  split <;> rfl
@[simp] theorem State.saveBank_cpsr (s : State) : s.saveBank.cpsr = s.cpsr := by
  unfold State.saveBank
  split <;> rfl
@[simp] theorem State.saveBank_spsr (s : State) : s.saveBank.spsr = s.spsr := by
  unfold State.saveBank
  split <;> rfl
@[simp] theorem State.saveBank_fiqR (s : State) : s.saveBank.fiqR = s.fiqR := by
  unfold State.saveBank
  split <;> rfl
@[simp] theorem State.saveBank_branched (s : State) : s.saveBank.branched = s.branched := by
  unfold State.saveBank
  split <;> rfl
@[simp] theorem State.saveBank_mem (s : State) : s.saveBank.mem = s.mem := by
  unfold State.saveBank
  split <;> rfl
@[simp] theorem State.saveBank_regions (s : State) : s.saveBank.regions = s.regions := by
  unfold State.saveBank
  split <;> rfl
@[simp] theorem State.saveBank_portLog (s : State) : s.saveBank.portLog = s.portLog := by
  unfold State.saveBank
  split <;> rfl
@[simp] theorem State.saveBank_inputs (s : State) : s.saveBank.inputs = s.inputs := by
  unfold State.saveBank
  split <;> rfl
@[simp] theorem State.saveBank_params (s : State) : s.saveBank.params = s.params := by
  unfold State.saveBank
  split <;> rfl
@[simp] theorem State.saveBank_freeCount (s : State) : s.saveBank.freeCount = s.freeCount := by
  unfold State.saveBank
  split <;> rfl

@[simp] theorem State.swapFiq_cpsr (s : State) : s.swapFiq.cpsr = s.cpsr := rfl
@[simp] theorem State.swapFiq_spsr (s : State) : s.swapFiq.spsr = s.spsr := rfl
@[simp] theorem State.swapFiq_banks (s : State) : s.swapFiq.banks = s.banks := rfl
@[simp] theorem State.swapFiq_branched (s : State) : s.swapFiq.branched = s.branched := rfl
@[simp] theorem State.swapFiq_mem (s : State) : s.swapFiq.mem = s.mem := rfl
@[simp] theorem State.swapFiq_regions (s : State) : s.swapFiq.regions = s.regions := rfl
@[simp] theorem State.swapFiq_portLog (s : State) : s.swapFiq.portLog = s.portLog := rfl
@[simp] theorem State.swapFiq_inputs (s : State) : s.swapFiq.inputs = s.inputs := rfl
@[simp] theorem State.swapFiq_params (s : State) : s.swapFiq.params = s.params := rfl
@[simp] theorem State.swapFiq_freeCount (s : State) : s.swapFiq.freeCount = s.freeCount := rfl

@[simp] theorem State.restoreBank_cpsr (b : BankSlots) (s : State) : (s.restoreBank b).cpsr =
    s.cpsr := rfl
@[simp] theorem State.restoreBank_spsr (b : BankSlots) (s : State) : (s.restoreBank b).spsr =
    b.spsr := rfl
@[simp] theorem State.restoreBank_banks (b : BankSlots) (s : State) : (s.restoreBank b).banks =
    s.banks := rfl
@[simp] theorem State.restoreBank_fiqR (b : BankSlots) (s : State) : (s.restoreBank b).fiqR =
    s.fiqR := rfl
@[simp] theorem State.restoreBank_branched (b : BankSlots) (s : State) : (s.restoreBank
    b).branched = s.branched := rfl
@[simp] theorem State.restoreBank_mem (b : BankSlots) (s : State) : (s.restoreBank b).mem = s.mem
    := rfl
@[simp] theorem State.restoreBank_regions (b : BankSlots) (s : State) : (s.restoreBank b).regions
    = s.regions := rfl
@[simp] theorem State.restoreBank_portLog (b : BankSlots) (s : State) : (s.restoreBank b).portLog
    = s.portLog := rfl
@[simp] theorem State.restoreBank_inputs (b : BankSlots) (s : State) : (s.restoreBank b).inputs =
    s.inputs := rfl
@[simp] theorem State.restoreBank_params (b : BankSlots) (s : State) : (s.restoreBank b).params =
    s.params := rfl
@[simp] theorem State.restoreBank_freeCount (b : BankSlots) (s : State) : (s.restoreBank
    b).freeCount = s.freeCount := rfl

@[simp] theorem State.switchBank_cpsr (k : Bank) (s : State) : (s.switchBank k).cpsr = s.cpsr := by
  simp only [State.switchBank]
  split <;> simp
@[simp] theorem State.switchBank_branched (k : Bank) (s : State) : (s.switchBank k).branched =
    s.branched := by
  simp only [State.switchBank]
  split <;> simp
@[simp] theorem State.switchBank_mem (k : Bank) (s : State) : (s.switchBank k).mem = s.mem := by
  simp only [State.switchBank]
  split <;> simp
@[simp] theorem State.switchBank_regions (k : Bank) (s : State) : (s.switchBank k).regions =
    s.regions := by
  simp only [State.switchBank]
  split <;> simp
@[simp] theorem State.switchBank_portLog (k : Bank) (s : State) : (s.switchBank k).portLog =
    s.portLog := by
  simp only [State.switchBank]
  split <;> simp
@[simp] theorem State.switchBank_inputs (k : Bank) (s : State) : (s.switchBank k).inputs =
    s.inputs := by
  simp only [State.switchBank]
  split <;> simp
@[simp] theorem State.switchBank_params (k : Bank) (s : State) : (s.switchBank k).params =
    s.params := by
  simp only [State.switchBank]
  split <;> simp
@[simp] theorem State.switchBank_freeCount (k : Bank) (s : State) : (s.switchBank k).freeCount =
    s.freeCount := by
  simp only [State.switchBank]
  split <;> simp

@[simp] theorem State.loadStatus_cpsr (n : Word) (s : State) : (s.loadStatus n).cpsr =
    s.coerceMode n := by
  simp only [State.loadStatus]
  split <;> (try split) <;> simp
@[simp] theorem State.loadStatus_branched (n : Word) (s : State) : (s.loadStatus n).branched =
    s.branched := by
  simp only [State.loadStatus]
  split <;> (try split) <;> simp
@[simp] theorem State.loadStatus_mem (n : Word) (s : State) : (s.loadStatus n).mem = s.mem := by
  simp only [State.loadStatus]
  split <;> (try split) <;> simp
@[simp] theorem State.loadStatus_regions (n : Word) (s : State) : (s.loadStatus n).regions =
    s.regions := by
  simp only [State.loadStatus]
  split <;> (try split) <;> simp
@[simp] theorem State.loadStatus_portLog (n : Word) (s : State) : (s.loadStatus n).portLog =
    s.portLog := by
  simp only [State.loadStatus]
  split <;> (try split) <;> simp
@[simp] theorem State.loadStatus_inputs (n : Word) (s : State) : (s.loadStatus n).inputs =
    s.inputs := by
  simp only [State.loadStatus]
  split <;> (try split) <;> simp
@[simp] theorem State.loadStatus_params (n : Word) (s : State) : (s.loadStatus n).params =
    s.params := by
  simp only [State.loadStatus]
  split <;> (try split) <;> simp
@[simp] theorem State.loadStatus_freeCount (n : Word) (s : State) : (s.loadStatus n).freeCount =
    s.freeCount := by
  simp only [State.loadStatus]
  split <;> (try split) <;> simp

@[simp] theorem State.writeUser_cpsr (r : Reg) (v : Word) (s : State) : (s.writeUser r v).cpsr =
    s.cpsr := by
  unfold State.writeUser
  split_ifs <;> simp
@[simp] theorem State.writeUser_spsr (r : Reg) (v : Word) (s : State) : (s.writeUser r v).spsr =
    s.spsr := by
  unfold State.writeUser
  split_ifs <;> simp
@[simp] theorem State.writeUser_mem (r : Reg) (v : Word) (s : State) : (s.writeUser r v).mem =
    s.mem := by
  unfold State.writeUser
  split_ifs <;> simp
@[simp] theorem State.writeUser_regions (r : Reg) (v : Word) (s : State) : (s.writeUser r
    v).regions = s.regions := by
  unfold State.writeUser
  split_ifs <;> simp
@[simp] theorem State.writeUser_portLog (r : Reg) (v : Word) (s : State) : (s.writeUser r
    v).portLog = s.portLog := by
  unfold State.writeUser
  split_ifs <;> simp
@[simp] theorem State.writeUser_inputs (r : Reg) (v : Word) (s : State) : (s.writeUser r v).inputs
    = s.inputs := by
  unfold State.writeUser
  split_ifs <;> simp
@[simp] theorem State.writeUser_params (r : Reg) (v : Word) (s : State) : (s.writeUser r v).params
    = s.params := by
  unfold State.writeUser
  split_ifs <;> simp
@[simp] theorem State.writeUser_freeCount (r : Reg) (v : Word) (s : State) : (s.writeUser r
    v).freeCount = s.freeCount := by
  unfold State.writeUser
  split_ifs <;> simp

@[simp] theorem State.logged_x (op : PortOp) (s : State) : (s.logged op).x = s.x := rfl
@[simp] theorem State.logged_cpsr (op : PortOp) (s : State) : (s.logged op).cpsr = s.cpsr := rfl
@[simp] theorem State.logged_spsr (op : PortOp) (s : State) : (s.logged op).spsr = s.spsr := rfl
@[simp] theorem State.logged_banks (op : PortOp) (s : State) : (s.logged op).banks = s.banks := rfl
@[simp] theorem State.logged_fiqR (op : PortOp) (s : State) : (s.logged op).fiqR = s.fiqR := rfl
@[simp] theorem State.logged_branched (op : PortOp) (s : State) : (s.logged op).branched =
    s.branched := rfl
@[simp] theorem State.logged_mem (op : PortOp) (s : State) : (s.logged op).mem = s.mem := rfl
@[simp] theorem State.logged_regions (op : PortOp) (s : State) : (s.logged op).regions = s.regions
    := rfl
@[simp] theorem State.logged_portLog (op : PortOp) (s : State) : (s.logged op).portLog = s.portLog
    ++ [op] := rfl
@[simp] theorem State.logged_inputs (op : PortOp) (s : State) : (s.logged op).inputs = s.inputs :=
    rfl
@[simp] theorem State.logged_params (op : PortOp) (s : State) : (s.logged op).params = s.params :=
    rfl
@[simp] theorem State.logged_freeCount (op : PortOp) (s : State) : (s.logged op).freeCount =
    s.freeCount := rfl

@[simp] theorem State.setFlagsArith_x (o : AluOut) (s : State) : (s.setFlagsArith o).x = s.x := rfl
@[simp] theorem State.setFlagsArith_cpsr (o : AluOut) (s : State) : (s.setFlagsArith o).cpsr =
    setV (setC (setNZ s.cpsr o.result) o.carry) o.overflow := rfl
@[simp] theorem State.setFlagsArith_spsr (o : AluOut) (s : State) : (s.setFlagsArith o).spsr =
    s.spsr := rfl
@[simp] theorem State.setFlagsArith_banks (o : AluOut) (s : State) : (s.setFlagsArith o).banks =
    s.banks := rfl
@[simp] theorem State.setFlagsArith_fiqR (o : AluOut) (s : State) : (s.setFlagsArith o).fiqR =
    s.fiqR := rfl
@[simp] theorem State.setFlagsArith_branched (o : AluOut) (s : State) : (s.setFlagsArith
    o).branched = s.branched := rfl
@[simp] theorem State.setFlagsArith_mem (o : AluOut) (s : State) : (s.setFlagsArith o).mem = s.mem
    := rfl
@[simp] theorem State.setFlagsArith_regions (o : AluOut) (s : State) : (s.setFlagsArith o).regions
    = s.regions := rfl
@[simp] theorem State.setFlagsArith_portLog (o : AluOut) (s : State) : (s.setFlagsArith o).portLog
    = s.portLog := rfl
@[simp] theorem State.setFlagsArith_inputs (o : AluOut) (s : State) : (s.setFlagsArith o).inputs =
    s.inputs := rfl
@[simp] theorem State.setFlagsArith_params (o : AluOut) (s : State) : (s.setFlagsArith o).params =
    s.params := rfl
@[simp] theorem State.setFlagsArith_freeCount (o : AluOut) (s : State) : (s.setFlagsArith
    o).freeCount = s.freeCount := rfl

@[simp] theorem State.setFlagsLogic_x (v : Word) (sc : Bool) (s : State) : (s.setFlagsLogic v
    sc).x = s.x := rfl
@[simp] theorem State.setFlagsLogic_cpsr (v : Word) (sc : Bool) (s : State) : (s.setFlagsLogic v
    sc).cpsr = setC (setNZ s.cpsr v) sc := rfl
@[simp] theorem State.setFlagsLogic_spsr (v : Word) (sc : Bool) (s : State) : (s.setFlagsLogic v
    sc).spsr = s.spsr := rfl
@[simp] theorem State.setFlagsLogic_banks (v : Word) (sc : Bool) (s : State) : (s.setFlagsLogic v
    sc).banks = s.banks := rfl
@[simp] theorem State.setFlagsLogic_fiqR (v : Word) (sc : Bool) (s : State) : (s.setFlagsLogic v
    sc).fiqR = s.fiqR := rfl
@[simp] theorem State.setFlagsLogic_branched (v : Word) (sc : Bool) (s : State) : (s.setFlagsLogic
    v sc).branched = s.branched := rfl
@[simp] theorem State.setFlagsLogic_mem (v : Word) (sc : Bool) (s : State) : (s.setFlagsLogic v
    sc).mem = s.mem := rfl
@[simp] theorem State.setFlagsLogic_regions (v : Word) (sc : Bool) (s : State) : (s.setFlagsLogic
    v sc).regions = s.regions := rfl
@[simp] theorem State.setFlagsLogic_portLog (v : Word) (sc : Bool) (s : State) : (s.setFlagsLogic
    v sc).portLog = s.portLog := rfl
@[simp] theorem State.setFlagsLogic_inputs (v : Word) (sc : Bool) (s : State) : (s.setFlagsLogic v
    sc).inputs = s.inputs := rfl
@[simp] theorem State.setFlagsLogic_params (v : Word) (sc : Bool) (s : State) : (s.setFlagsLogic v
    sc).params = s.params := rfl
@[simp] theorem State.setFlagsLogic_freeCount (v : Word) (sc : Bool) (s : State) :
    (s.setFlagsLogic v sc).freeCount = s.freeCount := rfl

@[simp] theorem State.setFlagsNZ_x (v : Word) (s : State) : (s.setFlagsNZ v).x = s.x := rfl
@[simp] theorem State.setFlagsNZ_cpsr (v : Word) (s : State) : (s.setFlagsNZ v).cpsr = setNZ
    s.cpsr v := rfl
@[simp] theorem State.setFlagsNZ_spsr (v : Word) (s : State) : (s.setFlagsNZ v).spsr = s.spsr := rfl
@[simp] theorem State.setFlagsNZ_banks (v : Word) (s : State) : (s.setFlagsNZ v).banks = s.banks
    := rfl
@[simp] theorem State.setFlagsNZ_fiqR (v : Word) (s : State) : (s.setFlagsNZ v).fiqR = s.fiqR := rfl
@[simp] theorem State.setFlagsNZ_branched (v : Word) (s : State) : (s.setFlagsNZ v).branched =
    s.branched := rfl
@[simp] theorem State.setFlagsNZ_mem (v : Word) (s : State) : (s.setFlagsNZ v).mem = s.mem := rfl
@[simp] theorem State.setFlagsNZ_regions (v : Word) (s : State) : (s.setFlagsNZ v).regions =
    s.regions := rfl
@[simp] theorem State.setFlagsNZ_portLog (v : Word) (s : State) : (s.setFlagsNZ v).portLog =
    s.portLog := rfl
@[simp] theorem State.setFlagsNZ_inputs (v : Word) (s : State) : (s.setFlagsNZ v).inputs =
    s.inputs := rfl
@[simp] theorem State.setFlagsNZ_params (v : Word) (s : State) : (s.setFlagsNZ v).params =
    s.params := rfl
@[simp] theorem State.setFlagsNZ_freeCount (v : Word) (s : State) : (s.setFlagsNZ v).freeCount =
    s.freeCount := rfl

@[simp] theorem State.mulCarry_x (s : State) : s.mulCarry.x = s.x := by
  unfold State.mulCarry
  split <;> rfl
@[simp] theorem State.mulCarry_spsr (s : State) : s.mulCarry.spsr = s.spsr := by
  unfold State.mulCarry
  split <;> rfl
@[simp] theorem State.mulCarry_banks (s : State) : s.mulCarry.banks = s.banks := by
  unfold State.mulCarry
  split <;> rfl
@[simp] theorem State.mulCarry_fiqR (s : State) : s.mulCarry.fiqR = s.fiqR := by
  unfold State.mulCarry
  split <;> rfl
@[simp] theorem State.mulCarry_branched (s : State) : s.mulCarry.branched = s.branched := by
  unfold State.mulCarry
  split <;> rfl
@[simp] theorem State.mulCarry_mem (s : State) : s.mulCarry.mem = s.mem := by
  unfold State.mulCarry
  split <;> rfl
@[simp] theorem State.mulCarry_regions (s : State) : s.mulCarry.regions = s.regions := by
  unfold State.mulCarry
  split <;> rfl
@[simp] theorem State.mulCarry_portLog (s : State) : s.mulCarry.portLog = s.portLog := by
  unfold State.mulCarry
  split <;> rfl
@[simp] theorem State.mulCarry_inputs (s : State) : s.mulCarry.inputs = s.inputs := by
  unfold State.mulCarry
  split <;> rfl
@[simp] theorem State.mulCarry_params (s : State) : s.mulCarry.params = s.params := by
  unfold State.mulCarry
  split <;> rfl

@[simp] theorem State.beginCall_x (s : State) : s.beginCall.x = s.x := rfl
@[simp] theorem State.beginCall_cpsr (s : State) : s.beginCall.cpsr = s.cpsr := rfl
@[simp] theorem State.beginCall_spsr (s : State) : s.beginCall.spsr = s.spsr := rfl
@[simp] theorem State.beginCall_banks (s : State) : s.beginCall.banks = s.banks := rfl
@[simp] theorem State.beginCall_fiqR (s : State) : s.beginCall.fiqR = s.fiqR := rfl
@[simp] theorem State.beginCall_branched (s : State) : s.beginCall.branched = false := rfl
@[simp] theorem State.beginCall_mem (s : State) : s.beginCall.mem = s.mem := rfl
@[simp] theorem State.beginCall_regions (s : State) : s.beginCall.regions = s.regions := rfl
@[simp] theorem State.beginCall_portLog (s : State) : s.beginCall.portLog = s.portLog := rfl
@[simp] theorem State.beginCall_inputs (s : State) : s.beginCall.inputs = s.inputs := rfl
@[simp] theorem State.beginCall_params (s : State) : s.beginCall.params = s.params := rfl
@[simp] theorem State.beginCall_freeCount (s : State) : s.beginCall.freeCount = s.freeCount := rfl

@[simp] theorem State.beginStep_x (s : State) : s.beginStep.x = s.x := rfl
@[simp] theorem State.beginStep_cpsr (s : State) : s.beginStep.cpsr = s.cpsr := rfl
@[simp] theorem State.beginStep_spsr (s : State) : s.beginStep.spsr = s.spsr := rfl
@[simp] theorem State.beginStep_banks (s : State) : s.beginStep.banks = s.banks := rfl
@[simp] theorem State.beginStep_fiqR (s : State) : s.beginStep.fiqR = s.fiqR := rfl
@[simp] theorem State.beginStep_branched (s : State) : s.beginStep.branched = false := rfl
@[simp] theorem State.beginStep_mem (s : State) : s.beginStep.mem = s.mem := rfl
@[simp] theorem State.beginStep_regions (s : State) : s.beginStep.regions = s.regions := rfl
@[simp] theorem State.beginStep_portLog (s : State) : s.beginStep.portLog = [] := rfl
@[simp] theorem State.beginStep_inputs (s : State) : s.beginStep.inputs = s.inputs.tail := rfl
@[simp] theorem State.beginStep_params (s : State) : s.beginStep.params = s.params := rfl
@[simp] theorem State.beginStep_freeCount (s : State) : s.beginStep.freeCount = s.freeCount := rfl

@[simp] theorem State.resetBlock_x (s : State) : s.resetBlock.x = State.reset.x := rfl
@[simp] theorem State.resetBlock_cpsr (s : State) : s.resetBlock.cpsr = State.reset.cpsr := rfl
@[simp] theorem State.resetBlock_spsr (s : State) : s.resetBlock.spsr = State.reset.spsr := rfl
@[simp] theorem State.resetBlock_banks (s : State) : s.resetBlock.banks = State.reset.banks := rfl
@[simp] theorem State.resetBlock_fiqR (s : State) : s.resetBlock.fiqR = State.reset.fiqR := rfl
@[simp] theorem State.resetBlock_branched (s : State) : s.resetBlock.branched = false := rfl
@[simp] theorem State.resetBlock_mem (s : State) : s.resetBlock.mem = s.mem := rfl
@[simp] theorem State.resetBlock_regions (s : State) : s.resetBlock.regions = s.regions := rfl
@[simp] theorem State.resetBlock_portLog (s : State) : s.resetBlock.portLog = s.portLog := rfl
@[simp] theorem State.resetBlock_inputs (s : State) : s.resetBlock.inputs = s.inputs := rfl
@[simp] theorem State.resetBlock_params (s : State) : s.resetBlock.params = s.params := rfl
@[simp] theorem State.resetBlock_freeCount (s : State) : s.resetBlock.freeCount = s.freeCount := rfl

@[simp] theorem State.enter_cpsr (m : Mode) (a l : Word) (f : Bool) (s : State) : (s.enter m a l
    f).cpsr = s.coerceMode (entryStatus s.cpsr m f) := by
  simp [State.enter]
@[simp] theorem State.enter_spsr (m : Mode) (a l : Word) (f : Bool) (s : State) : (s.enter m a l
    f).spsr = s.cpsr := by
  simp [State.enter]
@[simp] theorem State.enter_branched (m : Mode) (a l : Word) (f : Bool) (s : State) : (s.enter m a
    l f).branched = true := by
  simp [State.enter]
@[simp] theorem State.enter_mem (m : Mode) (a l : Word) (f : Bool) (s : State) : (s.enter m a l
    f).mem = s.mem := by
  simp [State.enter]
@[simp] theorem State.enter_regions (m : Mode) (a l : Word) (f : Bool) (s : State) : (s.enter m a
    l f).regions = s.regions := by
  simp [State.enter]
@[simp] theorem State.enter_portLog (m : Mode) (a l : Word) (f : Bool) (s : State) : (s.enter m a
    l f).portLog = s.portLog := by
  simp [State.enter]
@[simp] theorem State.enter_inputs (m : Mode) (a l : Word) (f : Bool) (s : State) : (s.enter m a l
    f).inputs = s.inputs := by
  simp [State.enter]
@[simp] theorem State.enter_params (m : Mode) (a l : Word) (f : Bool) (s : State) : (s.enter m a l
    f).params = s.params := by
  simp [State.enter]
@[simp] theorem State.enter_freeCount (m : Mode) (a l : Word) (f : Bool) (s : State) : (s.enter m
    a l f).freeCount = s.freeCount := by
  simp [State.enter]

@[simp] theorem State.exceptionReturn_cpsr (a : Word) (s : State) : (s.exceptionReturn a).cpsr =
    s.coerceMode s.spsr := by
  simp [State.exceptionReturn]
@[simp] theorem State.exceptionReturn_branched (a : Word) (s : State) : (s.exceptionReturn
    a).branched = true := by
  simp [State.exceptionReturn]
@[simp] theorem State.exceptionReturn_mem (a : Word) (s : State) : (s.exceptionReturn a).mem =
    s.mem := by
  simp [State.exceptionReturn]
@[simp] theorem State.exceptionReturn_regions (a : Word) (s : State) : (s.exceptionReturn
    a).regions = s.regions := by
  simp [State.exceptionReturn]
@[simp] theorem State.exceptionReturn_portLog (a : Word) (s : State) : (s.exceptionReturn
    a).portLog = s.portLog := by
  simp [State.exceptionReturn]
@[simp] theorem State.exceptionReturn_inputs (a : Word) (s : State) : (s.exceptionReturn a).inputs
    = s.inputs := by
  simp [State.exceptionReturn]
@[simp] theorem State.exceptionReturn_params (a : Word) (s : State) : (s.exceptionReturn a).params
    = s.params := by
  simp [State.exceptionReturn]
@[simp] theorem State.exceptionReturn_freeCount (a : Word) (s : State) : (s.exceptionReturn
    a).freeCount = s.freeCount := by
  simp [State.exceptionReturn]

/-! ## Reads of registers -/

@[simp] theorem State.reg_setX_same (r : Reg) (v : Word) (s : State) : (s.setX r v).reg r = v := by
  show (s.x.set r.val v r.isLt)[r.val] = v
  simp

theorem State.reg_setX (r q : Reg) (v : Word) (s : State) :
    (s.setX r v).reg q = if r = q then v else s.reg q := by
  split
  · next h => subst h; simp
  · next h =>
    have h' : r.val ≠ q.val := fun e => h (Fin.ext e)
    simp only [State.reg, State.setX]
    exact Vector.getElem_set_ne r.isLt q.isLt h'

theorem State.reg_setX_ne {r q : Reg} (h : r ≠ q) (v : Word) (s : State) :
    (s.setX r v).reg q = s.reg q := by
  rw [State.reg_setX, if_neg h]

theorem State.setX_setX (r : Reg) (v w : Word) (s : State) : (s.setX r v).setX r w = s.setX r w :=
    by
  simp [State.setX]

@[simp] theorem State.pc_setX15 (v : Word) (s : State) : (s.setX 15 v).pc = v :=
    State.reg_setX_same 15 v s

theorem State.pc_setX_ne {r : Reg} (h : r ≠ 15) (v : Word) (s : State) : (s.setX r v).pc = s.pc :=
  State.reg_setX_ne h v s

@[simp] theorem State.setX_thumb (r : Reg) (v : Word) (s : State) : (s.setX r v).thumb = s.thumb
    := rfl

/-- Two states are equal when every register and every other field agrees. -/
theorem State.ext_reg {s t : State} (hr : ∀ r, s.reg r = t.reg r) (h1 : s.cpsr = t.cpsr)
    (h2 : s.spsr = t.spsr) (h3 : s.banks = t.banks) (h4 : s.fiqR = t.fiqR)
    (h5 : s.branched = t.branched) (h6 : s.mem = t.mem) (h7 : s.regions = t.regions)
    (h8 : s.portLog = t.portLog) (h9 : s.inputs = t.inputs) (h10 : s.params = t.params)
    (h11 : s.freeCount = t.freeCount) : s = t := by
  have hx : s.x = t.x := Vector.ext fun i hi => hr ⟨i, hi⟩
  cases s
  cases t
  simp_all

/-! ## The bank slots -/

@[simp] theorem Banks.get_set_same (b : Banks) (k : Bank) (v : BankSlots) : (b.set k v).get k = v
    := by
  cases k <;> rfl

theorem Banks.get_set (b : Banks) (k j : Bank) (v : BankSlots) :
    (b.set k v).get j = if k = j then v else b.get j := by
  cases k <;> cases j <;> rfl

theorem Banks.ext_get {b c : Banks} (h : ∀ k, b.get k = c.get k) : b = c := by
  have := h .usr
  have := h .fiq
  have := h .irq
  have := h .svc
  have := h .abt
  have := h .und
  cases b
  cases c
  simp_all [Banks.get]

end Sys2Proof.Machine
end

