-- ==== Sys2Proof/Laws/Status.lean ====
section
/-! SUPPORT. The laws of the status register: which fields each update keeps, that a mode installed by
LoadStatus or by an exception is a legal one, and what the bank switch leaves alone. -/

namespace Sys2Proof.Machine

/-! ## Fields of a status value after an update -/

@[simp] theorem modeField_setMode (st : Word) (m : BitVec 5) : modeField (setMode st m) = m := by
  unfold modeField setMode field
  ext i hi
  interval_cases i <;> simp

@[simp] theorem modeField_setT (st : Word) (b : Bool) : modeField (setT st b) = modeField st := by
  unfold modeField setT setBit field
  cases b <;> ext i hi <;> interval_cases i <;> simp

@[simp] theorem modeField_setC (st : Word) (b : Bool) : modeField (setC st b) = modeField st := by
  unfold modeField setC setBit field
  cases b <;> ext i hi <;> interval_cases i <;> simp

@[simp] theorem modeField_setV (st : Word) (b : Bool) : modeField (setV st b) = modeField st := by
  unfold modeField setV setBit field
  cases b <;> ext i hi <;> interval_cases i <;> simp

@[simp] theorem tBit_setT (st : Word) (b : Bool) : tBit (setT st b) = b := by
  unfold tBit setT setBit bit
  cases b <;> simp

@[simp] theorem tBit_setC (st : Word) (b : Bool) : tBit (setC st b) = tBit st := by
  unfold tBit setC setBit bit
  cases b <;> simp

@[simp] theorem tBit_setV (st : Word) (b : Bool) : tBit (setV st b) = tBit st := by
  unfold tBit setV setBit bit
  cases b <;> simp

@[simp] theorem tBit_setMode (st : Word) (m : BitVec 5) : tBit (setMode st m) = tBit st := by
  unfold tBit setMode bit
  simp

theorem modeField_setBit {st : Word} {i : Nat} (b : Bool) (h : 5 ≤ i) :
    modeField (setBit st i b) = modeField st := by
  unfold modeField setBit field
  cases b <;> ext j hj <;> simp <;> omega

theorem tBit_setBit {st : Word} {i : Nat} (b : Bool) (h : 5 < i) : tBit (setBit st i b) = tBit st := by
  unfold tBit setBit bit
  cases b <;> simp <;> omega

@[simp] theorem modeField_setNZ (st v : Word) : modeField (setNZ st v) = modeField st := by
  unfold setNZ
  rw [modeField_setBit _ (by omega), modeField_setBit _ (by omega)]

@[simp] theorem tBit_setNZ (st v : Word) : tBit (setNZ st v) = tBit st := by
  unfold setNZ
  rw [tBit_setBit _ (by omega), tBit_setBit _ (by omega)]

@[simp] theorem modeField_setNZ64 (st : Word) (v : BitVec 64) : modeField (setNZ64 st v) = modeField st := by
  unfold setNZ64
  rw [modeField_setBit _ (by omega), modeField_setBit _ (by omega)]

@[simp] theorem tBit_setNZ64 (st : Word) (v : BitVec 64) : tBit (setNZ64 st v) = tBit st := by
  unfold setNZ64
  rw [tBit_setBit _ (by omega), tBit_setBit _ (by omega)]

theorem bankOf_eq {a b : Word} (h : modeField a = modeField b) : bankOf a = bankOf b := by
  unfold bankOf
  rw [h]

@[simp] theorem ofCode_code (m : Mode) : Mode.ofCode m.code = some m := by
  cases m <;> rfl

/-- A code that names a mode is that mode's code. -/
theorem code_of_ofCode {c : BitVec 5} {m : Mode} (h : Mode.ofCode c = some m) : m.code = c := by
  revert h
  revert m c
  decide

/-! ## LoadStatus -/

/-- A legal status value is installed as it stands (spec/10_state.md R108). -/
theorem State.coerceMode_legal {n : Word} (h : (bankOf n).isSome = true) (s : State) : s.coerceMode n = n := by
  unfold State.coerceMode
  rw [if_neg]
  cases hb : bankOf n <;> simp_all

/-- The status LoadStatus installs names a legal mode (R109). -/
theorem State.coerceMode_isSome {s : State} (h : (bankOf s.cpsr).isSome = true) (n : Word) :
    (bankOf (s.coerceMode n)).isSome = true := by
  unfold State.coerceMode
  split
  · rw [bankOf_eq (modeField_setMode n _)]
    exact h
  · next hn => cases hb : bankOf n <;> simp_all

@[simp] theorem State.tBit_coerceMode (n : Word) (s : State) : tBit (s.coerceMode n) = tBit n := by
  unfold State.coerceMode
  split <;> simp

@[simp] theorem State.thumb_loadStatus (n : Word) (s : State) : (s.loadStatus n).thumb = tBit n := by
  simp [State.thumb]

/-- Within one bank LoadStatus replaces the status and nothing else (R108). -/
theorem State.loadStatus_same {n : Word} {s : State} {b : Bank} (hn : bankOf n = some b) (hs : s.bank = some b) :
    s.loadStatus n = { s with cpsr := n } := by
  have hl : (bankOf n).isSome = true := by rw [hn]; rfl
  simp only [State.loadStatus, State.coerceMode_legal hl, hn, if_pos hs]

/-- Between two banks LoadStatus switches and installs the status (R108). -/
theorem State.loadStatus_switch {n : Word} {s : State} {b : Bank} (hn : bankOf n = some b)
    (hs : s.bank ≠ some b) : s.loadStatus n = { s.switchBank b with cpsr := n } := by
  have hl : (bankOf n).isSome = true := by rw [hn]; rfl
  simp only [State.loadStatus, State.coerceMode_legal hl, hn, if_neg hs]

theorem State.reg_restoreBank (r : Reg) (b : BankSlots) (s : State) :
    (s.restoreBank b).reg r = if r = 13 then b.r13 else if r = 14 then b.r14 else s.reg r := by
  have h : (s.restoreBank b).reg r = ((s.setX 13 b.r13).setX 14 b.r14).reg r := rfl
  rw [h, State.reg_setX, State.reg_setX]
  split
  · next h14 => subst h14; simp
  · next h14 =>
    split
    · next h13 => subst h13; simp
    · next h13 => rw [if_neg (Ne.symm h13), if_neg (Ne.symm h14)]

/-- The swap of R8 to R12 touches no other register (R108). -/
theorem State.reg_swapFiq_other {r : Reg} (h : r.val < 8 ∨ 12 < r.val) (s : State) :
    s.swapFiq.reg r = s.reg r := by
  show (((((s.x.set 8 s.fiqR[0]).set 9 s.fiqR[1]).set 10 s.fiqR[2]).set 11 s.fiqR[3]).set 12 s.fiqR[4])[r.val]
    = s.x[r.val]
  rw [Vector.getElem_set_ne _ _ (by omega), Vector.getElem_set_ne _ _ (by omega),
    Vector.getElem_set_ne _ _ (by omega), Vector.getElem_set_ne _ _ (by omega),
    Vector.getElem_set_ne _ _ (by omega)]

theorem State.reg_saveBank (r : Reg) (s : State) : s.saveBank.reg r = s.reg r := by
  unfold State.reg
  rw [State.saveBank_x]

/-- A bank switch leaves R0 to R7 and the pc (R108). -/
theorem State.reg_switchBank_low {r : Reg} (h : r.val < 8 ∨ r = 15) (b : Bank) (s : State) :
    (s.switchBank b).reg r = s.reg r := by
  have h13 : r ≠ 13 := by rintro rfl; revert h; decide
  have h14 : r ≠ 14 := by rintro rfl; revert h; decide
  have h8 : r.val < 8 ∨ 12 < r.val := by
    rcases h with h | rfl
    · exact .inl h
    · exact .inr (by decide)
  simp only [State.switchBank]
  rw [State.reg_restoreBank, if_neg h13, if_neg h14]
  split
  · rw [State.reg_swapFiq_other h8, State.reg_saveBank]
  · rw [State.reg_saveBank]

/-- LoadStatus leaves R0 to R7 and the pc (R108). -/
theorem State.reg_loadStatus_low {r : Reg} (h : r.val < 8 ∨ r = 15) (n : Word) (s : State) :
    (s.loadStatus n).reg r = s.reg r := by
  simp only [State.loadStatus]
  split
  · split
    · rfl
    · exact State.reg_switchBank_low h _ s
  · rfl

@[simp] theorem State.pc_loadStatus (n : Word) (s : State) : (s.loadStatus n).pc = s.pc :=
  State.reg_loadStatus_low (.inr rfl) n s

/-! ## Exceptions -/

theorem modeField_entryStatus (old : Word) (m : Mode) (f : Bool) : modeField (entryStatus old m f) = m.code := by
  unfold modeField entryStatus field
  cases m <;> cases f <;> ext i hi <;> interval_cases i <;> simp [Mode.code]

theorem bankOf_entryStatus (old : Word) (m : Mode) (f : Bool) : bankOf (entryStatus old m f) = some m.bank := by
  unfold bankOf
  rw [modeField_entryStatus, ofCode_code]
  rfl

@[simp] theorem tBit_entryStatus (old : Word) (m : Mode) (f : Bool) : tBit (entryStatus old m f) = false := by
  unfold tBit entryStatus bit
  cases m <;> cases f <;> simp [Mode.code]

/-- An entry installs exactly the status R901 of spec/60_exceptions.md computes. -/
theorem State.cpsr_enter (m : Mode) (a l : Word) (f : Bool) (s : State) :
    (s.enter m a l f).cpsr = entryStatus s.cpsr m f := by
  rw [State.enter_cpsr, State.coerceMode_legal]
  rw [bankOf_entryStatus]
  rfl

@[simp] theorem State.thumb_enter (m : Mode) (a l : Word) (f : Bool) (s : State) :
    (s.enter m a l f).thumb = false := by
  rw [State.thumb, State.cpsr_enter, tBit_entryStatus]

@[simp] theorem State.pc_writePC (a : Word) (s : State) :
    (s.writePC a).pc = (a &&& s.pcMask) + s.pcOffset := State.pc_setX15 _ s

/-- The pc after an entry: the vector with the pipeline offset of ARM state (R901). -/
theorem State.pc_enter (m : Mode) (a l : Word) (f : Bool) (s : State) :
    (s.enter m a l f).pc = (a &&& 0xFFFFFFFC) + 8 := by
  have ht : (({ s.loadStatus (entryStatus s.cpsr m f) with spsr := s.cpsr } : State).setX 14 l).thumb = false := by
    show tBit (s.loadStatus (entryStatus s.cpsr m f)).cpsr = false
    rw [State.loadStatus_cpsr, State.tBit_coerceMode, tBit_entryStatus]
  simp only [State.enter]
  rw [State.pc_writePC, State.pcMask, State.pcOffset, ht]
  rfl

/-- The link register after an entry (R901). -/
theorem State.link_enter (m : Mode) (a l : Word) (f : Bool) (s : State) : (s.enter m a l f).reg 14 = l := by
  have h : ∀ t : State, ((t.setX 14 l).writePC a).reg 14 = l := by
    intro t
    show (((t.setX 14 l).setX 15 _)).reg 14 = l
    rw [State.reg_setX_ne (by decide), State.reg_setX_same]
  exact h _

/-! ## Mode and instruction set after each operation -/

@[simp] theorem State.thumb_writePC (a : Word) (s : State) : (s.writePC a).thumb = s.thumb := rfl
@[simp] theorem State.thumb_advance (s : State) : s.advance.thumb = s.thumb := rfl
@[simp] theorem State.thumb_writeReg (r : Reg) (v : Word) (s : State) : (s.writeReg r v).thumb = s.thumb := by
  simp [State.thumb]

@[simp] theorem State.pc_advance (s : State) : s.advance.pc = s.pc + s.instrWidth := State.pc_setX15 _ s

/-- The pc after a register write: the pc write for R15, unchanged for the others (R102). -/
theorem State.pc_writeReg (r : Reg) (v : Word) (s : State) :
    (s.writeReg r v).pc = if r = 15 then (v &&& s.pcMask) + s.pcOffset else s.pc := by
  unfold State.writeReg
  split
  · simp
  · next h => exact State.pc_setX_ne h v s

/-- A low register is not the pc. -/
theorem LowReg.reg_ne_pc (r : LowReg) : LowReg.reg r ≠ 15 := by
  intro h
  have h1 : r.val = 15 := congrArg Fin.val h
  omega

/-! ## The User-mode view -/

theorem State.user_in_user_bank {s : State} (h : s.bank = some .usr) (r : Reg) : s.user r = s.reg r := by
  simp [State.user, h]

end Sys2Proof.Machine
end

