-- ==== Sys2Proof/Laws/Port.lean ====
section
/-! SUPPORT. What an access of the memory port can do: it leaves the block's own state, appends to the
port log, and only a successful store outside every region changes plain memory. -/

namespace Sys2Proof.Machine

open Sys2Proof.Safety

/-- What every run of port accesses leaves alone, and what it may append (spec/20_memory.md R201,
R209). -/
structure PortFrame (s t : State) : Prop where
  x        : t.x = s.x
  cpsr     : t.cpsr = s.cpsr
  spsr     : t.spsr = s.spsr
  banks    : t.banks = s.banks
  fiqR     : t.fiqR = s.fiqR
  branched : t.branched = s.branched
  regions  : t.regions = s.regions
  inputs   : t.inputs = s.inputs
  params   : t.params = s.params
  free     : s.freeCount ≤ t.freeCount
  log      : ∃ ops, t.portLog = s.portLog ++ ops ∧ ∀ op ∈ ops, AlignedOp op
  wf       : s.mem.wf = true → t.mem.wf = true

theorem PortFrame.refl (s : State) : PortFrame s s :=
  ⟨rfl, rfl, rfl, rfl, rfl, rfl, rfl, rfl, rfl, Nat.le_refl _, ⟨[], by simp⟩, id⟩

theorem PortFrame.trans {s t u : State} (h : PortFrame s t) (k : PortFrame t u) : PortFrame s u := by
  obtain ⟨ops, ho, ha⟩ := h.log
  obtain ⟨ops', ho', ha'⟩ := k.log
  refine ⟨k.x.trans h.x, k.cpsr.trans h.cpsr, k.spsr.trans h.spsr, k.banks.trans h.banks,
    k.fiqR.trans h.fiqR, k.branched.trans h.branched, k.regions.trans h.regions,
    k.inputs.trans h.inputs, k.params.trans h.params, h.free.trans k.free, ⟨ops ++ ops', ?_, ?_⟩,
    fun hm => k.wf (h.wf hm)⟩
  · rw [ho', ho, List.append_assoc]
  · intro op hop
    rcases List.mem_append.mp hop with h1 | h1
    · exact ha op h1
    · exact ha' op h1

theorem PortFrame.reg {s t : State} (h : PortFrame s t) (r : Reg) : t.reg r = s.reg r := by
  unfold State.reg
  rw [h.x]

theorem PortFrame.pc {s t : State} (h : PortFrame s t) : t.pc = s.pc := h.reg 15

theorem PortFrame.thumb {s t : State} (h : PortFrame s t) : t.thumb = s.thumb := by
  unfold State.thumb
  rw [h.cpsr]

theorem PortFrame.alignedPort {s t : State} (h : PortFrame s t) (hs : AlignedPort s) : AlignedPort t := by
  obtain ⟨ops, ho, ha⟩ := h.log
  intro op hop
  rw [ho] at hop
  rcases List.mem_append.mp hop with h1 | h1
  · exact hs op h1
  · exact ha op h1

/-! ## One access -/

theorem State.portLoad_frame (w : Width) (a : Word) (s : State) (ha : a.toNat % w.bytes = 0) :
    PortFrame s (s.portLoad w a).2 := by
  have hop : ∀ b, AlignedOp (.load w a b) := fun b => ha
  unfold State.portLoad
  split
  · exact ⟨rfl, rfl, rfl, rfl, rfl, rfl, rfl, rfl, rfl, Nat.le_refl _, ⟨[_], rfl, by simp [hop]⟩, id⟩
  · split
    · exact ⟨rfl, rfl, rfl, rfl, rfl, rfl, rfl, rfl, rfl, Nat.le_succ _, ⟨[_], rfl, by simp [hop]⟩, id⟩
    · exact ⟨rfl, rfl, rfl, rfl, rfl, rfl, rfl, rfl, rfl, Nat.le_refl _, ⟨[_], rfl, by simp [hop]⟩, id⟩

/-- A load changes no memory. -/
@[simp] theorem State.portLoad_mem (w : Width) (a : Word) (s : State) : (s.portLoad w a).2.mem = s.mem := by
  unfold State.portLoad
  split
  · rfl
  · split <;> rfl

/-- A load of plain memory gives the bytes there. -/
theorem State.portLoad_plain {w : Width} {a : Word} {s : State} (h : s.loadFails w a = false)
    (hd : s.atDevice w a = false) :
    s.portLoad w a = (some (s.mem.load w a.toNat), s.logged (.load w a true)) := by
  simp [State.portLoad, h, hd]

theorem State.portStore_frame (w : Width) (a v : Word) (s : State) (ha : a.toNat % w.bytes = 0) :
    PortFrame s (s.portStore w a v).2 := by
  have hop : ∀ x b, AlignedOp (.store w a x b) := fun x b => ha
  unfold State.portStore
  split
  · exact ⟨rfl, rfl, rfl, rfl, rfl, rfl, rfl, rfl, rfl, Nat.le_refl _, ⟨[_], rfl, by simp [hop]⟩, id⟩
  · split
    · exact ⟨rfl, rfl, rfl, rfl, rfl, rfl, rfl, rfl, rfl, Nat.le_refl _, ⟨[_], rfl, by simp [hop]⟩, id⟩
    · exact ⟨rfl, rfl, rfl, rfl, rfl, rfl, rfl, rfl, rfl, Nat.le_refl _, ⟨[_], rfl, by simp [hop]⟩,
        fun hm => Memory.wf_store w v (Width.fits_of_mod w a ha) hm⟩

/-- A store changes no byte outside its own. -/
theorem State.portStore_outside {w : Width} {a : Word} {s : State} {b : Nat} (v : Word)
    (ha : a.toNat % w.bytes = 0) (hm : s.mem.wf = true) (hb : b < a.toNat ∨ a.toNat + w.bytes ≤ b) :
    (s.portStore w a v).2.mem.read b = s.mem.read b := by
  unfold State.portStore
  split
  · rfl
  · split
    · rfl
    · exact Memory.read_store_outside w v (Width.fits_of_mod w a ha) hm hb

theorem State.portStore_plain {w : Width} {a : Word} {s : State} (v : Word) (h : s.storeFails w a = false)
    (hd : s.atDevice w a = false) : s.portStore w a v =
      (true, { s.logged (.store w a (w.truncate v) true) with mem := s.mem.store w a.toNat v }) := by
  simp [State.portStore, h, hd]

/-! ## The accesses of the rules -/

theorem State.memRead_snd (w : Width) (a : Word) (s : State) :
    (s.memRead w a).2 = (s.portLoad w (w.align a)).2 := by
  unfold State.memRead
  cases w <;> rfl

theorem State.memRead_frame (w : Width) (a : Word) (s : State) : PortFrame s (s.memRead w a).2 := by
  rw [State.memRead_snd]
  exact State.portLoad_frame w _ s (Width.align_mod w a)

theorem State.memWrite_frame (w : Width) (a v : Word) (s : State) : PortFrame s (s.memWrite w a v).2 :=
  State.portStore_frame w _ v s (Width.align_mod w a)

theorem State.loadWords_frame {as : List Word} (s : State) (h : ∀ a ∈ as, a.toNat % 4 = 0) :
    PortFrame s (s.loadWords as).2 := by
  induction as generalizing s with
  | nil => exact PortFrame.refl s
  | cons a rest ih =>
    have h1 : PortFrame s (s.portLoad .word a).2 := State.portLoad_frame .word a s (h a (by simp))
    simp only [State.loadWords]
    split
    · next he => rw [he] at h1; exact h1
    · next v t he =>
      rw [he] at h1
      have h2 := ih t fun b hb => h b (by simp [hb])
      split
      · next he' => rw [he'] at h2; exact h1.trans h2
      · next he' => rw [he'] at h2; exact h1.trans h2

theorem State.storeWords_frame {ws : List (Word × Word)} (s : State) (h : ∀ p ∈ ws, p.1.toNat % 4 = 0) :
    PortFrame s (s.storeWords ws).2 := by
  induction ws generalizing s with
  | nil => exact PortFrame.refl s
  | cons p rest ih =>
    obtain ⟨a, v⟩ := p
    have h1 : PortFrame s (s.portStore .word a v).2 := State.portStore_frame .word a v s (h (a, v) (by simp))
    simp only [State.storeWords]
    split
    · next he => rw [he] at h1; exact h1
    · next t he =>
      rw [he] at h1
      exact h1.trans (ih t fun b hb => h b (by simp [hb]))

/-- The words of a block transfer are aligned (spec/44_block_transfer.md R600). -/
theorem blockAddrs_aligned {start a : Word} {n : Nat} (h : a ∈ blockAddrs start n) : a.toNat % 4 = 0 := by
  unfold blockAddrs at h
  simp only [List.mem_map, List.mem_range] at h
  obtain ⟨k, -, rfl⟩ := h
  rw [and_FFFFFFFC]
  simp only [BitVec.toNat_add, BitVec.toNat_shiftLeft, BitVec.toNat_ushiftRight, Nat.shiftLeft_eq,
    Nat.shiftRight_eq_div_pow, BitVec.toNat_ofNat]
  omega

/-- A block load reads as many words as it has addresses. -/
theorem State.loadWords_length {as vs : List Word} {s t : State} (h : s.loadWords as = (some vs, t)) :
    vs.length = as.length := by
  induction as generalizing s vs t with
  | nil =>
    simp only [State.loadWords, Prod.mk.injEq, Option.some.injEq] at h
    simp [← h.1]
  | cons a rest ih =>
    simp only [State.loadWords] at h
    split at h
    · simp at h
    · split at h
      · simp at h
      · next he =>
        simp only [Prod.mk.injEq, Option.some.injEq] at h
        rw [← h.1, List.length_cons, ih he, List.length_cons]

/-- A block load changes no memory. -/
theorem State.loadWords_mem (as : List Word) (s : State) : (s.loadWords as).2.mem = s.mem := by
  induction as generalizing s with
  | nil => rfl
  | cons a rest ih =>
    have h1 := State.portLoad_mem .word a s
    simp only [State.loadWords]
    split
    · next he => rw [he] at h1; exact h1
    · next v t he =>
      rw [he] at h1
      have h2 := ih t
      split
      · next he' => rw [he'] at h2; exact h2.trans h1
      · next he' => rw [he'] at h2; exact h2.trans h1

end Sys2Proof.Machine
end

