-- ==== Sys2Proof/Laws/Runs.lean ====
section
/-! SUPPORT. What each shared operation keeps, in one relation: the port's map, the parameters and the
schedule, the form of memory and of the port log, a legal mode and an aligned pc. And what each end of a
call can answer. -/

namespace Sys2Proof.Machine

open Sys2Proof.Safety

/-- What every operation of a call keeps from `s` to `t`. -/
structure Kept (s t : State) : Prop where
  params  : t.params = s.params
  regions : t.regions = s.regions
  inputs  : t.inputs = s.inputs
  free    : s.freeCount ≤ t.freeCount
  log     : ∃ ops, t.portLog = s.portLog ++ ops ∧ ∀ op ∈ ops, AlignedOp op
  wf      : s.mem.wf = true → t.mem.wf = true
  mode    : LegalMode s → LegalMode t
  pc      : PcAligned s → PcAligned t

theorem Kept.refl (s : State) : Kept s s :=
  ⟨rfl, rfl, rfl, Nat.le_refl _, ⟨[], by simp⟩, id, id, id⟩

theorem Kept.trans {s t u : State} (h : Kept s t) (k : Kept t u) : Kept s u := by
  obtain ⟨ops, ho, ha⟩ := h.log
  obtain ⟨ops', ho', ha'⟩ := k.log
  refine ⟨k.params.trans h.params, k.regions.trans h.regions, k.inputs.trans h.inputs,
    h.free.trans k.free, ⟨ops ++ ops', by rw [ho', ho, List.append_assoc], ?_⟩, fun m => k.wf (h.wf m),
    fun m => k.mode (h.mode m), fun p => k.pc (h.pc p)⟩
  intro op hop
  rcases List.mem_append.mp hop with h1 | h1
  · exact ha op h1
  · exact ha' op h1

theorem Kept.alignedPort {s t : State} (h : Kept s t) (hs : AlignedPort s) : AlignedPort t := by
  obtain ⟨ops, ho, ha⟩ := h.log
  intro op hop
  rw [ho] at hop
  rcases List.mem_append.mp hop with h1 | h1
  · exact hs op h1
  · exact ha op h1

theorem Kept.sound {s t : State} (h : Kept s t) (hs : Sound s) : Sound t :=
  ⟨h.mode hs.mode, h.pc hs.pc, h.alignedPort hs.port, h.wf hs.memory⟩

/-- An operation that touches only registers other than R15, the bank slots, the saved status and
`branched`. -/
theorem Kept.of_same {s t : State} (hp : t.params = s.params) (hr : t.regions = s.regions)
    (hi : t.inputs = s.inputs) (hf : t.freeCount = s.freeCount) (hl : t.portLog = s.portLog)
    (hm : t.mem = s.mem) (hc : t.cpsr = s.cpsr) (hx : t.pc = s.pc) : Kept s t := by
  refine ⟨hp, hr, hi, Nat.le_of_eq hf.symm, ⟨[], by simp [hl]⟩, fun h => by rw [hm]; exact h, ?_, ?_⟩
  · unfold LegalMode
    rw [hc]
    exact id
  · unfold PcAligned State.thumb
    rw [hc, hx]
    exact id

theorem Kept.of_port {s t : State} (h : PortFrame s t) : Kept s t := by
  refine ⟨h.params, h.regions, h.inputs, h.free, h.log, h.wf, ?_, ?_⟩
  · unfold LegalMode
    rw [h.cpsr]
    exact id
  · unfold PcAligned
    rw [h.pc, h.thumb]
    exact id

/-! ## The operations -/

theorem State.kept_beginCall (s : State) : Kept s s.beginCall :=
  .of_same rfl rfl rfl rfl rfl rfl rfl rfl

theorem State.kept_setX {r : Reg} (h : r ≠ 15) (v : Word) (s : State) : Kept s (s.setX r v) :=
  .of_same rfl rfl rfl rfl rfl rfl rfl (State.pc_setX_ne h v s)

theorem State.kept_setSpsr (v : Word) (s : State) : Kept s { s with spsr := v } :=
  .of_same rfl rfl rfl rfl rfl rfl rfl rfl

/-- A written pc is aligned for the instruction set in force (spec/10_state.md R114, R115). -/
theorem State.pcAligned_writePC (a : Word) (s : State) : PcAligned (s.writePC a) := by
  unfold PcAligned
  rw [State.pc_writePC, State.thumb_writePC]
  unfold State.pcMask State.pcOffset
  cases s.thumb
  · simp only [Bool.false_eq_true, if_false, BitVec.toNat_add, and_FFFFFFFC, BitVec.toNat_shiftLeft,
      BitVec.toNat_ushiftRight, Nat.shiftLeft_eq, Nat.shiftRight_eq_div_pow, show (8 : Word).toNat = 8 from rfl]
    omega
  · simp only [if_true, BitVec.toNat_add, and_FFFFFFFE, BitVec.toNat_shiftLeft,
      BitVec.toNat_ushiftRight, Nat.shiftLeft_eq, Nat.shiftRight_eq_div_pow,
      show (4 : Word).toNat = 4 from rfl]
    omega

theorem State.kept_writePC (a : Word) (s : State) : Kept s (s.writePC a) :=
  ⟨rfl, rfl, rfl, Nat.le_refl _, ⟨[], by simp⟩, id, id, fun _ => State.pcAligned_writePC a s⟩

theorem State.kept_writeReg (r : Reg) (v : Word) (s : State) : Kept s (s.writeReg r v) := by
  unfold State.writeReg
  split
  · exact State.kept_writePC v s
  · next h => exact State.kept_setX h v s

theorem State.kept_advance (s : State) : Kept s s.advance := by
  refine ⟨rfl, rfl, rfl, Nat.le_refl _, ⟨[], by simp⟩, id, id, ?_⟩
  unfold PcAligned
  rw [State.pc_advance, State.thumb_advance]
  unfold State.instrWidth
  cases s.thumb <;> simp only [Bool.false_eq_true, if_false, if_true, BitVec.toNat_add,
    show (4 : Word).toNat = 4 from rfl, show (2 : Word).toNat = 2 from rfl] <;> omega

theorem State.kept_writeUser (r : Reg) (v : Word) (s : State) : Kept s (s.writeUser r v) := by
  unfold State.writeUser
  split
  · exact .of_same rfl rfl rfl rfl rfl rfl rfl rfl
  · split
    · exact .of_same rfl rfl rfl rfl rfl rfl rfl rfl
    · split
      · exact .of_same rfl rfl rfl rfl rfl rfl rfl rfl
      · exact State.kept_writeReg r v s

/-- A write of the status that keeps the mode field and T. -/
theorem State.kept_setCpsr {n : Word} {s : State} (hm : modeField n = modeField s.cpsr) (ht : tBit n = tBit s.cpsr)
    (k : Nat) (hk : s.freeCount ≤ k) : Kept s { s with cpsr := n, freeCount := k } := by
  refine ⟨rfl, rfl, rfl, hk, ⟨[], by simp⟩, id, ?_, ?_⟩
  · unfold LegalMode
    rw [bankOf_eq hm]
    exact id
  · unfold PcAligned State.thumb
    rw [ht]
    exact id

theorem State.kept_setFlagsArith (o : AluOut) (s : State) : Kept s (s.setFlagsArith o) :=
  State.kept_setCpsr (by simp) (by simp) _ (Nat.le_refl _)

theorem State.kept_setFlagsLogic (v : Word) (sc : Bool) (s : State) : Kept s (s.setFlagsLogic v sc) :=
  State.kept_setCpsr (by simp) (by simp) _ (Nat.le_refl _)

theorem State.kept_setFlagsNZ (v : Word) (s : State) : Kept s (s.setFlagsNZ v) :=
  State.kept_setCpsr (by simp) (by simp) _ (Nat.le_refl _)

theorem State.kept_setFlagsDp (o : DpOut) (s : State) : Kept s (s.setFlagsDp o) := by
  cases o
  · exact State.kept_setFlagsArith _ s
  · exact State.kept_setFlagsLogic _ _ s

theorem State.kept_mulCarry (s : State) : Kept s s.mulCarry := by
  unfold State.mulCarry
  split
  · exact Kept.refl s
  · exact State.kept_setCpsr (by simp) (by simp) _ (Nat.le_succ _)

theorem State.kept_setFlagsMul (v : Word) (s : State) : Kept s (s.setFlagsMul v) :=
  (State.kept_setFlagsNZ v s).trans (State.kept_mulCarry _)

theorem State.kept_setFlagsMulLong (v : BitVec 64) (s : State) : Kept s (s.setFlagsMulLong v) :=
  (State.kept_setCpsr (n := setNZ64 s.cpsr v) (by simp) (by simp) _ (Nat.le_refl _)).trans (State.kept_mulCarry _)

/-- LoadStatus keeps the mode legal, and the pc aligned where T is kept or the state is ARM's. -/
theorem State.kept_loadStatus {n : Word} {s : State} (h : tBit n = s.thumb ∨ s.thumb = false) :
    Kept s (s.loadStatus n) := by
  refine ⟨by simp, by simp, by simp, by simp, ⟨[], by simp⟩, by simp, ?_, ?_⟩
  · intro hs
    unfold LegalMode
    rw [State.loadStatus_cpsr]
    exact State.coerceMode_isSome hs n
  · unfold PcAligned
    rw [State.pc_loadStatus, State.thumb_loadStatus]
    intro hs
    rcases h with h | h
    · rw [h]
      exact hs
    · rw [h] at hs
      simp only [Bool.false_eq_true, if_false] at hs
      split <;> omega

/-- LoadStatus followed by the pc write keeps the pc aligned whatever T becomes. -/
theorem State.kept_loadStatus_writePC (n a : Word) (s : State) : Kept s ((s.loadStatus n).writePC a) := by
  refine ⟨by simp, by simp, by simp, by simp, ⟨[], by simp⟩, by simp, ?_,
    fun _ => State.pcAligned_writePC a _⟩
  intro hs
  unfold LegalMode
  rw [State.writePC_cpsr, State.loadStatus_cpsr]
  exact State.coerceMode_isSome hs n

theorem State.kept_exceptionReturn (a : Word) (s : State) : Kept s (s.exceptionReturn a) :=
  State.kept_loadStatus_writePC _ a s

theorem State.kept_enter (m : Mode) (a l : Word) (f : Bool) (s : State) : Kept s (s.enter m a l f) := by
  refine ⟨by simp, by simp, by simp, by simp, ⟨[], by simp⟩, by simp, ?_, fun _ => State.pcAligned_writePC a _⟩
  intro _
  unfold LegalMode
  rw [State.cpsr_enter, bankOf_entryStatus]
  rfl

theorem State.kept_raiseDataAbort (s : State) : Kept s s.raiseDataAbort := State.kept_enter _ _ _ _ s

theorem State.kept_endAccess (ix : Indexing) (rn : Reg) (s : State) : Kept s (s.endAccess ix rn) := by
  unfold State.endAccess
  split
  · exact (State.kept_advance s).trans (State.kept_writeReg _ _ _)
  · exact State.kept_advance s

theorem State.kept_abortAccess (ix : Indexing) (rn : Reg) (s : State) : Kept s (s.abortAccess ix rn) := by
  unfold State.abortAccess
  split
  · next h => exact (State.kept_setX h.2.2 _ s).trans (State.kept_raiseDataAbort _)
  · exact State.kept_raiseDataAbort s

theorem State.kept_blockBack (w : Bool) (rn : Reg) (v : Word) (s : State) : Kept s (s.blockBack w rn v) := by
  unfold State.blockBack
  split
  · exact State.kept_writeReg _ _ s
  · exact Kept.refl s

theorem State.kept_abortBlock (w : Bool) (rn : Reg) (v : Word) (s : State) : Kept s (s.abortBlock w rn v) := by
  unfold State.abortBlock
  split
  · exact (State.kept_blockBack _ _ _ s).trans (State.kept_raiseDataAbort _)
  · exact State.kept_raiseDataAbort s

theorem kept_writeEach {put : Reg → Word → State → State} (h : ∀ r v s, Kept s (put r v s))
    (ps : List (Reg × Word)) (s : State) : Kept s (writeEach put ps s) := by
  induction ps generalizing s with
  | nil => exact Kept.refl s
  | cons p rest ih => exact (h p.1 p.2 s).trans (ih _)

theorem kept_loadLive (ps : List (Reg × Word)) (s : State) : Kept s (loadLive ps s) :=
  kept_writeEach State.kept_writeReg ps s

theorem kept_loadUser (ps : List (Reg × Word)) (s : State) : Kept s (loadUser ps s) :=
  kept_writeEach State.kept_writeUser ps s

theorem kept_loadRestore (ps : List (Reg × Word)) (s : State) : Kept s (loadRestore ps s) := by
  have h : ∀ t, Kept s t → ∀ a, Kept s ((if t.inUserBank then t else t.loadStatus t.spsr).writePC a) := by
    intro t ht a
    split
    · exact ht.trans (State.kept_writePC _ _)
    · exact ht.trans (State.kept_loadStatus_writePC _ _ _)
  unfold loadRestore
  cases s.params.ldmSPcBank
  · exact h _ (kept_loadUser _ s) _
  · exact h _ (kept_loadLive _ s) _

/-! ## The ends of a call -/

/-- What an end of a call answers from `s`: no refusal; a next state keeps what `Kept` says; and with
UNPRED_MODE = reference the only stop is the empty register list of EMPTY_RLIST = fault. -/
structure Runs (s : State) (r : Result) : Prop where
  next      : ∀ t, r = .next t → Kept s t
  accepted  : ∀ x, r ≠ .refused x
  reference : s.params.unpredMode = .reference →
    (∃ t, r = .next t) ∨ (r = .fault .emptyRegisterList ∧ s.params.emptyRlist = .fault)

theorem Runs.of_next {s t : State} (h : Kept s t) : Runs s (.next t) := by
  refine ⟨?_, by simp, fun _ => .inl ⟨t, rfl⟩⟩
  intro t' ht
  cases ht
  exact h

theorem Runs.from_begin {s : State} {r : Result} (h : Runs s.beginCall r) : Runs s r :=
  ⟨fun t ht => (State.kept_beginCall s).trans (h.next t ht), h.accepted, h.reference⟩

theorem Runs.of_guard {s : State} {r : Result} (b : Bool) (u : UCase) (h : Runs s r) : Runs s (s.guard b u r) := by
  unfold State.guard
  split
  · next hb =>
    refine ⟨by simp, by simp, fun hr => ?_⟩
    rw [hr] at hb
    simp at hb
  · exact h

theorem Runs.of_emptyCheck {s : State} {r : Result} (list : BitVec 16) (h : Runs s r) :
    Runs s (s.emptyCheck list r) := by
  unfold State.emptyCheck
  split
  · next hl => exact ⟨by simp, by simp, fun _ => .inr ⟨rfl, hl.2⟩⟩
  · exact h

/-- An ARM call in ARM state answers as its rule does, or only advances (spec/40_operands_flags.md R403). -/
theorem Runs.of_armCall {s : State} {rule : State → Result} (c : Cond) (ht : s.thumb = false)
    (h : Runs s.beginCall (rule s.beginCall)) : Runs s (armCall c s rule) := by
  unfold armCall
  rw [ht]
  simp only [Bool.false_eq_true, if_false]
  split
  · exact h.from_begin
  · exact .from_begin (.of_next (State.kept_advance _))

theorem Runs.of_thumbCall {s : State} {rule : State → Result} (ht : s.thumb = true)
    (h : Runs s.beginCall (rule s.beginCall)) : Runs s (thumbCall s rule) := by
  unfold thumbCall
  rw [ht]
  exact h.from_begin

theorem dpWrite_runs (sf : Bool) (rd : Reg) (o : DpOut) (s : State) : Runs s (dpWrite sf rd o s) := by
  unfold dpWrite
  split
  · exact .of_guard _ _ (.of_guard _ _ (.of_next ((State.kept_advance s).trans (State.kept_exceptionReturn _ _))))
  · refine .of_next (((State.kept_advance s).trans (State.kept_writeReg rd o.result _)).trans ?_)
    split
    · exact State.kept_setFlagsDp _ _
    · exact Kept.refl _

theorem dpCompare_runs (rd : Reg) (o : DpOut) {s : State} (ht : s.thumb = false) : Runs s (dpCompare rd o s) := by
  unfold dpCompare
  split
  · exact .of_guard _ _ (.of_next ((State.kept_advance s).trans
      (State.kept_loadStatus (.inr (by simpa using ht)))))
  · exact .of_next ((State.kept_advance s).trans (State.kept_setFlagsDp _ _))

theorem mulWrite_runs (sf : Bool) (rd : Reg) (v : Word) (s : State) : Runs s (mulWrite sf rd v s) := by
  refine .of_next (((State.kept_advance s).trans (State.kept_writeReg rd v _)).trans ?_)
  split
  · exact State.kept_setFlagsMul _ _
  · exact Kept.refl _

theorem mulLongWrite_runs (sf : Bool) (hi lo : Reg) (v : BitVec 64) (s : State) :
    Runs s (mulLongWrite sf hi lo v s) := by
  refine .of_next ((((State.kept_advance s).trans (State.kept_writeReg lo (field v 0 32) _)).trans
    (State.kept_writeReg hi (field v 32 32) _)).trans ?_)
  split
  · exact State.kept_setFlagsMulLong _ _
  · exact Kept.refl _

theorem endLoad_runs {s : State} (ix : Indexing) (rn rd : Reg) (fix : Word → Word) (r : Option Word × State)
    (h : Kept s r.2) : Runs s (State.endLoad ix rn rd fix r) := by
  obtain ⟨_ | v, t⟩ := r
  · exact .of_next (h.trans (State.kept_abortAccess ix rn t))
  · exact .of_next ((h.trans (State.kept_endAccess ix rn t)).trans (State.kept_writeReg _ _ _))

theorem endStore_runs {s : State} (ix : Indexing) (rn : Reg) (r : Bool × State) (h : Kept s r.2) :
    Runs s (State.endStore ix rn r) := by
  obtain ⟨_ | _, t⟩ := r
  · exact .of_next (h.trans (State.kept_abortAccess ix rn t))
  · exact .of_next (h.trans (State.kept_endAccess ix rn t))

theorem singleLoad_runs (w : Width) (ix : Indexing) (rn rd : Reg) (fix : Word → Word) (s : State) :
    Runs s (singleLoad w ix rn rd fix s) :=
  endLoad_runs ix rn rd fix _ (.of_port (State.memRead_frame w ix.addr s))

theorem singleStore_runs (w : Width) (ix : Indexing) (rn : Reg) (v : Word) (s : State) :
    Runs s (singleStore w ix rn v s) :=
  endStore_runs ix rn _ (.of_port (State.memWrite_frame w ix.addr v s))

/-- The mode forced to User, one access, and the mode back: `access` is the access's end state. -/
theorem State.kept_userAccess {s t : State} (h : Kept s.forceUser t) (ht : t.thumb = s.forceUser.thumb) :
    Kept s (t.loadStatus s.cpsr) := by
  have hu : s.forceUser.thumb = s.thumb := by simp [State.forceUser, State.thumb]
  refine ((State.kept_loadStatus (.inl (by simp [State.thumb]))).trans h).trans
    (State.kept_loadStatus (.inl ?_))
  rw [ht, hu]
  rfl

theorem userLoad_runs (w : Width) (ix : Indexing) (rn rd : Reg) (s : State) : Runs s (userLoad w ix rn rd s) := by
  have h := State.memRead_frame w ix.addr s.forceUser
  exact endLoad_runs ix rn rd id _ (State.kept_userAccess (.of_port h) h.thumb)

theorem userStore_runs (w : Width) (ix : Indexing) (rn : Reg) (v : Word) (s : State) :
    Runs s (userStore w ix rn v s) := by
  have h := State.memWrite_frame w ix.addr v s.forceUser
  exact endStore_runs ix rn _ (State.kept_userAccess (.of_port h) h.thumb)

theorem swap_runs (w : Width) (a v : Word) (rd : Reg) (s : State) : Runs s (swap w a v rd s) := by
  unfold swap
  have h := Kept.of_port (State.memRead_frame w a s)
  split
  · next t he =>
    rw [he] at h
    exact .of_next (h.trans (State.kept_raiseDataAbort t))
  · next x t he =>
    rw [he] at h
    have k := Kept.of_port (State.memWrite_frame w a v t)
    split
    · next he' =>
      rw [he'] at k
      exact .of_next ((h.trans k).trans (State.kept_raiseDataAbort _))
    · next he' =>
      rw [he'] at k
      exact .of_next (((h.trans k).trans (State.kept_advance _)).trans (State.kept_writeReg _ _ _))

theorem blockLoad_runs (b : Block) (w : Bool) (rn : Reg) {done : List (Reg × Word) → State → State}
    (hd : ∀ ps t, Kept t (done ps t)) (s : State) : Runs s (blockLoad b w rn done s) := by
  have h := Kept.of_port (State.loadWords_frame (as := b.addrs) s fun a ha => blockAddrs_aligned ha)
  unfold blockLoad
  split
  · next he =>
    rw [he] at h
    exact .of_next (h.trans (State.kept_abortBlock _ _ _ _))
  · next he =>
    rw [he] at h
    exact .of_next (((h.trans (State.kept_advance _)).trans (State.kept_blockBack _ _ _ _)).trans (hd _ _))

theorem blockStore_runs (b : Block) (w : Bool) (rn : Reg) (val : Reg → Word) (s : State) :
    Runs s (blockStore b w rn val s) := by
  have h := Kept.of_port (State.storeWords_frame (ws := b.addrs.zip (b.regs.map val)) s
    fun p hp => blockAddrs_aligned (List.of_mem_zip hp).1)
  unfold blockStore
  split
  · next he =>
    rw [he] at h
    exact .of_next (h.trans (State.kept_abortBlock _ _ _ _))
  · next he =>
    rw [he] at h
    exact .of_next ((h.trans (State.kept_advance _)).trans (State.kept_blockBack _ _ _ _))

theorem branchExchange_runs (v : Word) (s : State) : Runs s (branchExchange v s) :=
  .of_guard _ _ (.of_next (State.kept_loadStatus_writePC _ _ s))

theorem statusWrite_runs (r : Bool) (fm : BitVec 4) (v : Word) {s : State} (ht : s.thumb = false) :
    Runs s (statusWrite r fm v s) := by
  unfold statusWrite
  split
  · exact .of_guard _ _ (.of_next ((State.kept_advance s).trans (State.kept_setSpsr _ _)))
  · exact .of_guard _ _ (.of_guard _ _ (.of_next ((State.kept_advance s).trans
      (State.kept_loadStatus (.inr (by simpa using ht))))))

theorem thumbShift_runs (rd : LowReg) (r : Word × Bool) (s : State) : Runs s (thumbShift rd.reg r s) :=
  .of_next (((State.kept_advance s).trans (State.kept_setX (LowReg.reg_ne_pc rd) _ _)).trans
    (State.kept_setFlagsLogic _ _ _))

theorem thumbArith_runs (rd : LowReg) (o : AluOut) (s : State) : Runs s (thumbArith rd.reg o s) :=
  .of_next (((State.kept_advance s).trans (State.kept_setX (LowReg.reg_ne_pc rd) _ _)).trans
    (State.kept_setFlagsArith _ _))

theorem thumbLogic_runs (rd : LowReg) (v : Word) (s : State) : Runs s (thumbLogic rd.reg v s) :=
  .of_next (((State.kept_advance s).trans (State.kept_setX (LowReg.reg_ne_pc rd) _ _)).trans
    (State.kept_setFlagsNZ _ _))

theorem thumbCompare_runs (o : AluOut) (s : State) : Runs s (thumbCompare o s) :=
  .of_next ((State.kept_advance s).trans (State.kept_setFlagsArith _ _))

theorem thumbMove_runs (rd : Reg) (v : Word) (s : State) : Runs s (thumbMove rd v s) :=
  .of_next ((State.kept_advance s).trans (State.kept_writeReg _ _ _))

end Sys2Proof.Machine
end

