-- ==== Sys2Proof/Laws/Frames.lean ====
section
/-! SUPPORT. Which bytes of memory each end of a call can change, and which mode it can leave User mode
for. -/

namespace Sys2Proof.Machine

open Sys2Proof.Safety

/-! ## Memory -/

/-- A next state that `r` answers has every byte outside `spans` as `s` has it. -/
def StoresOnly (spans : List (Nat × Nat)) (s : State) (r : Result) : Prop :=
  s.mem.wf = true → ∀ t, r = .next t → ∀ a, Outside spans a → t.mem.read a = s.mem.read a

theorem StoresOnly.of_next {spans : List (Nat × Nat)} {s t : State} (h : t.mem = s.mem) :
    StoresOnly spans s (.next t) := by
  intro _ t' ht a _
  cases ht
  rw [h]

theorem StoresOnly.from_begin {spans : List (Nat × Nat)} {s : State} {r : Result}
    (h : StoresOnly spans s.beginCall r) : StoresOnly spans s r := h

theorem StoresOnly.of_guard {spans : List (Nat × Nat)} {s : State} {r : Result} (b : Bool) (u : UCase)
    (h : StoresOnly spans s r) : StoresOnly spans s (s.guard b u r) := by
  unfold State.guard
  split
  · intro _ t ht
    simp at ht
  · exact h

theorem StoresOnly.of_emptyCheck {spans : List (Nat × Nat)} {s : State} {r : Result} (list : BitVec 16)
    (h : StoresOnly spans s r) : StoresOnly spans s (s.emptyCheck list r) := by
  unfold State.emptyCheck
  split
  · intro _ t ht
    simp at ht
  · exact h

theorem StoresOnly.of_armCall {spans : List (Nat × Nat)} {s : State} {rule : State → Result} (c : Cond)
    (h : StoresOnly spans s.beginCall (rule s.beginCall)) : StoresOnly spans s (armCall c s rule) := by
  unfold armCall
  split
  · intro _ t ht
    simp at ht
  · split
    · exact h.from_begin
    · exact .of_next rfl

theorem StoresOnly.of_thumbCall {spans : List (Nat × Nat)} {s : State} {rule : State → Result}
    (h : StoresOnly spans s.beginCall (rule s.beginCall)) : StoresOnly spans s (thumbCall s rule) := by
  unfold thumbCall
  split
  · exact h.from_begin
  · intro _ t ht
    simp at ht

@[simp] theorem State.setFlagsDp_mem (o : DpOut) (s : State) : (s.setFlagsDp o).mem = s.mem := by
  cases o <;> rfl

@[simp] theorem State.setFlagsMul_mem (v : Word) (s : State) : (s.setFlagsMul v).mem = s.mem := by
  simp [State.setFlagsMul]

@[simp] theorem State.setFlagsMulLong_mem (v : BitVec 64) (s : State) : (s.setFlagsMulLong v).mem = s.mem := by
  simp [State.setFlagsMulLong]

theorem State.endAccess_mem (ix : Indexing) (rn : Reg) (s : State) : (s.endAccess ix rn).mem = s.mem := by
  unfold State.endAccess
  split <;> simp

theorem State.raiseDataAbort_mem (s : State) : s.raiseDataAbort.mem = s.mem := State.enter_mem _ _ _ _ s

theorem State.abortAccess_mem (ix : Indexing) (rn : Reg) (s : State) : (s.abortAccess ix rn).mem = s.mem := by
  unfold State.abortAccess
  split <;> simp [State.raiseDataAbort_mem]

theorem State.blockBack_mem (w : Bool) (rn : Reg) (v : Word) (s : State) : (s.blockBack w rn v).mem = s.mem := by
  unfold State.blockBack
  split <;> simp

theorem State.abortBlock_mem (w : Bool) (rn : Reg) (v : Word) (s : State) : (s.abortBlock w rn v).mem = s.mem := by
  unfold State.abortBlock
  split <;> simp [State.raiseDataAbort_mem, State.blockBack_mem]

theorem writeEach_mem {put : Reg → Word → State → State} (h : ∀ r v s, (put r v s).mem = s.mem)
    (ps : List (Reg × Word)) (s : State) : (writeEach put ps s).mem = s.mem := by
  induction ps generalizing s with
  | nil => rfl
  | cons p rest ih => exact (ih _).trans (h p.1 p.2 s)

theorem loadLive_mem (ps : List (Reg × Word)) (s : State) : (loadLive ps s).mem = s.mem :=
  writeEach_mem (fun r v t => State.writeReg_mem r v t) ps s

theorem loadUser_mem (ps : List (Reg × Word)) (s : State) : (loadUser ps s).mem = s.mem :=
  writeEach_mem (fun r v t => State.writeUser_mem r v t) ps s

theorem loadRestore_mem (ps : List (Reg × Word)) (s : State) : (loadRestore ps s).mem = s.mem := by
  have h : ∀ t : State, t.mem = s.mem → ∀ a, ((if t.inUserBank then t else t.loadStatus t.spsr).writePC a).mem = s.mem := by
    intro t ht a
    split <;> simp [ht]
  unfold loadRestore
  cases s.params.ldmSPcBank
  · exact h _ (loadUser_mem _ s) _
  · exact h _ (loadLive_mem _ s) _

theorem dpWrite_stores {spans : List (Nat × Nat)} (sf : Bool) (rd : Reg) (o : DpOut) (s : State) :
    StoresOnly spans s (dpWrite sf rd o s) := by
  unfold dpWrite
  split
  · exact .of_guard _ _ (.of_guard _ _ (.of_next (by simp)))
  · refine .of_next ?_
    split <;> simp

theorem dpCompare_stores {spans : List (Nat × Nat)} (rd : Reg) (o : DpOut) (s : State) :
    StoresOnly spans s (dpCompare rd o s) := by
  unfold dpCompare
  split
  · exact .of_guard _ _ (.of_next (by simp))
  · exact .of_next (by simp)

theorem mulWrite_stores {spans : List (Nat × Nat)} (sf : Bool) (rd : Reg) (v : Word) (s : State) :
    StoresOnly spans s (mulWrite sf rd v s) := by
  refine .of_next ?_
  split <;> simp

theorem mulLongWrite_stores {spans : List (Nat × Nat)} (sf : Bool) (hi lo : Reg) (v : BitVec 64) (s : State) :
    StoresOnly spans s (mulLongWrite sf hi lo v s) := by
  refine .of_next ?_
  split <;> simp

theorem endLoad_stores {spans : List (Nat × Nat)} {s : State} (ix : Indexing) (rn rd : Reg) (fix : Word → Word)
    (r : Option Word × State) (h : r.2.mem = s.mem) : StoresOnly spans s (State.endLoad ix rn rd fix r) := by
  obtain ⟨_ | v, t⟩ := r
  · exact .of_next ((State.abortAccess_mem ix rn t).trans h)
  · exact .of_next ((State.writeReg_mem rd _ _).trans ((State.endAccess_mem ix rn t).trans h))

theorem State.memRead_mem (w : Width) (a : Word) (s : State) : (s.memRead w a).2.mem = s.mem := by
  rw [State.memRead_snd, State.portLoad_mem]

theorem singleLoad_stores {spans : List (Nat × Nat)} (w : Width) (ix : Indexing) (rn rd : Reg)
    (fix : Word → Word) (s : State) : StoresOnly spans s (singleLoad w ix rn rd fix s) :=
  endLoad_stores ix rn rd fix _ (State.memRead_mem w ix.addr s)

theorem userLoad_stores {spans : List (Nat × Nat)} (w : Width) (ix : Indexing) (rn rd : Reg) (s : State) :
    StoresOnly spans s (userLoad w ix rn rd s) :=
  endLoad_stores ix rn rd id _ ((State.loadStatus_mem _ _).trans
    ((State.memRead_mem _ _ _).trans (State.loadStatus_mem _ _)))

/-- One store changes the bytes of its span only (spec/20_memory.md R204). -/
theorem State.memWrite_outside {w : Width} {a : Word} {s : State} (v : Word) (hm : s.mem.wf = true) {b : Nat}
    (hb : Outside (span w a) b) : (s.memWrite w a v).2.mem.read b = s.mem.read b :=
  State.portStore_outside v (Width.align_mod w a) hm (hb _ (List.mem_cons_self ..))

theorem endStore_stores {s : State} {spans : List (Nat × Nat)} (ix : Indexing) (rn : Reg) (r : Bool × State)
    (h : s.mem.wf = true → ∀ b, Outside spans b → r.2.mem.read b = s.mem.read b) :
    StoresOnly spans s (State.endStore ix rn r) := by
  obtain ⟨_ | _, t⟩ := r
  · intro hm t' ht b hb
    simp only [State.endStore, Host.Outcome.next.injEq] at ht
    rw [← ht, State.abortAccess_mem]
    exact h hm b hb
  · intro hm t' ht b hb
    simp only [State.endStore, Host.Outcome.next.injEq] at ht
    rw [← ht, State.endAccess_mem]
    exact h hm b hb

theorem singleStore_stores (w : Width) (ix : Indexing) (rn : Reg) (v : Word) (s : State) :
    StoresOnly (span w ix.addr) s (singleStore w ix rn v s) :=
  endStore_stores ix rn _ fun hm _ hb => State.memWrite_outside v hm hb

theorem userStore_stores (w : Width) (ix : Indexing) (rn : Reg) (v : Word) (s : State) :
    StoresOnly (span w ix.addr) s (userStore w ix rn v s) := by
  refine endStore_stores ix rn _ fun hm b hb => ?_
  have hf : s.forceUser.mem = s.mem := State.loadStatus_mem _ s
  have h := State.memWrite_outside (s := s.forceUser) (w := w) (a := ix.addr) v (by rw [hf]; exact hm) hb
  rw [hf] at h
  exact (congrArg (fun m => Memory.read m b) (State.loadStatus_mem _ _)).trans h

theorem swap_stores (w : Width) (a v : Word) (rd : Reg) (s : State) :
    StoresOnly (span w a) s (swap w a v rd s) := by
  have h1 := State.memRead_mem w a s
  unfold swap
  split
  · next t he =>
    rw [he] at h1
    exact .of_next ((State.raiseDataAbort_mem t).trans h1)
  · next x t he =>
    rw [he] at h1
    intro hm t' ht b hb
    have h2 := State.memWrite_outside (s := t) (w := w) (a := a) v (by rw [h1]; exact hm) hb
    rw [h1] at h2
    split at ht
    · next he' =>
      rw [he'] at h2
      simp only [Host.Outcome.next.injEq] at ht
      rw [← ht, State.raiseDataAbort_mem]
      exact h2
    · next he' =>
      rw [he'] at h2
      simp only [Host.Outcome.next.injEq] at ht
      rw [← ht, State.writeReg_mem, State.advance_mem]
      exact h2

theorem blockLoad_stores {spans : List (Nat × Nat)} (b : Block) (w : Bool) (rn : Reg)
    {done : List (Reg × Word) → State → State} (hd : ∀ ps t, (done ps t).mem = t.mem) (s : State) :
    StoresOnly spans s (blockLoad b w rn done s) := by
  have h := State.loadWords_mem b.addrs s
  unfold blockLoad
  split
  · next he =>
    rw [he] at h
    exact .of_next ((State.abortBlock_mem _ _ _ _).trans h)
  · next he =>
    rw [he] at h
    refine .of_next ((hd _ _).trans ?_)
    rw [State.blockBack_mem, State.advance_mem]
    exact h

/-- The words of a block store change the bytes at their own addresses only (spec/44_block_transfer.md
R602). -/
theorem State.storeWords_outside {ws : List (Word × Word)} (s : State) (ha : ∀ p ∈ ws, p.1.toNat % 4 = 0)
    (hm : s.mem.wf = true) {b : Nat} (hb : ∀ p ∈ ws, b < p.1.toNat ∨ p.1.toNat + 4 ≤ b) :
    (s.storeWords ws).2.mem.read b = s.mem.read b := by
  induction ws generalizing s with
  | nil => rfl
  | cons p rest ih =>
    obtain ⟨a, v⟩ := p
    have h1 := State.portStore_outside (w := .word) (a := a) (s := s) (b := b) v (ha (a, v) (by simp)) hm
      (hb (a, v) (by simp))
    have hf := State.portStore_frame .word a v s (ha (a, v) (by simp))
    simp only [State.storeWords]
    split
    · next he =>
      rw [he] at h1
      exact h1
    · next he =>
      rw [he] at h1 hf
      exact (ih _ (fun p hp => ha p (by simp [hp])) (hf.wf hm) (fun p hp => hb p (by simp [hp]))).trans h1

theorem blockStore_stores (b : Block) (w : Bool) (rn : Reg) (val : Reg → Word) (s : State) :
    StoresOnly (b.addrs.map fun a => (a.toNat, 4)) s (blockStore b w rn val s) := by
  intro hm t ht c hc
  have h := State.storeWords_outside (ws := b.addrs.zip (b.regs.map val)) (b := c) s
    (fun p hp => blockAddrs_aligned (List.of_mem_zip hp).1) hm
    (fun p hp => hc _ (List.mem_map_of_mem (List.of_mem_zip hp).1))
  unfold blockStore at ht
  split at ht
  · next he =>
    rw [he] at h
    simp only [Host.Outcome.next.injEq] at ht
    rw [← ht, State.abortBlock_mem]
    exact h
  · next he =>
    rw [he] at h
    simp only [Host.Outcome.next.injEq] at ht
    rw [← ht, State.blockBack_mem, State.advance_mem]
    exact h

theorem branchExchange_stores {spans : List (Nat × Nat)} (v : Word) (s : State) :
    StoresOnly spans s (branchExchange v s) :=
  .of_guard _ _ (.of_next (by simp))

theorem statusWrite_stores {spans : List (Nat × Nat)} (r : Bool) (fm : BitVec 4) (v : Word) (s : State) :
    StoresOnly spans s (statusWrite r fm v s) := by
  unfold statusWrite
  split
  · exact .of_guard _ _ (.of_next rfl)
  · exact .of_guard _ _ (.of_guard _ _ (.of_next (by simp)))

theorem thumbMove_stores {spans : List (Nat × Nat)} (rd : Reg) (v : Word) (s : State) :
    StoresOnly spans s (thumbMove rd v s) := .of_next (by simp)

/-! ## The mode -/

/-- From User mode with UNPRED_MODE = fault, a next state is in User mode or has entered an exception
(spec/60_exceptions.md R931). -/
def StaysUser (s : State) (r : Result) : Prop :=
  modeField s.cpsr = Mode.usr.code → s.params.unpredMode = .fault → ∀ t, r = .next t →
    modeField t.cpsr = Mode.usr.code ∨ EnteredException s t

theorem StaysUser.of_next {s t : State} (h : modeField t.cpsr = modeField s.cpsr) : StaysUser s (.next t) := by
  intro hu _ t' ht
  cases ht
  exact .inl (h.trans hu)

theorem StaysUser.of_guard {s : State} {r : Result} (b : Bool) (u : UCase) (h : StaysUser s r) :
    StaysUser s (s.guard b u r) := by
  unfold State.guard
  split
  · intro _ _ t ht
    simp at ht
  · exact h

/-- A check that User mode always meets. -/
theorem StaysUser.of_stop {s : State} {b : Bool} (u : UCase) (r : Result)
    (h : modeField s.cpsr = Mode.usr.code → b = true) : StaysUser s (s.guard b u r) := by
  intro hu hf t ht
  simp [State.guard, h hu, hf] at ht

theorem StaysUser.of_emptyCheck {s : State} {r : Result} (list : BitVec 16) (h : StaysUser s r) :
    StaysUser s (s.emptyCheck list r) := by
  unfold State.emptyCheck
  split
  · intro _ _ t ht
    simp at ht
  · exact h

theorem StaysUser.of_armCall {s : State} {rule : State → Result} (c : Cond)
    (h : StaysUser s.beginCall (rule s.beginCall)) : StaysUser s (armCall c s rule) := by
  unfold armCall
  split
  · intro _ _ t ht
    simp at ht
  · split
    · exact h
    · exact .of_next rfl

theorem StaysUser.of_thumbCall {s : State} {rule : State → Result}
    (h : StaysUser s.beginCall (rule s.beginCall)) : StaysUser s (thumbCall s rule) := by
  unfold thumbCall
  split
  · exact h
  · intro _ _ t ht
    simp at ht

/-- User mode has the User bank (spec/10_state.md R104). -/
theorem State.inUserBank_of_usr {s : State} (h : modeField s.cpsr = Mode.usr.code) : s.inUserBank = true := by
  unfold State.inUserBank State.bank bankOf
  rw [h]
  rfl

theorem iBit_entryStatus (st : Word) (m : Mode) (f : Bool) : iBit (entryStatus st m f) = true := by
  unfold iBit entryStatus bit
  cases f <;> simp

/-- An exception raised from `t`, whose status is that of `s`, is an entry of `s`. -/
theorem enteredException_of_enter {s t : State} {e : Mode × Word} (he : e ∈ instrEntries) (l : Word)
    (hc : t.cpsr = s.cpsr) : EnteredException s (t.enter e.1 e.2 l false) := by
  refine ⟨e, he, ?_, State.thumb_enter _ _ _ _ _, ?_, ?_, ?_⟩
  · rw [State.cpsr_enter, modeField_entryStatus]
  · rw [State.cpsr_enter, iBit_entryStatus]
  · rw [State.enter_spsr, hc]
  · rw [State.pc_enter]
    simp only [instrEntries, List.mem_cons, List.not_mem_nil, or_false] at he
    rcases he with rfl | rfl | rfl <;> rfl

theorem StaysUser.of_entry {s t : State} {e : Mode × Word} (he : e ∈ instrEntries) (l : Word)
    (hc : t.cpsr = s.cpsr) : StaysUser s (.next (t.enter e.1 e.2 l false)) := by
  intro _ _ t' ht
  cases ht
  exact .inr (enteredException_of_enter he l hc)

theorem StaysUser.of_abort {s t : State} (hc : t.cpsr = s.cpsr) : StaysUser s (.next t.raiseDataAbort) :=
  .of_entry (e := (.abt, 0x10)) (by simp [instrEntries]) _ hc

@[simp] theorem State.modeField_setFlagsDp (o : DpOut) (s : State) :
    modeField (s.setFlagsDp o).cpsr = modeField s.cpsr := by
  cases o <;> simp [State.setFlagsDp]

@[simp] theorem State.modeField_mulCarry (s : State) : modeField s.mulCarry.cpsr = modeField s.cpsr := by
  unfold State.mulCarry
  split <;> simp

@[simp] theorem State.modeField_setFlagsMul (v : Word) (s : State) :
    modeField (s.setFlagsMul v).cpsr = modeField s.cpsr := by
  simp [State.setFlagsMul]

@[simp] theorem State.modeField_setFlagsMulLong (v : BitVec 64) (s : State) :
    modeField (s.setFlagsMulLong v).cpsr = modeField s.cpsr := by
  simp [State.setFlagsMulLong]

theorem dpWrite_user (sf : Bool) (rd : Reg) (o : DpOut) (s : State) : StaysUser s (dpWrite sf rd o s) := by
  unfold dpWrite
  split
  · exact .of_stop _ _ State.inUserBank_of_usr
  · refine .of_next ?_
    split <;> simp

theorem dpCompare_user (rd : Reg) (o : DpOut) (s : State) : StaysUser s (dpCompare rd o s) := by
  unfold dpCompare
  split
  · exact .of_stop _ _ fun _ => rfl
  · exact .of_next (by simp)

theorem mulWrite_user (sf : Bool) (rd : Reg) (v : Word) (s : State) : StaysUser s (mulWrite sf rd v s) := by
  refine .of_next ?_
  split <;> simp

theorem mulLongWrite_user (sf : Bool) (hi lo : Reg) (v : BitVec 64) (s : State) :
    StaysUser s (mulLongWrite sf hi lo v s) := by
  refine .of_next ?_
  split <;> simp

theorem endLoad_user {s : State} (ix : Indexing) (rn rd : Reg) (fix : Word → Word) (r : Option Word × State)
    (h : r.2.cpsr = s.cpsr) : StaysUser s (State.endLoad ix rn rd fix r) := by
  obtain ⟨_ | v, t⟩ := r
  · unfold State.endLoad State.abortAccess
    dsimp only
    split
    · exact .of_abort h
    · exact .of_abort h
  · refine .of_next ?_
    rw [State.writeReg_cpsr]
    unfold State.endAccess
    split <;> simp [show t.cpsr = s.cpsr from h]

theorem endStore_user {s : State} (ix : Indexing) (rn : Reg) (r : Bool × State) (h : r.2.cpsr = s.cpsr) :
    StaysUser s (State.endStore ix rn r) := by
  obtain ⟨_ | _, t⟩ := r
  · unfold State.endStore State.abortAccess
    dsimp only
    split
    · exact .of_abort h
    · exact .of_abort h
  · refine .of_next ?_
    unfold State.endAccess
    split <;> simp [show t.cpsr = s.cpsr from h]

theorem singleLoad_user (w : Width) (ix : Indexing) (rn rd : Reg) (fix : Word → Word) (s : State) :
    StaysUser s (singleLoad w ix rn rd fix s) :=
  endLoad_user ix rn rd fix _ (State.memRead_frame w ix.addr s).cpsr

theorem singleStore_user (w : Width) (ix : Indexing) (rn : Reg) (v : Word) (s : State) :
    StaysUser s (singleStore w ix rn v s) :=
  endStore_user ix rn _ (State.memWrite_frame w ix.addr v s).cpsr

/-- In User mode the status restored after a T form's access is the status before it. -/
theorem State.cpsr_restored {s t : State} (hu : modeField s.cpsr = Mode.usr.code) :
    (t.loadStatus s.cpsr).cpsr = s.cpsr := by
  have h : (bankOf s.cpsr).isSome = true := by
    unfold bankOf
    rw [hu]
    rfl
  rw [State.loadStatus_cpsr, State.coerceMode_legal h]

theorem userLoad_user (w : Width) (ix : Indexing) (rn rd : Reg) (s : State) :
    StaysUser s (userLoad w ix rn rd s) := by
  intro hu
  exact endLoad_user ix rn rd id _ (State.cpsr_restored hu) hu

theorem userStore_user (w : Width) (ix : Indexing) (rn : Reg) (v : Word) (s : State) :
    StaysUser s (userStore w ix rn v s) := by
  intro hu
  exact endStore_user ix rn _ (State.cpsr_restored hu) hu

theorem swap_user (w : Width) (a v : Word) (rd : Reg) (s : State) : StaysUser s (swap w a v rd s) := by
  have h := (State.memRead_frame w a s).cpsr
  unfold swap
  split
  · next he =>
    rw [he] at h
    exact .of_abort h
  · next t he =>
    rw [he] at h
    have k := (State.memWrite_frame w a v t).cpsr.trans h
    split
    · next he' =>
      rw [he'] at k
      exact .of_abort k
    · next he' =>
      rw [he'] at k
      refine .of_next ?_
      rw [State.writeReg_cpsr, State.advance_cpsr]
      exact congrArg modeField k

theorem StaysUser.of_abortBlock {s t : State} (w : Bool) (rn : Reg) (v : Word) (hc : t.cpsr = s.cpsr) :
    StaysUser s (.next (t.abortBlock w rn v)) := by
  unfold State.abortBlock
  split
  · refine .of_abort ?_
    unfold State.blockBack
    split
    · rw [State.writeReg_cpsr, hc]
    · exact hc
  · exact .of_abort hc

theorem State.blockBack_cpsr (w : Bool) (rn : Reg) (v : Word) (s : State) : (s.blockBack w rn v).cpsr = s.cpsr := by
  unfold State.blockBack
  split <;> simp

theorem writeEach_cpsr {put : Reg → Word → State → State} (h : ∀ r v s, (put r v s).cpsr = s.cpsr)
    (ps : List (Reg × Word)) (s : State) : (writeEach put ps s).cpsr = s.cpsr := by
  induction ps generalizing s with
  | nil => rfl
  | cons p rest ih => exact (ih _).trans (h p.1 p.2 s)

theorem blockLoad_user (b : Block) (w : Bool) (rn : Reg) {done : List (Reg × Word) → State → State}
    (hd : ∀ ps t, (done ps t).cpsr = t.cpsr) (s : State) : StaysUser s (blockLoad b w rn done s) := by
  have h := (State.loadWords_frame (as := b.addrs) s fun a ha => blockAddrs_aligned ha).cpsr
  unfold blockLoad
  split
  · next he =>
    rw [he] at h
    exact .of_abortBlock _ _ _ h
  · next he =>
    rw [he] at h
    refine .of_next ?_
    rw [hd, State.blockBack_cpsr, State.advance_cpsr]
    exact congrArg modeField h

theorem loadLive_cpsr (ps : List (Reg × Word)) (s : State) : (loadLive ps s).cpsr = s.cpsr :=
  writeEach_cpsr (fun r v t => State.writeReg_cpsr r v t) ps s

theorem blockStore_user (b : Block) (w : Bool) (rn : Reg) (val : Reg → Word) (s : State) :
    StaysUser s (blockStore b w rn val s) := by
  have h := (State.storeWords_frame (ws := b.addrs.zip (b.regs.map val)) s
    fun p hp => blockAddrs_aligned (List.of_mem_zip hp).1).cpsr
  unfold blockStore
  split
  · next he =>
    rw [he] at h
    exact .of_abortBlock _ _ _ h
  · next he =>
    rw [he] at h
    refine .of_next ?_
    rw [State.blockBack_cpsr, State.advance_cpsr]
    exact congrArg modeField h

theorem branchExchange_user (v : Word) (s : State) : StaysUser s (branchExchange v s) := by
  refine .of_guard _ _ fun hu _ t ht => ?_
  cases ht
  refine .inl ?_
  have h : (bankOf (setT s.cpsr (bit v 0))).isSome = true := by
    unfold bankOf
    rw [modeField_setT, hu]
    rfl
  rw [State.writePC_cpsr, State.loadStatus_cpsr, State.coerceMode_legal h, modeField_setT, hu]

/-- In User mode MSR writes the flags byte only (spec/47_status_system.md R753). -/
theorem msrMerge_user {st : Word} (hu : modeField st = Mode.usr.code) (fm : BitVec 4) (v : Word) :
    modeField (msrMerge st v (msrMask fm st)) = modeField st := by
  have hp : privileged st = false := by
    unfold privileged
    rw [hu]
    rfl
  unfold msrMerge msrMask modeField field
  rw [hp]
  cases bit fm 3 <;> ext i hi <;> interval_cases i <;> simp

theorem statusWrite_user (r : Bool) (fm : BitVec 4) (v : Word) (s : State) : StaysUser s (statusWrite r fm v s) := by
  unfold statusWrite
  split
  · exact .of_guard _ _ (.of_next rfl)
  · refine .of_guard _ _ (.of_guard _ _ fun hu _ t ht => ?_)
    cases ht
    refine .inl ?_
    have hm := msrMerge_user hu fm v
    have h : (bankOf (msrMerge s.cpsr v (msrMask fm s.cpsr))).isSome = true := by
      unfold bankOf
      rw [hm, hu]
      rfl
    rw [State.loadStatus_cpsr, State.coerceMode_legal h, hm, hu]

end Sys2Proof.Machine
end

