-- ==== Sys2Proof/Laws/PerInstr.lean ====
section
/-! SUPPORT. The family RoundTrip: for every instruction, decoding its encoding gives it back. One
lemma for each constructor of `Instr`. -/

set_option linter.unusedSimpArgs false
set_option linter.unusedVariables false

namespace Sys2Proof.Laws.RoundTrip

/-- Decoding the encoding of a well-formed instruction gives the instruction back. -/
def Statement (i : Instr) : Prop := i.wf = true → decodeCode (encode i) = i

theorem bx (c : Cond) (rm : Reg) : Statement (.bx c rm) := by
  intro _
  obtain ⟨w, hw, hrow, f1, f2⟩ := enc_bx c rm
  have hr : armRowOf false false false true false false true false false false false true = 0 :=
      by decide
  rw [hw, decodeCode, decodeArm_word, hrow.trans (hr)]
  simp [armBody, f1, f2, Cond.ofBits_bits]

theorem mul (c : Cond) (sf : Bool) (rd : Reg) (rn : Reg) (rs : Reg) (rm : Reg) : Statement (.mul c
    sf rd rn rs rm) := by
  intro _
  obtain ⟨w, hw, hrow, f1, f2, f3, f4, f5, f6, f7, f8, f9, f10⟩ := encMultiply_word c 0b000#3 sf
      rd rn rs rm
  change bit w 23 = false at f2
  change bit w 22 = false at f3
  change bit w 21 = false at f4
  have hr : ∀ a0 : Bool, armRowOf false false false false false false false a0 true false false
      true = 1 := by decide
  change decodeCode (encMultiply c 0b000#3 sf rd rn rs rm) = _
  rw [hw, decodeCode, decodeArm_word, hrow.trans (hr _)]
  simp [armBody, decodeMultiply, f1, f2, f3, f4, f5, f6, f7, f8, f9, f10, Cond.ofBits_bits]

theorem mla (c : Cond) (sf : Bool) (rd : Reg) (rn : Reg) (rs : Reg) (rm : Reg) : Statement (.mla c
    sf rd rn rs rm) := by
  intro _
  obtain ⟨w, hw, hrow, f1, f2, f3, f4, f5, f6, f7, f8, f9, f10⟩ := encMultiply_word c 0b001#3 sf
      rd rn rs rm
  change bit w 23 = false at f2
  change bit w 22 = false at f3
  change bit w 21 = true at f4
  have hr : ∀ a0 : Bool, armRowOf false false false false false false true a0 true false false
      true = 1 := by decide
  change decodeCode (encMultiply c 0b001#3 sf rd rn rs rm) = _
  rw [hw, decodeCode, decodeArm_word, hrow.trans (hr _)]
  simp [armBody, decodeMultiply, f1, f2, f3, f4, f5, f6, f7, f8, f9, f10, Cond.ofBits_bits]

theorem umull (c : Cond) (sf : Bool) (rdHi : Reg) (rdLo : Reg) (rs : Reg) (rm : Reg) : Statement
    (.umull c sf rdHi rdLo rs rm) := by
  intro _
  obtain ⟨w, hw, hrow, f1, f2, f3, f4, f5, f6, f7, f8, f9, f10⟩ := encMultiply_word c 0b100#3 sf
      rdHi rdLo rs rm
  change bit w 23 = true at f2
  change bit w 22 = false at f3
  change bit w 21 = false at f4
  have hr : ∀ a0 : Bool, armRowOf false false false false true false false a0 true false false
      true = 2 := by decide
  change decodeCode (encMultiply c 0b100#3 sf rdHi rdLo rs rm) = _
  rw [hw, decodeCode, decodeArm_word, hrow.trans (hr _)]
  simp [armBody, decodeMultiply, f1, f2, f3, f4, f5, f6, f7, f8, f9, f10, Cond.ofBits_bits]

theorem umlal (c : Cond) (sf : Bool) (rdHi : Reg) (rdLo : Reg) (rs : Reg) (rm : Reg) : Statement
    (.umlal c sf rdHi rdLo rs rm) := by
  intro _
  obtain ⟨w, hw, hrow, f1, f2, f3, f4, f5, f6, f7, f8, f9, f10⟩ := encMultiply_word c 0b101#3 sf
      rdHi rdLo rs rm
  change bit w 23 = true at f2
  change bit w 22 = false at f3
  change bit w 21 = true at f4
  have hr : ∀ a0 : Bool, armRowOf false false false false true false true a0 true false false true
      = 2 := by decide
  change decodeCode (encMultiply c 0b101#3 sf rdHi rdLo rs rm) = _
  rw [hw, decodeCode, decodeArm_word, hrow.trans (hr _)]
  simp [armBody, decodeMultiply, f1, f2, f3, f4, f5, f6, f7, f8, f9, f10, Cond.ofBits_bits]

theorem smull (c : Cond) (sf : Bool) (rdHi : Reg) (rdLo : Reg) (rs : Reg) (rm : Reg) : Statement
    (.smull c sf rdHi rdLo rs rm) := by
  intro _
  obtain ⟨w, hw, hrow, f1, f2, f3, f4, f5, f6, f7, f8, f9, f10⟩ := encMultiply_word c 0b110#3 sf
      rdHi rdLo rs rm
  change bit w 23 = true at f2
  change bit w 22 = true at f3
  change bit w 21 = false at f4
  have hr : ∀ a0 : Bool, armRowOf false false false false true true false a0 true false false true
      = 2 := by decide
  change decodeCode (encMultiply c 0b110#3 sf rdHi rdLo rs rm) = _
  rw [hw, decodeCode, decodeArm_word, hrow.trans (hr _)]
  simp [armBody, decodeMultiply, f1, f2, f3, f4, f5, f6, f7, f8, f9, f10, Cond.ofBits_bits]

theorem smlal (c : Cond) (sf : Bool) (rdHi : Reg) (rdLo : Reg) (rs : Reg) (rm : Reg) : Statement
    (.smlal c sf rdHi rdLo rs rm) := by
  intro _
  obtain ⟨w, hw, hrow, f1, f2, f3, f4, f5, f6, f7, f8, f9, f10⟩ := encMultiply_word c 0b111#3 sf
      rdHi rdLo rs rm
  change bit w 23 = true at f2
  change bit w 22 = true at f3
  change bit w 21 = true at f4
  have hr : ∀ a0 : Bool, armRowOf false false false false true true true a0 true false false true
      = 2 := by decide
  change decodeCode (encMultiply c 0b111#3 sf rdHi rdLo rs rm) = _
  rw [hw, decodeCode, decodeArm_word, hrow.trans (hr _)]
  simp [armBody, decodeMultiply, f1, f2, f3, f4, f5, f6, f7, f8, f9, f10, Cond.ofBits_bits]

theorem swp (c : Cond) (rn : Reg) (rd : Reg) (rm : Reg) : Statement (.swp c rn rd rm) := by
  intro _
  obtain ⟨w, hw, hrow, f1, f2, f3, f4, f5⟩ := encSwap_word c false rn rd rm
  have hr : armRowOf false false false true false false false false true false false true = 3 :=
      by decide
  change decodeCode (encSwap c false rn rd rm) = _
  rw [hw, decodeCode, decodeArm_word, hrow.trans (hr)]
  simp [armBody, f1, f2, f3, f4, f5, Cond.ofBits_bits]

theorem swpb (c : Cond) (rn : Reg) (rd : Reg) (rm : Reg) : Statement (.swpb c rn rd rm) := by
  intro _
  obtain ⟨w, hw, hrow, f1, f2, f3, f4, f5⟩ := encSwap_word c true rn rd rm
  have hr : armRowOf false false false true false true false false true false false true = 3 := by
      decide
  change decodeCode (encSwap c true rn rd rm) = _
  rw [hw, decodeCode, decodeArm_word, hrow.trans (hr)]
  simp [armBody, f1, f2, f3, f4, f5, Cond.ofBits_bits]

theorem strhReg (c : Cond) (p : Bool) (u : Bool) (w : Bool) (rn : Reg) (rd : Reg) (rm : Reg) :
    Statement (.strhReg c p u w rn rd rm) := by
  intro _
  obtain ⟨v, hw, hrow, f1, f2, f3, f4, f5, f6, f7, f8, f9, f10, f11, f12, f13, f14⟩ :=
      encHalfword_word c p u false w false false true rn rd 0 (regBits rm)
  have hr : ∀ a0 a1 a2 : Bool, armRowOf false false false a0 a1 false a2 false true false true
      true = 4 := by decide
  change decodeCode (encHalfword c p u false w false false true rn rd 0 (regBits rm)) = _
  rw [hw, decodeCode, decodeArm_word, hrow.trans (hr _ _ _)]
  simp [armBody, decodeHalfword, f1, f2, f3, f4, f5, f6, f7, f8, f9, f10, f11, f12, f13, f14,
      Cond.ofBits_bits, toFin_regBits]

theorem ldrhReg (c : Cond) (p : Bool) (u : Bool) (w : Bool) (rn : Reg) (rd : Reg) (rm : Reg) :
    Statement (.ldrhReg c p u w rn rd rm) := by
  intro _
  obtain ⟨v, hw, hrow, f1, f2, f3, f4, f5, f6, f7, f8, f9, f10, f11, f12, f13, f14⟩ :=
      encHalfword_word c p u false w true false true rn rd 0 (regBits rm)
  have hr : ∀ a0 a1 a2 : Bool, armRowOf false false false a0 a1 false a2 true true false true true
      = 4 := by decide
  change decodeCode (encHalfword c p u false w true false true rn rd 0 (regBits rm)) = _
  rw [hw, decodeCode, decodeArm_word, hrow.trans (hr _ _ _)]
  simp [armBody, decodeHalfword, f1, f2, f3, f4, f5, f6, f7, f8, f9, f10, f11, f12, f13, f14,
      Cond.ofBits_bits, toFin_regBits]

theorem ldrsbReg (c : Cond) (p : Bool) (u : Bool) (w : Bool) (rn : Reg) (rd : Reg) (rm : Reg) :
    Statement (.ldrsbReg c p u w rn rd rm) := by
  intro _
  obtain ⟨v, hw, hrow, f1, f2, f3, f4, f5, f6, f7, f8, f9, f10, f11, f12, f13, f14⟩ :=
      encHalfword_word c p u false w true true false rn rd 0 (regBits rm)
  have hr : ∀ a0 a1 a2 : Bool, armRowOf false false false a0 a1 false a2 true true true false true
      = 4 := by decide
  change decodeCode (encHalfword c p u false w true true false rn rd 0 (regBits rm)) = _
  rw [hw, decodeCode, decodeArm_word, hrow.trans (hr _ _ _)]
  simp [armBody, decodeHalfword, f1, f2, f3, f4, f5, f6, f7, f8, f9, f10, f11, f12, f13, f14,
      Cond.ofBits_bits, toFin_regBits]

theorem ldrshReg (c : Cond) (p : Bool) (u : Bool) (w : Bool) (rn : Reg) (rd : Reg) (rm : Reg) :
    Statement (.ldrshReg c p u w rn rd rm) := by
  intro _
  obtain ⟨v, hw, hrow, f1, f2, f3, f4, f5, f6, f7, f8, f9, f10, f11, f12, f13, f14⟩ :=
      encHalfword_word c p u false w true true true rn rd 0 (regBits rm)
  have hr : ∀ a0 a1 a2 : Bool, armRowOf false false false a0 a1 false a2 true true true true true
      = 4 := by decide
  change decodeCode (encHalfword c p u false w true true true rn rd 0 (regBits rm)) = _
  rw [hw, decodeCode, decodeArm_word, hrow.trans (hr _ _ _)]
  simp [armBody, decodeHalfword, f1, f2, f3, f4, f5, f6, f7, f8, f9, f10, f11, f12, f13, f14,
      Cond.ofBits_bits, toFin_regBits]

theorem strhImm (c : Cond) (p : Bool) (u : Bool) (w : Bool) (rn : Reg) (rd : Reg) (immH : BitVec
    4) (immL : BitVec 4) : Statement (.strhImm c p u w rn rd immH immL) := by
  intro _
  obtain ⟨v, hw, hrow, f1, f2, f3, f4, f5, f6, f7, f8, f9, f10, f11, f12, f13, f14⟩ :=
      encHalfword_word c p u true w false false true rn rd immH immL
  have hr : ∀ a0 a1 a2 : Bool, armRowOf false false false a0 a1 true a2 false true false true true
      = 4 := by decide
  change decodeCode (encHalfword c p u true w false false true rn rd immH immL) = _
  rw [hw, decodeCode, decodeArm_word, hrow.trans (hr _ _ _)]
  simp [armBody, decodeHalfword, f1, f2, f3, f4, f5, f6, f7, f8, f9, f10, f11, f12, f13, f14,
      Cond.ofBits_bits, toFin_regBits]

theorem ldrhImm (c : Cond) (p : Bool) (u : Bool) (w : Bool) (rn : Reg) (rd : Reg) (immH : BitVec
    4) (immL : BitVec 4) : Statement (.ldrhImm c p u w rn rd immH immL) := by
  intro _
  obtain ⟨v, hw, hrow, f1, f2, f3, f4, f5, f6, f7, f8, f9, f10, f11, f12, f13, f14⟩ :=
      encHalfword_word c p u true w true false true rn rd immH immL
  have hr : ∀ a0 a1 a2 : Bool, armRowOf false false false a0 a1 true a2 true true false true true
      = 4 := by decide
  change decodeCode (encHalfword c p u true w true false true rn rd immH immL) = _
  rw [hw, decodeCode, decodeArm_word, hrow.trans (hr _ _ _)]
  simp [armBody, decodeHalfword, f1, f2, f3, f4, f5, f6, f7, f8, f9, f10, f11, f12, f13, f14,
      Cond.ofBits_bits, toFin_regBits]

theorem ldrsbImm (c : Cond) (p : Bool) (u : Bool) (w : Bool) (rn : Reg) (rd : Reg) (immH : BitVec
    4) (immL : BitVec 4) : Statement (.ldrsbImm c p u w rn rd immH immL) := by
  intro _
  obtain ⟨v, hw, hrow, f1, f2, f3, f4, f5, f6, f7, f8, f9, f10, f11, f12, f13, f14⟩ :=
      encHalfword_word c p u true w true true false rn rd immH immL
  have hr : ∀ a0 a1 a2 : Bool, armRowOf false false false a0 a1 true a2 true true true false true
      = 4 := by decide
  change decodeCode (encHalfword c p u true w true true false rn rd immH immL) = _
  rw [hw, decodeCode, decodeArm_word, hrow.trans (hr _ _ _)]
  simp [armBody, decodeHalfword, f1, f2, f3, f4, f5, f6, f7, f8, f9, f10, f11, f12, f13, f14,
      Cond.ofBits_bits, toFin_regBits]

theorem ldrshImm (c : Cond) (p : Bool) (u : Bool) (w : Bool) (rn : Reg) (rd : Reg) (immH : BitVec
    4) (immL : BitVec 4) : Statement (.ldrshImm c p u w rn rd immH immL) := by
  intro _
  obtain ⟨v, hw, hrow, f1, f2, f3, f4, f5, f6, f7, f8, f9, f10, f11, f12, f13, f14⟩ :=
      encHalfword_word c p u true w true true true rn rd immH immL
  have hr : ∀ a0 a1 a2 : Bool, armRowOf false false false a0 a1 true a2 true true true true true =
      4 := by decide
  change decodeCode (encHalfword c p u true w true true true rn rd immH immL) = _
  rw [hw, decodeCode, decodeArm_word, hrow.trans (hr _ _ _)]
  simp [armBody, decodeHalfword, f1, f2, f3, f4, f5, f6, f7, f8, f9, f10, f11, f12, f13, f14,
      Cond.ofBits_bits, toFin_regBits]

theorem undefMul (c : Cond) : Statement (.undefMul c) := by
  intro _
  obtain ⟨w, hw, hrow, f1⟩ := enc_undefMul c
  have hr : armRowOf false false false false false false false false true true false true = 5 :=
      by decide
  rw [hw, decodeCode, decodeArm_word, hrow.trans (hr)]
  simp [armBody, f1, Cond.ofBits_bits]

theorem mrs (c : Cond) (r : Bool) (rd : Reg) : Statement (.mrs c r rd) := by
  intro _
  obtain ⟨w, hw, hrow, f1, f2, f3⟩ := enc_mrs c r rd
  have hr : ∀ a0 : Bool, armRowOf false false false true false a0 false false false false false
      false = 6 := by decide
  rw [hw, decodeCode, decodeArm_word, hrow.trans (hr _)]
  simp [armBody, f1, f2, f3, Cond.ofBits_bits]

theorem msrReg (c : Cond) (r : Bool) (fm : BitVec 4) (rm : Reg) : Statement (.msrReg c r fm rm) :=
    by
  intro _
  obtain ⟨w, hw, hrow, f1, f2, f3, f4⟩ := enc_msrReg c r fm rm
  have hr : ∀ a0 : Bool, armRowOf false false false true false a0 true false false false false
      false = 7 := by decide
  rw [hw, decodeCode, decodeArm_word, hrow.trans (hr _)]
  simp [armBody, f1, f2, f3, f4, Cond.ofBits_bits]

theorem undefMisc (c : Cond) : Statement (.undefMisc c) := by
  intro _
  obtain ⟨w, hw, hrow, f1⟩ := enc_undefMisc c
  have hr : armRowOf false false false true false false false false false false true false = 8 :=
      by decide
  rw [hw, decodeCode, decodeArm_word, hrow.trans (hr)]
  simp [armBody, f1, Cond.ofBits_bits]

theorem msrImm (c : Cond) (r : Bool) (fm : BitVec 4) (rot : BitVec 4) (imm : BitVec 8) : Statement
    (.msrImm c r fm rot imm) := by
  intro _
  obtain ⟨w, hw, hrow, f1, f2, f3, f4, f5⟩ := enc_msrImm c r fm rot imm
  have hr : ∀ a0 a1 a2 a3 a4 : Bool, armRowOf false false true true false a0 true false a1 a2 a3
      a4 = 9 := by decide
  rw [hw, decodeCode, decodeArm_word, hrow.trans (hr _ _ _ _ _)]
  simp [armBody, f1, f2, f3, f4, f5, Cond.ofBits_bits]

theorem undefMsrImm (c : Cond) : Statement (.undefMsrImm c) := by
  intro _
  obtain ⟨w, hw, hrow, f1⟩ := enc_undefMsrImm c
  have hr : armRowOf false false true true false false false false false false false false = 10 :=
      by decide
  rw [hw, decodeCode, decodeArm_word, hrow.trans (hr)]
  simp [armBody, f1, Cond.ofBits_bits]

theorem andShiftImm (c : Cond) (sf : Bool) (rn : Reg) (rd : Reg) (imm : BitVec 5) (sh : Shift) (rm
    : Reg) : Statement (.andShiftImm c sf rn rd imm sh rm) := by
  intro _
  obtain ⟨w, hw, hrow, f1, f2, f3, f4, f5, f6, f7, f8⟩ := encDpShiftImm_word c 0b0000#4 sf rn rd
      imm sh rm
  have hr : ∀ a0 a1 a2 a3 : Bool, armRowOf false false false false false false false a0 a1 a2 a3
      false = 11 := by decide
  change decodeCode (encDpShiftImm c 0b0000#4 sf rn rd imm sh rm) = _
  rw [hw, decodeCode, decodeArm_word, hrow.trans (hr _ _ _ _)]
  simp [armBody, decodeDpShiftImm, f1, f2, f3, f4, f5, f6, f7, f8, Cond.ofBits_bits,
      Shift.ofBits_bits]

theorem eorShiftImm (c : Cond) (sf : Bool) (rn : Reg) (rd : Reg) (imm : BitVec 5) (sh : Shift) (rm
    : Reg) : Statement (.eorShiftImm c sf rn rd imm sh rm) := by
  intro _
  obtain ⟨w, hw, hrow, f1, f2, f3, f4, f5, f6, f7, f8⟩ := encDpShiftImm_word c 0b0001#4 sf rn rd
      imm sh rm
  have hr : ∀ a0 a1 a2 a3 : Bool, armRowOf false false false false false false true a0 a1 a2 a3
      false = 11 := by decide
  change decodeCode (encDpShiftImm c 0b0001#4 sf rn rd imm sh rm) = _
  rw [hw, decodeCode, decodeArm_word, hrow.trans (hr _ _ _ _)]
  simp [armBody, decodeDpShiftImm, f1, f2, f3, f4, f5, f6, f7, f8, Cond.ofBits_bits,
      Shift.ofBits_bits]

theorem subShiftImm (c : Cond) (sf : Bool) (rn : Reg) (rd : Reg) (imm : BitVec 5) (sh : Shift) (rm
    : Reg) : Statement (.subShiftImm c sf rn rd imm sh rm) := by
  intro _
  obtain ⟨w, hw, hrow, f1, f2, f3, f4, f5, f6, f7, f8⟩ := encDpShiftImm_word c 0b0010#4 sf rn rd
      imm sh rm
  have hr : ∀ a0 a1 a2 a3 : Bool, armRowOf false false false false false true false a0 a1 a2 a3
      false = 11 := by decide
  change decodeCode (encDpShiftImm c 0b0010#4 sf rn rd imm sh rm) = _
  rw [hw, decodeCode, decodeArm_word, hrow.trans (hr _ _ _ _)]
  simp [armBody, decodeDpShiftImm, f1, f2, f3, f4, f5, f6, f7, f8, Cond.ofBits_bits,
      Shift.ofBits_bits]

theorem rsbShiftImm (c : Cond) (sf : Bool) (rn : Reg) (rd : Reg) (imm : BitVec 5) (sh : Shift) (rm
    : Reg) : Statement (.rsbShiftImm c sf rn rd imm sh rm) := by
  intro _
  obtain ⟨w, hw, hrow, f1, f2, f3, f4, f5, f6, f7, f8⟩ := encDpShiftImm_word c 0b0011#4 sf rn rd
      imm sh rm
  have hr : ∀ a0 a1 a2 a3 : Bool, armRowOf false false false false false true true a0 a1 a2 a3
      false = 11 := by decide
  change decodeCode (encDpShiftImm c 0b0011#4 sf rn rd imm sh rm) = _
  rw [hw, decodeCode, decodeArm_word, hrow.trans (hr _ _ _ _)]
  simp [armBody, decodeDpShiftImm, f1, f2, f3, f4, f5, f6, f7, f8, Cond.ofBits_bits,
      Shift.ofBits_bits]

theorem addShiftImm (c : Cond) (sf : Bool) (rn : Reg) (rd : Reg) (imm : BitVec 5) (sh : Shift) (rm
    : Reg) : Statement (.addShiftImm c sf rn rd imm sh rm) := by
  intro _
  obtain ⟨w, hw, hrow, f1, f2, f3, f4, f5, f6, f7, f8⟩ := encDpShiftImm_word c 0b0100#4 sf rn rd
      imm sh rm
  have hr : ∀ a0 a1 a2 a3 : Bool, armRowOf false false false false true false false a0 a1 a2 a3
      false = 11 := by decide
  change decodeCode (encDpShiftImm c 0b0100#4 sf rn rd imm sh rm) = _
  rw [hw, decodeCode, decodeArm_word, hrow.trans (hr _ _ _ _)]
  simp [armBody, decodeDpShiftImm, f1, f2, f3, f4, f5, f6, f7, f8, Cond.ofBits_bits,
      Shift.ofBits_bits]

theorem adcShiftImm (c : Cond) (sf : Bool) (rn : Reg) (rd : Reg) (imm : BitVec 5) (sh : Shift) (rm
    : Reg) : Statement (.adcShiftImm c sf rn rd imm sh rm) := by
  intro _
  obtain ⟨w, hw, hrow, f1, f2, f3, f4, f5, f6, f7, f8⟩ := encDpShiftImm_word c 0b0101#4 sf rn rd
      imm sh rm
  have hr : ∀ a0 a1 a2 a3 : Bool, armRowOf false false false false true false true a0 a1 a2 a3
      false = 11 := by decide
  change decodeCode (encDpShiftImm c 0b0101#4 sf rn rd imm sh rm) = _
  rw [hw, decodeCode, decodeArm_word, hrow.trans (hr _ _ _ _)]
  simp [armBody, decodeDpShiftImm, f1, f2, f3, f4, f5, f6, f7, f8, Cond.ofBits_bits,
      Shift.ofBits_bits]

theorem sbcShiftImm (c : Cond) (sf : Bool) (rn : Reg) (rd : Reg) (imm : BitVec 5) (sh : Shift) (rm
    : Reg) : Statement (.sbcShiftImm c sf rn rd imm sh rm) := by
  intro _
  obtain ⟨w, hw, hrow, f1, f2, f3, f4, f5, f6, f7, f8⟩ := encDpShiftImm_word c 0b0110#4 sf rn rd
      imm sh rm
  have hr : ∀ a0 a1 a2 a3 : Bool, armRowOf false false false false true true false a0 a1 a2 a3
      false = 11 := by decide
  change decodeCode (encDpShiftImm c 0b0110#4 sf rn rd imm sh rm) = _
  rw [hw, decodeCode, decodeArm_word, hrow.trans (hr _ _ _ _)]
  simp [armBody, decodeDpShiftImm, f1, f2, f3, f4, f5, f6, f7, f8, Cond.ofBits_bits,
      Shift.ofBits_bits]

theorem rscShiftImm (c : Cond) (sf : Bool) (rn : Reg) (rd : Reg) (imm : BitVec 5) (sh : Shift) (rm
    : Reg) : Statement (.rscShiftImm c sf rn rd imm sh rm) := by
  intro _
  obtain ⟨w, hw, hrow, f1, f2, f3, f4, f5, f6, f7, f8⟩ := encDpShiftImm_word c 0b0111#4 sf rn rd
      imm sh rm
  have hr : ∀ a0 a1 a2 a3 : Bool, armRowOf false false false false true true true a0 a1 a2 a3
      false = 11 := by decide
  change decodeCode (encDpShiftImm c 0b0111#4 sf rn rd imm sh rm) = _
  rw [hw, decodeCode, decodeArm_word, hrow.trans (hr _ _ _ _)]
  simp [armBody, decodeDpShiftImm, f1, f2, f3, f4, f5, f6, f7, f8, Cond.ofBits_bits,
      Shift.ofBits_bits]

theorem tstShiftImm (c : Cond) (rn : Reg) (rd : Reg) (imm : BitVec 5) (sh : Shift) (rm : Reg) :
    Statement (.tstShiftImm c rn rd imm sh rm) := by
  intro _
  obtain ⟨w, hw, hrow, f1, f2, f3, f4, f5, f6, f7, f8⟩ := encDpShiftImm_word c 0b1000#4 true rn rd
      imm sh rm
  have hr : ∀ a0 a1 a2 : Bool, armRowOf false false false true false false false true a0 a1 a2
      false = 11 := by decide
  change decodeCode (encDpShiftImm c 0b1000#4 true rn rd imm sh rm) = _
  rw [hw, decodeCode, decodeArm_word, hrow.trans (hr _ _ _)]
  simp [armBody, decodeDpShiftImm, f1, f2, f3, f4, f5, f6, f7, f8, Cond.ofBits_bits,
      Shift.ofBits_bits]

theorem teqShiftImm (c : Cond) (rn : Reg) (rd : Reg) (imm : BitVec 5) (sh : Shift) (rm : Reg) :
    Statement (.teqShiftImm c rn rd imm sh rm) := by
  intro _
  obtain ⟨w, hw, hrow, f1, f2, f3, f4, f5, f6, f7, f8⟩ := encDpShiftImm_word c 0b1001#4 true rn rd
      imm sh rm
  have hr : ∀ a0 a1 a2 : Bool, armRowOf false false false true false false true true a0 a1 a2
      false = 11 := by decide
  change decodeCode (encDpShiftImm c 0b1001#4 true rn rd imm sh rm) = _
  rw [hw, decodeCode, decodeArm_word, hrow.trans (hr _ _ _)]
  simp [armBody, decodeDpShiftImm, f1, f2, f3, f4, f5, f6, f7, f8, Cond.ofBits_bits,
      Shift.ofBits_bits]

theorem cmpShiftImm (c : Cond) (rn : Reg) (rd : Reg) (imm : BitVec 5) (sh : Shift) (rm : Reg) :
    Statement (.cmpShiftImm c rn rd imm sh rm) := by
  intro _
  obtain ⟨w, hw, hrow, f1, f2, f3, f4, f5, f6, f7, f8⟩ := encDpShiftImm_word c 0b1010#4 true rn rd
      imm sh rm
  have hr : ∀ a0 a1 a2 : Bool, armRowOf false false false true false true false true a0 a1 a2
      false = 11 := by decide
  change decodeCode (encDpShiftImm c 0b1010#4 true rn rd imm sh rm) = _
  rw [hw, decodeCode, decodeArm_word, hrow.trans (hr _ _ _)]
  simp [armBody, decodeDpShiftImm, f1, f2, f3, f4, f5, f6, f7, f8, Cond.ofBits_bits,
      Shift.ofBits_bits]

theorem cmnShiftImm (c : Cond) (rn : Reg) (rd : Reg) (imm : BitVec 5) (sh : Shift) (rm : Reg) :
    Statement (.cmnShiftImm c rn rd imm sh rm) := by
  intro _
  obtain ⟨w, hw, hrow, f1, f2, f3, f4, f5, f6, f7, f8⟩ := encDpShiftImm_word c 0b1011#4 true rn rd
      imm sh rm
  have hr : ∀ a0 a1 a2 : Bool, armRowOf false false false true false true true true a0 a1 a2 false
      = 11 := by decide
  change decodeCode (encDpShiftImm c 0b1011#4 true rn rd imm sh rm) = _
  rw [hw, decodeCode, decodeArm_word, hrow.trans (hr _ _ _)]
  simp [armBody, decodeDpShiftImm, f1, f2, f3, f4, f5, f6, f7, f8, Cond.ofBits_bits,
      Shift.ofBits_bits]

theorem orrShiftImm (c : Cond) (sf : Bool) (rn : Reg) (rd : Reg) (imm : BitVec 5) (sh : Shift) (rm
    : Reg) : Statement (.orrShiftImm c sf rn rd imm sh rm) := by
  intro _
  obtain ⟨w, hw, hrow, f1, f2, f3, f4, f5, f6, f7, f8⟩ := encDpShiftImm_word c 0b1100#4 sf rn rd
      imm sh rm
  have hr : ∀ a0 a1 a2 a3 : Bool, armRowOf false false false true true false false a0 a1 a2 a3
      false = 11 := by decide
  change decodeCode (encDpShiftImm c 0b1100#4 sf rn rd imm sh rm) = _
  rw [hw, decodeCode, decodeArm_word, hrow.trans (hr _ _ _ _)]
  simp [armBody, decodeDpShiftImm, f1, f2, f3, f4, f5, f6, f7, f8, Cond.ofBits_bits,
      Shift.ofBits_bits]

theorem movShiftImm (c : Cond) (sf : Bool) (rd : Reg) (imm : BitVec 5) (sh : Shift) (rm : Reg) :
    Statement (.movShiftImm c sf rd imm sh rm) := by
  intro _
  obtain ⟨w, hw, hrow, f1, f2, f3, f4, f5, f6, f7, f8⟩ := encDpShiftImm_word c 0b1101#4 sf 0 rd
      imm sh rm
  have hr : ∀ a0 a1 a2 a3 : Bool, armRowOf false false false true true false true a0 a1 a2 a3
      false = 11 := by decide
  change decodeCode (encDpShiftImm c 0b1101#4 sf 0 rd imm sh rm) = _
  rw [hw, decodeCode, decodeArm_word, hrow.trans (hr _ _ _ _)]
  simp [armBody, decodeDpShiftImm, f1, f2, f3, f4, f5, f6, f7, f8, Cond.ofBits_bits,
      Shift.ofBits_bits]

theorem bicShiftImm (c : Cond) (sf : Bool) (rn : Reg) (rd : Reg) (imm : BitVec 5) (sh : Shift) (rm
    : Reg) : Statement (.bicShiftImm c sf rn rd imm sh rm) := by
  intro _
  obtain ⟨w, hw, hrow, f1, f2, f3, f4, f5, f6, f7, f8⟩ := encDpShiftImm_word c 0b1110#4 sf rn rd
      imm sh rm
  have hr : ∀ a0 a1 a2 a3 : Bool, armRowOf false false false true true true false a0 a1 a2 a3
      false = 11 := by decide
  change decodeCode (encDpShiftImm c 0b1110#4 sf rn rd imm sh rm) = _
  rw [hw, decodeCode, decodeArm_word, hrow.trans (hr _ _ _ _)]
  simp [armBody, decodeDpShiftImm, f1, f2, f3, f4, f5, f6, f7, f8, Cond.ofBits_bits,
      Shift.ofBits_bits]

theorem mvnShiftImm (c : Cond) (sf : Bool) (rd : Reg) (imm : BitVec 5) (sh : Shift) (rm : Reg) :
    Statement (.mvnShiftImm c sf rd imm sh rm) := by
  intro _
  obtain ⟨w, hw, hrow, f1, f2, f3, f4, f5, f6, f7, f8⟩ := encDpShiftImm_word c 0b1111#4 sf 0 rd
      imm sh rm
  have hr : ∀ a0 a1 a2 a3 : Bool, armRowOf false false false true true true true a0 a1 a2 a3 false
      = 11 := by decide
  change decodeCode (encDpShiftImm c 0b1111#4 sf 0 rd imm sh rm) = _
  rw [hw, decodeCode, decodeArm_word, hrow.trans (hr _ _ _ _)]
  simp [armBody, decodeDpShiftImm, f1, f2, f3, f4, f5, f6, f7, f8, Cond.ofBits_bits,
      Shift.ofBits_bits]

theorem andShiftReg (c : Cond) (sf : Bool) (rn : Reg) (rd : Reg) (rs : Reg) (sh : Shift) (rm :
    Reg) : Statement (.andShiftReg c sf rn rd rs sh rm) := by
  intro _
  obtain ⟨w, hw, hrow, f1, f2, f3, f4, f5, f6, f7, f8⟩ := encDpShiftReg_word c 0b0000#4 sf rn rd
      rs sh rm
  have hr : ∀ a0 a1 a2 : Bool, armRowOf false false false false false false false a0 false a1 a2
      true = 12 := by decide
  change decodeCode (encDpShiftReg c 0b0000#4 sf rn rd rs sh rm) = _
  rw [hw, decodeCode, decodeArm_word, hrow.trans (hr _ _ _)]
  simp [armBody, decodeDpShiftReg, f1, f2, f3, f4, f5, f6, f7, f8, Cond.ofBits_bits,
      Shift.ofBits_bits]

theorem eorShiftReg (c : Cond) (sf : Bool) (rn : Reg) (rd : Reg) (rs : Reg) (sh : Shift) (rm :
    Reg) : Statement (.eorShiftReg c sf rn rd rs sh rm) := by
  intro _
  obtain ⟨w, hw, hrow, f1, f2, f3, f4, f5, f6, f7, f8⟩ := encDpShiftReg_word c 0b0001#4 sf rn rd
      rs sh rm
  have hr : ∀ a0 a1 a2 : Bool, armRowOf false false false false false false true a0 false a1 a2
      true = 12 := by decide
  change decodeCode (encDpShiftReg c 0b0001#4 sf rn rd rs sh rm) = _
  rw [hw, decodeCode, decodeArm_word, hrow.trans (hr _ _ _)]
  simp [armBody, decodeDpShiftReg, f1, f2, f3, f4, f5, f6, f7, f8, Cond.ofBits_bits,
      Shift.ofBits_bits]

theorem subShiftReg (c : Cond) (sf : Bool) (rn : Reg) (rd : Reg) (rs : Reg) (sh : Shift) (rm :
    Reg) : Statement (.subShiftReg c sf rn rd rs sh rm) := by
  intro _
  obtain ⟨w, hw, hrow, f1, f2, f3, f4, f5, f6, f7, f8⟩ := encDpShiftReg_word c 0b0010#4 sf rn rd
      rs sh rm
  have hr : ∀ a0 a1 a2 : Bool, armRowOf false false false false false true false a0 false a1 a2
      true = 12 := by decide
  change decodeCode (encDpShiftReg c 0b0010#4 sf rn rd rs sh rm) = _
  rw [hw, decodeCode, decodeArm_word, hrow.trans (hr _ _ _)]
  simp [armBody, decodeDpShiftReg, f1, f2, f3, f4, f5, f6, f7, f8, Cond.ofBits_bits,
      Shift.ofBits_bits]

theorem rsbShiftReg (c : Cond) (sf : Bool) (rn : Reg) (rd : Reg) (rs : Reg) (sh : Shift) (rm :
    Reg) : Statement (.rsbShiftReg c sf rn rd rs sh rm) := by
  intro _
  obtain ⟨w, hw, hrow, f1, f2, f3, f4, f5, f6, f7, f8⟩ := encDpShiftReg_word c 0b0011#4 sf rn rd
      rs sh rm
  have hr : ∀ a0 a1 a2 : Bool, armRowOf false false false false false true true a0 false a1 a2
      true = 12 := by decide
  change decodeCode (encDpShiftReg c 0b0011#4 sf rn rd rs sh rm) = _
  rw [hw, decodeCode, decodeArm_word, hrow.trans (hr _ _ _)]
  simp [armBody, decodeDpShiftReg, f1, f2, f3, f4, f5, f6, f7, f8, Cond.ofBits_bits,
      Shift.ofBits_bits]

theorem addShiftReg (c : Cond) (sf : Bool) (rn : Reg) (rd : Reg) (rs : Reg) (sh : Shift) (rm :
    Reg) : Statement (.addShiftReg c sf rn rd rs sh rm) := by
  intro _
  obtain ⟨w, hw, hrow, f1, f2, f3, f4, f5, f6, f7, f8⟩ := encDpShiftReg_word c 0b0100#4 sf rn rd
      rs sh rm
  have hr : ∀ a0 a1 a2 : Bool, armRowOf false false false false true false false a0 false a1 a2
      true = 12 := by decide
  change decodeCode (encDpShiftReg c 0b0100#4 sf rn rd rs sh rm) = _
  rw [hw, decodeCode, decodeArm_word, hrow.trans (hr _ _ _)]
  simp [armBody, decodeDpShiftReg, f1, f2, f3, f4, f5, f6, f7, f8, Cond.ofBits_bits,
      Shift.ofBits_bits]

theorem adcShiftReg (c : Cond) (sf : Bool) (rn : Reg) (rd : Reg) (rs : Reg) (sh : Shift) (rm :
    Reg) : Statement (.adcShiftReg c sf rn rd rs sh rm) := by
  intro _
  obtain ⟨w, hw, hrow, f1, f2, f3, f4, f5, f6, f7, f8⟩ := encDpShiftReg_word c 0b0101#4 sf rn rd
      rs sh rm
  have hr : ∀ a0 a1 a2 : Bool, armRowOf false false false false true false true a0 false a1 a2
      true = 12 := by decide
  change decodeCode (encDpShiftReg c 0b0101#4 sf rn rd rs sh rm) = _
  rw [hw, decodeCode, decodeArm_word, hrow.trans (hr _ _ _)]
  simp [armBody, decodeDpShiftReg, f1, f2, f3, f4, f5, f6, f7, f8, Cond.ofBits_bits,
      Shift.ofBits_bits]

theorem sbcShiftReg (c : Cond) (sf : Bool) (rn : Reg) (rd : Reg) (rs : Reg) (sh : Shift) (rm :
    Reg) : Statement (.sbcShiftReg c sf rn rd rs sh rm) := by
  intro _
  obtain ⟨w, hw, hrow, f1, f2, f3, f4, f5, f6, f7, f8⟩ := encDpShiftReg_word c 0b0110#4 sf rn rd
      rs sh rm
  have hr : ∀ a0 a1 a2 : Bool, armRowOf false false false false true true false a0 false a1 a2
      true = 12 := by decide
  change decodeCode (encDpShiftReg c 0b0110#4 sf rn rd rs sh rm) = _
  rw [hw, decodeCode, decodeArm_word, hrow.trans (hr _ _ _)]
  simp [armBody, decodeDpShiftReg, f1, f2, f3, f4, f5, f6, f7, f8, Cond.ofBits_bits,
      Shift.ofBits_bits]

theorem rscShiftReg (c : Cond) (sf : Bool) (rn : Reg) (rd : Reg) (rs : Reg) (sh : Shift) (rm :
    Reg) : Statement (.rscShiftReg c sf rn rd rs sh rm) := by
  intro _
  obtain ⟨w, hw, hrow, f1, f2, f3, f4, f5, f6, f7, f8⟩ := encDpShiftReg_word c 0b0111#4 sf rn rd
      rs sh rm
  have hr : ∀ a0 a1 a2 : Bool, armRowOf false false false false true true true a0 false a1 a2 true
      = 12 := by decide
  change decodeCode (encDpShiftReg c 0b0111#4 sf rn rd rs sh rm) = _
  rw [hw, decodeCode, decodeArm_word, hrow.trans (hr _ _ _)]
  simp [armBody, decodeDpShiftReg, f1, f2, f3, f4, f5, f6, f7, f8, Cond.ofBits_bits,
      Shift.ofBits_bits]

theorem tstShiftReg (c : Cond) (rn : Reg) (rd : Reg) (rs : Reg) (sh : Shift) (rm : Reg) :
    Statement (.tstShiftReg c rn rd rs sh rm) := by
  intro _
  obtain ⟨w, hw, hrow, f1, f2, f3, f4, f5, f6, f7, f8⟩ := encDpShiftReg_word c 0b1000#4 true rn rd
      rs sh rm
  have hr : ∀ a0 a1 : Bool, armRowOf false false false true false false false true false a0 a1
      true = 12 := by decide
  change decodeCode (encDpShiftReg c 0b1000#4 true rn rd rs sh rm) = _
  rw [hw, decodeCode, decodeArm_word, hrow.trans (hr _ _)]
  simp [armBody, decodeDpShiftReg, f1, f2, f3, f4, f5, f6, f7, f8, Cond.ofBits_bits,
      Shift.ofBits_bits]

theorem teqShiftReg (c : Cond) (rn : Reg) (rd : Reg) (rs : Reg) (sh : Shift) (rm : Reg) :
    Statement (.teqShiftReg c rn rd rs sh rm) := by
  intro _
  obtain ⟨w, hw, hrow, f1, f2, f3, f4, f5, f6, f7, f8⟩ := encDpShiftReg_word c 0b1001#4 true rn rd
      rs sh rm
  have hr : ∀ a0 a1 : Bool, armRowOf false false false true false false true true false a0 a1 true
      = 12 := by decide
  change decodeCode (encDpShiftReg c 0b1001#4 true rn rd rs sh rm) = _
  rw [hw, decodeCode, decodeArm_word, hrow.trans (hr _ _)]
  simp [armBody, decodeDpShiftReg, f1, f2, f3, f4, f5, f6, f7, f8, Cond.ofBits_bits,
      Shift.ofBits_bits]

theorem cmpShiftReg (c : Cond) (rn : Reg) (rd : Reg) (rs : Reg) (sh : Shift) (rm : Reg) :
    Statement (.cmpShiftReg c rn rd rs sh rm) := by
  intro _
  obtain ⟨w, hw, hrow, f1, f2, f3, f4, f5, f6, f7, f8⟩ := encDpShiftReg_word c 0b1010#4 true rn rd
      rs sh rm
  have hr : ∀ a0 a1 : Bool, armRowOf false false false true false true false true false a0 a1 true
      = 12 := by decide
  change decodeCode (encDpShiftReg c 0b1010#4 true rn rd rs sh rm) = _
  rw [hw, decodeCode, decodeArm_word, hrow.trans (hr _ _)]
  simp [armBody, decodeDpShiftReg, f1, f2, f3, f4, f5, f6, f7, f8, Cond.ofBits_bits,
      Shift.ofBits_bits]

theorem cmnShiftReg (c : Cond) (rn : Reg) (rd : Reg) (rs : Reg) (sh : Shift) (rm : Reg) :
    Statement (.cmnShiftReg c rn rd rs sh rm) := by
  intro _
  obtain ⟨w, hw, hrow, f1, f2, f3, f4, f5, f6, f7, f8⟩ := encDpShiftReg_word c 0b1011#4 true rn rd
      rs sh rm
  have hr : ∀ a0 a1 : Bool, armRowOf false false false true false true true true false a0 a1 true
      = 12 := by decide
  change decodeCode (encDpShiftReg c 0b1011#4 true rn rd rs sh rm) = _
  rw [hw, decodeCode, decodeArm_word, hrow.trans (hr _ _)]
  simp [armBody, decodeDpShiftReg, f1, f2, f3, f4, f5, f6, f7, f8, Cond.ofBits_bits,
      Shift.ofBits_bits]

theorem orrShiftReg (c : Cond) (sf : Bool) (rn : Reg) (rd : Reg) (rs : Reg) (sh : Shift) (rm :
    Reg) : Statement (.orrShiftReg c sf rn rd rs sh rm) := by
  intro _
  obtain ⟨w, hw, hrow, f1, f2, f3, f4, f5, f6, f7, f8⟩ := encDpShiftReg_word c 0b1100#4 sf rn rd
      rs sh rm
  have hr : ∀ a0 a1 a2 : Bool, armRowOf false false false true true false false a0 false a1 a2
      true = 12 := by decide
  change decodeCode (encDpShiftReg c 0b1100#4 sf rn rd rs sh rm) = _
  rw [hw, decodeCode, decodeArm_word, hrow.trans (hr _ _ _)]
  simp [armBody, decodeDpShiftReg, f1, f2, f3, f4, f5, f6, f7, f8, Cond.ofBits_bits,
      Shift.ofBits_bits]

theorem movShiftReg (c : Cond) (sf : Bool) (rd : Reg) (rs : Reg) (sh : Shift) (rm : Reg) :
    Statement (.movShiftReg c sf rd rs sh rm) := by
  intro _
  obtain ⟨w, hw, hrow, f1, f2, f3, f4, f5, f6, f7, f8⟩ := encDpShiftReg_word c 0b1101#4 sf 0 rd rs
      sh rm
  have hr : ∀ a0 a1 a2 : Bool, armRowOf false false false true true false true a0 false a1 a2 true
      = 12 := by decide
  change decodeCode (encDpShiftReg c 0b1101#4 sf 0 rd rs sh rm) = _
  rw [hw, decodeCode, decodeArm_word, hrow.trans (hr _ _ _)]
  simp [armBody, decodeDpShiftReg, f1, f2, f3, f4, f5, f6, f7, f8, Cond.ofBits_bits,
      Shift.ofBits_bits]

theorem bicShiftReg (c : Cond) (sf : Bool) (rn : Reg) (rd : Reg) (rs : Reg) (sh : Shift) (rm :
    Reg) : Statement (.bicShiftReg c sf rn rd rs sh rm) := by
  intro _
  obtain ⟨w, hw, hrow, f1, f2, f3, f4, f5, f6, f7, f8⟩ := encDpShiftReg_word c 0b1110#4 sf rn rd
      rs sh rm
  have hr : ∀ a0 a1 a2 : Bool, armRowOf false false false true true true false a0 false a1 a2 true
      = 12 := by decide
  change decodeCode (encDpShiftReg c 0b1110#4 sf rn rd rs sh rm) = _
  rw [hw, decodeCode, decodeArm_word, hrow.trans (hr _ _ _)]
  simp [armBody, decodeDpShiftReg, f1, f2, f3, f4, f5, f6, f7, f8, Cond.ofBits_bits,
      Shift.ofBits_bits]

theorem mvnShiftReg (c : Cond) (sf : Bool) (rd : Reg) (rs : Reg) (sh : Shift) (rm : Reg) :
    Statement (.mvnShiftReg c sf rd rs sh rm) := by
  intro _
  obtain ⟨w, hw, hrow, f1, f2, f3, f4, f5, f6, f7, f8⟩ := encDpShiftReg_word c 0b1111#4 sf 0 rd rs
      sh rm
  have hr : ∀ a0 a1 a2 : Bool, armRowOf false false false true true true true a0 false a1 a2 true
      = 12 := by decide
  change decodeCode (encDpShiftReg c 0b1111#4 sf 0 rd rs sh rm) = _
  rw [hw, decodeCode, decodeArm_word, hrow.trans (hr _ _ _)]
  simp [armBody, decodeDpShiftReg, f1, f2, f3, f4, f5, f6, f7, f8, Cond.ofBits_bits,
      Shift.ofBits_bits]

theorem andImm (c : Cond) (sf : Bool) (rn : Reg) (rd : Reg) (rot : BitVec 4) (imm : BitVec 8) :
    Statement (.andImm c sf rn rd rot imm) := by
  intro _
  obtain ⟨w, hw, hrow, f1, f2, f3, f4, f5, f6, f7⟩ := encDpImm_word c 0b0000#4 sf rn rd rot imm
  have hr : ∀ a0 a1 a2 a3 a4 : Bool, armRowOf false false true false false false false a0 a1 a2 a3
      a4 = 13 := by decide
  change decodeCode (encDpImm c 0b0000#4 sf rn rd rot imm) = _
  rw [hw, decodeCode, decodeArm_word, hrow.trans (hr _ _ _ _ _)]
  simp [armBody, decodeDpImm, f1, f2, f3, f4, f5, f6, f7, Cond.ofBits_bits]

theorem eorImm (c : Cond) (sf : Bool) (rn : Reg) (rd : Reg) (rot : BitVec 4) (imm : BitVec 8) :
    Statement (.eorImm c sf rn rd rot imm) := by
  intro _
  obtain ⟨w, hw, hrow, f1, f2, f3, f4, f5, f6, f7⟩ := encDpImm_word c 0b0001#4 sf rn rd rot imm
  have hr : ∀ a0 a1 a2 a3 a4 : Bool, armRowOf false false true false false false true a0 a1 a2 a3
      a4 = 13 := by decide
  change decodeCode (encDpImm c 0b0001#4 sf rn rd rot imm) = _
  rw [hw, decodeCode, decodeArm_word, hrow.trans (hr _ _ _ _ _)]
  simp [armBody, decodeDpImm, f1, f2, f3, f4, f5, f6, f7, Cond.ofBits_bits]

theorem subImm (c : Cond) (sf : Bool) (rn : Reg) (rd : Reg) (rot : BitVec 4) (imm : BitVec 8) :
    Statement (.subImm c sf rn rd rot imm) := by
  intro _
  obtain ⟨w, hw, hrow, f1, f2, f3, f4, f5, f6, f7⟩ := encDpImm_word c 0b0010#4 sf rn rd rot imm
  have hr : ∀ a0 a1 a2 a3 a4 : Bool, armRowOf false false true false false true false a0 a1 a2 a3
      a4 = 13 := by decide
  change decodeCode (encDpImm c 0b0010#4 sf rn rd rot imm) = _
  rw [hw, decodeCode, decodeArm_word, hrow.trans (hr _ _ _ _ _)]
  simp [armBody, decodeDpImm, f1, f2, f3, f4, f5, f6, f7, Cond.ofBits_bits]

theorem rsbImm (c : Cond) (sf : Bool) (rn : Reg) (rd : Reg) (rot : BitVec 4) (imm : BitVec 8) :
    Statement (.rsbImm c sf rn rd rot imm) := by
  intro _
  obtain ⟨w, hw, hrow, f1, f2, f3, f4, f5, f6, f7⟩ := encDpImm_word c 0b0011#4 sf rn rd rot imm
  have hr : ∀ a0 a1 a2 a3 a4 : Bool, armRowOf false false true false false true true a0 a1 a2 a3
      a4 = 13 := by decide
  change decodeCode (encDpImm c 0b0011#4 sf rn rd rot imm) = _
  rw [hw, decodeCode, decodeArm_word, hrow.trans (hr _ _ _ _ _)]
  simp [armBody, decodeDpImm, f1, f2, f3, f4, f5, f6, f7, Cond.ofBits_bits]

theorem addImm (c : Cond) (sf : Bool) (rn : Reg) (rd : Reg) (rot : BitVec 4) (imm : BitVec 8) :
    Statement (.addImm c sf rn rd rot imm) := by
  intro _
  obtain ⟨w, hw, hrow, f1, f2, f3, f4, f5, f6, f7⟩ := encDpImm_word c 0b0100#4 sf rn rd rot imm
  have hr : ∀ a0 a1 a2 a3 a4 : Bool, armRowOf false false true false true false false a0 a1 a2 a3
      a4 = 13 := by decide
  change decodeCode (encDpImm c 0b0100#4 sf rn rd rot imm) = _
  rw [hw, decodeCode, decodeArm_word, hrow.trans (hr _ _ _ _ _)]
  simp [armBody, decodeDpImm, f1, f2, f3, f4, f5, f6, f7, Cond.ofBits_bits]

theorem adcImm (c : Cond) (sf : Bool) (rn : Reg) (rd : Reg) (rot : BitVec 4) (imm : BitVec 8) :
    Statement (.adcImm c sf rn rd rot imm) := by
  intro _
  obtain ⟨w, hw, hrow, f1, f2, f3, f4, f5, f6, f7⟩ := encDpImm_word c 0b0101#4 sf rn rd rot imm
  have hr : ∀ a0 a1 a2 a3 a4 : Bool, armRowOf false false true false true false true a0 a1 a2 a3
      a4 = 13 := by decide
  change decodeCode (encDpImm c 0b0101#4 sf rn rd rot imm) = _
  rw [hw, decodeCode, decodeArm_word, hrow.trans (hr _ _ _ _ _)]
  simp [armBody, decodeDpImm, f1, f2, f3, f4, f5, f6, f7, Cond.ofBits_bits]

theorem sbcImm (c : Cond) (sf : Bool) (rn : Reg) (rd : Reg) (rot : BitVec 4) (imm : BitVec 8) :
    Statement (.sbcImm c sf rn rd rot imm) := by
  intro _
  obtain ⟨w, hw, hrow, f1, f2, f3, f4, f5, f6, f7⟩ := encDpImm_word c 0b0110#4 sf rn rd rot imm
  have hr : ∀ a0 a1 a2 a3 a4 : Bool, armRowOf false false true false true true false a0 a1 a2 a3
      a4 = 13 := by decide
  change decodeCode (encDpImm c 0b0110#4 sf rn rd rot imm) = _
  rw [hw, decodeCode, decodeArm_word, hrow.trans (hr _ _ _ _ _)]
  simp [armBody, decodeDpImm, f1, f2, f3, f4, f5, f6, f7, Cond.ofBits_bits]

theorem rscImm (c : Cond) (sf : Bool) (rn : Reg) (rd : Reg) (rot : BitVec 4) (imm : BitVec 8) :
    Statement (.rscImm c sf rn rd rot imm) := by
  intro _
  obtain ⟨w, hw, hrow, f1, f2, f3, f4, f5, f6, f7⟩ := encDpImm_word c 0b0111#4 sf rn rd rot imm
  have hr : ∀ a0 a1 a2 a3 a4 : Bool, armRowOf false false true false true true true a0 a1 a2 a3 a4
      = 13 := by decide
  change decodeCode (encDpImm c 0b0111#4 sf rn rd rot imm) = _
  rw [hw, decodeCode, decodeArm_word, hrow.trans (hr _ _ _ _ _)]
  simp [armBody, decodeDpImm, f1, f2, f3, f4, f5, f6, f7, Cond.ofBits_bits]

theorem tstImm (c : Cond) (rn : Reg) (rd : Reg) (rot : BitVec 4) (imm : BitVec 8) : Statement
    (.tstImm c rn rd rot imm) := by
  intro _
  obtain ⟨w, hw, hrow, f1, f2, f3, f4, f5, f6, f7⟩ := encDpImm_word c 0b1000#4 true rn rd rot imm
  have hr : ∀ a0 a1 a2 a3 : Bool, armRowOf false false true true false false false true a0 a1 a2
      a3 = 13 := by decide
  change decodeCode (encDpImm c 0b1000#4 true rn rd rot imm) = _
  rw [hw, decodeCode, decodeArm_word, hrow.trans (hr _ _ _ _)]
  simp [armBody, decodeDpImm, f1, f2, f3, f4, f5, f6, f7, Cond.ofBits_bits]

theorem teqImm (c : Cond) (rn : Reg) (rd : Reg) (rot : BitVec 4) (imm : BitVec 8) : Statement
    (.teqImm c rn rd rot imm) := by
  intro _
  obtain ⟨w, hw, hrow, f1, f2, f3, f4, f5, f6, f7⟩ := encDpImm_word c 0b1001#4 true rn rd rot imm
  have hr : ∀ a0 a1 a2 a3 : Bool, armRowOf false false true true false false true true a0 a1 a2 a3
      = 13 := by decide
  change decodeCode (encDpImm c 0b1001#4 true rn rd rot imm) = _
  rw [hw, decodeCode, decodeArm_word, hrow.trans (hr _ _ _ _)]
  simp [armBody, decodeDpImm, f1, f2, f3, f4, f5, f6, f7, Cond.ofBits_bits]

theorem cmpImm (c : Cond) (rn : Reg) (rd : Reg) (rot : BitVec 4) (imm : BitVec 8) : Statement
    (.cmpImm c rn rd rot imm) := by
  intro _
  obtain ⟨w, hw, hrow, f1, f2, f3, f4, f5, f6, f7⟩ := encDpImm_word c 0b1010#4 true rn rd rot imm
  have hr : ∀ a0 a1 a2 a3 : Bool, armRowOf false false true true false true false true a0 a1 a2 a3
      = 13 := by decide
  change decodeCode (encDpImm c 0b1010#4 true rn rd rot imm) = _
  rw [hw, decodeCode, decodeArm_word, hrow.trans (hr _ _ _ _)]
  simp [armBody, decodeDpImm, f1, f2, f3, f4, f5, f6, f7, Cond.ofBits_bits]

theorem cmnImm (c : Cond) (rn : Reg) (rd : Reg) (rot : BitVec 4) (imm : BitVec 8) : Statement
    (.cmnImm c rn rd rot imm) := by
  intro _
  obtain ⟨w, hw, hrow, f1, f2, f3, f4, f5, f6, f7⟩ := encDpImm_word c 0b1011#4 true rn rd rot imm
  have hr : ∀ a0 a1 a2 a3 : Bool, armRowOf false false true true false true true true a0 a1 a2 a3
      = 13 := by decide
  change decodeCode (encDpImm c 0b1011#4 true rn rd rot imm) = _
  rw [hw, decodeCode, decodeArm_word, hrow.trans (hr _ _ _ _)]
  simp [armBody, decodeDpImm, f1, f2, f3, f4, f5, f6, f7, Cond.ofBits_bits]

theorem orrImm (c : Cond) (sf : Bool) (rn : Reg) (rd : Reg) (rot : BitVec 4) (imm : BitVec 8) :
    Statement (.orrImm c sf rn rd rot imm) := by
  intro _
  obtain ⟨w, hw, hrow, f1, f2, f3, f4, f5, f6, f7⟩ := encDpImm_word c 0b1100#4 sf rn rd rot imm
  have hr : ∀ a0 a1 a2 a3 a4 : Bool, armRowOf false false true true true false false a0 a1 a2 a3
      a4 = 13 := by decide
  change decodeCode (encDpImm c 0b1100#4 sf rn rd rot imm) = _
  rw [hw, decodeCode, decodeArm_word, hrow.trans (hr _ _ _ _ _)]
  simp [armBody, decodeDpImm, f1, f2, f3, f4, f5, f6, f7, Cond.ofBits_bits]

theorem movImm (c : Cond) (sf : Bool) (rd : Reg) (rot : BitVec 4) (imm : BitVec 8) : Statement
    (.movImm c sf rd rot imm) := by
  intro _
  obtain ⟨w, hw, hrow, f1, f2, f3, f4, f5, f6, f7⟩ := encDpImm_word c 0b1101#4 sf 0 rd rot imm
  have hr : ∀ a0 a1 a2 a3 a4 : Bool, armRowOf false false true true true false true a0 a1 a2 a3 a4
      = 13 := by decide
  change decodeCode (encDpImm c 0b1101#4 sf 0 rd rot imm) = _
  rw [hw, decodeCode, decodeArm_word, hrow.trans (hr _ _ _ _ _)]
  simp [armBody, decodeDpImm, f1, f2, f3, f4, f5, f6, f7, Cond.ofBits_bits]

theorem bicImm (c : Cond) (sf : Bool) (rn : Reg) (rd : Reg) (rot : BitVec 4) (imm : BitVec 8) :
    Statement (.bicImm c sf rn rd rot imm) := by
  intro _
  obtain ⟨w, hw, hrow, f1, f2, f3, f4, f5, f6, f7⟩ := encDpImm_word c 0b1110#4 sf rn rd rot imm
  have hr : ∀ a0 a1 a2 a3 a4 : Bool, armRowOf false false true true true true false a0 a1 a2 a3 a4
      = 13 := by decide
  change decodeCode (encDpImm c 0b1110#4 sf rn rd rot imm) = _
  rw [hw, decodeCode, decodeArm_word, hrow.trans (hr _ _ _ _ _)]
  simp [armBody, decodeDpImm, f1, f2, f3, f4, f5, f6, f7, Cond.ofBits_bits]

theorem mvnImm (c : Cond) (sf : Bool) (rd : Reg) (rot : BitVec 4) (imm : BitVec 8) : Statement
    (.mvnImm c sf rd rot imm) := by
  intro _
  obtain ⟨w, hw, hrow, f1, f2, f3, f4, f5, f6, f7⟩ := encDpImm_word c 0b1111#4 sf 0 rd rot imm
  have hr : ∀ a0 a1 a2 a3 a4 : Bool, armRowOf false false true true true true true a0 a1 a2 a3 a4
      = 13 := by decide
  change decodeCode (encDpImm c 0b1111#4 sf 0 rd rot imm) = _
  rw [hw, decodeCode, decodeArm_word, hrow.trans (hr _ _ _ _ _)]
  simp [armBody, decodeDpImm, f1, f2, f3, f4, f5, f6, f7, Cond.ofBits_bits]

theorem undefMedia (c : Cond) : Statement (.undefMedia c) := by
  intro _
  obtain ⟨w, hw, hrow, f1⟩ := enc_undefMedia c
  have hr : armRowOf false true true false false false false false false false false true = 14 :=
      by decide
  rw [hw, decodeCode, decodeArm_word, hrow.trans (hr)]
  simp [armBody, f1, Cond.ofBits_bits]

theorem strtImm (c : Cond) (u : Bool) (rn : Reg) (rd : Reg) (imm : BitVec 12) : Statement
    (.strtImm c u rn rd imm) := by
  intro _
  obtain ⟨w, hw, hrow, f1, f2, f3, f4, f5, f6, f7, f8, f9⟩ := encTransferImm_word c false u false
      true false rn rd imm
  have hr : ∀ a0 a1 a2 a3 a4 : Bool, armRowOf false true false false a0 false true false a1 a2 a3
      a4 = 15 := by decide
  change decodeCode (encTransferImm c false u false true false rn rd imm) = _
  rw [hw, decodeCode, decodeArm_word, hrow.trans (hr _ _ _ _ _)]
  simp [armBody, decodeTransferImm, f1, f2, f3, f4, f5, f6, f7, f8, f9, Cond.ofBits_bits]

theorem ldrtImm (c : Cond) (u : Bool) (rn : Reg) (rd : Reg) (imm : BitVec 12) : Statement
    (.ldrtImm c u rn rd imm) := by
  intro _
  obtain ⟨w, hw, hrow, f1, f2, f3, f4, f5, f6, f7, f8, f9⟩ := encTransferImm_word c false u false
      true true rn rd imm
  have hr : ∀ a0 a1 a2 a3 a4 : Bool, armRowOf false true false false a0 false true true a1 a2 a3
      a4 = 15 := by decide
  change decodeCode (encTransferImm c false u false true true rn rd imm) = _
  rw [hw, decodeCode, decodeArm_word, hrow.trans (hr _ _ _ _ _)]
  simp [armBody, decodeTransferImm, f1, f2, f3, f4, f5, f6, f7, f8, f9, Cond.ofBits_bits]

theorem strbtImm (c : Cond) (u : Bool) (rn : Reg) (rd : Reg) (imm : BitVec 12) : Statement
    (.strbtImm c u rn rd imm) := by
  intro _
  obtain ⟨w, hw, hrow, f1, f2, f3, f4, f5, f6, f7, f8, f9⟩ := encTransferImm_word c false u true
      true false rn rd imm
  have hr : ∀ a0 a1 a2 a3 a4 : Bool, armRowOf false true false false a0 true true false a1 a2 a3
      a4 = 15 := by decide
  change decodeCode (encTransferImm c false u true true false rn rd imm) = _
  rw [hw, decodeCode, decodeArm_word, hrow.trans (hr _ _ _ _ _)]
  simp [armBody, decodeTransferImm, f1, f2, f3, f4, f5, f6, f7, f8, f9, Cond.ofBits_bits]

theorem ldrbtImm (c : Cond) (u : Bool) (rn : Reg) (rd : Reg) (imm : BitVec 12) : Statement
    (.ldrbtImm c u rn rd imm) := by
  intro _
  obtain ⟨w, hw, hrow, f1, f2, f3, f4, f5, f6, f7, f8, f9⟩ := encTransferImm_word c false u true
      true true rn rd imm
  have hr : ∀ a0 a1 a2 a3 a4 : Bool, armRowOf false true false false a0 true true true a1 a2 a3 a4
      = 15 := by decide
  change decodeCode (encTransferImm c false u true true true rn rd imm) = _
  rw [hw, decodeCode, decodeArm_word, hrow.trans (hr _ _ _ _ _)]
  simp [armBody, decodeTransferImm, f1, f2, f3, f4, f5, f6, f7, f8, f9, Cond.ofBits_bits]

theorem strImm (c : Cond) (p : Bool) (u : Bool) (w : Bool) (rn : Reg) (rd : Reg) (imm : BitVec 12)
    : Statement (.strImm c p u w rn rd imm) := by
  intro h
  obtain ⟨v, hw, hrow, f1, f2, f3, f4, f5, f6, f7, f8, f9⟩ := encTransferImm_word c p u false w
      false rn rd imm
  have hr : ∀ a0 a1 a2 a3 a4 a5 a6 : Bool, armRowOf false true false a0 a1 false a2 false a3 a4 a5
      a6 = 15 := by decide
  change decodeCode (encTransferImm c p u false w false rn rd imm) = _
  rw [hw, decodeCode, decodeArm_word, hrow.trans (hr _ _ _ _ _ _ _)]
  cases p <;> cases w <;> simp_all [armBody, decodeTransferImm, f1, f2, f3, f4, f5, f6, f7, f8,
      f9, Cond.ofBits_bits, Instr.wf, Instr.plainIndexing]

theorem ldrImm (c : Cond) (p : Bool) (u : Bool) (w : Bool) (rn : Reg) (rd : Reg) (imm : BitVec 12)
    : Statement (.ldrImm c p u w rn rd imm) := by
  intro h
  obtain ⟨v, hw, hrow, f1, f2, f3, f4, f5, f6, f7, f8, f9⟩ := encTransferImm_word c p u false w
      true rn rd imm
  have hr : ∀ a0 a1 a2 a3 a4 a5 a6 : Bool, armRowOf false true false a0 a1 false a2 true a3 a4 a5
      a6 = 15 := by decide
  change decodeCode (encTransferImm c p u false w true rn rd imm) = _
  rw [hw, decodeCode, decodeArm_word, hrow.trans (hr _ _ _ _ _ _ _)]
  cases p <;> cases w <;> simp_all [armBody, decodeTransferImm, f1, f2, f3, f4, f5, f6, f7, f8,
      f9, Cond.ofBits_bits, Instr.wf, Instr.plainIndexing]

theorem strbImm (c : Cond) (p : Bool) (u : Bool) (w : Bool) (rn : Reg) (rd : Reg) (imm : BitVec
    12) : Statement (.strbImm c p u w rn rd imm) := by
  intro h
  obtain ⟨v, hw, hrow, f1, f2, f3, f4, f5, f6, f7, f8, f9⟩ := encTransferImm_word c p u true w
      false rn rd imm
  have hr : ∀ a0 a1 a2 a3 a4 a5 a6 : Bool, armRowOf false true false a0 a1 true a2 false a3 a4 a5
      a6 = 15 := by decide
  change decodeCode (encTransferImm c p u true w false rn rd imm) = _
  rw [hw, decodeCode, decodeArm_word, hrow.trans (hr _ _ _ _ _ _ _)]
  cases p <;> cases w <;> simp_all [armBody, decodeTransferImm, f1, f2, f3, f4, f5, f6, f7, f8,
      f9, Cond.ofBits_bits, Instr.wf, Instr.plainIndexing]

theorem ldrbImm (c : Cond) (p : Bool) (u : Bool) (w : Bool) (rn : Reg) (rd : Reg) (imm : BitVec
    12) : Statement (.ldrbImm c p u w rn rd imm) := by
  intro h
  obtain ⟨v, hw, hrow, f1, f2, f3, f4, f5, f6, f7, f8, f9⟩ := encTransferImm_word c p u true w
      true rn rd imm
  have hr : ∀ a0 a1 a2 a3 a4 a5 a6 : Bool, armRowOf false true false a0 a1 true a2 true a3 a4 a5
      a6 = 15 := by decide
  change decodeCode (encTransferImm c p u true w true rn rd imm) = _
  rw [hw, decodeCode, decodeArm_word, hrow.trans (hr _ _ _ _ _ _ _)]
  cases p <;> cases w <;> simp_all [armBody, decodeTransferImm, f1, f2, f3, f4, f5, f6, f7, f8,
      f9, Cond.ofBits_bits, Instr.wf, Instr.plainIndexing]

theorem strtReg (c : Cond) (u : Bool) (rn : Reg) (rd : Reg) (imm : BitVec 5) (sh : Shift) (rm :
    Reg) : Statement (.strtReg c u rn rd imm sh rm) := by
  intro _
  obtain ⟨w, hw, hrow, f1, f2, f3, f4, f5, f6, f7, f8, f9, f10, f11⟩ := encTransferReg_word c
      false u false true false rn rd imm sh rm
  have hr : ∀ a0 a1 a2 a3 : Bool, armRowOf false true true false a0 false true false a1 a2 a3
      false = 16 := by decide
  change decodeCode (encTransferReg c false u false true false rn rd imm sh rm) = _
  rw [hw, decodeCode, decodeArm_word, hrow.trans (hr _ _ _ _)]
  simp [armBody, decodeTransferReg, f1, f2, f3, f4, f5, f6, f7, f8, f9, f10, f11,
      Cond.ofBits_bits, Shift.ofBits_bits]

theorem ldrtReg (c : Cond) (u : Bool) (rn : Reg) (rd : Reg) (imm : BitVec 5) (sh : Shift) (rm :
    Reg) : Statement (.ldrtReg c u rn rd imm sh rm) := by
  intro _
  obtain ⟨w, hw, hrow, f1, f2, f3, f4, f5, f6, f7, f8, f9, f10, f11⟩ := encTransferReg_word c
      false u false true true rn rd imm sh rm
  have hr : ∀ a0 a1 a2 a3 : Bool, armRowOf false true true false a0 false true true a1 a2 a3 false
      = 16 := by decide
  change decodeCode (encTransferReg c false u false true true rn rd imm sh rm) = _
  rw [hw, decodeCode, decodeArm_word, hrow.trans (hr _ _ _ _)]
  simp [armBody, decodeTransferReg, f1, f2, f3, f4, f5, f6, f7, f8, f9, f10, f11,
      Cond.ofBits_bits, Shift.ofBits_bits]

theorem strbtReg (c : Cond) (u : Bool) (rn : Reg) (rd : Reg) (imm : BitVec 5) (sh : Shift) (rm :
    Reg) : Statement (.strbtReg c u rn rd imm sh rm) := by
  intro _
  obtain ⟨w, hw, hrow, f1, f2, f3, f4, f5, f6, f7, f8, f9, f10, f11⟩ := encTransferReg_word c
      false u true true false rn rd imm sh rm
  have hr : ∀ a0 a1 a2 a3 : Bool, armRowOf false true true false a0 true true false a1 a2 a3 false
      = 16 := by decide
  change decodeCode (encTransferReg c false u true true false rn rd imm sh rm) = _
  rw [hw, decodeCode, decodeArm_word, hrow.trans (hr _ _ _ _)]
  simp [armBody, decodeTransferReg, f1, f2, f3, f4, f5, f6, f7, f8, f9, f10, f11,
      Cond.ofBits_bits, Shift.ofBits_bits]

theorem ldrbtReg (c : Cond) (u : Bool) (rn : Reg) (rd : Reg) (imm : BitVec 5) (sh : Shift) (rm :
    Reg) : Statement (.ldrbtReg c u rn rd imm sh rm) := by
  intro _
  obtain ⟨w, hw, hrow, f1, f2, f3, f4, f5, f6, f7, f8, f9, f10, f11⟩ := encTransferReg_word c
      false u true true true rn rd imm sh rm
  have hr : ∀ a0 a1 a2 a3 : Bool, armRowOf false true true false a0 true true true a1 a2 a3 false
      = 16 := by decide
  change decodeCode (encTransferReg c false u true true true rn rd imm sh rm) = _
  rw [hw, decodeCode, decodeArm_word, hrow.trans (hr _ _ _ _)]
  simp [armBody, decodeTransferReg, f1, f2, f3, f4, f5, f6, f7, f8, f9, f10, f11,
      Cond.ofBits_bits, Shift.ofBits_bits]

theorem strReg (c : Cond) (p : Bool) (u : Bool) (w : Bool) (rn : Reg) (rd : Reg) (imm : BitVec 5)
    (sh : Shift) (rm : Reg) : Statement (.strReg c p u w rn rd imm sh rm) := by
  intro h
  obtain ⟨v, hw, hrow, f1, f2, f3, f4, f5, f6, f7, f8, f9, f10, f11⟩ := encTransferReg_word c p u
      false w false rn rd imm sh rm
  have hr : ∀ a0 a1 a2 a3 a4 a5 : Bool, armRowOf false true true a0 a1 false a2 false a3 a4 a5
      false = 16 := by decide
  change decodeCode (encTransferReg c p u false w false rn rd imm sh rm) = _
  rw [hw, decodeCode, decodeArm_word, hrow.trans (hr _ _ _ _ _ _)]
  cases p <;> cases w <;> simp_all [armBody, decodeTransferReg, f1, f2, f3, f4, f5, f6, f7, f8,
      f9, f10, f11, Cond.ofBits_bits, Shift.ofBits_bits, Instr.wf, Instr.plainIndexing]

theorem ldrReg (c : Cond) (p : Bool) (u : Bool) (w : Bool) (rn : Reg) (rd : Reg) (imm : BitVec 5)
    (sh : Shift) (rm : Reg) : Statement (.ldrReg c p u w rn rd imm sh rm) := by
  intro h
  obtain ⟨v, hw, hrow, f1, f2, f3, f4, f5, f6, f7, f8, f9, f10, f11⟩ := encTransferReg_word c p u
      false w true rn rd imm sh rm
  have hr : ∀ a0 a1 a2 a3 a4 a5 : Bool, armRowOf false true true a0 a1 false a2 true a3 a4 a5
      false = 16 := by decide
  change decodeCode (encTransferReg c p u false w true rn rd imm sh rm) = _
  rw [hw, decodeCode, decodeArm_word, hrow.trans (hr _ _ _ _ _ _)]
  cases p <;> cases w <;> simp_all [armBody, decodeTransferReg, f1, f2, f3, f4, f5, f6, f7, f8,
      f9, f10, f11, Cond.ofBits_bits, Shift.ofBits_bits, Instr.wf, Instr.plainIndexing]

theorem strbReg (c : Cond) (p : Bool) (u : Bool) (w : Bool) (rn : Reg) (rd : Reg) (imm : BitVec 5)
    (sh : Shift) (rm : Reg) : Statement (.strbReg c p u w rn rd imm sh rm) := by
  intro h
  obtain ⟨v, hw, hrow, f1, f2, f3, f4, f5, f6, f7, f8, f9, f10, f11⟩ := encTransferReg_word c p u
      true w false rn rd imm sh rm
  have hr : ∀ a0 a1 a2 a3 a4 a5 : Bool, armRowOf false true true a0 a1 true a2 false a3 a4 a5
      false = 16 := by decide
  change decodeCode (encTransferReg c p u true w false rn rd imm sh rm) = _
  rw [hw, decodeCode, decodeArm_word, hrow.trans (hr _ _ _ _ _ _)]
  cases p <;> cases w <;> simp_all [armBody, decodeTransferReg, f1, f2, f3, f4, f5, f6, f7, f8,
      f9, f10, f11, Cond.ofBits_bits, Shift.ofBits_bits, Instr.wf, Instr.plainIndexing]

theorem ldrbReg (c : Cond) (p : Bool) (u : Bool) (w : Bool) (rn : Reg) (rd : Reg) (imm : BitVec 5)
    (sh : Shift) (rm : Reg) : Statement (.ldrbReg c p u w rn rd imm sh rm) := by
  intro h
  obtain ⟨v, hw, hrow, f1, f2, f3, f4, f5, f6, f7, f8, f9, f10, f11⟩ := encTransferReg_word c p u
      true w true rn rd imm sh rm
  have hr : ∀ a0 a1 a2 a3 a4 a5 : Bool, armRowOf false true true a0 a1 true a2 true a3 a4 a5 false
      = 16 := by decide
  change decodeCode (encTransferReg c p u true w true rn rd imm sh rm) = _
  rw [hw, decodeCode, decodeArm_word, hrow.trans (hr _ _ _ _ _ _)]
  cases p <;> cases w <;> simp_all [armBody, decodeTransferReg, f1, f2, f3, f4, f5, f6, f7, f8,
      f9, f10, f11, Cond.ofBits_bits, Shift.ofBits_bits, Instr.wf, Instr.plainIndexing]

theorem stmUser (c : Cond) (p : Bool) (u : Bool) (w : Bool) (rn : Reg) (list : BitVec 16) :
    Statement (.stmUser c p u w rn list) := by
  intro _
  obtain ⟨v, hw, hrow, f1, f2, f3, f4, f5, f6, f7, f8, f9⟩ := encBlock_word c p u true w false rn
      list
  have hr : ∀ a0 a1 a2 a3 a4 a5 a6 : Bool, armRowOf true false false a0 a1 true a2 false a3 a4 a5
      a6 = 17 := by decide
  change decodeCode (encBlock c p u true w false rn list) = _
  rw [hw, decodeCode, decodeArm_word, hrow.trans (hr _ _ _ _ _ _ _)]
  simp [armBody, decodeBlock, f1, f2, f3, f4, f5, f6, f7, f8, f9, Cond.ofBits_bits]

theorem ldmRestore (c : Cond) (p : Bool) (u : Bool) (w : Bool) (rn : Reg) (list : BitVec 16) :
    Statement (.ldmRestore c p u w rn list) := by
  intro h
  obtain ⟨v, hw, hrow, f1, f2, f3, f4, f5, f6, f7, f8, f9⟩ := encBlock_word c p u true w true rn
      list
  have hr : ∀ a0 a1 a2 a3 a4 a5 a6 : Bool, armRowOf true false false a0 a1 true a2 true a3 a4 a5
      a6 = 17 := by decide
  change decodeCode (encBlock c p u true w true rn list) = _
  rw [hw, decodeCode, decodeArm_word, hrow.trans (hr _ _ _ _ _ _ _)]
  simp_all [armBody, decodeBlock, f1, f2, f3, f4, f5, f6, f7, f8, f9, Cond.ofBits_bits, Instr.wf,
      bit]

theorem ldmUser (c : Cond) (p : Bool) (u : Bool) (w : Bool) (rn : Reg) (list : BitVec 16) :
    Statement (.ldmUser c p u w rn list) := by
  intro h
  obtain ⟨v, hw, hrow, f1, f2, f3, f4, f5, f6, f7, f8, f9⟩ := encBlock_word c p u true w true rn
      list
  have hr : ∀ a0 a1 a2 a3 a4 a5 a6 : Bool, armRowOf true false false a0 a1 true a2 true a3 a4 a5
      a6 = 17 := by decide
  change decodeCode (encBlock c p u true w true rn list) = _
  rw [hw, decodeCode, decodeArm_word, hrow.trans (hr _ _ _ _ _ _ _)]
  simp_all [armBody, decodeBlock, f1, f2, f3, f4, f5, f6, f7, f8, f9, Cond.ofBits_bits, Instr.wf,
      bit]

theorem stm (c : Cond) (p : Bool) (u : Bool) (w : Bool) (rn : Reg) (list : BitVec 16) : Statement
    (.stm c p u w rn list) := by
  intro _
  obtain ⟨v, hw, hrow, f1, f2, f3, f4, f5, f6, f7, f8, f9⟩ := encBlock_word c p u false w false rn
      list
  have hr : ∀ a0 a1 a2 a3 a4 a5 a6 : Bool, armRowOf true false false a0 a1 false a2 false a3 a4 a5
      a6 = 17 := by decide
  change decodeCode (encBlock c p u false w false rn list) = _
  rw [hw, decodeCode, decodeArm_word, hrow.trans (hr _ _ _ _ _ _ _)]
  simp [armBody, decodeBlock, f1, f2, f3, f4, f5, f6, f7, f8, f9, Cond.ofBits_bits]

theorem ldm (c : Cond) (p : Bool) (u : Bool) (w : Bool) (rn : Reg) (list : BitVec 16) : Statement
    (.ldm c p u w rn list) := by
  intro _
  obtain ⟨v, hw, hrow, f1, f2, f3, f4, f5, f6, f7, f8, f9⟩ := encBlock_word c p u false w true rn
      list
  have hr : ∀ a0 a1 a2 a3 a4 a5 a6 : Bool, armRowOf true false false a0 a1 false a2 true a3 a4 a5
      a6 = 17 := by decide
  change decodeCode (encBlock c p u false w true rn list) = _
  rw [hw, decodeCode, decodeArm_word, hrow.trans (hr _ _ _ _ _ _ _)]
  simp [armBody, decodeBlock, f1, f2, f3, f4, f5, f6, f7, f8, f9, Cond.ofBits_bits]

theorem b (c : Cond) (imm : BitVec 24) : Statement (.b c imm) := by
  intro _
  obtain ⟨w, hw, hrow, f1, f2, f3⟩ := enc_b c imm
  have hr : ∀ a0 a1 a2 a3 a4 a5 a6 a7 : Bool, armRowOf true false true false a0 a1 a2 a3 a4 a5 a6
      a7 = 18 := by decide
  rw [hw, decodeCode, decodeArm_word, hrow.trans (hr _ _ _ _ _ _ _ _)]
  simp [armBody, f1, f2, f3, Cond.ofBits_bits]

theorem bl (c : Cond) (imm : BitVec 24) : Statement (.bl c imm) := by
  intro _
  obtain ⟨w, hw, hrow, f1, f2, f3⟩ := enc_bl c imm
  have hr : ∀ a0 a1 a2 a3 a4 a5 a6 a7 : Bool, armRowOf true false true true a0 a1 a2 a3 a4 a5 a6
      a7 = 18 := by decide
  rw [hw, decodeCode, decodeArm_word, hrow.trans (hr _ _ _ _ _ _ _ _)]
  simp [armBody, f1, f2, f3, Cond.ofBits_bits]

theorem stc (c : Cond) (p : Bool) (u : Bool) (n : Bool) (w : Bool) (rn : Reg) (crd : BitVec 4) (cp
    : BitVec 4) (off : BitVec 8) : Statement (.stc c p u n w rn crd cp off) := by
  intro _
  obtain ⟨v, hw, hrow, f1, f2, f3, f4, f5, f6, f7, f8, f9, f10⟩ := encCoprocTransfer_word c p u n
      w false rn crd cp off
  have hr : ∀ a0 a1 a2 a3 a4 a5 a6 a7 : Bool, armRowOf true true false a0 a1 a2 a3 false a4 a5 a6
      a7 = 19 := by decide
  change decodeCode (encCoprocTransfer c p u n w false rn crd cp off) = _
  rw [hw, decodeCode, decodeArm_word, hrow.trans (hr _ _ _ _ _ _ _ _)]
  simp [armBody, decodeCoprocTransfer, f1, f2, f3, f4, f5, f6, f7, f8, f9, f10, Cond.ofBits_bits]

theorem ldc (c : Cond) (p : Bool) (u : Bool) (n : Bool) (w : Bool) (rn : Reg) (crd : BitVec 4) (cp
    : BitVec 4) (off : BitVec 8) : Statement (.ldc c p u n w rn crd cp off) := by
  intro _
  obtain ⟨v, hw, hrow, f1, f2, f3, f4, f5, f6, f7, f8, f9, f10⟩ := encCoprocTransfer_word c p u n
      w true rn crd cp off
  have hr : ∀ a0 a1 a2 a3 a4 a5 a6 a7 : Bool, armRowOf true true false a0 a1 a2 a3 true a4 a5 a6
      a7 = 19 := by decide
  change decodeCode (encCoprocTransfer c p u n w true rn crd cp off) = _
  rw [hw, decodeCode, decodeArm_word, hrow.trans (hr _ _ _ _ _ _ _ _)]
  simp [armBody, decodeCoprocTransfer, f1, f2, f3, f4, f5, f6, f7, f8, f9, f10, Cond.ofBits_bits]

theorem cdp (c : Cond) (op1 : BitVec 4) (crn : BitVec 4) (crd : BitVec 4) (cp : BitVec 4) (op2 :
    BitVec 3) (crm : BitVec 4) : Statement (.cdp c op1 crn crd cp op2 crm) := by
  intro _
  obtain ⟨w, hw, hrow, f1, f2, f3, f4, f5, f6, f7⟩ := enc_cdp c op1 crn crd cp op2 crm
  have hr : ∀ a0 a1 a2 a3 a4 a5 a6 : Bool, armRowOf true true true false a0 a1 a2 a3 a4 a5 a6
      false = 20 := by decide
  rw [hw, decodeCode, decodeArm_word, hrow.trans (hr _ _ _ _ _ _ _)]
  simp [armBody, f1, f2, f3, f4, f5, f6, f7, Cond.ofBits_bits]

theorem mcr (c : Cond) (op1 : BitVec 3) (crn : BitVec 4) (rd : Reg) (cp : BitVec 4) (op2 : BitVec
    3) (crm : BitVec 4) : Statement (.mcr c op1 crn rd cp op2 crm) := by
  intro _
  obtain ⟨w, hw, hrow, f1, f2, f3, f4, f5, f6, f7, f8⟩ := encCoprocMove_word c false op1 crn rd cp
      op2 crm
  have hr : ∀ a0 a1 a2 a3 a4 a5 : Bool, armRowOf true true true false a0 a1 a2 false a3 a4 a5 true
      = 21 := by decide
  change decodeCode (encCoprocMove c false op1 crn rd cp op2 crm) = _
  rw [hw, decodeCode, decodeArm_word, hrow.trans (hr _ _ _ _ _ _)]
  simp [armBody, f1, f2, f3, f4, f5, f6, f7, f8, Cond.ofBits_bits]

theorem mrc (c : Cond) (op1 : BitVec 3) (crn : BitVec 4) (rd : Reg) (cp : BitVec 4) (op2 : BitVec
    3) (crm : BitVec 4) : Statement (.mrc c op1 crn rd cp op2 crm) := by
  intro _
  obtain ⟨w, hw, hrow, f1, f2, f3, f4, f5, f6, f7, f8⟩ := encCoprocMove_word c true op1 crn rd cp
      op2 crm
  have hr : ∀ a0 a1 a2 a3 a4 a5 : Bool, armRowOf true true true false a0 a1 a2 true a3 a4 a5 true
      = 21 := by decide
  change decodeCode (encCoprocMove c true op1 crn rd cp op2 crm) = _
  rw [hw, decodeCode, decodeArm_word, hrow.trans (hr _ _ _ _ _ _)]
  simp [armBody, f1, f2, f3, f4, f5, f6, f7, f8, Cond.ofBits_bits]

theorem swi (c : Cond) (comment : BitVec 24) : Statement (.swi c comment) := by
  intro _
  obtain ⟨w, hw, hrow, f1, f2⟩ := enc_swi c comment
  have hr : ∀ a0 a1 a2 a3 a4 a5 a6 a7 : Bool, armRowOf true true true true a0 a1 a2 a3 a4 a5 a6 a7
      = 22 := by decide
  rw [hw, decodeCode, decodeArm_word, hrow.trans (hr _ _ _ _ _ _ _ _)]
  simp [armBody, f1, f2, Cond.ofBits_bits]

theorem tLslImm (imm : BitVec 5) (rs : LowReg) (rd : LowReg) : Statement (.tLslImm imm rs rd) := by
  intro _
  obtain ⟨w, hw, hrow, f1, f2, f3, f4⟩ := encThumbImm5_word 0b00000#5 imm rs rd
  have hr : ∀ a0 a1 a2 a3 a4 : Bool, thumbRowOf false false false false false a0 a1 a2 a3 a4 = 0
      := by decide
  change decodeCode (encThumbImm5 0b00000#5 imm rs rd) = _
  rw [hw, decodeCode, decodeThumb_half, hrow.trans (hr _ _ _ _ _)]
  simp [thumbBody, f1, f2, f3, f4]

theorem tLsrImm (imm : BitVec 5) (rs : LowReg) (rd : LowReg) : Statement (.tLsrImm imm rs rd) := by
  intro _
  obtain ⟨w, hw, hrow, f1, f2, f3, f4⟩ := encThumbImm5_word 0b00001#5 imm rs rd
  have hr : ∀ a0 a1 a2 a3 a4 : Bool, thumbRowOf false false false false true a0 a1 a2 a3 a4 = 1 :=
      by decide
  change decodeCode (encThumbImm5 0b00001#5 imm rs rd) = _
  rw [hw, decodeCode, decodeThumb_half, hrow.trans (hr _ _ _ _ _)]
  simp [thumbBody, f1, f2, f3, f4]

theorem tAsrImm (imm : BitVec 5) (rs : LowReg) (rd : LowReg) : Statement (.tAsrImm imm rs rd) := by
  intro _
  obtain ⟨w, hw, hrow, f1, f2, f3, f4⟩ := encThumbImm5_word 0b00010#5 imm rs rd
  have hr : ∀ a0 a1 a2 a3 a4 : Bool, thumbRowOf false false false true false a0 a1 a2 a3 a4 = 2 :=
      by decide
  change decodeCode (encThumbImm5 0b00010#5 imm rs rd) = _
  rw [hw, decodeCode, decodeThumb_half, hrow.trans (hr _ _ _ _ _)]
  simp [thumbBody, f1, f2, f3, f4]

theorem tAddReg (rn : LowReg) (rs : LowReg) (rd : LowReg) : Statement (.tAddReg rn rs rd) := by
  intro _
  obtain ⟨w, hw, hrow, f1, f2, f3, f4, f5⟩ := encThumb3_word 0b0001100#7 (lowBits rn) rs rd
  have hr : ∀ a0 a1 a2 : Bool, thumbRowOf false false false true true false false a0 a1 a2 = 3 :=
      by decide
  change decodeCode (encThumb3 0b0001100#7 (lowBits rn) rs rd) = _
  rw [hw, decodeCode, decodeThumb_half, hrow.trans (hr _ _ _)]
  simp [thumbBody, f1, f2, f3, f4, f5, toFin_lowBits]

theorem tSubReg (rn : LowReg) (rs : LowReg) (rd : LowReg) : Statement (.tSubReg rn rs rd) := by
  intro _
  obtain ⟨w, hw, hrow, f1, f2, f3, f4, f5⟩ := encThumb3_word 0b0001101#7 (lowBits rn) rs rd
  have hr : ∀ a0 a1 a2 : Bool, thumbRowOf false false false true true false true a0 a1 a2 = 4 :=
      by decide
  change decodeCode (encThumb3 0b0001101#7 (lowBits rn) rs rd) = _
  rw [hw, decodeCode, decodeThumb_half, hrow.trans (hr _ _ _)]
  simp [thumbBody, f1, f2, f3, f4, f5, toFin_lowBits]

theorem tAddImm3 (imm : BitVec 3) (rs : LowReg) (rd : LowReg) : Statement (.tAddImm3 imm rs rd) :=
    by
  intro _
  obtain ⟨w, hw, hrow, f1, f2, f3, f4, f5⟩ := encThumb3_word 0b0001110#7 imm rs rd
  have hr : ∀ a0 a1 a2 : Bool, thumbRowOf false false false true true true false a0 a1 a2 = 5 :=
      by decide
  change decodeCode (encThumb3 0b0001110#7 imm rs rd) = _
  rw [hw, decodeCode, decodeThumb_half, hrow.trans (hr _ _ _)]
  simp [thumbBody, f1, f2, f3, f4, f5, toFin_lowBits]

theorem tSubImm3 (imm : BitVec 3) (rs : LowReg) (rd : LowReg) : Statement (.tSubImm3 imm rs rd) :=
    by
  intro _
  obtain ⟨w, hw, hrow, f1, f2, f3, f4, f5⟩ := encThumb3_word 0b0001111#7 imm rs rd
  have hr : ∀ a0 a1 a2 : Bool, thumbRowOf false false false true true true true a0 a1 a2 = 6 := by
      decide
  change decodeCode (encThumb3 0b0001111#7 imm rs rd) = _
  rw [hw, decodeCode, decodeThumb_half, hrow.trans (hr _ _ _)]
  simp [thumbBody, f1, f2, f3, f4, f5, toFin_lowBits]

theorem tMovImm8 (rd : LowReg) (imm : BitVec 8) : Statement (.tMovImm8 rd imm) := by
  intro _
  obtain ⟨w, hw, hrow, f1, f2, f3⟩ := encThumbImm8_word 0b00100#5 rd imm
  have hr : ∀ a0 a1 a2 a3 a4 : Bool, thumbRowOf false false true false false a0 a1 a2 a3 a4 = 7 :=
      by decide
  change decodeCode (encThumbImm8 0b00100#5 rd imm) = _
  rw [hw, decodeCode, decodeThumb_half, hrow.trans (hr _ _ _ _ _)]
  simp [thumbBody, f1, f2, f3]

theorem tCmpImm8 (rd : LowReg) (imm : BitVec 8) : Statement (.tCmpImm8 rd imm) := by
  intro _
  obtain ⟨w, hw, hrow, f1, f2, f3⟩ := encThumbImm8_word 0b00101#5 rd imm
  have hr : ∀ a0 a1 a2 a3 a4 : Bool, thumbRowOf false false true false true a0 a1 a2 a3 a4 = 8 :=
      by decide
  change decodeCode (encThumbImm8 0b00101#5 rd imm) = _
  rw [hw, decodeCode, decodeThumb_half, hrow.trans (hr _ _ _ _ _)]
  simp [thumbBody, f1, f2, f3]

theorem tAddImm8 (rd : LowReg) (imm : BitVec 8) : Statement (.tAddImm8 rd imm) := by
  intro _
  obtain ⟨w, hw, hrow, f1, f2, f3⟩ := encThumbImm8_word 0b00110#5 rd imm
  have hr : ∀ a0 a1 a2 a3 a4 : Bool, thumbRowOf false false true true false a0 a1 a2 a3 a4 = 9 :=
      by decide
  change decodeCode (encThumbImm8 0b00110#5 rd imm) = _
  rw [hw, decodeCode, decodeThumb_half, hrow.trans (hr _ _ _ _ _)]
  simp [thumbBody, f1, f2, f3]

theorem tSubImm8 (rd : LowReg) (imm : BitVec 8) : Statement (.tSubImm8 rd imm) := by
  intro _
  obtain ⟨w, hw, hrow, f1, f2, f3⟩ := encThumbImm8_word 0b00111#5 rd imm
  have hr : ∀ a0 a1 a2 a3 a4 : Bool, thumbRowOf false false true true true a0 a1 a2 a3 a4 = 10 :=
      by decide
  change decodeCode (encThumbImm8 0b00111#5 rd imm) = _
  rw [hw, decodeCode, decodeThumb_half, hrow.trans (hr _ _ _ _ _)]
  simp [thumbBody, f1, f2, f3]

theorem tAnd (rs : LowReg) (rd : LowReg) : Statement (.tAnd rs rd) := by
  intro _
  obtain ⟨w, hw, hrow, f1, f2, f3⟩ := encThumbAlu_word 0b0000#4 rs rd
  have hr : thumbRowOf false true false false false false false false false false = 11 := by decide
  change decodeCode (encThumbAlu 0b0000#4 rs rd) = _
  rw [hw, decodeCode, decodeThumb_half, hrow.trans (hr)]
  simp [thumbBody, decodeThumbAlu, f1, f2, f3]

theorem tEor (rs : LowReg) (rd : LowReg) : Statement (.tEor rs rd) := by
  intro _
  obtain ⟨w, hw, hrow, f1, f2, f3⟩ := encThumbAlu_word 0b0001#4 rs rd
  have hr : thumbRowOf false true false false false false false false false true = 11 := by decide
  change decodeCode (encThumbAlu 0b0001#4 rs rd) = _
  rw [hw, decodeCode, decodeThumb_half, hrow.trans (hr)]
  simp [thumbBody, decodeThumbAlu, f1, f2, f3]

theorem tLsl (rs : LowReg) (rd : LowReg) : Statement (.tLsl rs rd) := by
  intro _
  obtain ⟨w, hw, hrow, f1, f2, f3⟩ := encThumbAlu_word 0b0010#4 rs rd
  have hr : thumbRowOf false true false false false false false false true false = 11 := by decide
  change decodeCode (encThumbAlu 0b0010#4 rs rd) = _
  rw [hw, decodeCode, decodeThumb_half, hrow.trans (hr)]
  simp [thumbBody, decodeThumbAlu, f1, f2, f3]

theorem tLsr (rs : LowReg) (rd : LowReg) : Statement (.tLsr rs rd) := by
  intro _
  obtain ⟨w, hw, hrow, f1, f2, f3⟩ := encThumbAlu_word 0b0011#4 rs rd
  have hr : thumbRowOf false true false false false false false false true true = 11 := by decide
  change decodeCode (encThumbAlu 0b0011#4 rs rd) = _
  rw [hw, decodeCode, decodeThumb_half, hrow.trans (hr)]
  simp [thumbBody, decodeThumbAlu, f1, f2, f3]

theorem tAsr (rs : LowReg) (rd : LowReg) : Statement (.tAsr rs rd) := by
  intro _
  obtain ⟨w, hw, hrow, f1, f2, f3⟩ := encThumbAlu_word 0b0100#4 rs rd
  have hr : thumbRowOf false true false false false false false true false false = 11 := by decide
  change decodeCode (encThumbAlu 0b0100#4 rs rd) = _
  rw [hw, decodeCode, decodeThumb_half, hrow.trans (hr)]
  simp [thumbBody, decodeThumbAlu, f1, f2, f3]

theorem tAdc (rs : LowReg) (rd : LowReg) : Statement (.tAdc rs rd) := by
  intro _
  obtain ⟨w, hw, hrow, f1, f2, f3⟩ := encThumbAlu_word 0b0101#4 rs rd
  have hr : thumbRowOf false true false false false false false true false true = 11 := by decide
  change decodeCode (encThumbAlu 0b0101#4 rs rd) = _
  rw [hw, decodeCode, decodeThumb_half, hrow.trans (hr)]
  simp [thumbBody, decodeThumbAlu, f1, f2, f3]

theorem tSbc (rs : LowReg) (rd : LowReg) : Statement (.tSbc rs rd) := by
  intro _
  obtain ⟨w, hw, hrow, f1, f2, f3⟩ := encThumbAlu_word 0b0110#4 rs rd
  have hr : thumbRowOf false true false false false false false true true false = 11 := by decide
  change decodeCode (encThumbAlu 0b0110#4 rs rd) = _
  rw [hw, decodeCode, decodeThumb_half, hrow.trans (hr)]
  simp [thumbBody, decodeThumbAlu, f1, f2, f3]

theorem tRor (rs : LowReg) (rd : LowReg) : Statement (.tRor rs rd) := by
  intro _
  obtain ⟨w, hw, hrow, f1, f2, f3⟩ := encThumbAlu_word 0b0111#4 rs rd
  have hr : thumbRowOf false true false false false false false true true true = 11 := by decide
  change decodeCode (encThumbAlu 0b0111#4 rs rd) = _
  rw [hw, decodeCode, decodeThumb_half, hrow.trans (hr)]
  simp [thumbBody, decodeThumbAlu, f1, f2, f3]

theorem tTst (rs : LowReg) (rd : LowReg) : Statement (.tTst rs rd) := by
  intro _
  obtain ⟨w, hw, hrow, f1, f2, f3⟩ := encThumbAlu_word 0b1000#4 rs rd
  have hr : thumbRowOf false true false false false false true false false false = 11 := by decide
  change decodeCode (encThumbAlu 0b1000#4 rs rd) = _
  rw [hw, decodeCode, decodeThumb_half, hrow.trans (hr)]
  simp [thumbBody, decodeThumbAlu, f1, f2, f3]

theorem tNeg (rs : LowReg) (rd : LowReg) : Statement (.tNeg rs rd) := by
  intro _
  obtain ⟨w, hw, hrow, f1, f2, f3⟩ := encThumbAlu_word 0b1001#4 rs rd
  have hr : thumbRowOf false true false false false false true false false true = 11 := by decide
  change decodeCode (encThumbAlu 0b1001#4 rs rd) = _
  rw [hw, decodeCode, decodeThumb_half, hrow.trans (hr)]
  simp [thumbBody, decodeThumbAlu, f1, f2, f3]

theorem tCmp (rs : LowReg) (rd : LowReg) : Statement (.tCmp rs rd) := by
  intro _
  obtain ⟨w, hw, hrow, f1, f2, f3⟩ := encThumbAlu_word 0b1010#4 rs rd
  have hr : thumbRowOf false true false false false false true false true false = 11 := by decide
  change decodeCode (encThumbAlu 0b1010#4 rs rd) = _
  rw [hw, decodeCode, decodeThumb_half, hrow.trans (hr)]
  simp [thumbBody, decodeThumbAlu, f1, f2, f3]

theorem tCmn (rs : LowReg) (rd : LowReg) : Statement (.tCmn rs rd) := by
  intro _
  obtain ⟨w, hw, hrow, f1, f2, f3⟩ := encThumbAlu_word 0b1011#4 rs rd
  have hr : thumbRowOf false true false false false false true false true true = 11 := by decide
  change decodeCode (encThumbAlu 0b1011#4 rs rd) = _
  rw [hw, decodeCode, decodeThumb_half, hrow.trans (hr)]
  simp [thumbBody, decodeThumbAlu, f1, f2, f3]

theorem tOrr (rs : LowReg) (rd : LowReg) : Statement (.tOrr rs rd) := by
  intro _
  obtain ⟨w, hw, hrow, f1, f2, f3⟩ := encThumbAlu_word 0b1100#4 rs rd
  have hr : thumbRowOf false true false false false false true true false false = 11 := by decide
  change decodeCode (encThumbAlu 0b1100#4 rs rd) = _
  rw [hw, decodeCode, decodeThumb_half, hrow.trans (hr)]
  simp [thumbBody, decodeThumbAlu, f1, f2, f3]

theorem tMul (rs : LowReg) (rd : LowReg) : Statement (.tMul rs rd) := by
  intro _
  obtain ⟨w, hw, hrow, f1, f2, f3⟩ := encThumbAlu_word 0b1101#4 rs rd
  have hr : thumbRowOf false true false false false false true true false true = 11 := by decide
  change decodeCode (encThumbAlu 0b1101#4 rs rd) = _
  rw [hw, decodeCode, decodeThumb_half, hrow.trans (hr)]
  simp [thumbBody, decodeThumbAlu, f1, f2, f3]

theorem tBic (rs : LowReg) (rd : LowReg) : Statement (.tBic rs rd) := by
  intro _
  obtain ⟨w, hw, hrow, f1, f2, f3⟩ := encThumbAlu_word 0b1110#4 rs rd
  have hr : thumbRowOf false true false false false false true true true false = 11 := by decide
  change decodeCode (encThumbAlu 0b1110#4 rs rd) = _
  rw [hw, decodeCode, decodeThumb_half, hrow.trans (hr)]
  simp [thumbBody, decodeThumbAlu, f1, f2, f3]

theorem tMvn (rs : LowReg) (rd : LowReg) : Statement (.tMvn rs rd) := by
  intro _
  obtain ⟨w, hw, hrow, f1, f2, f3⟩ := encThumbAlu_word 0b1111#4 rs rd
  have hr : thumbRowOf false true false false false false true true true true = 11 := by decide
  change decodeCode (encThumbAlu 0b1111#4 rs rd) = _
  rw [hw, decodeCode, decodeThumb_half, hrow.trans (hr)]
  simp [thumbBody, decodeThumbAlu, f1, f2, f3]

theorem tAddHi (h1 : Bool) (h2 : Bool) (rs : LowReg) (rd : LowReg) : Statement (.tAddHi h1 h2 rs
    rd) := by
  intro _
  obtain ⟨w, hw, hrow, f1, f2, f3, f4, f5⟩ := encThumbHi_word 0b00#2 h1 h2 rs rd
  have hr : ∀ a0 a1 : Bool, thumbRowOf false true false false false true false false a0 a1 = 12 :=
      by decide
  change decodeCode (encThumbHi 0b00#2 h1 h2 rs rd) = _
  rw [hw, decodeCode, decodeThumb_half, hrow.trans (hr _ _)]
  simp [thumbBody, f1, f2, f3, f4, f5]

theorem tCmpHi (h1 : Bool) (h2 : Bool) (rs : LowReg) (rd : LowReg) : Statement (.tCmpHi h1 h2 rs
    rd) := by
  intro _
  obtain ⟨w, hw, hrow, f1, f2, f3, f4, f5⟩ := encThumbHi_word 0b01#2 h1 h2 rs rd
  have hr : ∀ a0 a1 : Bool, thumbRowOf false true false false false true false true a0 a1 = 13 :=
      by decide
  change decodeCode (encThumbHi 0b01#2 h1 h2 rs rd) = _
  rw [hw, decodeCode, decodeThumb_half, hrow.trans (hr _ _)]
  simp [thumbBody, f1, f2, f3, f4, f5]

theorem tMovHi (h1 : Bool) (h2 : Bool) (rs : LowReg) (rd : LowReg) : Statement (.tMovHi h1 h2 rs
    rd) := by
  intro _
  obtain ⟨w, hw, hrow, f1, f2, f3, f4, f5⟩ := encThumbHi_word 0b10#2 h1 h2 rs rd
  have hr : ∀ a0 a1 : Bool, thumbRowOf false true false false false true true false a0 a1 = 14 :=
      by decide
  change decodeCode (encThumbHi 0b10#2 h1 h2 rs rd) = _
  rw [hw, decodeCode, decodeThumb_half, hrow.trans (hr _ _)]
  simp [thumbBody, f1, f2, f3, f4, f5]

theorem tBx (h1 : Bool) (h2 : Bool) (rs : LowReg) (rd : LowReg) : Statement (.tBx h1 h2 rs rd) := by
  intro _
  obtain ⟨w, hw, hrow, f1, f2, f3, f4, f5⟩ := encThumbHi_word 0b11#2 h1 h2 rs rd
  have hr : ∀ a0 a1 : Bool, thumbRowOf false true false false false true true true a0 a1 = 15 :=
      by decide
  change decodeCode (encThumbHi 0b11#2 h1 h2 rs rd) = _
  rw [hw, decodeCode, decodeThumb_half, hrow.trans (hr _ _)]
  simp [thumbBody, f1, f2, f3, f4, f5]

theorem tLdrPc (rd : LowReg) (imm : BitVec 8) : Statement (.tLdrPc rd imm) := by
  intro _
  obtain ⟨w, hw, hrow, f1, f2, f3⟩ := encThumbImm8_word 0b01001#5 rd imm
  have hr : ∀ a0 a1 a2 a3 a4 : Bool, thumbRowOf false true false false true a0 a1 a2 a3 a4 = 16 :=
      by decide
  change decodeCode (encThumbImm8 0b01001#5 rd imm) = _
  rw [hw, decodeCode, decodeThumb_half, hrow.trans (hr _ _ _ _ _)]
  simp [thumbBody, f1, f2, f3]

theorem tStrReg (ro : LowReg) (rb : LowReg) (rd : LowReg) : Statement (.tStrReg ro rb rd) := by
  intro _
  obtain ⟨w, hw, hrow, f1, f2, f3, f4, f5⟩ := encThumb3_word 0b0101000#7 (lowBits ro) rb rd
  have hr : ∀ a0 a1 a2 : Bool, thumbRowOf false true false true false false false a0 a1 a2 = 17 :=
      by decide
  change decodeCode (encThumb3 0b0101000#7 (lowBits ro) rb rd) = _
  rw [hw, decodeCode, decodeThumb_half, hrow.trans (hr _ _ _)]
  simp [thumbBody, f1, f2, f3, f4, f5, toFin_lowBits]

theorem tStrhReg (ro : LowReg) (rb : LowReg) (rd : LowReg) : Statement (.tStrhReg ro rb rd) := by
  intro _
  obtain ⟨w, hw, hrow, f1, f2, f3, f4, f5⟩ := encThumb3_word 0b0101001#7 (lowBits ro) rb rd
  have hr : ∀ a0 a1 a2 : Bool, thumbRowOf false true false true false false true a0 a1 a2 = 18 :=
      by decide
  change decodeCode (encThumb3 0b0101001#7 (lowBits ro) rb rd) = _
  rw [hw, decodeCode, decodeThumb_half, hrow.trans (hr _ _ _)]
  simp [thumbBody, f1, f2, f3, f4, f5, toFin_lowBits]

theorem tStrbReg (ro : LowReg) (rb : LowReg) (rd : LowReg) : Statement (.tStrbReg ro rb rd) := by
  intro _
  obtain ⟨w, hw, hrow, f1, f2, f3, f4, f5⟩ := encThumb3_word 0b0101010#7 (lowBits ro) rb rd
  have hr : ∀ a0 a1 a2 : Bool, thumbRowOf false true false true false true false a0 a1 a2 = 19 :=
      by decide
  change decodeCode (encThumb3 0b0101010#7 (lowBits ro) rb rd) = _
  rw [hw, decodeCode, decodeThumb_half, hrow.trans (hr _ _ _)]
  simp [thumbBody, f1, f2, f3, f4, f5, toFin_lowBits]

theorem tLdsbReg (ro : LowReg) (rb : LowReg) (rd : LowReg) : Statement (.tLdsbReg ro rb rd) := by
  intro _
  obtain ⟨w, hw, hrow, f1, f2, f3, f4, f5⟩ := encThumb3_word 0b0101011#7 (lowBits ro) rb rd
  have hr : ∀ a0 a1 a2 : Bool, thumbRowOf false true false true false true true a0 a1 a2 = 20 :=
      by decide
  change decodeCode (encThumb3 0b0101011#7 (lowBits ro) rb rd) = _
  rw [hw, decodeCode, decodeThumb_half, hrow.trans (hr _ _ _)]
  simp [thumbBody, f1, f2, f3, f4, f5, toFin_lowBits]

theorem tLdrReg (ro : LowReg) (rb : LowReg) (rd : LowReg) : Statement (.tLdrReg ro rb rd) := by
  intro _
  obtain ⟨w, hw, hrow, f1, f2, f3, f4, f5⟩ := encThumb3_word 0b0101100#7 (lowBits ro) rb rd
  have hr : ∀ a0 a1 a2 : Bool, thumbRowOf false true false true true false false a0 a1 a2 = 21 :=
      by decide
  change decodeCode (encThumb3 0b0101100#7 (lowBits ro) rb rd) = _
  rw [hw, decodeCode, decodeThumb_half, hrow.trans (hr _ _ _)]
  simp [thumbBody, f1, f2, f3, f4, f5, toFin_lowBits]

theorem tLdrhReg (ro : LowReg) (rb : LowReg) (rd : LowReg) : Statement (.tLdrhReg ro rb rd) := by
  intro _
  obtain ⟨w, hw, hrow, f1, f2, f3, f4, f5⟩ := encThumb3_word 0b0101101#7 (lowBits ro) rb rd
  have hr : ∀ a0 a1 a2 : Bool, thumbRowOf false true false true true false true a0 a1 a2 = 22 :=
      by decide
  change decodeCode (encThumb3 0b0101101#7 (lowBits ro) rb rd) = _
  rw [hw, decodeCode, decodeThumb_half, hrow.trans (hr _ _ _)]
  simp [thumbBody, f1, f2, f3, f4, f5, toFin_lowBits]

theorem tLdrbReg (ro : LowReg) (rb : LowReg) (rd : LowReg) : Statement (.tLdrbReg ro rb rd) := by
  intro _
  obtain ⟨w, hw, hrow, f1, f2, f3, f4, f5⟩ := encThumb3_word 0b0101110#7 (lowBits ro) rb rd
  have hr : ∀ a0 a1 a2 : Bool, thumbRowOf false true false true true true false a0 a1 a2 = 23 :=
      by decide
  change decodeCode (encThumb3 0b0101110#7 (lowBits ro) rb rd) = _
  rw [hw, decodeCode, decodeThumb_half, hrow.trans (hr _ _ _)]
  simp [thumbBody, f1, f2, f3, f4, f5, toFin_lowBits]

theorem tLdshReg (ro : LowReg) (rb : LowReg) (rd : LowReg) : Statement (.tLdshReg ro rb rd) := by
  intro _
  obtain ⟨w, hw, hrow, f1, f2, f3, f4, f5⟩ := encThumb3_word 0b0101111#7 (lowBits ro) rb rd
  have hr : ∀ a0 a1 a2 : Bool, thumbRowOf false true false true true true true a0 a1 a2 = 24 := by
      decide
  change decodeCode (encThumb3 0b0101111#7 (lowBits ro) rb rd) = _
  rw [hw, decodeCode, decodeThumb_half, hrow.trans (hr _ _ _)]
  simp [thumbBody, f1, f2, f3, f4, f5, toFin_lowBits]

theorem tStrImm (imm : BitVec 5) (rb : LowReg) (rd : LowReg) : Statement (.tStrImm imm rb rd) := by
  intro _
  obtain ⟨w, hw, hrow, f1, f2, f3, f4⟩ := encThumbImm5_word 0b01100#5 imm rb rd
  have hr : ∀ a0 a1 a2 a3 a4 : Bool, thumbRowOf false true true false false a0 a1 a2 a3 a4 = 25 :=
      by decide
  change decodeCode (encThumbImm5 0b01100#5 imm rb rd) = _
  rw [hw, decodeCode, decodeThumb_half, hrow.trans (hr _ _ _ _ _)]
  simp [thumbBody, f1, f2, f3, f4]

theorem tLdrImm (imm : BitVec 5) (rb : LowReg) (rd : LowReg) : Statement (.tLdrImm imm rb rd) := by
  intro _
  obtain ⟨w, hw, hrow, f1, f2, f3, f4⟩ := encThumbImm5_word 0b01101#5 imm rb rd
  have hr : ∀ a0 a1 a2 a3 a4 : Bool, thumbRowOf false true true false true a0 a1 a2 a3 a4 = 26 :=
      by decide
  change decodeCode (encThumbImm5 0b01101#5 imm rb rd) = _
  rw [hw, decodeCode, decodeThumb_half, hrow.trans (hr _ _ _ _ _)]
  simp [thumbBody, f1, f2, f3, f4]

theorem tStrbImm (imm : BitVec 5) (rb : LowReg) (rd : LowReg) : Statement (.tStrbImm imm rb rd) :=
    by
  intro _
  obtain ⟨w, hw, hrow, f1, f2, f3, f4⟩ := encThumbImm5_word 0b01110#5 imm rb rd
  have hr : ∀ a0 a1 a2 a3 a4 : Bool, thumbRowOf false true true true false a0 a1 a2 a3 a4 = 27 :=
      by decide
  change decodeCode (encThumbImm5 0b01110#5 imm rb rd) = _
  rw [hw, decodeCode, decodeThumb_half, hrow.trans (hr _ _ _ _ _)]
  simp [thumbBody, f1, f2, f3, f4]

theorem tLdrbImm (imm : BitVec 5) (rb : LowReg) (rd : LowReg) : Statement (.tLdrbImm imm rb rd) :=
    by
  intro _
  obtain ⟨w, hw, hrow, f1, f2, f3, f4⟩ := encThumbImm5_word 0b01111#5 imm rb rd
  have hr : ∀ a0 a1 a2 a3 a4 : Bool, thumbRowOf false true true true true a0 a1 a2 a3 a4 = 28 :=
      by decide
  change decodeCode (encThumbImm5 0b01111#5 imm rb rd) = _
  rw [hw, decodeCode, decodeThumb_half, hrow.trans (hr _ _ _ _ _)]
  simp [thumbBody, f1, f2, f3, f4]

theorem tStrhImm (imm : BitVec 5) (rb : LowReg) (rd : LowReg) : Statement (.tStrhImm imm rb rd) :=
    by
  intro _
  obtain ⟨w, hw, hrow, f1, f2, f3, f4⟩ := encThumbImm5_word 0b10000#5 imm rb rd
  have hr : ∀ a0 a1 a2 a3 a4 : Bool, thumbRowOf true false false false false a0 a1 a2 a3 a4 = 29
      := by decide
  change decodeCode (encThumbImm5 0b10000#5 imm rb rd) = _
  rw [hw, decodeCode, decodeThumb_half, hrow.trans (hr _ _ _ _ _)]
  simp [thumbBody, f1, f2, f3, f4]

theorem tLdrhImm (imm : BitVec 5) (rb : LowReg) (rd : LowReg) : Statement (.tLdrhImm imm rb rd) :=
    by
  intro _
  obtain ⟨w, hw, hrow, f1, f2, f3, f4⟩ := encThumbImm5_word 0b10001#5 imm rb rd
  have hr : ∀ a0 a1 a2 a3 a4 : Bool, thumbRowOf true false false false true a0 a1 a2 a3 a4 = 30 :=
      by decide
  change decodeCode (encThumbImm5 0b10001#5 imm rb rd) = _
  rw [hw, decodeCode, decodeThumb_half, hrow.trans (hr _ _ _ _ _)]
  simp [thumbBody, f1, f2, f3, f4]

theorem tStrSp (rd : LowReg) (imm : BitVec 8) : Statement (.tStrSp rd imm) := by
  intro _
  obtain ⟨w, hw, hrow, f1, f2, f3⟩ := encThumbImm8_word 0b10010#5 rd imm
  have hr : ∀ a0 a1 a2 a3 a4 : Bool, thumbRowOf true false false true false a0 a1 a2 a3 a4 = 31 :=
      by decide
  change decodeCode (encThumbImm8 0b10010#5 rd imm) = _
  rw [hw, decodeCode, decodeThumb_half, hrow.trans (hr _ _ _ _ _)]
  simp [thumbBody, f1, f2, f3]

theorem tLdrSp (rd : LowReg) (imm : BitVec 8) : Statement (.tLdrSp rd imm) := by
  intro _
  obtain ⟨w, hw, hrow, f1, f2, f3⟩ := encThumbImm8_word 0b10011#5 rd imm
  have hr : ∀ a0 a1 a2 a3 a4 : Bool, thumbRowOf true false false true true a0 a1 a2 a3 a4 = 32 :=
      by decide
  change decodeCode (encThumbImm8 0b10011#5 rd imm) = _
  rw [hw, decodeCode, decodeThumb_half, hrow.trans (hr _ _ _ _ _)]
  simp [thumbBody, f1, f2, f3]

theorem tAddPc (rd : LowReg) (imm : BitVec 8) : Statement (.tAddPc rd imm) := by
  intro _
  obtain ⟨w, hw, hrow, f1, f2, f3⟩ := encThumbImm8_word 0b10100#5 rd imm
  have hr : ∀ a0 a1 a2 a3 a4 : Bool, thumbRowOf true false true false false a0 a1 a2 a3 a4 = 33 :=
      by decide
  change decodeCode (encThumbImm8 0b10100#5 rd imm) = _
  rw [hw, decodeCode, decodeThumb_half, hrow.trans (hr _ _ _ _ _)]
  simp [thumbBody, f1, f2, f3]

theorem tAddSp (rd : LowReg) (imm : BitVec 8) : Statement (.tAddSp rd imm) := by
  intro _
  obtain ⟨w, hw, hrow, f1, f2, f3⟩ := encThumbImm8_word 0b10101#5 rd imm
  have hr : ∀ a0 a1 a2 a3 a4 : Bool, thumbRowOf true false true false true a0 a1 a2 a3 a4 = 34 :=
      by decide
  change decodeCode (encThumbImm8 0b10101#5 rd imm) = _
  rw [hw, decodeCode, decodeThumb_half, hrow.trans (hr _ _ _ _ _)]
  simp [thumbBody, f1, f2, f3]

theorem tAddSpImm (imm : BitVec 7) : Statement (.tAddSpImm imm) := by
  intro _
  obtain ⟨w, hw, hrow, f1⟩ := enc_tAddSpImm imm
  have hr : ∀ a0 : Bool, thumbRowOf true false true true false false false false false a0 = 35 :=
      by decide
  rw [hw, decodeCode, decodeThumb_half, hrow.trans (hr _)]
  simp [thumbBody, f1]

theorem tSubSpImm (imm : BitVec 7) : Statement (.tSubSpImm imm) := by
  intro _
  obtain ⟨w, hw, hrow, f1⟩ := enc_tSubSpImm imm
  have hr : ∀ a0 : Bool, thumbRowOf true false true true false false false false true a0 = 36 :=
      by decide
  rw [hw, decodeCode, decodeThumb_half, hrow.trans (hr _)]
  simp [thumbBody, f1]

theorem tPush (r : Bool) (list : BitVec 8) : Statement (.tPush r list) := by
  intro _
  obtain ⟨w, hw, hrow, f1, f2⟩ := enc_tPush r list
  have hr : ∀ a0 a1 a2 : Bool, thumbRowOf true false true true false true false a0 a1 a2 = 37 :=
      by decide
  rw [hw, decodeCode, decodeThumb_half, hrow.trans (hr _ _ _)]
  simp [thumbBody, f1, f2]

theorem tPop (r : Bool) (list : BitVec 8) : Statement (.tPop r list) := by
  intro _
  obtain ⟨w, hw, hrow, f1, f2⟩ := enc_tPop r list
  have hr : ∀ a0 a1 a2 : Bool, thumbRowOf true false true true true true false a0 a1 a2 = 38 := by
      decide
  rw [hw, decodeCode, decodeThumb_half, hrow.trans (hr _ _ _)]
  simp [thumbBody, f1, f2]

theorem tUndef1011 : Statement .tUndef1011 := by
  intro _
  obtain ⟨w, hw, hrow⟩ := enc_tUndef1011 
  have hr : thumbRowOf true false true true false false false true false false = 39 := by decide
  rw [hw, decodeCode, decodeThumb_half, hrow.trans (hr)]
  simp [thumbBody]

theorem tStmia (rb : LowReg) (list : BitVec 8) : Statement (.tStmia rb list) := by
  intro _
  obtain ⟨w, hw, hrow, f1, f2, f3⟩ := encThumbImm8_word 0b11000#5 rb list
  have hr : ∀ a0 a1 a2 a3 a4 : Bool, thumbRowOf true true false false false a0 a1 a2 a3 a4 = 40 :=
      by decide
  change decodeCode (encThumbImm8 0b11000#5 rb list) = _
  rw [hw, decodeCode, decodeThumb_half, hrow.trans (hr _ _ _ _ _)]
  simp [thumbBody, f1, f2, f3]

theorem tLdmia (rb : LowReg) (list : BitVec 8) : Statement (.tLdmia rb list) := by
  intro _
  obtain ⟨w, hw, hrow, f1, f2, f3⟩ := encThumbImm8_word 0b11001#5 rb list
  have hr : ∀ a0 a1 a2 a3 a4 : Bool, thumbRowOf true true false false true a0 a1 a2 a3 a4 = 41 :=
      by decide
  change decodeCode (encThumbImm8 0b11001#5 rb list) = _
  rw [hw, decodeCode, decodeThumb_half, hrow.trans (hr _ _ _ _ _)]
  simp [thumbBody, f1, f2, f3]

theorem tUndefCond : Statement .tUndefCond := by
  intro _
  obtain ⟨w, hw, hrow⟩ := enc_tUndefCond 
  have hr : thumbRowOf true true false true true true true false false false = 42 := by decide
  rw [hw, decodeCode, decodeThumb_half, hrow.trans (hr)]
  simp [thumbBody]

theorem tSwi (comment : BitVec 8) : Statement (.tSwi comment) := by
  intro _
  obtain ⟨w, hw, hrow, f1⟩ := enc_tSwi comment
  have hr : ∀ a0 a1 : Bool, thumbRowOf true true false true true true true true a0 a1 = 43 := by
      decide
  rw [hw, decodeCode, decodeThumb_half, hrow.trans (hr _ _)]
  simp [thumbBody, f1]

theorem tBcond (c : Cond) (off : BitVec 8) : Statement (.tBcond c off) := by
  intro h
  obtain ⟨w, hw, hrow, f1, f2⟩ := enc_tBcond c off
  have hr : ∀ a0 a1 : Bool, Instr.branchCond c = true → thumbRowOf true true false true (bit
      c.bits 3)
      (bit c.bits 2) (bit c.bits 1) (bit c.bits 0) a0 a1 = 44 := by
    cases c <;> decide
  rw [hw, decodeCode, decodeThumb_half, hrow.trans (hr _ _ h)]
  simp [thumbBody, f1, f2, Cond.ofBits_bits]

theorem tB (off : BitVec 11) : Statement (.tB off) := by
  intro _
  obtain ⟨w, hw, hrow, f1⟩ := enc_tB off
  have hr : ∀ a0 a1 a2 a3 a4 : Bool, thumbRowOf true true true false false a0 a1 a2 a3 a4 = 45 :=
      by decide
  rw [hw, decodeCode, decodeThumb_half, hrow.trans (hr _ _ _ _ _)]
  simp [thumbBody, f1]

theorem tUndef11101 : Statement .tUndef11101 := by
  intro _
  obtain ⟨w, hw, hrow⟩ := enc_tUndef11101 
  have hr : thumbRowOf true true true false true false false false false false = 46 := by decide
  rw [hw, decodeCode, decodeThumb_half, hrow.trans (hr)]
  simp [thumbBody]

theorem tBlFirst (off : BitVec 11) : Statement (.tBlFirst off) := by
  intro _
  obtain ⟨w, hw, hrow, f1⟩ := enc_tBlFirst off
  have hr : ∀ a0 a1 a2 a3 a4 : Bool, thumbRowOf true true true true false a0 a1 a2 a3 a4 = 47 :=
      by decide
  rw [hw, decodeCode, decodeThumb_half, hrow.trans (hr _ _ _ _ _)]
  simp [thumbBody, f1]

theorem tBlSecond (off : BitVec 11) : Statement (.tBlSecond off) := by
  intro _
  obtain ⟨w, hw, hrow, f1⟩ := enc_tBlSecond off
  have hr : ∀ a0 a1 a2 a3 a4 : Bool, thumbRowOf true true true true true a0 a1 a2 a3 a4 = 48 := by
      decide
  rw [hw, decodeCode, decodeThumb_half, hrow.trans (hr _ _ _ _ _)]
  simp [thumbBody, f1]

end Sys2Proof.Laws.RoundTrip
end

