-- ==== Sys2Proof/Laws/Unpred.lean ====
section
/-! SUPPORT. UNPRED_MODE changes what a check does and nothing else: every operation commutes with
setting it, and each end of a call answers with `fault` what it answers with `reference`, or stops in an
UNPREDICTABLE case. -/

namespace Sys2Proof.Machine

open Sys2Proof.Safety

/-! ## The operations commute with setting UNPRED_MODE -/

abbrev UnpredMode := Sys2Proof.Config.UnpredMode

theorem withUnpred_writeReg (m : UnpredMode) (r : Reg) (v : Word) (s : State) :
    (withUnpred m s).writeReg r v = withUnpred m (s.writeReg r v) := by
  unfold State.writeReg
  split <;> rfl

theorem withUnpred_saveBank (m : UnpredMode) (s : State) : (withUnpred m s).saveBank = withUnpred m s.saveBank := by
  have hb : (withUnpred m s).bank = s.bank := rfl
  simp only [State.saveBank, hb]
  cases s.bank <;> rfl

theorem withUnpred_switchBank (m : UnpredMode) (b : Bank) (s : State) :
    (withUnpred m s).switchBank b = withUnpred m (s.switchBank b) := by
  have hb : (withUnpred m s).bank = s.bank := rfl
  simp only [State.switchBank, withUnpred_saveBank, hb]
  split <;> rfl

theorem withUnpred_loadStatus (m : UnpredMode) (n : Word) (s : State) :
    (withUnpred m s).loadStatus n = withUnpred m (s.loadStatus n) := by
  have hc : (withUnpred m s).coerceMode n = s.coerceMode n := rfl
  have hb : (withUnpred m s).bank = s.bank := rfl
  simp only [State.loadStatus, hc, hb, withUnpred_switchBank]
  cases bankOf (s.coerceMode n) <;> dsimp only
  · rfl
  · split <;> rfl

theorem withUnpred_enter (m : UnpredMode) (k : Mode) (a l : Word) (f : Bool) (s : State) :
    (withUnpred m s).enter k a l f = withUnpred m (s.enter k a l f) := by
  have hc : (withUnpred m s).cpsr = s.cpsr := rfl
  simp only [State.enter, hc, withUnpred_loadStatus]
  rfl

theorem withUnpred_raiseDataAbort (m : UnpredMode) (s : State) :
    (withUnpred m s).raiseDataAbort = withUnpred m s.raiseDataAbort := withUnpred_enter m _ _ _ _ s

theorem withUnpred_writeUser (m : UnpredMode) (r : Reg) (v : Word) (s : State) :
    (withUnpred m s).writeUser r v = withUnpred m (s.writeUser r v) := by
  have hb : (withUnpred m s).bank = s.bank := rfl
  unfold State.writeUser
  rw [hb, withUnpred_writeReg]
  split
  · rfl
  · split
    · rfl
    · split <;> rfl

theorem withUnpred_mulCarry (m : UnpredMode) (s : State) : (withUnpred m s).mulCarry = withUnpred m s.mulCarry := by
  have hp : (withUnpred m s).params.mulCarry = s.params.mulCarry := rfl
  unfold State.mulCarry
  rw [hp]
  cases s.params.mulCarry <;> rfl

theorem withUnpred_portLoad (m : UnpredMode) (w : Width) (a : Word) (s : State) :
    (withUnpred m s).portLoad w a = ((s.portLoad w a).1, withUnpred m (s.portLoad w a).2) := by
  have h1 : (withUnpred m s).loadFails w a = s.loadFails w a := rfl
  have h2 : (withUnpred m s).atDevice w a = s.atDevice w a := rfl
  simp only [State.portLoad, h1, h2]
  split
  · rfl
  · split <;> rfl

theorem withUnpred_portStore (m : UnpredMode) (w : Width) (a v : Word) (s : State) :
    (withUnpred m s).portStore w a v = ((s.portStore w a v).1, withUnpred m (s.portStore w a v).2) := by
  have h1 : (withUnpred m s).storeFails w a = s.storeFails w a := rfl
  have h2 : (withUnpred m s).atDevice w a = s.atDevice w a := rfl
  simp only [State.portStore, h1, h2]
  split
  · rfl
  · split <;> rfl

theorem withUnpred_memRead (m : UnpredMode) (w : Width) (a : Word) (s : State) :
    (withUnpred m s).memRead w a = ((s.memRead w a).1, withUnpred m (s.memRead w a).2) := by
  unfold State.memRead
  rw [withUnpred_portLoad]
  cases w <;> rfl

theorem withUnpred_memWrite (m : UnpredMode) (w : Width) (a v : Word) (s : State) :
    (withUnpred m s).memWrite w a v = ((s.memWrite w a v).1, withUnpred m (s.memWrite w a v).2) :=
  withUnpred_portStore m w _ v s

theorem withUnpred_loadWords (m : UnpredMode) (as : List Word) (s : State) :
    (withUnpred m s).loadWords as = ((s.loadWords as).1, withUnpred m (s.loadWords as).2) := by
  induction as generalizing s with
  | nil => rfl
  | cons a rest ih =>
    simp only [State.loadWords, withUnpred_portLoad]
    rcases s.portLoad .word a with ⟨_ | v, t⟩
    · rfl
    · simp only [ih]
      rcases t.loadWords rest with ⟨_ | vs, t'⟩ <;> rfl

theorem withUnpred_storeWords (m : UnpredMode) (ws : List (Word × Word)) (s : State) :
    (withUnpred m s).storeWords ws = ((s.storeWords ws).1, withUnpred m (s.storeWords ws).2) := by
  induction ws generalizing s with
  | nil => rfl
  | cons p rest ih =>
    obtain ⟨a, v⟩ := p
    simp only [State.storeWords, withUnpred_portStore]
    rcases s.portStore .word a v with ⟨_ | _, t⟩
    · rfl
    · simp only [ih]

theorem withUnpred_endAccess (m : UnpredMode) (ix : Indexing) (rn : Reg) (s : State) :
    (withUnpred m s).endAccess ix rn = withUnpred m (s.endAccess ix rn) := by
  have ha : (withUnpred m s).advance = withUnpred m s.advance := rfl
  unfold State.endAccess
  rw [ha, withUnpred_writeReg]
  split <;> rfl

theorem withUnpred_abortAccess (m : UnpredMode) (ix : Indexing) (rn : Reg) (s : State) :
    (withUnpred m s).abortAccess ix rn = withUnpred m (s.abortAccess ix rn) := by
  have hx : (withUnpred m s).setX rn ix.newb = withUnpred m (s.setX rn ix.newb) := rfl
  have hp : (withUnpred m s).params.abortBase = s.params.abortBase := rfl
  unfold State.abortAccess
  rw [hx, hp, withUnpred_raiseDataAbort, withUnpred_raiseDataAbort]
  split <;> rfl

theorem withUnpred_blockBack (m : UnpredMode) (w : Bool) (rn : Reg) (v : Word) (s : State) :
    (withUnpred m s).blockBack w rn v = withUnpred m (s.blockBack w rn v) := by
  unfold State.blockBack
  rw [withUnpred_writeReg]
  split <;> rfl

theorem withUnpred_abortBlock (m : UnpredMode) (w : Bool) (rn : Reg) (v : Word) (s : State) :
    (withUnpred m s).abortBlock w rn v = withUnpred m (s.abortBlock w rn v) := by
  have hp : (withUnpred m s).params.abortBase = s.params.abortBase := rfl
  unfold State.abortBlock
  rw [hp, withUnpred_blockBack, withUnpred_raiseDataAbort, withUnpred_raiseDataAbort]
  split <;> rfl

theorem withUnpred_writeEach {put : Reg → Word → State → State} (m : UnpredMode)
    (h : ∀ r v s, put r v (withUnpred m s) = withUnpred m (put r v s)) (ps : List (Reg × Word)) (s : State) :
    writeEach put ps (withUnpred m s) = withUnpred m (writeEach put ps s) := by
  induction ps generalizing s with
  | nil => rfl
  | cons p rest ih =>
    show writeEach put rest (put p.1 p.2 (withUnpred m s)) = withUnpred m (writeEach put rest (put p.1 p.2 s))
    rw [h, ih]

theorem withUnpred_loadLive (m : UnpredMode) (ps : List (Reg × Word)) (s : State) :
    loadLive ps (withUnpred m s) = withUnpred m (loadLive ps s) :=
  withUnpred_writeEach m (withUnpred_writeReg m) ps s

theorem withUnpred_loadUser (m : UnpredMode) (ps : List (Reg × Word)) (s : State) :
    loadUser ps (withUnpred m s) = withUnpred m (loadUser ps s) :=
  withUnpred_writeEach m (withUnpred_writeUser m) ps s

theorem withUnpred_loadRestore (m : UnpredMode) (ps : List (Reg × Word)) (s : State) :
    loadRestore ps (withUnpred m s) = withUnpred m (loadRestore ps s) := by
  have h : ∀ t a, (if (withUnpred m t).inUserBank then withUnpred m t
      else (withUnpred m t).loadStatus (withUnpred m t).spsr).writePC a =
      withUnpred m ((if t.inUserBank then t else t.loadStatus t.spsr).writePC a) := by
    intro t a
    have hu : (withUnpred m t).inUserBank = t.inUserBank := rfl
    have hs : (withUnpred m t).spsr = t.spsr := rfl
    rw [hu, hs, withUnpred_loadStatus]
    split <;> rfl
  have hp : (withUnpred m s).params.ldmSPcBank = s.params.ldmSPcBank := rfl
  unfold loadRestore
  rw [hp]
  cases s.params.ldmSPcBank
  · dsimp only
    rw [withUnpred_loadUser]
    exact h _ _
  · dsimp only
    rw [withUnpred_loadLive]
    exact h _ _

/-! ## The ends of a call -/

/-- What `r` answers with UNPRED_MODE = fault, against what `q` answers with reference. -/
def Refines (r q : Result) : Prop :=
  (∃ u, r = .fault (.unpredictable u)) ∨
    match q with
    | .next t => r = .next (withUnpred .fault t)
    | .fault f => r = .fault f
    | .refused x => r = .refused x

/-- An end of a call, as a function of the state, refines itself. -/
def SelfRefines (f : State → Result) : Prop :=
  ∀ s, Refines (f (withUnpred .fault s)) (f (withUnpred .reference s))

theorem Refines.of_next {m : State → State} (h : ∀ k s, m (withUnpred k s) = withUnpred k (m s)) (s : State) :
    Refines (.next (m (withUnpred .fault s))) (.next (m (withUnpred .reference s))) := by
  refine .inr ?_
  show Host.Outcome.next _ = Host.Outcome.next _
  rw [h, h]
  rfl

theorem SelfRefines.of_next {m : State → State} (h : ∀ k s, m (withUnpred k s) = withUnpred k (m s)) :
    SelfRefines fun s => .next (m s) := fun s => .of_next h s

/-- A check stops with `fault` where it is met, and lets `reference` go on. -/
theorem Refines.of_guard {s : State} {r q : Result} (b : Bool) (u : UCase) (h : Refines r q) :
    Refines ((withUnpred .fault s).guard b u r) ((withUnpred .reference s).guard b u q) := by
  have hq : (withUnpred .reference s).guard b u q = q := by
    have hm : (withUnpred .reference s).params.unpredMode = .reference := rfl
    simp [State.guard, hm]
  rw [hq]
  unfold State.guard
  split
  · exact .inl ⟨u, rfl⟩
  · exact h

theorem Refines.of_emptyCheck {s : State} {r q : Result} (list : BitVec 16) (h : Refines r q) :
    Refines ((withUnpred .fault s).emptyCheck list r) ((withUnpred .reference s).emptyCheck list q) := by
  have hp : ∀ m, (withUnpred m s).params.emptyRlist = s.params.emptyRlist := fun _ => rfl
  unfold State.emptyCheck
  rw [hp, hp]
  split
  · exact .inr rfl
  · exact h

theorem SelfRefines.of_armCall {rule : State → Result} (c : Cond) (h : SelfRefines rule) :
    SelfRefines fun s => armCall c s rule := by
  intro s
  have ht : ∀ m, (withUnpred m s).thumb = s.thumb := fun _ => rfl
  have hc : ∀ m, (withUnpred m s).cpsr = s.cpsr := fun _ => rfl
  have hb : ∀ m, (withUnpred m s).beginCall = withUnpred m s.beginCall := fun _ => rfl
  dsimp only
  unfold armCall
  rw [ht, ht, hc, hc, hb, hb]
  split
  · exact .inr rfl
  · split
    · exact h s.beginCall
    · exact .of_next (m := State.advance) (fun _ _ => rfl) s.beginCall

theorem SelfRefines.of_thumbCall {rule : State → Result} (h : SelfRefines rule) :
    SelfRefines fun s => thumbCall s rule := by
  intro s
  have ht : ∀ m, (withUnpred m s).thumb = s.thumb := fun _ => rfl
  have hb : ∀ m, (withUnpred m s).beginCall = withUnpred m s.beginCall := fun _ => rfl
  dsimp only
  unfold thumbCall
  rw [ht, ht, hb, hb]
  split
  · exact h s.beginCall
  · exact .inr rfl

theorem dpWrite_refines (sf : Bool) (rd : Reg) (o : DpOut) : SelfRefines (dpWrite sf rd o) := by
  intro s
  unfold dpWrite
  split
  · refine .of_guard _ _ (.of_guard _ _ (.of_next (m := fun s => s.advance.exceptionReturn o.result) ?_ s))
    intro k s
    show ((withUnpred k s.advance).loadStatus s.spsr).writePC _ = _
    rw [withUnpred_loadStatus]
    rfl
  · refine .of_next (m := fun s => if sf then (s.advance.writeReg rd o.result).setFlagsDp o
      else s.advance.writeReg rd o.result) ?_ s
    intro k s
    have ha : (withUnpred k s).advance = withUnpred k s.advance := rfl
    rw [ha, withUnpred_writeReg]
    split
    · cases o <;> rfl
    · rfl

theorem dpCompare_refines (rd : Reg) (o : DpOut) : SelfRefines (dpCompare rd o) := by
  intro s
  unfold dpCompare
  split
  · exact .of_guard _ _ (.of_next (m := fun s => s.advance.loadStatus s.spsr)
      (fun k s => withUnpred_loadStatus k _ s.advance) s)
  · refine .of_next (m := fun s => s.advance.setFlagsDp o) ?_ s
    intro k s
    cases o <;> rfl

theorem mulWrite_refines (sf : Bool) (rd : Reg) (v : Word) : SelfRefines (mulWrite sf rd v) := by
  intro s
  refine .of_next (m := fun s => if sf then (s.advance.writeReg rd v).setFlagsMul v else s.advance.writeReg rd v) ?_ s
  intro k s
  have ha : (withUnpred k s).advance = withUnpred k s.advance := rfl
  rw [ha, withUnpred_writeReg]
  split
  · exact withUnpred_mulCarry k ((s.advance.writeReg rd v).setFlagsNZ v)
  · rfl

theorem mulLongWrite_refines (sf : Bool) (hi lo : Reg) (v : BitVec 64) : SelfRefines (mulLongWrite sf hi lo v) := by
  intro s
  refine .of_next (m := fun s =>
    if sf then ((s.advance.writeReg lo (field v 0 32)).writeReg hi (field v 32 32)).setFlagsMulLong v
    else (s.advance.writeReg lo (field v 0 32)).writeReg hi (field v 32 32)) ?_ s
  intro k s
  have ha : (withUnpred k s).advance = withUnpred k s.advance := rfl
  rw [ha, withUnpred_writeReg, withUnpred_writeReg]
  split
  · let t := (s.advance.writeReg lo (field v 0 32)).writeReg hi (field v 32 32)
    exact withUnpred_mulCarry k { t with cpsr := setNZ64 t.cpsr v }
  · rfl

theorem endLoad_refines (ix : Indexing) (rn rd : Reg) (fix : Word → Word) {acc : State → Option Word × State}
    (h : ∀ k s, acc (withUnpred k s) = ((acc s).1, withUnpred k (acc s).2)) :
    SelfRefines fun s => State.endLoad ix rn rd fix (acc s) := by
  intro s
  dsimp only
  rw [h, h]
  rcases acc s with ⟨_ | v, t⟩
  · exact .of_next (m := fun t => t.abortAccess ix rn) (fun k t => withUnpred_abortAccess k ix rn t) t
  · refine .of_next (m := fun t => (t.endAccess ix rn).writeReg rd (fix v)) ?_ t
    intro k t
    rw [withUnpred_endAccess, withUnpred_writeReg]

theorem endStore_refines (ix : Indexing) (rn : Reg) {acc : State → Bool × State}
    (h : ∀ k s, acc (withUnpred k s) = ((acc s).1, withUnpred k (acc s).2)) :
    SelfRefines fun s => State.endStore ix rn (acc s) := by
  intro s
  dsimp only
  rw [h, h]
  rcases acc s with ⟨_ | _, t⟩
  · exact .of_next (m := fun t => t.abortAccess ix rn) (fun k t => withUnpred_abortAccess k ix rn t) t
  · exact .of_next (m := fun t => t.endAccess ix rn) (fun k t => withUnpred_endAccess k ix rn t) t

theorem singleLoad_refines (w : Width) (ix : Indexing) (rn rd : Reg) (fix : Word → Word) :
    SelfRefines (singleLoad w ix rn rd fix) :=
  endLoad_refines ix rn rd fix fun k s => withUnpred_memRead k w ix.addr s

theorem singleStore_refines (w : Width) (ix : Indexing) (rn : Reg) (v : Word) :
    SelfRefines (singleStore w ix rn v) :=
  endStore_refines ix rn fun k s => withUnpred_memWrite k w ix.addr v s

theorem userLoad_refines (w : Width) (ix : Indexing) (rn rd : Reg) : SelfRefines (userLoad w ix rn rd) := by
  refine endLoad_refines ix rn rd id
    (acc := fun s => ((s.forceUser.memRead w ix.addr).1, (s.forceUser.memRead w ix.addr).2.loadStatus s.cpsr)) ?_
  intro k s
  have hf : (withUnpred k s).forceUser = withUnpred k s.forceUser := withUnpred_loadStatus k _ s
  have hc : (withUnpred k s).cpsr = s.cpsr := rfl
  dsimp only
  rw [hf, hc, withUnpred_memRead, withUnpred_loadStatus]

theorem userStore_refines (w : Width) (ix : Indexing) (rn : Reg) (v : Word) : SelfRefines (userStore w ix rn v) := by
  refine endStore_refines ix rn
    (acc := fun s => ((s.forceUser.memWrite w ix.addr v).1, (s.forceUser.memWrite w ix.addr v).2.loadStatus s.cpsr)) ?_
  intro k s
  have hf : (withUnpred k s).forceUser = withUnpred k s.forceUser := withUnpred_loadStatus k _ s
  have hc : (withUnpred k s).cpsr = s.cpsr := rfl
  dsimp only
  rw [hf, hc, withUnpred_memWrite, withUnpred_loadStatus]

theorem swap_refines (w : Width) (a v : Word) (rd : Reg) : SelfRefines (swap w a v rd) := by
  intro s
  unfold swap
  rw [withUnpred_memRead, withUnpred_memRead]
  rcases s.memRead w a with ⟨_ | x, t⟩
  · exact .of_next (m := State.raiseDataAbort) (fun k t => withUnpred_raiseDataAbort k t) t
  · dsimp only
    rw [withUnpred_memWrite, withUnpred_memWrite]
    rcases t.memWrite w a v with ⟨_ | _, t'⟩
    · exact .of_next (m := State.raiseDataAbort) (fun k t => withUnpred_raiseDataAbort k t) t'
    · exact .of_next (m := fun t => t.advance.writeReg rd x) (fun k t => withUnpred_writeReg k rd x t.advance) t'

theorem blockLoad_refines (b : Block) (w : Bool) (rn : Reg) {done : List (Reg × Word) → State → State}
    (hd : ∀ k ps t, done ps (withUnpred k t) = withUnpred k (done ps t)) : SelfRefines (blockLoad b w rn done) := by
  intro s
  unfold blockLoad
  rw [withUnpred_loadWords, withUnpred_loadWords]
  rcases s.loadWords b.addrs with ⟨_ | vs, t⟩
  · exact .of_next (m := fun t => t.abortBlock w rn b.newb) (fun k t => withUnpred_abortBlock k w rn b.newb t) t
  · refine .of_next (m := fun t => done (b.regs.zip vs) (t.advance.blockBack w rn b.newb)) ?_ t
    intro k t
    have ha : (withUnpred k t).advance = withUnpred k t.advance := rfl
    rw [ha, withUnpred_blockBack, hd]

theorem blockStore_refines (b : Block) (w : Bool) (rn : Reg) (val : Reg → Word) :
    SelfRefines (blockStore b w rn val) := by
  intro s
  unfold blockStore
  rw [withUnpred_storeWords, withUnpred_storeWords]
  rcases s.storeWords (b.addrs.zip (b.regs.map val)) with ⟨_ | _, t⟩
  · exact .of_next (m := fun t => t.abortBlock w rn b.newb) (fun k t => withUnpred_abortBlock k w rn b.newb t) t
  · exact .of_next (m := fun t => t.advance.blockBack w rn b.newb)
      (fun k t => withUnpred_blockBack k w rn b.newb t.advance) t

theorem branchExchange_refines (v : Word) : SelfRefines (branchExchange v) := by
  intro s
  refine .of_guard _ _ (.of_next (m := fun s => (s.loadStatus (setT s.cpsr (bit v 0))).writePC (v &&& 0xFFFFFFFE)) ?_ s)
  intro k s
  have hc : (withUnpred k s).cpsr = s.cpsr := rfl
  rw [hc, withUnpred_loadStatus]
  rfl

theorem statusWrite_refines (r : Bool) (fm : BitVec 4) (v : Word) : SelfRefines (statusWrite r fm v) := by
  intro s
  unfold statusWrite
  split
  · exact .of_guard _ _ (.of_next (m := fun s => { s.advance with spsr := msrMerge s.spsr v (msrMask fm s.cpsr) })
      (fun _ _ => rfl) s)
  · exact .of_guard _ _ (.of_guard _ _ (.of_next
      (m := fun s => s.advance.loadStatus (msrMerge s.cpsr v (msrMask fm s.cpsr)))
      (fun k s => withUnpred_loadStatus k _ s.advance) s))

theorem thumbShift_refines (rd : Reg) (r : Word × Bool) : SelfRefines (thumbShift rd r) :=
  .of_next (m := fun s => (s.advance.setX rd r.1).setFlagsLogic r.1 r.2) fun _ _ => rfl

theorem thumbArith_refines (rd : Reg) (o : AluOut) : SelfRefines (thumbArith rd o) :=
  .of_next (m := fun s => (s.advance.setX rd o.result).setFlagsArith o) fun _ _ => rfl

theorem thumbLogic_refines (rd : Reg) (v : Word) : SelfRefines (thumbLogic rd v) :=
  .of_next (m := fun s => (s.advance.setX rd v).setFlagsNZ v) fun _ _ => rfl

theorem thumbCompare_refines (o : AluOut) : SelfRefines (thumbCompare o) :=
  .of_next (m := fun s => s.advance.setFlagsArith o) fun _ _ => rfl

theorem thumbMove_refines (rd : Reg) (v : Word) : SelfRefines (thumbMove rd v) :=
  .of_next (m := fun s => s.advance.writeReg rd v) fun k s => withUnpred_writeReg k rd v s.advance

end Sys2Proof.Machine
end

