-- ==== Sys2Proof/Tests/Slice0.lean ====
section
/-! SUPPORT. Tests. The decode words are written out bit by bit from the encodings of spec/30_encoding.md; the
expected results of the one-step tests are the examples of the rules of spec/ (the rule stands in each
comment); the witnesses meet the hypotheses of the statements. -/

namespace Sys2Proof.Tests

open Sys2Proof.Machine Sys2Proof.Safety

/-! ## Helpers -/

/-- Registers written one after the other. -/
def withRegs (ps : List (Reg × Word)) (s : State) : State := ps.foldl (fun t p => t.setX p.1 p.2) s

/-- Words of plain memory written one after the other. -/
def withWords (ws : List (Nat × Word)) (s : State) : State :=
  { s with mem := ws.foldl (fun m p => m.write32 p.1 p.2) s.mem }

/-- ARM state at 0x1000 with this status and these registers, where the examples of spec/41 to 47 run. -/
def arm (st : Word) (ps : List (Reg × Word)) : State :=
  withRegs ((15, 0x1008) :: ps) { State.reset with cpsr := st }

/-- Thumb state at 0x1000, where the examples of spec/48 and 49 run. -/
def thumb (st : Word) (ps : List (Reg × Word)) : State :=
  withRegs ((15, 0x1004) :: ps) { State.reset with cpsr := st }

/-- The data the load and store examples read. -/
def data (s : State) : State :=
  withWords [(0x2000, 0x8001FF7F), (0x2004, 0x11223344), (0x1008, 0xCAFEBABE)] s

/-- Does the call end in a next state with these registers, this status and these words of memory? -/
def ends (r : Result) (regs : List (Reg × Word)) (st : Word) (ws : List (Nat × Word)) : Bool :=
  match r with
  | .next t => regs.all (fun p => t.reg p.1 == p.2) && t.cpsr == st &&
      ws.all (fun p => t.mem.read32 p.1 == p.2)
  | _ => false

/-- Does the call end in a next state of which `p` holds? -/
def endsWith (r : Result) (p : State → Bool) : Bool :=
  match r with
  | .next t => p t
  | _ => false

/-- Does the call stop with this fault? -/
def stopsWith (r : Result) (f : Fault) : Bool :=
  match r with
  | .fault g => g == f
  | _ => false

/-- One ARM word executed. -/
def runArm (w : Word) (s : State) : Result := exec (decodeArm w) s

/-- One Thumb halfword executed. -/
def runThumb (h : Half) (s : State) : Result := exec (decodeThumb h) s

/-! ## WellFormed: an ill-formed term for each check -/

theorem test_ill_formed_strImm : Instr.wf (.strImm .al false true true 1 0 4) = false := by decide
theorem test_ill_formed_ldrImm : Instr.wf (.ldrImm .al false true true 1 0 4) = false := by decide
theorem test_ill_formed_strbImm : Instr.wf (.strbImm .al false true true 1 0 4) = false := by decide
theorem test_ill_formed_ldrbImm : Instr.wf (.ldrbImm .al false true true 1 0 4) = false := by decide
theorem test_ill_formed_strReg : Instr.wf (.strReg .al false true true 1 0 4 .lsl 2) = false := by decide
theorem test_ill_formed_ldrReg : Instr.wf (.ldrReg .al false true true 1 0 4 .lsl 2) = false := by decide
theorem test_ill_formed_strbReg : Instr.wf (.strbReg .al false true true 1 0 4 .lsl 2) = false := by decide
theorem test_ill_formed_ldrbReg : Instr.wf (.ldrbReg .al false true true 1 0 4 .lsl 2) = false := by decide
theorem test_ill_formed_ldmRestore : Instr.wf (.ldmRestore .al false true true 13 0x0001) = false := by decide
theorem test_ill_formed_ldmUser : Instr.wf (.ldmUser .al false true true 13 0x8001) = false := by decide
theorem test_ill_formed_bcond_al : Instr.wf (.tBcond .al 2) = false := by decide
theorem test_ill_formed_bcond_nv : Instr.wf (.tBcond .nv 2) = false := by decide

theorem test_well_formed : Instr.wf (.ldrImm .al false true false 1 0 4) = true ∧
    Instr.wf (.ldmRestore .al false true true 13 0x8001) = true ∧
    Instr.wf (.ldmUser .al false true true 13 0x2001) = true ∧ Instr.wf (.tBcond .le 2) = true := by decide

/-! ## Decode: one word for every constructor -/

theorem test_decode_branch :
    decodeArm 0b11100001001011111111111100011100 = .bx .al 12 ∧
    decodeArm 0b11101010101100111000111100001011 = .b .al 0xb38f0b ∧
    decodeArm 0b11101011101100111000111100001011 = .bl .al 0xb38f0b := by decide

theorem test_decode_multiply :
    decodeArm 0b11100000000101010011100110011100 = .mul .al true 5 3 9 12 ∧
    decodeArm 0b11100000001101010011100110011100 = .mla .al true 5 3 9 12 ∧
    decodeArm 0b11100000100101101010100110011100 = .umull .al true 6 10 9 12 ∧
    decodeArm 0b11100000101101101010100110011100 = .umlal .al true 6 10 9 12 ∧
    decodeArm 0b11100000110101101010100110011100 = .smull .al true 6 10 9 12 ∧
    decodeArm 0b11100000111101101010100110011100 = .smlal .al true 6 10 9 12 := by decide

theorem test_decode_swap :
    decodeArm 0b11100001000000110101000010011100 = .swp .al 3 5 12 ∧
    decodeArm 0b11100001010000110101000010011100 = .swpb .al 3 5 12 := by decide

theorem test_decode_halfword :
    decodeArm 0b11100001001000110101000010111100 = .strhReg .al true false true 3 5 12 ∧
    decodeArm 0b11100001001100110101000010111100 = .ldrhReg .al true false true 3 5 12 ∧
    decodeArm 0b11100001001100110101000011011100 = .ldrsbReg .al true false true 3 5 12 ∧
    decodeArm 0b11100001001100110101000011111100 = .ldrshReg .al true false true 3 5 12 ∧
    decodeArm 0b11100001011000110101101110110110 = .strhImm .al true false true 3 5 0b1011 0b0110 ∧
    decodeArm 0b11100001011100110101101110110110 = .ldrhImm .al true false true 3 5 0b1011 0b0110 ∧
    decodeArm 0b11100001011100110101101111010110 = .ldrsbImm .al true false true 3 5 0b1011 0b0110 ∧
    decodeArm 0b11100001011100110101101111110110 = .ldrshImm .al true false true 3 5 0b1011 0b0110 := by decide

theorem test_decode_status_system :
    decodeArm 0b11100000011001011011000111110101 = .undefMul .al ∧
    decodeArm 0b11100001010011110101000000000000 = .mrs .al true 5 ∧
    decodeArm 0b11100001011010111111000000001100 = .msrReg .al true 0b1011 12 ∧
    decodeArm 0b11100001001001110101100001001010 = .undefMisc .al ∧
    decodeArm 0b11100011011010111111101110110011 = .msrImm .al true 0b1011 0b1011 0b10110011 ∧
    decodeArm 0b11100011000000000000000000000000 = .undefMsrImm .al ∧
    decodeArm 0b11100110000000000000000000010000 = .undefMedia .al ∧
    decodeArm 0b11101101011000111011101110110011 = .stc .al true false true true 3 0b1011 0b1011 0b10110011 ∧
    decodeArm 0b11101101011100111011101110110011 = .ldc .al true false true true 3 0b1011 0b1011 0b10110011 ∧
    decodeArm 0b11101110101100111011101110100111 = .cdp .al 0b1011 0b0011 0b1011 0b1011 0b101 0b0111 ∧
    decodeArm 0b11101110101000110101101110110111 = .mcr .al 0b101 0b0011 5 0b1011 0b101 0b0111 ∧
    decodeArm 0b11101110101100110101101110110111 = .mrc .al 0b101 0b0011 5 0b1011 0b101 0b0111 ∧
    decodeArm 0b11101111101100111000111100001011 = .swi .al 0xb38f0b := by decide

theorem test_decode_data_processing_shift_imm :
    decodeArm 0b11100000000100110101101101001100 = .andShiftImm .al true 3 5 0b10110 .asr 12 ∧
    decodeArm 0b11100000001100110101101101001100 = .eorShiftImm .al true 3 5 0b10110 .asr 12 ∧
    decodeArm 0b11100000010100110101101101001100 = .subShiftImm .al true 3 5 0b10110 .asr 12 ∧
    decodeArm 0b11100000011100110101101101001100 = .rsbShiftImm .al true 3 5 0b10110 .asr 12 ∧
    decodeArm 0b11100000100100110101101101001100 = .addShiftImm .al true 3 5 0b10110 .asr 12 ∧
    decodeArm 0b11100000101100110101101101001100 = .adcShiftImm .al true 3 5 0b10110 .asr 12 ∧
    decodeArm 0b11100000110100110101101101001100 = .sbcShiftImm .al true 3 5 0b10110 .asr 12 ∧
    decodeArm 0b11100000111100110101101101001100 = .rscShiftImm .al true 3 5 0b10110 .asr 12 ∧
    decodeArm 0b11100001000100110101101101001100 = .tstShiftImm .al 3 5 0b10110 .asr 12 ∧
    decodeArm 0b11100001001100110101101101001100 = .teqShiftImm .al 3 5 0b10110 .asr 12 ∧
    decodeArm 0b11100001010100110101101101001100 = .cmpShiftImm .al 3 5 0b10110 .asr 12 ∧
    decodeArm 0b11100001011100110101101101001100 = .cmnShiftImm .al 3 5 0b10110 .asr 12 ∧
    decodeArm 0b11100001100100110101101101001100 = .orrShiftImm .al true 3 5 0b10110 .asr 12 ∧
    decodeArm 0b11100001101100000101101101001100 = .movShiftImm .al true 5 0b10110 .asr 12 ∧
    decodeArm 0b11100001110100110101101101001100 = .bicShiftImm .al true 3 5 0b10110 .asr 12 ∧
    decodeArm 0b11100001111100000101101101001100 = .mvnShiftImm .al true 5 0b10110 .asr 12 := by decide

theorem test_decode_data_processing_shift_reg :
    decodeArm 0b11100000000100110101100101011100 = .andShiftReg .al true 3 5 9 .asr 12 ∧
    decodeArm 0b11100000001100110101100101011100 = .eorShiftReg .al true 3 5 9 .asr 12 ∧
    decodeArm 0b11100000010100110101100101011100 = .subShiftReg .al true 3 5 9 .asr 12 ∧
    decodeArm 0b11100000011100110101100101011100 = .rsbShiftReg .al true 3 5 9 .asr 12 ∧
    decodeArm 0b11100000100100110101100101011100 = .addShiftReg .al true 3 5 9 .asr 12 ∧
    decodeArm 0b11100000101100110101100101011100 = .adcShiftReg .al true 3 5 9 .asr 12 ∧
    decodeArm 0b11100000110100110101100101011100 = .sbcShiftReg .al true 3 5 9 .asr 12 ∧
    decodeArm 0b11100000111100110101100101011100 = .rscShiftReg .al true 3 5 9 .asr 12 ∧
    decodeArm 0b11100001000100110101100101011100 = .tstShiftReg .al 3 5 9 .asr 12 ∧
    decodeArm 0b11100001001100110101100101011100 = .teqShiftReg .al 3 5 9 .asr 12 ∧
    decodeArm 0b11100001010100110101100101011100 = .cmpShiftReg .al 3 5 9 .asr 12 ∧
    decodeArm 0b11100001011100110101100101011100 = .cmnShiftReg .al 3 5 9 .asr 12 ∧
    decodeArm 0b11100001100100110101100101011100 = .orrShiftReg .al true 3 5 9 .asr 12 ∧
    decodeArm 0b11100001101100000101100101011100 = .movShiftReg .al true 5 9 .asr 12 ∧
    decodeArm 0b11100001110100110101100101011100 = .bicShiftReg .al true 3 5 9 .asr 12 ∧
    decodeArm 0b11100001111100000101100101011100 = .mvnShiftReg .al true 5 9 .asr 12 := by decide

theorem test_decode_data_processing_imm :
    decodeArm 0b11100010000100110101101110110011 = .andImm .al true 3 5 0b1011 0b10110011 ∧
    decodeArm 0b11100010001100110101101110110011 = .eorImm .al true 3 5 0b1011 0b10110011 ∧
    decodeArm 0b11100010010100110101101110110011 = .subImm .al true 3 5 0b1011 0b10110011 ∧
    decodeArm 0b11100010011100110101101110110011 = .rsbImm .al true 3 5 0b1011 0b10110011 ∧
    decodeArm 0b11100010100100110101101110110011 = .addImm .al true 3 5 0b1011 0b10110011 ∧
    decodeArm 0b11100010101100110101101110110011 = .adcImm .al true 3 5 0b1011 0b10110011 ∧
    decodeArm 0b11100010110100110101101110110011 = .sbcImm .al true 3 5 0b1011 0b10110011 ∧
    decodeArm 0b11100010111100110101101110110011 = .rscImm .al true 3 5 0b1011 0b10110011 ∧
    decodeArm 0b11100011000100110101101110110011 = .tstImm .al 3 5 0b1011 0b10110011 ∧
    decodeArm 0b11100011001100110101101110110011 = .teqImm .al 3 5 0b1011 0b10110011 ∧
    decodeArm 0b11100011010100110101101110110011 = .cmpImm .al 3 5 0b1011 0b10110011 ∧
    decodeArm 0b11100011011100110101101110110011 = .cmnImm .al 3 5 0b1011 0b10110011 ∧
    decodeArm 0b11100011100100110101101110110011 = .orrImm .al true 3 5 0b1011 0b10110011 ∧
    decodeArm 0b11100011101100000101101110110011 = .movImm .al true 5 0b1011 0b10110011 ∧
    decodeArm 0b11100011110100110101101110110011 = .bicImm .al true 3 5 0b1011 0b10110011 ∧
    decodeArm 0b11100011111100000101101110110011 = .mvnImm .al true 5 0b1011 0b10110011 := by decide

theorem test_decode_load_store_imm :
    decodeArm 0b11100100001000110101101100111000 = .strtImm .al false 3 5 0xb38 ∧
    decodeArm 0b11100100001100110101101100111000 = .ldrtImm .al false 3 5 0xb38 ∧
    decodeArm 0b11100100011000110101101100111000 = .strbtImm .al false 3 5 0xb38 ∧
    decodeArm 0b11100100011100110101101100111000 = .ldrbtImm .al false 3 5 0xb38 ∧
    decodeArm 0b11100101001000110101101100111000 = .strImm .al true false true 3 5 0xb38 ∧
    decodeArm 0b11100101001100110101101100111000 = .ldrImm .al true false true 3 5 0xb38 ∧
    decodeArm 0b11100101011000110101101100111000 = .strbImm .al true false true 3 5 0xb38 ∧
    decodeArm 0b11100101011100110101101100111000 = .ldrbImm .al true false true 3 5 0xb38 := by decide

theorem test_decode_load_store_reg :
    decodeArm 0b11100110001000110101101101001100 = .strtReg .al false 3 5 0b10110 .asr 12 ∧
    decodeArm 0b11100110001100110101101101001100 = .ldrtReg .al false 3 5 0b10110 .asr 12 ∧
    decodeArm 0b11100110011000110101101101001100 = .strbtReg .al false 3 5 0b10110 .asr 12 ∧
    decodeArm 0b11100110011100110101101101001100 = .ldrbtReg .al false 3 5 0b10110 .asr 12 ∧
    decodeArm 0b11100111001000110101101101001100 = .strReg .al true false true 3 5 0b10110 .asr 12 ∧
    decodeArm 0b11100111001100110101101101001100 = .ldrReg .al true false true 3 5 0b10110 .asr 12 ∧
    decodeArm 0b11100111011000110101101101001100 = .strbReg .al true false true 3 5 0b10110 .asr 12 ∧
    decodeArm 0b11100111011100110101101101001100 = .ldrbReg .al true false true 3 5 0b10110 .asr 12 := by decide

theorem test_decode_block_transfer :
    decodeArm 0b11101001011000110010010000000101 = .stmUser .al true false true 3 0x2405 ∧
    decodeArm 0b11101001011100111000010000000101 = .ldmRestore .al true false true 3 0x8405 ∧
    decodeArm 0b11101001011100110010010000000101 = .ldmUser .al true false true 3 0x2405 ∧
    decodeArm 0b11101001001000110010010000000101 = .stm .al true false true 3 0x2405 ∧
    decodeArm 0b11101001001100110010010000000101 = .ldm .al true false true 3 0x2405 := by decide

theorem test_decode_thumb_alu_a :
    decodeThumb 0b0000010110011001 = .tLslImm 0b10110 3 1 ∧
    decodeThumb 0b0000110110011001 = .tLsrImm 0b10110 3 1 ∧
    decodeThumb 0b0001010110011001 = .tAsrImm 0b10110 3 1 ∧
    decodeThumb 0b0001100110011001 = .tAddReg 6 3 1 ∧
    decodeThumb 0b0001101110011001 = .tSubReg 6 3 1 ∧
    decodeThumb 0b0001110101011001 = .tAddImm3 0b101 3 1 ∧
    decodeThumb 0b0001111101011001 = .tSubImm3 0b101 3 1 ∧
    decodeThumb 0b0010000110110011 = .tMovImm8 1 0b10110011 ∧
    decodeThumb 0b0010100110110011 = .tCmpImm8 1 0b10110011 ∧
    decodeThumb 0b0011000110110011 = .tAddImm8 1 0b10110011 ∧
    decodeThumb 0b0011100110110011 = .tSubImm8 1 0b10110011 ∧
    decodeThumb 0b0100000000011001 = .tAnd 3 1 ∧
    decodeThumb 0b0100000001011001 = .tEor 3 1 := by decide

theorem test_decode_thumb_alu_b :
    decodeThumb 0b0100000010011001 = .tLsl 3 1 ∧
    decodeThumb 0b0100000011011001 = .tLsr 3 1 ∧
    decodeThumb 0b0100000100011001 = .tAsr 3 1 ∧
    decodeThumb 0b0100000101011001 = .tAdc 3 1 ∧
    decodeThumb 0b0100000110011001 = .tSbc 3 1 ∧
    decodeThumb 0b0100000111011001 = .tRor 3 1 ∧
    decodeThumb 0b0100001000011001 = .tTst 3 1 ∧
    decodeThumb 0b0100001001011001 = .tNeg 3 1 ∧
    decodeThumb 0b0100001010011001 = .tCmp 3 1 ∧
    decodeThumb 0b0100001011011001 = .tCmn 3 1 ∧
    decodeThumb 0b0100001100011001 = .tOrr 3 1 ∧
    decodeThumb 0b0100001101011001 = .tMul 3 1 ∧
    decodeThumb 0b0100001110011001 = .tBic 3 1 ∧
    decodeThumb 0b0100001111011001 = .tMvn 3 1 := by decide

theorem test_decode_thumb_high_and_stack :
    decodeThumb 0b0100010010011001 = .tAddHi true false 3 1 ∧
    decodeThumb 0b0100010110011001 = .tCmpHi true false 3 1 ∧
    decodeThumb 0b0100011010011001 = .tMovHi true false 3 1 ∧
    decodeThumb 0b0100011110011001 = .tBx true false 3 1 ∧
    decodeThumb 0b1010000110110011 = .tAddPc 1 0b10110011 ∧
    decodeThumb 0b1010100110110011 = .tAddSp 1 0b10110011 ∧
    decodeThumb 0b1011000001011001 = .tAddSpImm 0b1011001 ∧
    decodeThumb 0b1011000011011001 = .tSubSpImm 0b1011001 := by decide

theorem test_decode_thumb_load_store :
    decodeThumb 0b0100100110110011 = .tLdrPc 1 0b10110011 ∧
    decodeThumb 0b0101000101010001 = .tStrReg 5 2 1 ∧
    decodeThumb 0b0101001101010001 = .tStrhReg 5 2 1 ∧
    decodeThumb 0b0101010101010001 = .tStrbReg 5 2 1 ∧
    decodeThumb 0b0101011101010001 = .tLdsbReg 5 2 1 ∧
    decodeThumb 0b0101100101010001 = .tLdrReg 5 2 1 ∧
    decodeThumb 0b0101101101010001 = .tLdrhReg 5 2 1 ∧
    decodeThumb 0b0101110101010001 = .tLdrbReg 5 2 1 ∧
    decodeThumb 0b0101111101010001 = .tLdshReg 5 2 1 ∧
    decodeThumb 0b0110010110010001 = .tStrImm 0b10110 2 1 ∧
    decodeThumb 0b0110110110010001 = .tLdrImm 0b10110 2 1 ∧
    decodeThumb 0b0111010110010001 = .tStrbImm 0b10110 2 1 ∧
    decodeThumb 0b0111110110010001 = .tLdrbImm 0b10110 2 1 ∧
    decodeThumb 0b1000010110010001 = .tStrhImm 0b10110 2 1 ∧
    decodeThumb 0b1000110110010001 = .tLdrhImm 0b10110 2 1 ∧
    decodeThumb 0b1001000110110011 = .tStrSp 1 0b10110011 ∧
    decodeThumb 0b1001100110110011 = .tLdrSp 1 0b10110011 := by decide

theorem test_decode_thumb_block_branch :
    decodeThumb 0b1011010110110011 = .tPush true 0b10110011 ∧
    decodeThumb 0b1011110110110011 = .tPop true 0b10110011 ∧
    decodeThumb 0b1011000111110101 = .tUndef1011 ∧
    decodeThumb 0b1100001010110011 = .tStmia 2 0b10110011 ∧
    decodeThumb 0b1100101010110011 = .tLdmia 2 0b10110011 ∧
    decodeThumb 0b1101111000000000 = .tUndefCond ∧
    decodeThumb 0b1101111110110011 = .tSwi 0b10110011 ∧
    decodeThumb 0b1101000110110011 = .tBcond .ne 0b10110011 ∧
    decodeThumb 0b1110010110011100 = .tB 0x59c ∧
    decodeThumb 0b1110100000000000 = .tUndef11101 ∧
    decodeThumb 0b1111010110011100 = .tBlFirst 0x59c ∧
    decodeThumb 0b1111110110011100 = .tBlSecond 0x59c := by decide

/-- R302: bits 7:4 of the control space are tested (rows 8 and 10), bits 11:8 are not (log entry 25). -/
theorem test_control_space : decodeArm 0xE10F0020 = .undefMisc .al ∧ decodeArm 0xE10F0F00 = .mrs .al false 0 ∧
    decodeArm 0xE129F020 = .undefMisc .al ∧ decodeArm 0xE129FF00 = .msrReg .al false 9 0 := by decide

/-- The encoder writes the spec's example words (R455, R562, R605, R871). -/
theorem test_encode : encode (.addShiftImm .al false 1 0 1 .lsl 2) = .arm 0xE0810082 ∧
    encode (.ldrhImm .al true true false 1 0 0 2) = .arm 0xE1D100B2 ∧
    encode (.ldmRestore .al false true true 13 0x8001) = .arm 0xE8FD8001 ∧
    encode (.tBcond .eq 2) = .thumb 0xD002 := by decide

/-! ## One step: the examples of the rules -/

/-- R451. -/
theorem test_and : ends (runArm 0xE0110002 (arm 0xd3 [(1, 0xf0f0f0f0), (2, 0xff00ff00)]))
    [(0, 0xf000f000), (15, 0x100c)] 0x800000d3 [] = true := by decide

/-- R452. -/
theorem test_eor : ends (runArm 0xE0310002 (arm 0xd3 [(1, 0xf0f0f0f0), (2, 0xf0f0f0f0)]))
    [(0, 0), (15, 0x100c)] 0x400000d3 [] = true := by decide

/-- R453. -/
theorem test_sub : ends (runArm 0xE0510002 (arm 0xd3 [(1, 5), (2, 7)]))
    [(0, 0xfffffffe), (15, 0x100c)] 0x800000d3 [] = true := by decide

/-- R454. -/
theorem test_rsb : ends (runArm 0xE2710000 (arm 0xd3 [(1, 1)]))
    [(0, 0xffffffff), (15, 0x100c)] 0x800000d3 [] = true := by decide

/-- R455. -/
theorem test_add : ends (runArm 0xE0810082 (arm 0xd3 [(1, 0x100), (2, 3)]))
    [(0, 0x106), (15, 0x100c)] 0xd3 [] = true := by decide

/-- R455. -/
theorem test_adds_carry : ends (runArm 0xE0900000 (arm 0xd3 [(0, 0xffffffff)]))
    [(0, 0xfffffffe)] 0xa00000d3 [] = true := by decide

/-- R456. -/
theorem test_adc : ends (runArm 0xE0B10002 (arm 0x200000d3 [(1, 0x7fffffff)]))
    [(0, 0x80000000)] 0x900000d3 [] = true := by decide

/-- R457. -/
theorem test_sbc : ends (runArm 0xE0D10002 (arm 0xd3 [(1, 5), (2, 5)]))
    [(0, 0xffffffff)] 0x800000d3 [] = true := by decide

/-- R458. -/
theorem test_rsc : ends (runArm 0xE0F10002 (arm 0xd3 [(1, 1), (2, 3)]))
    [(0, 1)] 0x200000d3 [] = true := by decide

/-- R459. -/
theorem test_tst : ends (runArm 0xE3110101 (arm 0xd3 [(1, 0x80000000)]))
    [(1, 0x80000000), (15, 0x100c)] 0x400000d3 [] = true := by decide

/-- R460. -/
theorem test_teq : ends (runArm 0xE1310002 (arm 0xd3 [(1, 0x1234), (2, 0x1234)]))
    [(15, 0x100c)] 0x400000d3 [] = true := by decide

/-- R461. -/
theorem test_cmp : ends (runArm 0xE1510002 (arm 0xd3 [(1, 0x80000000), (2, 1)]))
    [(1, 0x80000000), (15, 0x100c)] 0x300000d3 [] = true := by decide

/-- R462. -/
theorem test_cmn : ends (runArm 0xE1710002 (arm 0xd3 [(1, 0xffffffff), (2, 1)]))
    [(15, 0x100c)] 0x600000d3 [] = true := by decide

/-- R463. -/
theorem test_orr : ends (runArm 0xE38100FF (arm 0xd3 [(1, 0x1200)]))
    [(0, 0x12ff), (15, 0x100c)] 0xd3 [] = true := by decide

/-- R464. -/
theorem test_mov_rrx : ends (runArm 0xE1B00062 (arm 0x200000d3 [(2, 1)]))
    [(0, 0x80000000)] 0xa00000d3 [] = true := by decide

/-- R464. -/
theorem test_mov_pc : ends (runArm 0xE3A0F040 (arm 0xd3 []))
    [(15, 0x48)] 0xd3 [] = true := by decide

/-- R465. -/
theorem test_bic : ends (runArm 0xE3C1000F (arm 0xd3 [(1, 0xff)]))
    [(0, 0xf0)] 0xd3 [] = true := by decide

/-- R466. -/
theorem test_mvn : ends (runArm 0xE3E00000 (arm 0xd3 []))
    [(0, 0xffffffff), (15, 0x100c)] 0xd3 [] = true := by decide

/-- R467. -/
theorem test_movs_pc_returns : ends (runArm 0xE1B0F00E ({ (arm 0xd3 [(14, 0x2001)]) with spsr := 0x30, banks := { State.reset.banks with usr := ⟨0x66, 0x77, 0⟩ } }))
    [(14, 0x77), (15, 0x2004)] 0x30 [] = true := by decide

/-- R468. -/
theorem test_cmp_pc_restores : ends (runArm 0xE150F00E ({ (arm 0xd3 []) with spsr := 0xF0000010 }))
    [(15, 0x100c)] 0xf0000010 [] = true := by decide

/-- R469. -/
theorem test_condition_fails : ends (runArm 0x01B00001 (arm 0xd3 [(0, 7), (1, 9)]))
    [(0, 7), (15, 0x100c)] 0xd3 [] = true := by decide

/-- R469. -/
theorem test_shift_of_33 : ends (runArm 0xE1B00312 (arm 0xd3 [(2, 0x80000001), (3, 0x21)]))
    [(0, 0), (15, 0x100c)] 0x400000d3 [] = true := by decide

/-- R650. -/
theorem test_mul : ends (runArm 0xE0000291 (arm 0xd3 [(1, 7), (2, 6)]))
    [(0, 0x2a), (15, 0x100c)] 0xd3 [] = true := by decide

/-- R650. -/
theorem test_muls : ends (runArm 0xE0100291 (arm 0x200000d3 [(1, 0x80000000), (2, 2)]))
    [(0, 0)] 0x600000d3 [] = true := by decide

/-- R651. -/
theorem test_mla : ends (runArm 0xE0203291 (arm 0xd3 [(1, 0xffffffff), (2, 2), (3, 5)]))
    [(0, 3), (15, 0x100c)] 0xd3 [] = true := by decide

/-- R652. -/
theorem test_umull : ends (runArm 0xE0810392 (arm 0xd3 [(2, 0xffffffff), (3, 0xffffffff)]))
    [(0, 1), (1, 0xfffffffe), (15, 0x100c)] 0xd3 [] = true := by decide

/-- R653. -/
theorem test_umlal : ends (runArm 0xE0A10392 (arm 0xd3 [(0, 1), (1, 0), (2, 0xffffffff), (3, 1)]))
    [(0, 0), (1, 1)] 0xd3 [] = true := by decide

/-- R654. -/
theorem test_smull : ends (runArm 0xE0C10392 (arm 0xd3 [(2, 0xffffffff), (3, 2)]))
    [(0, 0xfffffffe), (1, 0xffffffff)] 0xd3 [] = true := by decide

/-- R655. -/
theorem test_smlals : ends (runArm 0xE0F10392 (arm 0xd3 [(0, 2), (1, 0), (2, 0xffffffff), (3, 2)]))
    [(0, 0), (1, 0)] 0x400000d3 [] = true := by decide

/-- R500. -/
theorem test_b : ends (runArm 0xEAFFFFFE (arm 0xd3 []))
    [(15, 0x1008)] 0xd3 [] = true := by decide

/-- R501. -/
theorem test_bl : ends (runArm 0xEB000010 (arm 0xd3 []))
    [(14, 0x1004), (15, 0x1050)] 0xd3 [] = true := by decide

/-- R502. -/
theorem test_bx : ends (runArm 0xE12FFF11 (arm 0xd3 [(1, 0x2001)]))
    [(15, 0x2004)] 0xf3 [] = true := by decide

/-- R553. -/
theorem test_ldr_rotates : ends (runArm 0xE5910001 (data (arm 0xd3 [(1, 0x2000)])))
    [(0, 0x7f8001ff), (15, 0x100c)] 0xd3 [] = true := by decide

/-- R553. -/
theorem test_ldr_scaled : ends (runArm 0xE7910102 (data (arm 0xd3 [(1, 0x2000), (2, 1)])))
    [(0, 0x11223344)] 0xd3 [] = true := by decide

/-- R552: the base is current + 8 (log entry 26). -/
theorem test_ldr_pc_relative : ends (runArm 0xE59F0004 (withWords [(0x100C, 0x77), (0x1010, 0x88)] (arm 0xd3 [])))
    [(0, 0x77), (15, 0x100c)] 0xd3 [] = true := by decide

/-- R554. -/
theorem test_ldrb : ends (runArm 0xE5D10001 (data (arm 0xd3 [(1, 0x2000)])))
    [(0, 0xff)] 0xd3 [] = true := by decide

/-- R555. -/
theorem test_str_writeback : ends (runArm 0xE5A10004 (data (arm 0xd3 [(0, 0xcafef00d), (1, 0x2000)])))
    [(1, 0x2004)] 0xd3 [(8196, 0xcafef00d)] = true := by decide

/-- R555. -/
theorem test_str_pc : ends (runArm 0xE58F0000 (arm 0xd3 [(0, 5)]))
    [(15, 0x100c)] 0xd3 [(4104, 5)] = true := by decide

/-- R556. -/
theorem test_strb : ends (runArm 0xE5C10002 (data (arm 0xd3 [(0, 0xab), (1, 0x2000)])))
    [(15, 0x100c)] 0xd3 [(8192, 0x80abff7f)] = true := by decide

/-- R557. -/
theorem test_ldrt : ends (runArm 0xE4B10004 (data (arm 0xd3 [(1, 0x2000)])))
    [(0, 0x8001ff7f), (1, 0x2004)] 0xd3 [] = true := by decide

/-- R558. -/
theorem test_ldrbt : ends (runArm 0xE4F10001 (data (arm 0xd3 [(1, 0x2000)])))
    [(0, 0x7f), (1, 0x2001)] 0xd3 [] = true := by decide

/-- R559. -/
theorem test_strt : ends (runArm 0xE4A10004 (data (arm 0xd3 [(0, 5), (1, 0x2000)])))
    [(1, 0x2004)] 0xd3 [(8192, 5)] = true := by decide

/-- R560. -/
theorem test_strbt : ends (runArm 0xE4E10001 (data (arm 0xd3 [(0, 0x1234), (1, 0x2000)])))
    [(1, 0x2001)] 0xd3 [(8192, 0x8001ff34)] = true := by decide

/-- R562. -/
theorem test_ldrh : ends (runArm 0xE19100B2 (data (arm 0xd3 [(1, 0x2000), (2, 4)])))
    [(0, 0x3344)] 0xd3 [] = true := by decide

/-- R562. -/
theorem test_ldrh_odd : ends (runArm 0xE1D100B1 ({ (data (arm 0xd3 [(1, 0x2000)])) with params := { Config.Params.default with halfwordMisaligned := .rotate } }))
    [(0, 0x7f0000ff)] 0xd3 [] = true := by decide

/-- R563. -/
theorem test_strh : ends (runArm 0xE0C100B2 (data (arm 0xd3 [(0, 0xbeef), (1, 0x2000)])))
    [(1, 0x2002)] 0xd3 [(8192, 0x8001beef)] = true := by decide

/-- R564. -/
theorem test_ldrsb : ends (runArm 0xE19100D2 (data (arm 0xd3 [(1, 0x2000), (2, 3)])))
    [(0, 0xffffff80)] 0xd3 [] = true := by decide

/-- R565. -/
theorem test_ldrsh : ends (runArm 0xE1D100F2 (data (arm 0xd3 [(1, 0x2000)])))
    [(0, 0xffff8001)] 0xd3 [] = true := by decide

/-- R566. -/
theorem test_ldr_aborts : ends (runArm 0xE5B10004 ({ (data (arm 0xd3 [(1, 0x2000)])) with regions := [⟨0x2004, 4, .absent⟩] }))
    [(0, 0), (1, 0x2000), (14, 0x1008), (15, 0x18)] 0xd7 [] = true := by decide

/-- R566. -/
theorem test_ldr_aborts_updated : ends (runArm 0xE5B10004 ({ (data (arm 0xd3 [(1, 0x2000)])) with regions := [⟨0x2004, 4, .absent⟩], params := { Config.Params.default with abortBase := .updated } }))
    [(0, 0), (1, 0x2004), (14, 0x1008), (15, 0x18)] 0xd7 [] = true := by decide

/-- R601. -/
theorem test_ldmda : ends (runArm 0xE831000C (withWords [(0x1FF8, 0x11), (0x1FFC, 0x22), (0x2000, 0x33), (0x2004, 0x44)] (arm 0xd3 [(1, 0x2000)])))
    [(1, 0x1ff8), (2, 0x22), (3, 0x33), (15, 0x100c)] 0xd3 [] = true := by decide

/-- R601. -/
theorem test_ldm_pc : ends (runArm 0xE8BD8003 (withWords [(0x3000, 0xA), (0x3004, 0xB), (0x3008, 0x4000)] (arm 0xd3 [(13, 0x3000)])))
    [(0, 0xa), (1, 0xb), (13, 0x300c), (15, 0x4008)] 0xd3 [] = true := by decide

/-- R602. -/
theorem test_stmdb : ends (runArm 0xE92D4003 (arm 0xd3 [(13, 0x3000), (0, 1), (1, 2), (14, 0x1234)]))
    [(13, 0x2ff4), (15, 0x100c)] 0xd3 [(12276, 1), (12280, 2), (12284, 0x1234)] = true := by decide

/-- R603. -/
theorem test_stm_user : ends (runArm 0xE8C02100 ({ (arm 0xd1 [(0, 0x2000), (8, 0xf8), (13, 0xf13)]) with fiqR := #v[0x88, 0, 0, 0, 0], banks := { State.reset.banks with usr := ⟨0x1313, 0, 0⟩ } }))
    [(15, 0x100c)] 0xd1 [(8192, 0x88), (8196, 0x1313)] = true := by decide

/-- R604. -/
theorem test_ldm_user : endsWith (runArm 0xE8D02100
    (withWords [(0x2000, 0xAA), (0x2004, 0xBB)] (arm 0xD1 [(0, 0x2000), (8, 0xF8), (13, 0xF13)])))
    (fun t => t.user 8 == 0xAA && t.user 13 == 0xBB && t.reg 8 == 0xF8 && t.reg 13 == 0xF13) = true := by
  decide

/-- R605. -/
theorem test_ldm_restore : endsWith (runArm 0xE8FD8001
    { withWords [(0x3000, 0x55), (0x3004, 0x4001)] (arm 0xD3 [(13, 0x3000)]) with spsr := 0x30 })
    (fun t => t.reg 0 == 0x55 && t.banks.svc.r13 == 0x3008 && t.cpsr == 0x30 && t.pc == 0x4004 &&
      t.branched) = true := by
  decide

/-- R606. -/
theorem test_stm_base_stored : ends (runArm 0xE8A10006 (arm 0xd3 [(1, 0x2000), (2, 7)]))
    [(1, 0x2008)] 0xd3 [(8192, 0x2000), (8196, 7)] = true := by decide

/-- R608. -/
theorem test_stm_aborts : ends (runArm 0xE8810003 ({ (arm 0xd3 [(1, 0x2000), (0, 1)]) with regions := [⟨0x2004, 4, .absent⟩] }))
    [(1, 0x2000), (14, 0x1008), (15, 0x18)] 0xd7 [(8192, 1)] = true := by decide

/-- R607: with the default EMPTY_RLIST an empty list is the model fault U6. -/
theorem test_empty_list : stopsWith (runArm 0xE8910000 (arm 0xD3 [])) .emptyRegisterList = true := by decide

/-- R700. -/
theorem test_swp : ends (runArm 0xE1021091 (data (arm 0xd3 [(2, 0x2000), (1, 0x55)])))
    [(1, 0x8001ff7f), (15, 0x100c)] 0xd3 [(8192, 0x55)] = true := by decide

/-- R700. -/
theorem test_swp_rotates : ends (runArm 0xE1020091 (data (arm 0xd3 [(2, 0x2001), (1, 0x55)])))
    [(0, 0x7f8001ff)] 0xd3 [(8192, 0x55)] = true := by decide

/-- R701. -/
theorem test_swpb : ends (runArm 0xE1420091 (data (arm 0xd3 [(2, 0x2001), (1, 0x1ab)])))
    [(0, 0xff)] 0xd3 [(8192, 0x8001ab7f)] = true := by decide

/-- R750. -/
theorem test_mrs : ends (runArm 0xE14F0000 ({ (arm 0xd3 []) with spsr := 0x20000010 }))
    [(0, 0x20000010), (15, 0x100c)] 0xd3 [] = true := by decide

/-- R751. -/
theorem test_msr_mode : ends (runArm 0xE121F000 ({ (arm 0xd3 [(0, 0x1f), (13, 0x33)]) with banks := { State.reset.banks with usr := ⟨0x99, 0, 0⟩ } }))
    [(13, 0x99), (15, 0x100c)] 0x1f [] = true := by decide

/-- R751. -/
theorem test_msr_user : ends (runArm 0xE129F000 (arm 0x10 [(0, 0xa00000d3)]))
    [(15, 0x100c)] 0xa0000010 [] = true := by decide

/-- R752. -/
theorem test_msr_imm : ends (runArm 0xE328F20F (arm 0xd3 []))
    [(15, 0x100c)] 0xf00000d3 [] = true := by decide

/-- R754. -/
theorem test_swi : ends (runArm 0xEF000064 (arm 0x10 []))
    [(14, 0x1004), (15, 0x10)] 0x93 [] = true := by decide

/-- R755. -/
theorem test_cdp : ends (runArm 0xEE000000 (arm 0xd3 []))
    [(14, 0x1004), (15, 0xc)] 0xdb [] = true := by decide

/-- R756. -/
theorem test_ldc : ends (runArm 0xED900000 (arm 0xd3 []))
    [(14, 0x1004), (15, 0xc)] 0xdb [] = true := by decide

/-- R757. -/
theorem test_stc : ends (runArm 0xED800000 (arm 0xd3 []))
    [(14, 0x1004), (15, 0xc)] 0xdb [] = true := by decide

/-- R758. -/
theorem test_mcr : ends (runArm 0xEE000010 (arm 0xd3 []))
    [(14, 0x1004), (15, 0xc)] 0xdb [] = true := by decide

/-- R759. -/
theorem test_mrc : ends (runArm 0xEE100010 (arm 0xd3 []))
    [(14, 0x1004), (15, 0xc)] 0xdb [] = true := by decide

/-- R760. -/
theorem test_undefined : ends (runArm 0xE7F000F0 (arm 0xd3 []))
    [(14, 0x1004), (15, 0xc)] 0xdb [] = true := by decide

/-- R800. -/
theorem test_t_lsl_imm : ends (runThumb 0x0088 (thumb 0xf3 [(1, 0x40000001)]))
    [(0, 4), (15, 0x1006)] 0x200000f3 [] = true := by decide

/-- R801. -/
theorem test_t_lsr_imm : ends (runThumb 0x0808 (thumb 0xf3 [(1, 0x80000000)]))
    [(0, 0)] 0x600000f3 [] = true := by decide

/-- R802. -/
theorem test_t_asr_imm : ends (runThumb 0x1008 (thumb 0xf3 [(1, 0x80000000)]))
    [(0, 0xffffffff)] 0xa00000f3 [] = true := by decide

/-- R803. -/
theorem test_t_add_reg : ends (runThumb 0x1888 (thumb 0xf3 [(1, 0xffffffff), (2, 1)]))
    [(0, 0)] 0x600000f3 [] = true := by decide

/-- R804. -/
theorem test_t_sub_reg : ends (runThumb 0x1A88 (thumb 0xf3 [(1, 1), (2, 2)]))
    [(0, 0xffffffff)] 0x800000f3 [] = true := by decide

/-- R805. -/
theorem test_t_add_imm3 : ends (runThumb 0x1DC8 (thumb 0xf3 [(1, 0x7fffffff)]))
    [(0, 0x80000006)] 0x900000f3 [] = true := by decide

/-- R806. -/
theorem test_t_sub_imm3 : ends (runThumb 0x1E48 (thumb 0xf3 [(1, 1)]))
    [(0, 0)] 0x600000f3 [] = true := by decide

/-- R807. -/
theorem test_t_mov_imm8 : ends (runThumb 0x20FF (thumb 0x200000f3 []))
    [(0, 0xff), (15, 0x1006)] 0x200000f3 [] = true := by decide

/-- R808. -/
theorem test_t_cmp_imm8 : ends (runThumb 0x2805 (thumb 0xf3 [(0, 5)]))
    [(0, 5), (15, 0x1006)] 0x600000f3 [] = true := by decide

/-- R809. -/
theorem test_t_add_imm8 : ends (runThumb 0x3001 (thumb 0xf3 [(0, 0xffffffff)]))
    [(0, 0)] 0x600000f3 [] = true := by decide

/-- R810. -/
theorem test_t_sub_imm8 : ends (runThumb 0x3801 (thumb 0xf3 [(0, 0)]))
    [(0, 0xffffffff)] 0x800000f3 [] = true := by decide

/-- R811. -/
theorem test_t_and : ends (runThumb 0x4008 (thumb 0x200000f3 [(0, 0xf0f0), (1, 0xff00)]))
    [(0, 0xf000)] 0x200000f3 [] = true := by decide

/-- R812. -/
theorem test_t_eor : ends (runThumb 0x4048 (thumb 0xf3 [(0, 0xf0f0), (1, 0xff00)]))
    [(0, 0xff0)] 0xf3 [] = true := by decide

/-- R813. -/
theorem test_t_lsl : ends (runThumb 0x4088 (thumb 0xf3 [(0, 1), (1, 0x20)]))
    [(0, 0)] 0x600000f3 [] = true := by decide

/-- R814. -/
theorem test_t_lsr : ends (runThumb 0x40C8 (thumb 0x200000f3 [(0, 0x80000000), (1, 0x21)]))
    [(0, 0)] 0x400000f3 [] = true := by decide

/-- R815. -/
theorem test_t_asr : ends (runThumb 0x4108 (thumb 0xf3 [(0, 0x80000000), (1, 0x28)]))
    [(0, 0xffffffff)] 0xa00000f3 [] = true := by decide

/-- R816. -/
theorem test_t_adc : ends (runThumb 0x4148 (thumb 0x200000f3 [(0, 1), (1, 1)]))
    [(0, 3)] 0xf3 [] = true := by decide

/-- R817. -/
theorem test_t_sbc : ends (runThumb 0x4188 (thumb 0xf3 [(0, 5), (1, 3)]))
    [(0, 1)] 0x200000f3 [] = true := by decide

/-- R818. -/
theorem test_t_ror : ends (runThumb 0x41C8 (thumb 0xf3 [(0, 0x80000001), (1, 0x20)]))
    [(0, 0x80000001)] 0xa00000f3 [] = true := by decide

/-- R819. -/
theorem test_t_tst : ends (runThumb 0x4208 (thumb 0xf3 [(0, 0xf0), (1, 0xf)]))
    [(0, 0xf0)] 0x400000f3 [] = true := by decide

/-- R820. -/
theorem test_t_neg : ends (runThumb 0x4248 (thumb 0xf3 [(1, 0x80000000)]))
    [(0, 0x80000000)] 0x900000f3 [] = true := by decide

/-- R821. -/
theorem test_t_cmp : ends (runThumb 0x4288 (thumb 0xf3 [(0, 3), (1, 5)]))
    [(0, 3)] 0x800000f3 [] = true := by decide

/-- R822. -/
theorem test_t_cmn : ends (runThumb 0x42C8 (thumb 0xf3 [(0, 0xffffffff), (1, 1)]))
    [(0, 0xffffffff)] 0x600000f3 [] = true := by decide

/-- R823. -/
theorem test_t_orr : ends (runThumb 0x4308 (thumb 0xf3 [(0, 0xf0), (1, 0xf)]))
    [(0, 0xff)] 0xf3 [] = true := by decide

/-- R824. -/
theorem test_t_mul : ends (runThumb 0x4348 (thumb 0xf3 [(0, 6), (1, 7)]))
    [(0, 0x2a)] 0xf3 [] = true := by decide

/-- R825. -/
theorem test_t_bic : ends (runThumb 0x4388 (thumb 0xf3 [(0, 0xff), (1, 0xf)]))
    [(0, 0xf0)] 0xf3 [] = true := by decide

/-- R826. -/
theorem test_t_mvn : ends (runThumb 0x43C8 (thumb 0xf3 [(1, 0)]))
    [(0, 0xffffffff)] 0x800000f3 [] = true := by decide

/-- R827. -/
theorem test_t_add_hi : ends (runThumb 0x4478 (thumb 0xf3 [(0, 0x10)]))
    [(0, 0x1014), (15, 0x1006)] 0xf3 [] = true := by decide

/-- R828. -/
theorem test_t_cmp_hi : ends (runThumb 0x4588 (thumb 0xf3 [(8, 5), (1, 5)]))
    [(8, 5)] 0x600000f3 [] = true := by decide

/-- R829. -/
theorem test_t_mov_hi : ends (runThumb 0x46F7 (thumb 0xf3 [(14, 0x2001)]))
    [(15, 0x2004)] 0xf3 [] = true := by decide

/-- R830. -/
theorem test_t_bx : ends (runThumb 0x4778 (thumb 0xf3 []))
    [(15, 0x100c)] 0xd3 [] = true := by decide

/-- R831. -/
theorem test_t_add_pc : ends (runThumb 0xA002 (thumb 0xf3 [(15, 0x1006)]))
    [(0, 0x100c)] 0xf3 [] = true := by decide

/-- R832. -/
theorem test_t_add_sp : ends (runThumb 0xA804 (thumb 0xf3 [(13, 0x3000)]))
    [(0, 0x3010)] 0xf3 [] = true := by decide

/-- R833. -/
theorem test_t_add_sp_imm : ends (runThumb 0xB004 (thumb 0xf3 [(13, 0x3000)]))
    [(13, 0x3010)] 0xf3 [] = true := by decide

/-- R834. -/
theorem test_t_sub_sp_imm : ends (runThumb 0xB084 (thumb 0xf3 [(13, 0x3000)]))
    [(13, 0x2ff0)] 0xf3 [] = true := by decide

/-- R850. -/
theorem test_t_ldr_pc : ends (runThumb 0x4801 (data (thumb 0xf3 [(15, 0x1006)])))
    [(0, 0xcafebabe)] 0xf3 [] = true := by decide

/-- R851. -/
theorem test_t_str_reg : ends (runThumb 0x5088 (data (thumb 0xf3 [(0, 0xdeadbeef), (1, 0x2000), (2, 4)])))
    [(15, 0x1006)] 0xf3 [(8196, 0xdeadbeef)] = true := by decide

/-- R852. -/
theorem test_t_strh_reg : ends (runThumb 0x5288 (data (thumb 0xf3 [(0, 0x12345678), (1, 0x2000), (2, 2)])))
    [(15, 0x1006)] 0xf3 [(8192, 0x5678ff7f)] = true := by decide

/-- R853. -/
theorem test_t_strb_reg : ends (runThumb 0x5488 (data (thumb 0xf3 [(0, 0x1ab), (1, 0x2000), (2, 1)])))
    [(15, 0x1006)] 0xf3 [(8192, 0x8001ab7f)] = true := by decide

/-- R854. -/
theorem test_t_ldsb_reg : ends (runThumb 0x5688 (data (thumb 0xf3 [(1, 0x2000), (2, 3)])))
    [(0, 0xffffff80)] 0xf3 [] = true := by decide

/-- R855. -/
theorem test_t_ldr_reg : ends (runThumb 0x5888 (data (thumb 0xf3 [(1, 0x2000), (2, 1)])))
    [(0, 0x7f8001ff)] 0xf3 [] = true := by decide

/-- R856. -/
theorem test_t_ldrh_reg : ends (runThumb 0x5A88 (data (thumb 0xf3 [(1, 0x2000), (2, 2)])))
    [(0, 0x8001)] 0xf3 [] = true := by decide

/-- R857. -/
theorem test_t_ldrb_reg : ends (runThumb 0x5C88 (data (thumb 0xf3 [(1, 0x2000), (2, 1)])))
    [(0, 0xff)] 0xf3 [] = true := by decide

/-- R858. -/
theorem test_t_ldsh_reg : ends (runThumb 0x5E88 (data (thumb 0xf3 [(1, 0x2000), (2, 1)])))
    [(0, 0xffffff7f)] 0xf3 [] = true := by decide

/-- R859. -/
theorem test_t_str_imm : ends (runThumb 0x6048 (data (thumb 0xf3 [(0, 0xdeadbeef), (1, 0x2000)])))
    [(15, 0x1006)] 0xf3 [(8196, 0xdeadbeef)] = true := by decide

/-- R860. -/
theorem test_t_ldr_imm : ends (runThumb 0x6848 (data (thumb 0xf3 [(1, 0x2000)])))
    [(0, 0x11223344)] 0xf3 [] = true := by decide

/-- R860. -/
theorem test_t_ldr_aborts : ends (runThumb 0x6848 ({ (data (thumb 0xf3 [(1, 0x2000)])) with regions := [⟨0x2004, 4, .absent⟩] }))
    [(0, 0), (1, 0x2000), (14, 0x1008), (15, 0x18)] 0xd7 [] = true := by decide

/-- R861. -/
theorem test_t_strb_imm : ends (runThumb 0x7048 (data (thumb 0xf3 [(0, 0xab), (1, 0x2000)])))
    [(15, 0x1006)] 0xf3 [(8192, 0x8001ab7f)] = true := by decide

/-- R862. -/
theorem test_t_ldrb_imm : ends (runThumb 0x7848 (data (thumb 0xf3 [(1, 0x2000)])))
    [(0, 0xff)] 0xf3 [] = true := by decide

/-- R863. -/
theorem test_t_strh_imm : ends (runThumb 0x8048 (data (thumb 0xf3 [(0, 0x12345678), (1, 0x2000)])))
    [(15, 0x1006)] 0xf3 [(8192, 0x5678ff7f)] = true := by decide

/-- R864. -/
theorem test_t_ldrh_imm : ends (runThumb 0x8848 (data (thumb 0xf3 [(1, 0x2000)])))
    [(0, 0x8001)] 0xf3 [] = true := by decide

/-- R865. -/
theorem test_t_str_sp : ends (runThumb 0x9001 (data (thumb 0xf3 [(0, 0x55), (13, 0x2000)])))
    [(15, 0x1006)] 0xf3 [(8196, 0x55)] = true := by decide

/-- R866. -/
theorem test_t_ldr_sp : ends (runThumb 0x9801 (data (thumb 0xf3 [(13, 0x2000)])))
    [(0, 0x11223344)] 0xf3 [] = true := by decide

/-- R867. -/
theorem test_t_push : ends (runThumb 0xB503 (thumb 0xf3 [(13, 0x3000), (0, 1), (1, 2), (14, 0x1235)]))
    [(13, 0x2ff4), (15, 0x1006)] 0xf3 [(12276, 1), (12280, 2), (12284, 0x1235)] = true := by decide

/-- R868. -/
theorem test_t_pop : ends (runThumb 0xBD03 (withWords [(0x2FF4, 0xA), (0x2FF8, 0xB), (0x2FFC, 0x4001)] (thumb 0xf3 [(13, 0x2ff4)])))
    [(0, 0xa), (1, 0xb), (13, 0x3000), (15, 0x4004)] 0xf3 [] = true := by decide

/-- R869. -/
theorem test_t_stmia : ends (runThumb 0xC103 (thumb 0xf3 [(0, 7), (1, 0x3000)]))
    [(1, 0x3008)] 0xf3 [(12288, 7), (12292, 0x3000)] = true := by decide

/-- R870. -/
theorem test_t_ldmia : ends (runThumb 0xC903 (data (thumb 0xf3 [(1, 0x2000)])))
    [(0, 0x8001ff7f), (1, 0x11223344)] 0xf3 [] = true := by decide

/-- R871. -/
theorem test_t_bcond : ends (runThumb 0xD002 (thumb 0x400000f3 []))
    [(15, 0x100c)] 0x400000f3 [] = true := by decide

/-- R871. -/
theorem test_t_bcond_fails : ends (runThumb 0xD002 (thumb 0xf3 []))
    [(15, 0x1006)] 0xf3 [] = true := by decide

/-- R872. -/
theorem test_t_swi : ends (runThumb 0xDF10 (thumb 0xf3 []))
    [(14, 0x1002), (15, 0x10)] 0xd3 [] = true := by decide

/-- R873. -/
theorem test_t_b : ends (runThumb 0xE400 (thumb 0xf3 []))
    [(15, 0x808)] 0xf3 [] = true := by decide

/-- R874. -/
theorem test_t_bl_first : ends (runThumb 0xF7FF (thumb 0xf3 []))
    [(14, 4), (15, 0x1006)] 0xf3 [] = true := by decide

/-- R875. -/
theorem test_t_bl_second : ends (runThumb 0xFFFE (thumb 0xf3 [(14, 4), (15, 0x1006)]))
    [(14, 0x1005), (15, 0x1004)] 0xf3 [] = true := by decide

/-- R876. -/
theorem test_t_undef_1011 : ends (runThumb 0xB100 (thumb 0xf3 []))
    [(14, 0x1002), (15, 0xc)] 0xdb [] = true := by decide

/-- R876. -/
theorem test_t_undef_cond : ends (runThumb 0xDE00 (thumb 0xf3 []))
    [(14, 0x1002), (15, 0xc)] 0xdb [] = true := by decide

/-- R876. -/
theorem test_t_undef_11101 : ends (runThumb 0xE800 (thumb 0xf3 []))
    [(14, 0x1002), (15, 0xc)] 0xdb [] = true := by decide

/-! ## One host step (R910, R911, R906, R950) -/

/-- R911: IRQ from Thumb User mode. -/
theorem test_irq : ends (step { thumb 0x30 [] with inputs := [⟨false, false, true⟩] })
    [(14, 0x1004), (15, 0x20)] 0x92 [] = true := by decide

/-- R911: FIQ from ARM User mode, before IRQ. -/
theorem test_fiq : ends (step { arm 0x10 [] with inputs := [⟨false, true, true⟩] })
    [(14, 0x1004), (15, 0x24)] 0xD1 [] = true := by decide

/-- R906: the fetch at 0x1000 fails. -/
theorem test_prefetch_abort : ends (step { thumb 0x30 [] with regions := [⟨0x1000, 2, .absent⟩] })
    [(14, 0x1004), (15, 0x14)] 0x97 [] = true := by decide

/-- R950: reset from Thumb User mode. -/
theorem test_reset : ends (step { thumb 0x60000030 [(0, 5)] with inputs := [⟨true, true, true⟩] })
    [(0, 0), (15, 8)] 0xD3 [] = true := by decide

/-- The next fetch after `withFetchWord` runs the placed word (R205): ADDS R0, R0, R0 and Thumb MOV R0, #255. -/
theorem test_fetch_word :
    ends (step (State.reset.withFetchWord 32 0xE3A000FF)) [(0, 0xFF), (15, 0xC)] 0xD3 [] = true ∧
    ends (step (State.reset.withFetchWord 16 0x20FF)) [(0, 0xFF)] 0xF3 [] = true := by decide

/-! ## Witnesses: for each statement with hypotheses, concrete values that meet them -/

/-- Supervisor mode in ARM state, data at 0x2000, R1 = 0x2000, a saved status of User mode. -/
def superS : State := { data (arm 0xD3 [(1, 0x2000)]) with spsr := 0x10 }

/-- User mode in ARM state. -/
def userS : State := data (arm 0x10 [(1, 0x2000)])

/-- Supervisor mode in Thumb state. -/
def thumbS : State := data (thumb 0xF3 [(1, 0x2000)])

/-- UNPRED_MODE = fault. -/
def strict (s : State) : State := withUnpred .fault s

/-- The port fails loads and stores of the word at 0x2000. -/
def hole (s : State) : State := { s with regions := [⟨0x2000, 4, .absent⟩] }

/-- The port fails stores to the word at 0x2000. -/
def rom (s : State) : State := { s with regions := [⟨0x2000, 4, .readOnly⟩] }

/-- A device owns the word at 0x2000. -/
def dev (s : State) : State := { s with regions := [⟨0x2000, 4, .device⟩] }

/-- EMPTY_RLIST = arm7tdmi. -/
def hardware (s : State) : State := { s with params := { s.params with emptyRlist := .arm7tdmi } }

/-- These samples of the request lines to come. -/
def lines (reset fiq irq : Bool) (s : State) : State := { s with inputs := [⟨reset, fiq, irq⟩] }

/-- Did the loads succeed? -/
def gets (r : Option α × State) : Bool := r.1.isSome

theorem witness_DecodeEncode :
    Instr.wf (.ldmRestore .nv true true true 15 0xFFFF) = true ∧
    Instr.wf (.tBcond .le 0xFF) = true := by
  decide

theorem witness_ResetState :
    (0 : Reg) ≠ 15 ∧
    (14 : Reg) ≠ 15 ∧
    0 < 5 ∧
    4 < 5 := by
  decide

theorem witness_ResetInput :
    (lines true true true userS).sample.reset = true := by
  decide

theorem witness_StepRunsDecoded :
    superS.sample.reset = false ∧
    (superS.sample.fiq = false ∨ fBit superS.cpsr = true) ∧
    (superS.sample.irq = false ∨ iBit superS.cpsr = true) ∧
    (∀ r ∈ superS.regions, r.touches (Width.word.align superS.currentAddr).toNat 4 = false) := by
  decide

theorem witness_StepRunsDecoded_arm : decode .arm ((List.range 4).map fun k =>
    (withWords [(0x1000, 0xE0810082)] superS).mem.read (0x1000 + k)) =
      .ok (.addShiftImm .al false 1 0 1 .lsl 2, []) := rfl

theorem witness_StepRunsDecoded_thumb : decode .thumb ((List.range 2).map fun k =>
    (withWords [(0x1000, 0xD002)] thumbS).mem.read (0x1000 + k)) = .ok (.tBcond .eq 2, []) := rfl

theorem witness_InterruptOrder :
    LegalMode userS ∧
    (lines false true true userS).sample.reset = false ∧
    (lines false true true userS).sample.fiq = true ∧
    fBit userS.cpsr = false ∧
    (lines false false true userS).sample.fiq = false ∧
    (lines false true true { userS with cpsr := 0x50 }).sample.irq = true ∧
    fBit 0x50 = true ∧
    iBit 0x50 = false := by
  simp only [LegalMode]
  decide

theorem witness_PrefetchAbort :
    LegalMode userS ∧
    userS.sample.reset = false ∧
    userS.sample.fiq = false ∧
    userS.sample.irq = false ∧
    State.loadFails { userS with regions := [⟨0x1003, 1, .absent⟩] } userS.fetchWidth (userS.fetchWidth.align userS.currentAddr) = true ∧
    State.loadFails { thumbS with regions := [⟨0x1000, 1, .absent⟩] } thumbS.fetchWidth (thumbS.fetchWidth.align thumbS.currentAddr) = true := by
  simp only [LegalMode]
  decide

/-- A sound state, in Thumb state and User mode, whose step answers a next state. -/
theorem witness_StepKeepsInv : Sound (lines false false true (thumb 0x30 [])) ∧
    endsWith (step (lines false false true (thumb 0x30 []))) (fun _ => true) = true :=
  ⟨⟨by simp only [LegalMode]; decide, by simp only [PcAligned]; decide,
    fun op h => (nomatch (h : op ∈ ([] : List PortOp))), by decide⟩, by decide⟩

theorem witness_StepAnswers :
    superS.params.unpredMode = .reference ∧
    (hardware superS).params.emptyRlist = .arm7tdmi := by
  decide

theorem witness_UserGainsNoPrivilege :
    modeField (strict userS).cpsr = Mode.usr.code ∧
    (strict userS).params.unpredMode = .fault ∧
    endsWith (runArm 0xEF000000 (strict userS)) (fun _ => true) = true ∧
    endsWith (runArm 0xE129F000 (strict userS)) (fun _ => true) = true := by
  decide

theorem witness_StepKeepsPort :
    endsWith (step superS) (fun _ => true) = true := by
  decide

theorem witness_MemoryFrame :
    superS.mem.wf = true ∧
    endsWith (runArm 0xE5810000 superS) (fun _ => true) = true ∧
    (∀ p ∈ storeSpans (decodeArm 0xE5810000) superS, 0x1FFF < p.1 ∨ p.1 + p.2 ≤ 0x1FFF) ∧
    (∀ p ∈ storeSpans (decodeArm 0xE5810000) superS, 0x2004 < p.1 ∨ p.1 + p.2 ≤ 0x2004) := by
  decide

theorem witness_LoadStatus :
    bankOf superS.cpsr = some .svc ∧
    bankOf 0x00000000 = none ∧
    bankOf 0xF0000013 = some .svc ∧
    bankOf 0x11 = some .fiq ∧
    Bank.fiq ≠ .svc := by
  decide

theorem witness_ModeRoundTrip :
    LegalMode superS ∧
    (bankOf 0x11).isSome = true ∧
    (bankOf 0xF000001F).isSome = true := by
  simp only [LegalMode]
  decide

theorem witness_UserView :
    LegalMode superS ∧
    LegalMode { superS with cpsr := 0xD1 } ∧
    modeField 0x10 = Mode.usr.code ∧
    (13 : Reg) ≠ 15 ∧
    (14 : Reg) ≠ 15 := by
  simp only [LegalMode]
  decide

theorem witness_ExceptionEntry :
    bankOf superS.cpsr = some .svc ∧
    bankOf 0xD1 = some .fiq ∧
    bankOf userS.cpsr = some .usr := by
  decide

theorem witness_FailedConditionOnlyAdvances :
    conditionOf (.undefMedia .eq) = some .eq ∧
    conditionOf (.ldm .nv true true true 15 0) = some .nv ∧
    superS.thumb = false ∧
    condHolds .eq superS.cpsr = false ∧
    condHolds .nv superS.cpsr = false := by
  decide

theorem witness_ShiftByImmediate :
    (0 : BitVec 5).toNat = 0 ∧
    (31 : BitVec 5).toNat ≠ 0 := by
  decide

theorem witness_ShiftByRegister :
    (0 : BitVec 8).toNat = 0 ∧
    (255 : BitVec 8).toNat ≠ 0 ∧
    (32 : BitVec 8).toNat % 32 = 0 ∧ (32 : BitVec 8).toNat ≠ 0 ∧
    (33 : BitVec 8).toNat % 32 ≠ 0 := by
  decide

theorem witness_ArmLogical :
    ArmReady .al superS ∧
    Clear [(Operand2.u4 (.byReg 15 .ror 2) [0, 1], .u4)] superS ∧
    Clear [(Operand2.u4 (.imm 15 255) [15, 15], .u4)] (strict superS) ∧
    StopsAt [(Operand2.u4 (.byReg 15 .ror 2) [0, 1], .u4)] (strict superS) .u4 ∧
    Clear [(false, .u4), (State.inUserBank superS, .u1), ((bankOf (State.spsr superS)).isNone, .u2)] (strict superS) ∧
    StopsAt [(false, .u4), (State.inUserBank userS, .u1), ((bankOf (State.spsr userS)).isNone, .u2)] (strict userS) .u1 ∧
    StopsAt [(false, .u4), (State.inUserBank { superS with spsr := 0 }, .u1), ((bankOf (State.spsr { superS with spsr := 0 })).isNone, .u2)] (strict superS) .u2 ∧
    Clear [(false, .u4), (State.inUserBank userS, .u1), ((bankOf (State.spsr userS)).isNone, .u2)] userS := by
  simp only [ArmReady, Clear, StopsAt]
  decide

theorem witness_ArmAddSubtract :
    ArmReady .al superS ∧
    Clear [(Operand2.u4 (.byReg 15 .ror 2) [15, 1], .u4)] superS ∧
    Clear [(Operand2.u4 (.imm 15 255) [15, 15], .u4)] (strict superS) ∧
    StopsAt [(Operand2.u4 (.byReg 15 .ror 2) [15, 1], .u4)] (strict superS) .u4 ∧
    Clear [(false, .u4), (State.inUserBank superS, .u1), ((bankOf (State.spsr superS)).isNone, .u2)] (strict superS) ∧
    StopsAt [(false, .u4), (State.inUserBank userS, .u1), ((bankOf (State.spsr userS)).isNone, .u2)] (strict userS) .u1 ∧
    StopsAt [(false, .u4), (State.inUserBank { superS with spsr := 0 }, .u1), ((bankOf (State.spsr { superS with spsr := 0 })).isNone, .u2)] (strict superS) .u2 ∧
    Clear [(false, .u4), (State.inUserBank userS, .u1), ((bankOf (State.spsr userS)).isNone, .u2)] userS := by
  simp only [ArmReady, Clear, StopsAt]
  decide

theorem witness_ArmWithCarry :
    ArmReady .al superS ∧
    Clear [(Operand2.u4 (.byReg 15 .ror 2) [0, 15], .u4)] superS ∧
    Clear [(Operand2.u4 (.imm 15 255) [15, 15], .u4)] (strict superS) ∧
    StopsAt [(Operand2.u4 (.byReg 15 .ror 2) [0, 15], .u4)] (strict superS) .u4 ∧
    Clear [(false, .u4), (State.inUserBank superS, .u1), ((bankOf (State.spsr superS)).isNone, .u2)] (strict superS) ∧
    StopsAt [(false, .u4), (State.inUserBank userS, .u1), ((bankOf (State.spsr userS)).isNone, .u2)] (strict userS) .u1 ∧
    StopsAt [(false, .u4), (State.inUserBank { superS with spsr := 0 }, .u1), ((bankOf (State.spsr { superS with spsr := 0 })).isNone, .u2)] (strict superS) .u2 ∧
    Clear [(false, .u4), (State.inUserBank userS, .u1), ((bankOf (State.spsr userS)).isNone, .u2)] userS := by
  simp only [ArmReady, Clear, StopsAt]
  decide

theorem witness_ArmMoves :
    ArmReady .al superS ∧
    Clear [(Operand2.u4 (.byReg 15 .ror 2) [0], .u4)] superS ∧
    Clear [(Operand2.u4 (.imm 15 255) [15, 15], .u4)] (strict superS) ∧
    StopsAt [(Operand2.u4 (.byReg 15 .ror 2) [0], .u4)] (strict superS) .u4 ∧
    Clear [(false, .u4), (State.inUserBank superS, .u1), ((bankOf (State.spsr superS)).isNone, .u2)] (strict superS) ∧
    StopsAt [(false, .u4), (State.inUserBank userS, .u1), ((bankOf (State.spsr userS)).isNone, .u2)] (strict userS) .u1 ∧
    StopsAt [(false, .u4), (State.inUserBank { superS with spsr := 0 }, .u1), ((bankOf (State.spsr { superS with spsr := 0 })).isNone, .u2)] (strict superS) .u2 ∧
    Clear [(false, .u4), (State.inUserBank userS, .u1), ((bankOf (State.spsr userS)).isNone, .u2)] userS := by
  simp only [ArmReady, Clear, StopsAt]
  decide

theorem witness_ArmComparisons :
    ArmReady .al superS ∧
    Clear [(Operand2.u4 (.byReg 15 .ror 2) [0, 1], .u4)] superS ∧
    Clear [(Operand2.u4 (.byReg 3 .lsl 2) [0, 1], .u4)] (strict superS) ∧
    StopsAt [(Operand2.u4 (.byReg 3 .lsl 2) [0, 15], .u4)] (strict superS) .u4 ∧
    Clear [(true, .u4), (true, .u22)] superS ∧
    StopsAt [(false, .u4), (true, .u22)] (strict superS) .u22 := by
  simp only [ArmReady, Clear, StopsAt]
  decide

theorem witness_ArmMultiply :
    ArmReady .al superS ∧
    Clear [(decide ((0 : Reg) = 1 ∨ (15 : Reg) ∈ [0, 1, 2]), .u11)] (strict superS) ∧
    StopsAt [(decide ((1 : Reg) = 1 ∨ (15 : Reg) ∈ [1, 1, 2]), .u11)] (strict superS) .u11 ∧
    StopsAt [(decide ((0 : Reg) = 1 ∨ (15 : Reg) ∈ [0, 1, 2, 15]), .u11)] (strict superS) .u11 := by
  simp only [ArmReady, Clear, StopsAt]
  decide

theorem witness_ArmMultiplyLong :
    ArmReady .al superS ∧
    Clear [(longOverlap 1 0 3 2, .u11)] (strict superS) ∧
    StopsAt [(longOverlap 1 1 3 2, .u11)] (strict superS) .u11 ∧
    Clear [(longOverlap 1 1 3 1, .u11)] superS := by
  simp only [ArmReady, Clear, StopsAt]
  decide

theorem witness_ArmLoads :
    ArmReady .al superS ∧
    Clear [(baseClash true 1 0 || false, .u9)] (strict superS) ∧
    StopsAt [(baseClash true 1 1 || false, .u9)] (strict superS) .u9 ∧
    StopsAt [(baseClash true 15 0 || false, .u9)] (strict superS) .u9 ∧
    Clear [(baseClash false 15 15 || false, .u9)] (strict superS) ∧
    StopsAt [(baseClash false 1 15 || Offset.isPc (.imm 4) || (15 : Reg) == 15, .u9)] (strict superS) .u9 ∧
    gets (State.portLoad .word (Width.align .word 0x2003) superS) = true ∧
    gets (State.portLoad .word (Width.align .word 0x2003) (hole superS)) = false ∧
    gets (State.portLoad .byte (Width.align .byte 0x2003) superS) = true ∧
    gets (State.portLoad .byte (Width.align .byte 0x2003) (hole superS)) = false ∧
    gets (State.portLoad .word (Width.align .word 0x2000) (dev superS)) = true := by
  simp only [ArmReady, Clear, StopsAt]
  decide

theorem witness_ArmStores :
    ArmReady .al superS ∧
    Clear [(baseClash true 1 0 || false, .u9)] (strict superS) ∧
    StopsAt [(baseClash true 1 1 || false, .u9)] (strict superS) .u9 ∧
    StopsAt [(baseClash false 1 0 || Offset.isPc (.reg 0 .lsl 15), .u9)] (strict superS) .u9 ∧
    StopsAt [(!false && true, .u10), (baseClash true 1 0 || false, .u9)] (strict superS) .u10 ∧
    (State.portStore .word (Width.align .word 0x2003) 0xAB superS).1 = true ∧
    (State.portStore .word (Width.align .word 0x2003) 0xAB (rom superS)).1 = false ∧
    (State.portStore .half (Width.align .half 0x2003) 0xAB superS).1 = true ∧
    (State.portStore .byte (Width.align .byte 0x2003) 0xAB (rom superS)).1 = false := by
  simp only [ArmReady, Clear, StopsAt]
  decide

theorem witness_ArmHalfwordLoads :
    ArmReady .al superS ∧
    Clear [(!true && true, .u10), (baseClash true 1 0 || false, .u9), (isOdd 0x2002, .u15)] (strict superS) ∧
    StopsAt [(!false && true, .u10), (baseClash true 1 1 || false, .u9), (isOdd 0x2001, .u15)] (strict superS) .u10 ∧
    StopsAt [(!true && true, .u10), (baseClash true 1 1 || false, .u9), (isOdd 0x2001, .u15)] (strict superS) .u9 ∧
    StopsAt [(!true && false, .u10), (baseClash false 1 0 || false, .u9), (isOdd 0x2001, .u15)] (strict superS) .u15 ∧
    Clear [(!false && true, .u10), (baseClash true 1 1 || false, .u9), (isOdd 0x2001, .u15)] superS ∧
    gets (State.portLoad .half (Width.align .half 0x2001) superS) = true ∧
    gets (State.portLoad .half (Width.align .half 0x2001) (hole superS)) = false ∧
    gets (State.portLoad .byte (Width.align .byte 0x2000) (hole superS)) = false := by
  simp only [ArmReady, Clear, StopsAt]
  decide

theorem witness_ArmUserLoads :
    ArmReady .al superS ∧
    LegalMode superS ∧
    Clear [(baseClash true 1 0 || false, .u9)] (strict superS) ∧
    StopsAt [(baseClash true 1 1 || false, .u9)] (strict superS) .u9 ∧
    gets (State.portLoad .word (Width.align .word 0x2001) superS) = true ∧
    gets (State.portLoad .word (Width.align .word 0x2001) (hole superS)) = false ∧
    gets (State.portLoad .byte (Width.align .byte 0x2001) superS) = true ∧
    gets (State.portLoad .byte (Width.align .byte 0x2001) (hole superS)) = false := by
  simp only [ArmReady, Clear, StopsAt, LegalMode]
  decide

theorem witness_ArmUserStores :
    ArmReady .al superS ∧
    LegalMode superS ∧
    Clear [(baseClash true 1 0 || false, .u9)] (strict superS) ∧
    StopsAt [(baseClash true 15 0 || false, .u9)] (strict superS) .u9 ∧
    (State.portStore .word (Width.align .word 0x2001) 0xAB superS).1 = true ∧
    (State.portStore .word (Width.align .word 0x2001) 0xAB (rom superS)).1 = false ∧
    (State.portStore .byte (Width.align .byte 0x2001) 0xAB superS).1 = true ∧
    (State.portStore .byte (Width.align .byte 0x2001) 0xAB (rom superS)).1 = false := by
  simp only [ArmReady, Clear, StopsAt, LegalMode]
  decide

theorem witness_ArmSwaps :
    ArmReady .al superS ∧
    Clear [(decide ((15 : Reg) ∈ [2, 0, 1] ∨ (2 : Reg) = 0 ∨ (2 : Reg) = 1), .u13)] (strict superS) ∧
    StopsAt [(decide ((15 : Reg) ∈ [2, 2, 1] ∨ (2 : Reg) = 2 ∨ (2 : Reg) = 1), .u13)] (strict superS) .u13 ∧
    StopsAt [(decide ((15 : Reg) ∈ [2, 0, 15] ∨ (2 : Reg) = 0 ∨ (2 : Reg) = 15), .u13)] (strict superS) .u13 ∧
    gets (State.portLoad .word (Width.align .word 0x2001) superS) = true ∧
    (State.portStore .word (Width.align .word 0x2001) 0xAB superS).1 = true ∧
    gets (State.portLoad .word (Width.align .word 0x2001) (hole superS)) = false ∧
    gets (State.portLoad .word (Width.align .word 0x2001) (rom superS)) = true ∧
    (State.portStore .word (Width.align .word 0x2001) 0xAB (rom superS)).1 = false := by
  simp only [ArmReady, Clear, StopsAt]
  decide

theorem witness_BlockAddressing :
    (1 : BitVec 16) ≠ 0 ∧
    (0xFFFF : BitVec 16) ≠ 0 ∧
    0 < (wordAddrs 0xFFFFFFFF 2).length ∧
    1 < (wordAddrs 0xFFFFFFFF 2).length := by
  decide

/-- No range of the port's map over the addresses; a range just above them. -/
theorem witness_BlockWords : (∀ a ∈ wordAddrs 3 2, ∀ r ∈ superS.regions, r.touches a.toNat 4 = false) ∧
    ∀ a ∈ wordAddrs 3 2, ∀ r ∈ [(⟨8, 4, .absent⟩ : Region)], r.touches a.toNat 4 = false :=
  ⟨fun _ _ r h => (nomatch (h : r ∈ ([] : List Region))),
    by simp [wordAddrs, Region.touches, List.range_succ]⟩

theorem witness_ArmLdm :
    ArmReady .al superS ∧
    (0x000C : BitVec 16) ≠ 0 ∧
    Clear [((1 : Reg) == 15, .u9), (true && BitVec.getLsbD (0x000C : BitVec 16) 1, .u8)] (strict superS) ∧
    StopsAt [((15 : Reg) == 15, .u9), (true && BitVec.getLsbD (0x8000 : BitVec 16) 15, .u8)] (strict superS) .u9 ∧
    StopsAt [((1 : Reg) == 15, .u9), (true && BitVec.getLsbD (0x0006 : BitVec 16) 1, .u8)] (strict superS) .u8 ∧
    gets (State.loadWords (wordAddrs 0x2000 2) superS) = true ∧
    gets (State.loadWords (wordAddrs 0x2000 2) (hole superS)) = false := by
  simp only [ArmReady, Clear, StopsAt]
  decide

theorem witness_ArmStm :
    ArmReady .al superS ∧
    (0x4003 : BitVec 16) ≠ 0 ∧
    Clear [((1 : Reg) == 15, .u9), (true && BitVec.getLsbD (0x0006 : BitVec 16) 1 && decide ((named 0x0006).head? ≠ some 1), .u7)] (strict superS) ∧
    StopsAt [((15 : Reg) == 15, .u9), (false && BitVec.getLsbD (0x8000 : BitVec 16) 15 && decide ((named 0x8000).head? ≠ some 15), .u7)] (strict superS) .u9 ∧
    StopsAt [((1 : Reg) == 15, .u9), (true && BitVec.getLsbD (0x0003 : BitVec 16) 1 && decide ((named 0x0003).head? ≠ some 1), .u7)] (strict superS) .u7 ∧
    (State.storeWords ((wordAddrs 0x1FFC 2).zip [1, 2]) superS).1 = true ∧
    (State.storeWords ((wordAddrs 0x1FFC 2).zip [1, 2]) (rom superS)).1 = false := by
  simp only [ArmReady, Clear, StopsAt]
  decide

theorem witness_ArmUserBankTransfers :
    ArmReady .al superS ∧
    (0x2100 : BitVec 16) ≠ 0 ∧
    Clear [((0 : Reg) == 15, .u9), (false || State.inUserBank superS, .u14), (false && BitVec.getLsbD (0x2100 : BitVec 16) 0 && decide ((named 0x2100).head? ≠ some 0), .u7)] (strict superS) ∧
    StopsAt [((0 : Reg) == 15, .u9), (false || State.inUserBank userS, .u14), (false && BitVec.getLsbD (0x2100 : BitVec 16) 0, .u8)] (strict userS) .u14 ∧
    StopsAt [((0 : Reg) == 15, .u9), (true || State.inUserBank superS, .u14), (true && BitVec.getLsbD (0x0003 : BitVec 16) 0 && decide ((named 0x0003).head? ≠ some 0), .u7)] (strict superS) .u14 ∧
    StopsAt [((15 : Reg) == 15, .u9), (true || State.inUserBank superS, .u14), (true && BitVec.getLsbD (0x0003 : BitVec 16) 15 && decide ((named 0x0003).head? ≠ some 15), .u7)] (strict superS) .u9 ∧
    gets (State.loadWords (wordAddrs 0x2000 2) superS) = true ∧
    gets (State.loadWords (wordAddrs 0x2000 2) (hole superS)) = false ∧
    (State.storeWords ((wordAddrs 0x1FFC 2).zip [1, 2]) superS).1 = true ∧
    (State.storeWords ((wordAddrs 0x1FFC 2).zip [1, 2]) (rom superS)).1 = false := by
  simp only [ArmReady, Clear, StopsAt]
  decide

theorem witness_ArmLdmRestore :
    ArmReady .al superS ∧
    BitVec.getLsbD (0x8001 : BitVec 16) 15 = true ∧
    Clear [((1 : Reg) == 15, .u9), (false || State.inUserBank superS, .u14), (false && BitVec.getLsbD (0x8001 : BitVec 16) 1, .u8), ((bankOf (State.spsr superS)).isNone, .u2)] (strict superS) ∧
    StopsAt [((1 : Reg) == 15, .u9), (true || State.inUserBank superS, .u14), (true && BitVec.getLsbD (0x8001 : BitVec 16) 1, .u8), ((bankOf (State.spsr superS)).isNone, .u2)] (strict superS) .u14 ∧
    StopsAt [((1 : Reg) == 15, .u9), (false || State.inUserBank superS, .u14), (false && BitVec.getLsbD (0x8001 : BitVec 16) 1, .u8), ((bankOf (State.spsr { superS with spsr := 0 })).isNone, .u2)] (strict superS) .u2 ∧
    StopsAt [((15 : Reg) == 15, .u9), (true || State.inUserBank superS, .u14), (true && BitVec.getLsbD (0x8001 : BitVec 16) 15, .u8), ((bankOf (State.spsr superS)).isNone, .u2)] (strict superS) .u9 ∧
    gets (State.loadWords (wordAddrs 0x2000 2) superS) = true ∧
    gets (State.loadWords (wordAddrs 0x2000 2) (hole superS)) = false := by
  simp only [ArmReady, Clear, StopsAt]
  decide

theorem witness_EmptyRegisterList :
    ArmReady .al superS ∧
    ThumbReady thumbS ∧
    superS.params.emptyRlist = .fault ∧
    (hardware superS).params.emptyRlist = .arm7tdmi ∧
    Clear [((1 : Reg) == 15, .u9)] (strict (hardware superS)) ∧
    StopsAt [((15 : Reg) == 15, .u9)] (strict (hardware superS)) .u9 ∧
    StopsAt [((1 : Reg) == 15, .u9), (true || State.inUserBank (hardware superS), .u14)] (strict (hardware superS)) .u14 ∧
    Clear [((1 : Reg) == 15, .u9), (false || State.inUserBank (hardware superS), .u14)] (strict (hardware superS)) ∧
    gets (State.loadWords (wordAddrs 0x2000 1) superS) = true ∧
    gets (State.loadWords (wordAddrs 0x2000 1) (hole superS)) = false ∧
    (State.storeWords ((wordAddrs 0x1FFC 2).zip [1, 2]) superS).1 = true ∧
    (State.storeWords ((wordAddrs 0x1FFC 2).zip [1, 2]) (rom superS)).1 = false := by
  simp only [ArmReady, ThumbReady, Clear, StopsAt]
  decide

theorem witness_ArmBranches :
    ArmReady .al superS ∧
    Clear [(!BitVec.getLsbD (0x2001 : Word) 0 && BitVec.getLsbD (0x2001 : Word) 1, .u19)] (strict superS) ∧
    Clear [(!BitVec.getLsbD (0x2004 : Word) 0 && BitVec.getLsbD (0x2004 : Word) 1, .u19)] (strict superS) ∧
    StopsAt [(!BitVec.getLsbD (0x2002 : Word) 0 && BitVec.getLsbD (0x2002 : Word) 1, .u19)] (strict superS) .u19 := by
  simp only [ArmReady, Clear, StopsAt]
  decide

theorem witness_StatusTransfers :
    ArmReady .al superS ∧
    Clear [(true && State.inUserBank superS, .u1), ((0 : Reg) == 15, .u24)] (strict superS) ∧
    StopsAt [(true && State.inUserBank userS, .u1), ((0 : Reg) == 15, .u24)] (strict userS) .u1 ∧
    StopsAt [(false && State.inUserBank userS, .u1), ((15 : Reg) == 15, .u24)] (strict userS) .u24 ∧
    StopsAt [(State.inUserBank userS, .u1)] (strict userS) .u1 ∧
    Clear [((bankOf (fieldMerge true 1 0xD3 0x1F)).isNone, .u2), ((fieldMerge true 1 0xD3 0x1F).getLsbD 5 != superS.thumb, .u3)] (strict superS) ∧
    StopsAt [((bankOf (fieldMerge true 1 0xD3 0)).isNone, .u2), ((fieldMerge true 1 0xD3 0).getLsbD 5 != superS.thumb, .u3)] (strict superS) .u2 ∧
    StopsAt [((bankOf (fieldMerge true 1 0xD3 0x3F)).isNone, .u2), ((fieldMerge true 1 0xD3 0x3F).getLsbD 5 != superS.thumb, .u3)] (strict superS) .u3 := by
  simp only [ArmReady, Clear, StopsAt]
  decide

theorem witness_ExceptionInstructions :
    ArmReady .al userS ∧
    ThumbReady thumbS ∧
    Instr.undefMul .al ∈ [Instr.undefMul .al, .undefMisc .al, .undefMsrImm .al, .undefMedia .al] ∧
    Instr.tUndefCond ∈ [Instr.tUndef1011, .tUndefCond, .tUndef11101] := by
  simp only [ArmReady, ThumbReady]
  decide

theorem witness_ThumbShifts :
    ThumbReady thumbS := by
  simp only [ThumbReady]
  decide

theorem witness_ThumbArithmetic :
    ThumbReady thumbS := by
  simp only [ThumbReady]
  decide

theorem witness_ThumbCompares :
    ThumbReady thumbS ∧
    Clear [(!true && !false, .u17)] (strict thumbS) ∧
    StopsAt [(!false && !false, .u17)] (strict thumbS) .u17 ∧
    Clear [(!false && !false, .u17)] thumbS := by
  simp only [ThumbReady, Clear, StopsAt]
  decide

theorem witness_ThumbLogical :
    ThumbReady thumbS ∧
    Clear [((0 : LowReg) == 1, .u11)] (strict thumbS) ∧
    StopsAt [((1 : LowReg) == 1, .u11)] (strict thumbS) .u11 := by
  simp only [ThumbReady, Clear, StopsAt]
  decide

theorem witness_ThumbHighAndStack :
    ThumbReady thumbS ∧
    Clear [(!true && !true, .u17)] (strict thumbS) ∧
    StopsAt [(!false && !false, .u17)] (strict thumbS) .u17 ∧
    StopsAt [(true, .u17), (!BitVec.getLsbD (0x2002 : Word) 0 && BitVec.getLsbD (0x2002 : Word) 1, .u19)] (strict thumbS) .u17 ∧
    StopsAt [(false, .u17), (!BitVec.getLsbD (0x2002 : Word) 0 && BitVec.getLsbD (0x2002 : Word) 1, .u19)] (strict thumbS) .u19 ∧
    Clear [(false, .u17), (!BitVec.getLsbD (0x2001 : Word) 0 && BitVec.getLsbD (0x2001 : Word) 1, .u19)] (strict thumbS) := by
  simp only [ThumbReady, Clear, StopsAt]
  decide

theorem witness_ThumbLoads :
    ThumbReady thumbS ∧
    gets (State.portLoad .word (Width.align .word 0x2001) thumbS) = true ∧
    gets (State.portLoad .word (Width.align .word 0x2001) (hole thumbS)) = false ∧
    gets (State.portLoad .half (Width.align .half 0x2001) thumbS) = true ∧
    gets (State.portLoad .half (Width.align .half 0x2001) (hole thumbS)) = false ∧
    gets (State.portLoad .byte (Width.align .byte 0x2001) thumbS) = true ∧
    gets (State.portLoad .byte (Width.align .byte 0x2001) (hole thumbS)) = false ∧
    Clear [(isOdd 0x2002, .u15)] (strict thumbS) ∧
    StopsAt [(isOdd 0x2001, .u15)] (strict thumbS) .u15 := by
  simp only [ThumbReady, Clear, StopsAt]
  decide

theorem witness_ThumbStores :
    ThumbReady thumbS ∧
    (State.portStore .word (Width.align .word 0x2001) 0xAB thumbS).1 = true ∧
    (State.portStore .word (Width.align .word 0x2001) 0xAB (rom thumbS)).1 = false ∧
    (State.portStore .half (Width.align .half 0x2001) 0xAB thumbS).1 = true ∧
    (State.portStore .half (Width.align .half 0x2001) 0xAB (rom thumbS)).1 = false ∧
    (State.portStore .byte (Width.align .byte 0x2001) 0xAB thumbS).1 = true ∧
    (State.portStore .byte (Width.align .byte 0x2001) 0xAB (rom thumbS)).1 = false := by
  simp only [ThumbReady]
  decide

theorem witness_ThumbBlockTransfers :
    ThumbReady thumbS ∧
    ((0 : BitVec 8) ≠ 0 ∨ true = true) ∧
    ((0x80 : BitVec 8) ≠ 0 ∨ false = true) ∧
    (0xFF : BitVec 8) ≠ 0 ∧
    Clear [(BitVec.getLsbD (0x05 : BitVec 8) 1 && decide ((named (withExtra 0x05 false 0)).head? ≠ some 1), .u7)] (strict thumbS) ∧
    Clear [(BitVec.getLsbD (0x06 : BitVec 8) 1 && decide ((named (withExtra 0x06 false 0)).head? ≠ some 1), .u7)] (strict thumbS) ∧
    StopsAt [(BitVec.getLsbD (0x03 : BitVec 8) 1 && decide ((named (withExtra 0x03 false 0)).head? ≠ some 1), .u7)] (strict thumbS) .u7 ∧
    StopsAt [(BitVec.getLsbD (0x03 : BitVec 8) 1, .u8)] (strict thumbS) .u8 ∧
    Clear [(BitVec.getLsbD (0x05 : BitVec 8) 1, .u8)] (strict thumbS) ∧
    gets (State.loadWords (wordAddrs 0x2000 2) thumbS) = true ∧
    gets (State.loadWords (wordAddrs 0x2000 2) (hole thumbS)) = false ∧
    (State.storeWords ((wordAddrs 0x1FFC 2).zip [1, 2]) thumbS).1 = true ∧
    (State.storeWords ((wordAddrs 0x1FFC 2).zip [1, 2]) (rom thumbS)).1 = false := by
  simp only [ThumbReady, Clear, StopsAt]
  decide

theorem witness_ThumbBranches :
    ThumbReady thumbS ∧
    endsWith (runThumb 0xF7FF thumbS) (fun t => endsWith (runThumb 0xFFFE t) (fun _ => true)) = true := by
  simp only [ThumbReady]
  decide

theorem witness_PlainMemory :
    superS.loadFails .word 0x2000 = false ∧
    superS.atDevice .word 0x2000 = false ∧
    (hole superS).loadFails .byte 0x2003 = true ∧
    (hole superS).loadFails .half 0x2004 = false ∧
    (rom superS).storeFails .word (Width.align .word 0x2003) = true ∧
    superS.storeFails .word (Width.align .word 0x2003) = false ∧
    superS.mem.wf = true := by
  decide

end Sys2Proof.Tests
end

section
/-! SUPPORT. Every word decodes to an ARM instruction and every halfword to a Thumb instruction. -/

namespace Sys2Proof

/-! ## ARM words (spec/30_encoding.md R302) -/

theorem decodeMultiply_set (c : Cond) (w : Word) : (decodeMultiply c w).set = .arm := by
  unfold decodeMultiply
  repeat' split
  all_goals rfl

theorem decodeHalfword_set (c : Cond) (w : Word) : (decodeHalfword c w).set = .arm := by
  unfold decodeHalfword
  repeat' split
  all_goals rfl

theorem decodeDpShiftImm_set (c : Cond) (w : Word) : (decodeDpShiftImm c w).set = .arm := by
  unfold decodeDpShiftImm
  split <;> rfl

theorem decodeDpShiftReg_set (c : Cond) (w : Word) : (decodeDpShiftReg c w).set = .arm := by
  unfold decodeDpShiftReg
  split <;> rfl

theorem decodeDpImm_set (c : Cond) (w : Word) : (decodeDpImm c w).set = .arm := by
  unfold decodeDpImm
  split <;> rfl

theorem decodeTransferImm_set (c : Cond) (w : Word) : (decodeTransferImm c w).set = .arm := by
  unfold decodeTransferImm
  dsimp only
  repeat' split
  all_goals rfl

theorem decodeTransferReg_set (c : Cond) (w : Word) : (decodeTransferReg c w).set = .arm := by
  unfold decodeTransferReg
  dsimp only
  repeat' split
  all_goals rfl

theorem decodeBlock_set (c : Cond) (w : Word) : (decodeBlock c w).set = .arm := by
  unfold decodeBlock
  repeat' split
  all_goals rfl

theorem decodeCoprocTransfer_set (c : Cond) (w : Word) : (decodeCoprocTransfer c w).set = .arm := by
  unfold decodeCoprocTransfer
  split <;> rfl

/-- Whatever row of R302 is selected, its body is an ARM instruction: the cases named are the rows whose body is
a decoder of its own or a choice of two constructors. -/
theorem armBody_set (w : Word) (k : Nat) : (armBody w k).set = .arm := by
  unfold armBody
  split
  case h_2 | h_3 => exact decodeMultiply_set _ w
  case h_5 => exact decodeHalfword_set _ w
  case h_12 => exact decodeDpShiftImm_set _ w
  case h_13 => exact decodeDpShiftReg_set _ w
  case h_14 => exact decodeDpImm_set _ w
  case h_16 => exact decodeTransferImm_set _ w
  case h_17 => exact decodeTransferReg_set _ w
  case h_18 => exact decodeBlock_set _ w
  case h_20 => exact decodeCoprocTransfer_set _ w
  case h_4 | h_19 | h_22 => split <;> rfl
  all_goals rfl

theorem decodeArm_set (w : Word) : (decodeArm w).set = .arm := by
  rw [decodeArm_row]
  exact armBody_set w _

/-! ## Thumb halfwords (R320) -/

theorem decodeThumbAlu_set (h : Half) : (decodeThumbAlu h).set = .thumb := by
  unfold decodeThumbAlu
  split <;> rfl

/-- Whatever row of R320 is selected, its body is a Thumb instruction. -/
theorem thumbBody_set (h : Half) (k : Nat) : (thumbBody h k).set = .thumb := by
  unfold thumbBody
  split
  case h_12 => exact decodeThumbAlu_set h
  all_goals rfl

theorem decodeThumb_set (h : Half) : (decodeThumb h).set = .thumb := by
  rw [decodeThumb_bits]
  exact thumbBody_set h _

end Sys2Proof
end

section
/-! SUPPORT. The meaning of every instruction, called in its own instruction set, answers as `Runs` says. -/

namespace Sys2Proof.Machine

open Sys2Proof.Safety

/-! ## The checks of the transfer forms -/

theorem Runs.of_wordCall {s : State} {r : Result} (more : Bool) (ix : Indexing) (rn rd : Reg) (h : Runs s r) :
    Runs s (wordCall more ix rn rd s r) := .of_guard _ _ h

theorem Runs.of_byteCall {s : State} {r : Result} (more : Bool) (ix : Indexing) (rn rd : Reg) (h : Runs s r) :
    Runs s (byteCall more ix rn rd s r) := .of_guard _ _ h

theorem Runs.of_halfCall {s : State} {r : Result} (p w more : Bool) (ix : Indexing) (rn rd : Reg)
    (h : Runs s r) : Runs s (halfCall p w more ix rn rd s r) := .of_guard _ _ (.of_guard _ _ h)

theorem Runs.of_oddCall {s : State} {r : Result} (ix : Indexing) (h : Runs s r) : Runs s (oddCall ix s r) :=
  .of_guard _ _ h

/-! ## Ends of a call beside those of `Laws/Runs` -/

theorem thumbLoad_runs (w : Width) (addr : Word) (rd : LowReg) (fix : Word → Word) (s : State) :
    Runs s (thumbLoad w addr rd fix s) := singleLoad_runs w _ _ _ fix s

theorem thumbStore_runs (w : Width) (addr : Word) (rd : LowReg) (s : State) :
    Runs s (thumbStore w addr rd s) := singleStore_runs w _ _ _ s

/-- An instruction-raised exception (spec/60_exceptions.md R902, R903) answers the entered state. -/
theorem raiseUndefined_runs (s : State) : Runs s (.next s.raiseUndefined) := .of_next (State.kept_enter _ _ _ _ s)

theorem raiseSwi_runs (s : State) : Runs s (.next s.raiseSwi) := .of_next (State.kept_enter _ _ _ _ s)

/-- A conditional branch goes to its target or on (spec/49_thumb_memory_branch.md R871). -/
theorem condBranch_runs (b : Bool) (target : Word) (s : State) :
    Runs s (.next (if b then s.writePC target else s.advance)) := by
  refine .of_next ?_
  split
  · exact State.kept_writePC target s
  · exact State.kept_advance s

/-! ## The meanings -/

/-- Every ARM instruction, called in ARM state. -/
theorem execArm_runs {i : Instr} {s : State} (hi : i.set = .arm) (ht : s.thumb = false) : Runs s (exec i s) := by
  cases i with dsimp only [exec]
  | andShiftImm | eorShiftImm | subShiftImm | rsbShiftImm | addShiftImm | adcShiftImm | sbcShiftImm
  | rscShiftImm | orrShiftImm | movShiftImm | bicShiftImm | mvnShiftImm
  | andImm | eorImm | subImm | rsbImm | addImm | adcImm | sbcImm | rscImm | orrImm | movImm | bicImm
  | mvnImm => exact .of_armCall _ ht (dpWrite_runs _ _ _ _)
  | andShiftReg | eorShiftReg | subShiftReg | rsbShiftReg | addShiftReg | adcShiftReg | sbcShiftReg
  | rscShiftReg | orrShiftReg | movShiftReg | bicShiftReg | mvnShiftReg =>
    exact .of_armCall _ ht (.of_guard _ _ (dpWrite_runs _ _ _ _))
  | tstShiftImm | teqShiftImm | cmpShiftImm | cmnShiftImm | tstImm | teqImm | cmpImm | cmnImm =>
    exact .of_armCall _ ht (dpCompare_runs _ _ ht)
  | tstShiftReg | teqShiftReg | cmpShiftReg | cmnShiftReg =>
    exact .of_armCall _ ht (.of_guard _ _ (dpCompare_runs _ _ ht))
  | mul | mla => exact .of_armCall _ ht (.of_guard _ _ (mulWrite_runs _ _ _ _))
  | umull | umlal | smull | smlal => exact .of_armCall _ ht (.of_guard _ _ (mulLongWrite_runs _ _ _ _ _))
  | swp | swpb => exact .of_armCall _ ht (.of_guard _ _ (swap_runs _ _ _ _ _))
  | strImm | strReg => exact .of_armCall _ ht (.of_wordCall _ _ _ _ (singleStore_runs _ _ _ _ _))
  | ldrImm | ldrReg => exact .of_armCall _ ht (.of_wordCall _ _ _ _ (singleLoad_runs _ _ _ _ _ _))
  | strbImm | strbReg => exact .of_armCall _ ht (.of_byteCall _ _ _ _ (singleStore_runs _ _ _ _ _))
  | ldrbImm | ldrbReg => exact .of_armCall _ ht (.of_byteCall _ _ _ _ (singleLoad_runs _ _ _ _ _ _))
  | strtImm | strtReg => exact .of_armCall _ ht (.of_wordCall _ _ _ _ (userStore_runs _ _ _ _ _))
  | ldrtImm | ldrtReg => exact .of_armCall _ ht (.of_wordCall _ _ _ _ (userLoad_runs _ _ _ _ _))
  | strbtImm | strbtReg => exact .of_armCall _ ht (.of_byteCall _ _ _ _ (userStore_runs _ _ _ _ _))
  | ldrbtImm | ldrbtReg => exact .of_armCall _ ht (.of_byteCall _ _ _ _ (userLoad_runs _ _ _ _ _))
  | strhReg | strhImm => exact .of_armCall _ ht (.of_halfCall _ _ _ _ _ _ (singleStore_runs _ _ _ _ _))
  | ldrsbReg | ldrsbImm => exact .of_armCall _ ht (.of_halfCall _ _ _ _ _ _ (singleLoad_runs _ _ _ _ _ _))
  | ldrhReg | ldrhImm | ldrshReg | ldrshImm =>
    exact .of_armCall _ ht (.of_halfCall _ _ _ _ _ _ (.of_oddCall _ (singleLoad_runs _ _ _ _ _ _)))
  | ldm =>
    exact .of_armCall _ ht (.of_emptyCheck _ (.of_guard _ _ (.of_guard _ _ (blockLoad_runs _ _ _ kept_loadLive _))))
  | stm => exact .of_armCall _ ht (.of_emptyCheck _ (.of_guard _ _ (.of_guard _ _ (blockStore_runs _ _ _ _ _))))
  | stmUser =>
    exact .of_armCall _ ht (.of_emptyCheck _ (.of_guard _ _ (.of_guard _ _ (.of_guard _ _
      (blockStore_runs _ _ _ _ _)))))
  | ldmUser =>
    exact .of_armCall _ ht (.of_emptyCheck _ (.of_guard _ _ (.of_guard _ _ (.of_guard _ _
      (blockLoad_runs _ _ _ kept_loadUser _)))))
  | ldmRestore =>
    exact .of_armCall _ ht (.of_emptyCheck _ (.of_guard _ _ (.of_guard _ _ (.of_guard _ _ (.of_guard _ _
      (blockLoad_runs _ _ _ kept_loadRestore _))))))
  | b => exact .of_armCall _ ht (.of_next (State.kept_writePC _ _))
  | bl =>
    exact .of_armCall _ ht (.of_next ((State.kept_setX (by decide) _ _).trans (State.kept_writePC _ _)))
  | bx => exact .of_armCall _ ht (branchExchange_runs _ _)
  | mrs =>
    exact .of_armCall _ ht (.of_guard _ _ (.of_guard _ _ (.of_next
      ((State.kept_advance _).trans (State.kept_writeReg _ _ _)))))
  | msrReg | msrImm => exact .of_armCall _ ht (statusWrite_runs _ _ _ ht)
  | swi => exact .of_armCall _ ht (raiseSwi_runs _)
  | cdp | ldc | stc | mcr | mrc | undefMul | undefMisc | undefMsrImm | undefMedia =>
    exact .of_armCall _ ht (raiseUndefined_runs _)
  | _ => exact nomatch hi

/-- Every Thumb instruction, called in Thumb state. -/
theorem execThumb_runs {i : Instr} {s : State} (hi : i.set = .thumb) (ht : s.thumb = true) : Runs s (exec i s) := by
  cases i with dsimp only [exec]
  | tLslImm | tLsrImm | tAsrImm | tLsl | tLsr | tAsr | tRor => exact .of_thumbCall ht (thumbShift_runs _ _ _)
  | tAddReg | tSubReg | tAddImm3 | tSubImm3 | tAddImm8 | tSubImm8 | tAdc | tSbc | tNeg =>
    exact .of_thumbCall ht (thumbArith_runs _ _ _)
  | tMovImm8 | tAnd | tEor | tOrr | tBic | tMvn => exact .of_thumbCall ht (thumbLogic_runs _ _ _)
  | tCmpImm8 | tCmp | tCmn => exact .of_thumbCall ht (thumbCompare_runs _ _)
  | tTst => exact .of_thumbCall ht (.of_next ((State.kept_advance _).trans (State.kept_setFlagsNZ _ _)))
  | tMul rs rd =>
    exact .of_thumbCall ht (.of_guard _ _ (.of_next (((State.kept_advance _).trans
      (State.kept_setX (LowReg.reg_ne_pc rd) _ _)).trans (State.kept_setFlagsMul _ _))))
  | tAddHi | tMovHi => exact .of_thumbCall ht (.of_guard _ _ (thumbMove_runs _ _ _))
  | tCmpHi => exact .of_thumbCall ht (.of_guard _ _ (thumbCompare_runs _ _))
  | tBx => exact .of_thumbCall ht (.of_guard _ _ (branchExchange_runs _ _))
  | tAddPc | tAddSp | tAddSpImm | tSubSpImm => exact .of_thumbCall ht (thumbMove_runs _ _ _)
  | tLdrPc | tLdsbReg | tLdrReg | tLdrbReg | tLdrImm | tLdrbImm | tLdrSp =>
    exact .of_thumbCall ht (thumbLoad_runs _ _ _ _ _)
  | tLdrhReg | tLdrhImm | tLdshReg => exact .of_thumbCall ht (.of_guard _ _ (thumbLoad_runs _ _ _ _ _))
  | tStrReg | tStrhReg | tStrbReg | tStrImm | tStrbImm | tStrhImm | tStrSp =>
    exact .of_thumbCall ht (thumbStore_runs _ _ _ _)
  | tPush => exact .of_thumbCall ht (.of_emptyCheck _ (blockStore_runs _ _ _ _ _))
  | tPop => exact .of_thumbCall ht (.of_emptyCheck _ (blockLoad_runs _ _ _ kept_loadLive _))
  | tStmia => exact .of_thumbCall ht (.of_emptyCheck _ (.of_guard _ _ (blockStore_runs _ _ _ _ _)))
  | tLdmia => exact .of_thumbCall ht (.of_emptyCheck _ (.of_guard _ _ (blockLoad_runs _ _ _ kept_loadLive _)))
  | tBcond => exact .of_thumbCall ht (condBranch_runs _ _ _)
  | tB => exact .of_thumbCall ht (.of_next (State.kept_writePC _ _))
  | tBlFirst =>
    exact .of_thumbCall ht (.of_next ((State.kept_setX (by decide) _ _).trans (State.kept_advance _)))
  | tBlSecond =>
    exact .of_thumbCall ht (.of_next ((State.kept_setX (by decide) _ _).trans (State.kept_writePC _ _)))
  | tSwi => exact .of_thumbCall ht (raiseSwi_runs _)
  | tUndef1011 | tUndefCond | tUndef11101 => exact .of_thumbCall ht (raiseUndefined_runs _)
  | _ => exact nomatch hi

end Sys2Proof.Machine
end

section
/-! SUPPORT. The host step answers as the call it makes, and the two statements on what every step answers and
keeps. -/

namespace Sys2Proof.Machine

open Sys2Proof.Safety

/-- What runs from a state that `s` was brought to by a kept operation runs from `s`. -/
theorem Runs.after {s t : State} {r : Result} (h : Kept s t) (k : Runs t r) : Runs s r := by
  refine ⟨fun u hu => h.trans (k.next u hu), k.accepted, ?_⟩
  rw [← h.params]
  exact k.reference

/-- Every instruction of the set that `cpsr.T` selects (spec/40_operands_flags.md R400). -/
theorem exec_runs {i : Instr} {s : State} (hi : i.set = if s.thumb then .thumb else .arm) : Runs s (exec i s) := by
  cases ht : s.thumb with
  | false => exact execArm_runs (by simpa [ht] using hi) ht
  | true => exact execThumb_runs (by simpa [ht] using hi) ht

/-- What is fetched decodes to an instruction of the set in force (R118, R300). -/
theorem State.decodeFetched_set (w : Word) (s : State) :
    (s.decodeFetched w).set = if s.thumb then .thumb else .arm := by
  unfold State.decodeFetched
  split
  · exact decodeThumb_set _
  · exact decodeArm_set w

theorem State.fetch_frame (s : State) : PortFrame s s.fetch.2 :=
  State.portLoad_frame s.fetchWidth s.fetchAddr s (Width.align_mod _ _)

theorem legalMode_reset : LegalMode State.reset := by
  unfold LegalMode
  decide

theorem pcAligned_reset : PcAligned State.reset := by
  unfold PcAligned
  decide

/-- Reset keeps the port's side of the state and brings a legal mode and an aligned pc (R950). -/
theorem State.kept_resetBlock (s : State) : Kept s s.resetBlock :=
  ⟨rfl, rfl, rfl, Nat.le_refl _, ⟨[], by simp⟩, id, fun _ => legalMode_reset, fun _ => pcAligned_reset⟩

/-- The fetch and the call it leads to, or the prefetch abort (R906, R910). -/
theorem State.fetchThen_runs (s : State) : Runs s (s.fetchThen exec) := by
  have hf : Kept s s.fetch.2 := .of_port s.fetch_frame
  unfold State.fetchThen
  split
  · next t he =>
    rw [he] at hf
    exact .of_next (hf.trans (State.kept_enter _ _ _ _ t))
  · next w t he =>
    rw [he] at hf
    exact .after hf (exec_runs (State.decodeFetched_set w t))

/-- One host step runs from the state with its sample consumed (R910). -/
theorem step_runs (s : State) : Runs s.beginStep (step s) := by
  unfold step State.hostStep
  dsimp only
  split_ifs
  · exact .of_next (State.kept_resetBlock _)
  · exact .of_next (State.kept_enter _ _ _ _ _)
  · exact .of_next (State.kept_enter _ _ _ _ _)
  · exact State.fetchThen_runs _

/-- Settles O11: every step runs as `Runs` says, whose only stop with UNPRED_MODE = reference needs
EMPTY_RLIST = fault. -/
theorem stepAnswers : Obligations.StepAnswers := by
  unfold Obligations.StepAnswers
  refine ⟨fun s => (step_runs s).accepted, fun s hu he => ?_, fun s hu => ?_⟩
  · rcases (step_runs s).reference hu with h | ⟨-, hf⟩
    · exact h
    · exact absurd (he.symm.trans hf) (by decide)
  · exact ((step_runs s).reference hu).imp_right And.left

/-- Settles O14: a next state keeps what the state after the sample has, and the sample is the head of the
schedule. -/
theorem stepKeepsPort : Obligations.StepKeepsPort := by
  unfold Obligations.StepKeepsPort
  intro s t h
  have k : Kept s.beginStep t := (step_runs s).next t h
  exact ⟨k.params, k.regions, k.inputs, k.free⟩

end Sys2Proof.Machine
end

section
/-! SUPPORT. Reset, the invariant, the pc rules, and the bank switch of LoadStatus: what each element is after it,
that a switch back undoes it, and the User-mode view it explains. -/

namespace Sys2Proof.Machine

open Sys2Proof.Safety

/-! ## The invariant -/

/-- The start of a host step keeps the invariant: the new port log is empty. -/
theorem State.sound_beginStep {s : State} (h : Sound s) : Sound s.beginStep :=
  ⟨h.mode, h.pc, fun _ hop => absurd hop List.not_mem_nil, h.memory⟩

/-- Settles O10: a next state keeps what the start of the step has, the invariant included. -/
theorem stepKeepsInv : Obligations.StepKeepsInv := by
  unfold Obligations.StepKeepsInv
  intro s t hs h
  have k : Kept s.beginStep t := (step_runs s).next t h
  exact k.sound (State.sound_beginStep hs)

/-! ## Reset (spec/10_state.md R123) -/

theorem Banks.get_reset (b : Bank) : State.reset.banks.get b = .zero := by
  cases b <;> rfl

/-- Settles O4, element by element. -/
theorem resetState : Obligations.ResetState := by
  unfold Obligations.ResetState
  exact ⟨by decide, rfl, rfl, rfl, Banks.get_reset, by decide, rfl, by decide, rfl, by decide⟩

/-- Settles O5: nothing is in the port log and nothing in memory. -/
theorem resetIsSound : Obligations.ResetIsSound := by
  unfold Obligations.ResetIsSound
  exact ⟨legalMode_reset, pcAligned_reset, fun _ hop => absurd hop List.not_mem_nil, rfl⟩

/-! ## The program counter -/

/-- The pc write is the one the statements write out for each instruction set (R114). -/
theorem State.writePC_eq_jumped (a : Word) (s : State) : s.writePC a = jumped a s := by
  unfold State.writePC jumped State.pcMask State.pcOffset
  split <;> rfl

/-- The pipeline offset that a pc write adds is the one the current address takes off (R112, R114). -/
theorem State.currentAddr_writePC (a : Word) (s : State) : (s.writePC a).currentAddr = a &&& s.pcMask := by
  have h : (s.writePC a).pcOffset = s.pcOffset := rfl
  rw [State.currentAddr, State.pc_writePC, h, BitVec.add_sub_cancel]

theorem State.writeReg_ne_pc {r : Reg} (h : r ≠ 15) (v : Word) (s : State) : s.writeReg r v = s.setX r v :=
  if_neg h

theorem State.reg_writeReg_same (r : Reg) (v : Word) (s : State) :
    (s.writeReg r v).reg r = if r = 15 then (s.writePC v).pc else v := by
  split
  · next h => subst h; rfl
  · next h => rw [State.writeReg_ne_pc h, State.reg_setX_same]

theorem State.reg_writeReg_ne {r q : Reg} (h : q ≠ r) (v : Word) (s : State) :
    (s.writeReg r v).reg q = s.reg q := by
  unfold State.writeReg
  split
  · next hr => subst hr; exact State.reg_setX_ne h.symm _ s
  · exact State.reg_setX_ne h.symm v s

/-- Settles O20: each rule is an equation of the operation it speaks of. -/
theorem pcRules : Obligations.PcRules := by
  unfold Obligations.PcRules
  intro s
  exact ⟨rfl, rfl, rfl, fun a => State.writePC_eq_jumped a s, fun a => State.currentAddr_writePC a s,
    fun r v => ⟨State.reg_writeReg_same r v s, fun _ h => State.reg_writeReg_ne h v s⟩⟩

/-! ## The bank switch -/

theorem Banks.set_set (b : Banks) (k : Bank) (v w : BankSlots) : (b.set k v).set k w = b.set k w := by
  cases k <;> rfl

theorem State.saveBank_eq {s : State} {b : Bank} (h : s.bank = some b) :
    s.saveBank = { s with banks := s.banks.set b s.liveSlots } := by
  simp only [State.saveBank, h]

theorem State.saveBank_banks {s : State} {b : Bank} (h : s.bank = some b) :
    s.saveBank.banks = s.banks.set b s.liveSlots := by
  rw [State.saveBank_eq h]

@[simp] theorem State.saveBank_bank (s : State) : s.saveBank.bank = s.bank := by
  rw [State.bank, State.saveBank_cpsr, State.bank]

/-- Bringing the stale slots of the live bank up to date twice is doing it once (R107). -/
theorem State.settled_saveBank (s : State) : settled s.saveBank = settled s := by
  show s.saveBank.saveBank = s.saveBank
  cases h : s.bank with
  | none => simp only [State.saveBank, h]
  | some b =>
    have hb : s.saveBank.bank = some b := by rw [State.saveBank_bank, h]
    rw [State.saveBank_eq hb, State.saveBank_eq h]
    simp only [Banks.set_set]
    rfl

/-- `fiq_r[8..12]` come to R8 to R12 (R108). -/
theorem State.x_swapFiq (s : State) {k : Nat} (h : k < 5) : s.swapFiq.x[8 + k] = s.fiqR[k] := by
  interval_cases k <;> simp [State.swapFiq]

/-- R8 to R12 go to `fiq_r[8..12]` (R108). -/
theorem State.fiqR_swapFiq (s : State) {k : Nat} (h : k < 5) : s.swapFiq.fiqR[k] = s.x[8 + k] := by
  interval_cases k <;> rfl

/-- R8 to R12 are the registers 8 + k with k < 5, the numbering of `fiq_r`. -/
theorem Reg.exists_eq_eight_add {r : Reg} (h : 8 ≤ r.val ∧ r.val ≤ 12) :
    ∃ k, ∃ hk : k < 5, r = ⟨8 + k, by clear h; omega⟩ :=
  ⟨r.val - 8, by omega, Fin.ext (by dsimp only; omega)⟩

/-- A register after the swap of R8 to R12 (R108). -/
theorem State.reg_swapFiq (r : Reg) (s : State) :
    s.swapFiq.reg r = if 8 ≤ r.val ∧ r.val ≤ 12 then s.fiqR[r.val - 8]?.getD 0 else s.reg r := by
  split
  · next h =>
    obtain ⟨k, hk, rfl⟩ := Reg.exists_eq_eight_add h
    have hx : s.swapFiq.reg ⟨8 + k, by omega⟩ = s.fiqR[k] := State.x_swapFiq s hk
    simpa [hk] using hx
  · exact State.reg_swapFiq_other (by omega) s

theorem State.cpsr_loadStatus_legal {n : Word} {b : Bank} (hn : bankOf n = some b) (s : State) :
    (s.loadStatus n).cpsr = n := by
  rw [State.loadStatus_cpsr, State.coerceMode_legal (Option.isSome_of_mem hn)]

theorem State.bank_loadStatus {n : Word} {b : Bank} (hn : bankOf n = some b) (s : State) :
    (s.loadStatus n).bank = some b := by
  rw [State.bank, State.cpsr_loadStatus_legal hn, hn]

section Switch

variable {s : State} {n : Word} {bo bi : Bank} (hs : s.bank = some bo) (hn : bankOf n = some bi)
  (hne : bi ≠ bo)

include hs hn hne

/-- LoadStatus between two banks, its parts in the order of R108: the save, the swap, the restore. -/
theorem State.loadStatus_between : s.loadStatus n =
    { (if bo = .fiq ∨ bi = .fiq then s.saveBank.swapFiq else s.saveBank).restoreBank (s.banks.get bi) with
      cpsr := n } := by
  have hd : s.bank ≠ some bi := fun h => hne (Option.some.inj (h.symm.trans hs))
  rw [State.loadStatus_switch hn hd]
  simp only [State.switchBank, hs, Option.some.injEq, State.saveBank_banks hs, Banks.get_set, if_neg hne.symm]

theorem State.spsr_loadStatus_between : (s.loadStatus n).spsr = (s.banks.get bi).spsr := by
  rw [State.loadStatus_between hs hn hne]
  rfl

theorem State.banks_loadStatus_between : (s.loadStatus n).banks = s.banks.set bo s.liveSlots := by
  rw [State.loadStatus_between hs hn hne, ← State.saveBank_banks hs]
  split <;> rfl

theorem State.fiqR_loadStatus_between {k : Nat} (h : k < 5) :
    (s.loadStatus n).fiqR[k] = if bo = .fiq ∨ bi = .fiq then s.x[8 + k] else s.fiqR[k] := by
  simp only [State.loadStatus_between hs hn hne, State.restoreBank_fiqR]
  split
  · rw [State.fiqR_swapFiq _ h]
    simp only [State.saveBank_x]
  · simp only [State.saveBank_fiqR]

theorem State.reg_loadStatus_between (r : Reg) : (s.loadStatus n).reg r =
    if r = 13 then (s.banks.get bi).r13 else if r = 14 then (s.banks.get bi).r14
    else if (8 ≤ r.val ∧ r.val ≤ 12) ∧ (bo = .fiq ∨ bi = .fiq) then s.fiqR[r.val - 8]?.getD 0
    else s.reg r := by
  have h : ∀ u : State, State.reg { u with cpsr := n } r = u.reg r := fun _ => rfl
  rw [State.loadStatus_between hs hn hne, h, State.reg_restoreBank]
  by_cases hf : bo = .fiq ∨ bi = .fiq
  · simp only [hf, if_true, and_true, State.reg_swapFiq, State.saveBank_fiqR, State.reg_saveBank]
  · simp only [hf, if_false, and_false, State.reg_saveBank]

theorem State.x_loadStatus_between {k : Nat} (h : k < 5) :
    (s.loadStatus n).x[8 + k] = if bo = .fiq ∨ bi = .fiq then s.fiqR[k] else s.x[8 + k] := by
  have hr := State.reg_loadStatus_between hs hn hne ⟨8 + k, by omega⟩
  have h13 : (⟨8 + k, by omega⟩ : Reg) ≠ 13 := Fin.ne_of_val_ne (by simp; omega)
  have h14 : (⟨8 + k, by omega⟩ : Reg) ≠ 14 := Fin.ne_of_val_ne (by simp; omega)
  rw [if_neg h13, if_neg h14] at hr
  refine hr.trans ?_
  by_cases hf : bo = .fiq ∨ bi = .fiq
  · rw [if_pos ⟨⟨by simp, by simp; omega⟩, hf⟩, if_pos hf]
    simp [h]
  · rw [if_neg fun c => hf c.2, if_neg hf]
    rfl

/-! The switch back: each element is again as it was (R121). -/

theorem State.reg_loadStatus_back (r : Reg) : ((s.loadStatus n).loadStatus s.cpsr).reg r = s.reg r := by
  have hu : (s.loadStatus n).bank = some bi := State.bank_loadStatus hn s
  rw [State.reg_loadStatus_between hu hs hne.symm, State.banks_loadStatus_between hs hn hne, Banks.get_set_same,
    State.reg_loadStatus_between hs hn hne]
  split_ifs with h13 h14 hf hf'
  · rw [h13]; rfl
  · rw [h14]; rfl
  · obtain ⟨k, hk, rfl⟩ := Reg.exists_eq_eight_add hf.1
    have hx : (s.loadStatus n).fiqR[k] = s.reg ⟨8 + k, by omega⟩ := by
      rw [State.fiqR_loadStatus_between hs hn hne hk, if_pos hf.2.symm]
      rfl
    simpa [hk] using hx
  · exact absurd ⟨hf'.1, hf'.2.symm⟩ hf
  · rfl

theorem State.fiqR_loadStatus_back : ((s.loadStatus n).loadStatus s.cpsr).fiqR = s.fiqR := by
  have hu : (s.loadStatus n).bank = some bi := State.bank_loadStatus hn s
  refine Vector.ext fun k hk => ?_
  rw [State.fiqR_loadStatus_between hu hs hne.symm hk, State.x_loadStatus_between hs hn hne hk,
    State.fiqR_loadStatus_between hs hn hne hk]
  simp only [or_comm (a := bi = .fiq)]
  split <;> rfl

/-- The second save finds in the live slots what the first restore took from the bank. -/
theorem State.banks_loadStatus_back :
    ((s.loadStatus n).loadStatus s.cpsr).banks = s.banks.set bo s.liveSlots := by
  have hu : (s.loadStatus n).bank = some bi := State.bank_loadStatus hn s
  have hl : (s.loadStatus n).liveSlots = s.banks.get bi := by
    rw [State.liveSlots, State.reg_loadStatus_between hs hn hne, State.reg_loadStatus_between hs hn hne,
      State.spsr_loadStatus_between hs hn hne]
    rfl
  rw [State.banks_loadStatus_between hu hs hne.symm, State.banks_loadStatus_between hs hn hne, hl]
  refine Banks.ext_get fun k => ?_
  rw [Banks.get_set]
  split
  · next h => rw [← h, Banks.get_set, if_neg hne.symm]
  · rfl

theorem State.spsr_loadStatus_back : ((s.loadStatus n).loadStatus s.cpsr).spsr = s.spsr := by
  rw [State.spsr_loadStatus_between (State.bank_loadStatus hn s) hs hne.symm,
    State.banks_loadStatus_between hs hn hne, Banks.get_set_same]
  rfl

/-- A switch to another bank and back changes nothing but the stale slots of the live bank (R121). -/
theorem State.loadStatus_back : (s.loadStatus n).loadStatus s.cpsr = settled s := by
  show _ = s.saveBank
  apply State.ext_reg
  case hr => exact fun r => by rw [State.reg_loadStatus_back hs hn hne, State.reg_saveBank]
  case h1 => rw [State.cpsr_loadStatus_legal hs, State.saveBank_cpsr]
  case h2 => rw [State.spsr_loadStatus_back hs hn hne, State.saveBank_spsr]
  case h3 => rw [State.banks_loadStatus_back hs hn hne, State.saveBank_banks hs]
  case h4 => rw [State.fiqR_loadStatus_back hs hn hne, State.saveBank_fiqR]
  all_goals simp

/-- A switch to another bank does not read the stale slots of the live one (R107, R108). -/
theorem State.loadStatus_settled : (settled s).loadStatus n = s.loadStatus n := by
  have hss : (settled s).bank = some bo := (State.saveBank_bank s).trans hs
  have hb : (settled s).banks.get bi = s.banks.get bi := by
    show s.saveBank.banks.get bi = _
    rw [State.saveBank_banks hs, Banks.get_set, if_neg hne.symm]
  have hsave : (settled s).saveBank = s.saveBank := State.settled_saveBank s
  rw [State.loadStatus_between hss hn hne, State.loadStatus_between hs hn hne, hb, hsave]

end Switch

theorem setMode_eq_append (st : Word) (m : BitVec 5) : setMode st m = st.extractLsb' 5 27 ++ m := by
  unfold setMode
  refine BitVec.eq_of_getLsbD_eq fun i hi => ?_
  rw [show (st.extractLsb' 5 27 ++ m : BitVec 32).getLsbD i = _ from BitVec.getLsbD_append]
  interval_cases i <;> simp

/-- An invalid mode field is replaced by the current one, so no bank is switched (R109). -/
theorem State.loadStatus_invalid {s : State} {n : Word} (hs : LegalMode s) (hn : bankOf n = none) :
    s.loadStatus n = { s with cpsr := setMode n (modeField s.cpsr) } := by
  obtain ⟨b, hb⟩ := Option.isSome_iff_exists.mp hs
  have hc : s.coerceMode n = setMode n (modeField s.cpsr) := if_pos (by rw [hn]; rfl)
  have hm : bankOf (setMode n (modeField s.cpsr)) = some b := by
    rw [bankOf_eq (modeField_setMode n _), hb]
  have hs' : s.bank = some b := hb
  simp only [State.loadStatus, hc, hm, if_pos hs']

/-- Settles O16: the status names no mode, the live bank, or another one. -/
theorem loadStatus : Obligations.LoadStatus := by
  unfold Obligations.LoadStatus
  intro s n bo hs
  refine ⟨fun hn => ?_, fun hn => State.loadStatus_same hn hs, fun bi hn hne => ?_⟩
  · rw [← setMode_eq_append]
    exact State.loadStatus_invalid (Option.isSome_of_mem hs) hn
  · have hreg := State.reg_loadStatus_between hs hn hne
    exact ⟨State.cpsr_loadStatus_legal hn s, by rw [hreg, if_pos rfl], by rw [hreg, if_neg (by decide), if_pos rfl],
      State.spsr_loadStatus_between hs hn hne, State.banks_loadStatus_between hs hn hne,
      fun k hk => ⟨State.x_loadStatus_between hs hn hne hk, State.fiqR_loadStatus_between hs hn hne hk⟩,
      fun r hr => State.reg_loadStatus_low hr n s, by simp, by simp, by simp, by simp, by simp⟩

/-- Settles O17: within a bank the status alone comes and goes; between two the switch back undoes the switch. -/
theorem modeRoundTrip : Obligations.ModeRoundTrip := by
  unfold Obligations.ModeRoundTrip
  intro s n hl hn
  obtain ⟨bo, hs⟩ := Option.isSome_iff_exists.mp hl
  obtain ⟨bi, hn⟩ := Option.isSome_iff_exists.mp hn
  by_cases hb : bi = bo
  · subst hb
    have ht : (s.loadStatus n).loadStatus s.cpsr = s := by
      rw [State.loadStatus_same hn hs]
      exact State.loadStatus_same hs hn
    rw [ht]
    exact ⟨fun _ => rfl, rfl, rfl, rfl, rfl⟩
  · rw [State.loadStatus_back hs hn hb]
    exact ⟨fun r => State.reg_saveBank r s, State.saveBank_spsr s, State.saveBank_cpsr s, State.saveBank_fiqR s,
      State.settled_saveBank s⟩

/-! ## The User-mode view (R111) -/

/-- The read of R111 is what the register holds once User mode is in force. -/
theorem State.user_eq_reg_loadStatus {s : State} {n : Word} {bo : Bank} (hs : s.bank = some bo)
    (hn : bankOf n = some .usr) (r : Reg) : s.user r = (s.loadStatus n).reg r := by
  by_cases hb : .usr = bo
  · subst hb
    rw [State.user_in_user_bank hs, State.loadStatus_same hn hs]
    rfl
  · have hu : s.bank ≠ some .usr := fun h => hb (Option.some.inj (h.symm.trans hs))
    rw [State.reg_loadStatus_between hs hn hb]
    by_cases h13 : r = 13
    · subst h13
      simp [State.user, hu, Banks.get]
    · by_cases h14 : r = 14
      · subst h14
        simp [State.user, hu, Banks.get]
      · simp [State.user, h13, h14, hs, and_assoc]

theorem State.user_setX_ne {r q : Reg} (h : r ≠ q) (v : Word) (s : State) :
    (s.setX r v).user q = s.user q := by
  unfold State.user
  rw [State.reg_setX_ne h]
  rfl

theorem State.writeUser_in_user_bank {s : State} (h : s.bank = some .usr) (r : Reg) (v : Word) :
    s.writeUser r v = s.writeReg r v := by
  simp [State.writeUser, h]

@[simp] theorem State.writeUser_bank (r : Reg) (v : Word) (s : State) : (s.writeUser r v).bank = s.bank := by
  rw [State.bank, State.writeUser_cpsr, State.bank]

section UserWrite

variable {s : State} {r : Reg} (h15 : r ≠ 15) (v : Word)

include h15

/-- The read of R111 gives what the write of R111 put there: both select the same one of four places. -/
theorem State.user_writeUser_same : (s.writeUser r v).user r = v := by
  unfold State.writeUser
  split_ifs with hfiq h13 h14
  · have hk : r.val - 8 < 5 := by omega
    exact (if_pos hfiq).trans (by simp [hk])
  · exact (if_neg hfiq).trans (if_pos h13)
  · exact (if_neg hfiq).trans ((if_neg h13).trans (if_pos h14))
  · rw [State.writeReg_ne_pc h15]
    exact (if_neg hfiq).trans ((if_neg h13).trans ((if_neg h14).trans (State.reg_setX_same r v s)))

theorem State.user_writeUser_ne {q : Reg} (h : r ≠ q) : (s.writeUser r v).user q = s.user q := by
  unfold State.writeUser
  split_ifs with hfiq h13 h14
  · refine ite_congr rfl (fun hq => ?_) fun _ => rfl
    have hne : r.val - 8 ≠ q.val - 8 := fun e => h (Fin.ext (by omega))
    rw [Vector.getElem?_setIfInBounds_ne hne]
  · have hq : q ≠ 13 := fun e => h (h13.1.trans e.symm)
    exact ite_congr rfl (fun _ => rfl) fun _ => ite_congr rfl (fun c => absurd c.1 hq) fun _ => rfl
  · have hq : q ≠ 14 := fun e => h (h14.1.trans e.symm)
    exact ite_congr rfl (fun _ => rfl) fun _ => ite_congr rfl (fun _ => rfl) fun _ =>
      ite_congr rfl (fun c => absurd c.1 hq) fun _ => rfl
  · rw [State.writeReg_ne_pc h15]
    exact State.user_setX_ne h v s

theorem State.writeUser_branched : (s.writeUser r v).branched = s.branched := by
  unfold State.writeUser
  split_ifs
  iterate 3 rfl
  rw [State.writeReg_ne_pc h15]
  rfl

/-- Outside the User bank a user write leaves the live R13 and R14 alone. -/
theorem State.writeUser_liveSlots (hu : s.bank ≠ some .usr) : (s.writeUser r v).liveSlots = s.liveSlots := by
  unfold State.writeUser
  split_ifs with hfiq h13 h14
  iterate 3 rfl
  have hr13 : r ≠ 13 := fun e => h13 ⟨e, hu⟩
  have hr14 : r ≠ 14 := fun e => h14 ⟨e, hu⟩
  rw [State.writeReg_ne_pc h15, State.liveSlots, State.reg_setX_ne hr13, State.reg_setX_ne hr14]
  rfl

/-- While FIQ is live a user write leaves the live R8 to R12 alone. -/
theorem State.writeUser_x_of_fiq (hf : s.bank = some .fiq) {k : Nat} (hk : k < 5) :
    (s.writeUser r v).x[8 + k] = s.x[8 + k] := by
  unfold State.writeUser
  split_ifs with hfiq
  iterate 3 rfl
  have hne : r.val ≠ 8 + k := fun e => hfiq ⟨by omega, by omega, hf⟩
  rw [State.writeReg_ne_pc h15]
  exact Vector.getElem_set_ne r.isLt _ hne

theorem State.writeUser_fiqR_of_not_fiq (hf : s.bank ≠ some .fiq) : (s.writeUser r v).fiqR = s.fiqR := by
  unfold State.writeUser
  split_ifs with hfiq
  · exact absurd hfiq.2.2 hf
  iterate 2 rfl
  rw [State.writeReg_ne_pc h15]
  rfl

end UserWrite

/-- Of the slots a user write changes those of the User bank only, and no saved status. -/
theorem State.writeUser_banks (r : Reg) (v : Word) (s : State) :
    ∃ b, (s.writeUser r v).banks = s.banks.set .usr b ∧ b.spsr = s.banks.usr.spsr := by
  unfold State.writeUser
  split_ifs
  · exact ⟨_, rfl, rfl⟩
  · exact ⟨_, rfl, rfl⟩
  · exact ⟨_, rfl, rfl⟩
  · exact ⟨s.banks.usr, State.writeReg_banks r v s, rfl⟩

theorem State.settled_ext {s t : State} {b : Bank} (hs : s.bank = some b) (hreg : ∀ r, s.reg r = t.reg r)
    (hcpsr : s.cpsr = t.cpsr) (hspsr : s.spsr = t.spsr)
    (hbanks : ∀ k, k ≠ b → s.banks.get k = t.banks.get k) (hfiqR : s.fiqR = t.fiqR)
    (hbranched : s.branched = t.branched) (hmem : s.mem = t.mem) (hregions : s.regions = t.regions)
    (hlog : s.portLog = t.portLog) (hinputs : s.inputs = t.inputs) (hparams : s.params = t.params)
    (hfree : s.freeCount = t.freeCount) : settled s = settled t := by
  have ht : t.bank = some b := by rw [State.bank, ← hcpsr]; exact hs
  show s.saveBank = t.saveBank
  apply State.ext_reg
  case hr => exact fun r => by rw [State.reg_saveBank, State.reg_saveBank, hreg]
  case h3 =>
    refine Banks.ext_get fun k => ?_
    rw [State.saveBank_banks hs, State.saveBank_banks ht, Banks.get_set, Banks.get_set]
    split
    · simp only [State.liveSlots, hreg, hspsr]
    · next hk => exact hbanks k (Ne.symm hk)
  all_goals simpa

/-- A write in User mode is, but for the stale slots, the write of R111 made before the switch there. -/
theorem State.settled_setX_loadStatus {s : State} {n : Word} {bo : Bank} {r : Reg} (hs : s.bank = some bo)
    (hn : bankOf n = some .usr) (hne : .usr ≠ bo) (h15 : r ≠ 15) (v : Word) :
    settled ((s.loadStatus n).setX r v) = settled ((s.writeUser r v).loadStatus n) := by
  have hw : (s.writeUser r v).bank = some bo := by rw [State.writeUser_bank, hs]
  have hu : s.bank ≠ some .usr := fun h => hne (Option.some.inj (h.symm.trans hs))
  obtain ⟨b, hb, hspsr⟩ := State.writeUser_banks r v s
  apply State.settled_ext (b := .usr)
  case hs => exact State.bank_loadStatus hn s
  case hreg =>
    intro q
    rw [State.reg_setX, ← State.user_eq_reg_loadStatus hs hn, ← State.user_eq_reg_loadStatus hw hn]
    split
    · next h => rw [← h, State.user_writeUser_same h15]
    · next h => rw [State.user_writeUser_ne h15 v h]
  case hcpsr => rw [State.setX_cpsr, State.cpsr_loadStatus_legal hn, State.cpsr_loadStatus_legal hn]
  case hspsr =>
    rw [State.setX_spsr, State.spsr_loadStatus_between hs hn hne, State.spsr_loadStatus_between hw hn hne, hb,
      Banks.get_set_same, hspsr]
    rfl
  case hbanks =>
    intro k hk
    rw [State.setX_banks, State.banks_loadStatus_between hs hn hne, State.banks_loadStatus_between hw hn hne,
      State.writeUser_liveSlots h15 v hu, hb, Banks.get_set, Banks.get_set, Banks.get_set, if_neg hk.symm]
  case hfiqR =>
    refine Vector.ext fun k hk => ?_
    simp only [State.setX_fiqR]
    rw [State.fiqR_loadStatus_between hs hn hne hk, State.fiqR_loadStatus_between hw hn hne hk]
    by_cases hf : bo = .fiq
    · rw [if_pos (.inl hf), if_pos (.inl hf), State.writeUser_x_of_fiq h15 v (hf ▸ hs) hk]
    · have hf' : ¬ (bo = .fiq ∨ Bank.usr = .fiq) := by simp [hf]
      have hnf : s.bank ≠ some .fiq := fun h => hf (Option.some.inj (hs.symm.trans h))
      rw [if_neg hf', if_neg hf']
      simp only [State.writeUser_fiqR_of_not_fiq h15 v hnf]
  case hbranched => simp [State.writeUser_branched h15]
  all_goals simp

/-- From another bank: the write is moved before the switch to User mode, which the switch back then undoes. -/
theorem State.setX_loadStatus_back {s : State} {n : Word} {bo : Bank} {r : Reg} (hs : s.bank = some bo)
    (hn : bankOf n = some .usr) (hne : .usr ≠ bo) (h15 : r ≠ 15) (v : Word) :
    ((s.loadStatus n).setX r v).loadStatus s.cpsr = settled (s.writeUser r v) := by
  have hu : ((s.loadStatus n).setX r v).bank = some .usr := State.bank_loadStatus hn s
  have hw : (s.writeUser r v).bank = some bo := by rw [State.writeUser_bank, hs]
  calc ((s.loadStatus n).setX r v).loadStatus s.cpsr
    _ = (settled ((s.loadStatus n).setX r v)).loadStatus s.cpsr := (State.loadStatus_settled hu hs hne.symm).symm
    _ = (settled ((s.writeUser r v).loadStatus n)).loadStatus s.cpsr := by
      rw [State.settled_setX_loadStatus hs hn hne h15]
    _ = ((s.writeUser r v).loadStatus n).loadStatus s.cpsr :=
      State.loadStatus_settled (State.bank_loadStatus hn _) hs hne.symm
    _ = ((s.writeUser r v).loadStatus n).loadStatus (s.writeUser r v).cpsr := by rw [State.writeUser_cpsr]
    _ = settled (s.writeUser r v) := State.loadStatus_back hw hn hne

/-- Settles O18: in the User bank both sides are the plain access; from another bank the slots the view reads and
writes are the registers the switch makes live. -/
theorem userView : Obligations.UserView := by
  unfold Obligations.UserView
  intro s n hl hm
  obtain ⟨bo, hs⟩ : ∃ b, s.bank = some b := Option.isSome_iff_exists.mp hl
  have hn : bankOf n = some .usr := by rw [bankOf, hm]; rfl
  refine ⟨State.user_eq_reg_loadStatus hs hn, fun r v h15 => ?_, fun v => State.writePC_eq_jumped v s⟩
  by_cases hb : .usr = bo
  · subst hb
    have hback : ((s.loadStatus n).setX r v).loadStatus s.cpsr = s.setX r v := by
      rw [State.loadStatus_same hn hs]
      exact State.loadStatus_same hs hn
    rw [hback, State.writeUser_in_user_bank hs, State.writeReg_ne_pc h15]
  · rw [State.setX_loadStatus_back hs hn hb h15]
    exact (State.settled_saveBank _).symm

end Sys2Proof.Machine
end

section
/-! SUPPORT. The spans `storeSpans` gives are the bytes the storing forms reach, and no instruction changes a
byte outside them (spec/20_memory.md R204, R207). -/

namespace Sys2Proof.Machine

open Sys2Proof.Safety

/-! ## The addresses of the single transfers -/

theorem Offset.value_imm (n : BitVec 12) (s : State) : (Offset.imm n).value s = n.setWidth 32 :=
  BitVec.ofNat_toNat 32 n

theorem HalfOffset.value_imm (high low : BitVec 4) (s : State) :
    (HalfOffset.imm high low).value s = halfOffset high low := by
  apply BitVec.eq_of_toNat_eq
  rw [halfOffset, BitVec.toNat_setWidth, BitVec.toNat_append, ← Nat.shiftLeft_add_eq_or_of_lt low.isLt,
    Nat.shiftLeft_eq, Nat.mul_comm]
  rfl

/-- A Thumb offset in units of `m` bytes: the product is the shift (spec/49_thumb_memory_branch.md R859). -/
theorem ofNat_mul_toNat {n m k : Nat} (h : m = 2 ^ k) (x : BitVec n) :
    BitVec.ofNat 32 (m * x.toNat) = x.setWidth 32 <<< k := by
  apply BitVec.eq_of_toNat_eq
  simp [h, Nat.shiftLeft_eq, Nat.mul_comm]

/-! ## The addresses of the block transfers -/

theorem blockStart_eq_lowestAddr (p u : Bool) (base : Word) (n : Nat) :
    blockStart p u base n = lowestAddr p u base n := by
  cases p <;> cases u <;> rfl

theorem blockAddrs_eq_wordAddrs (start : Word) (n : Nat) : blockAddrs start n = wordAddrs start n := by
  refine List.map_congr_left fun k _ => BitVec.eq_of_toNat_eq ?_
  have hs : (start &&& 0xFFFFFFFC).toNat = start.toNat - start.toNat % 4 := Width.align_toNat .word start
  rw [BitVec.toNat_add, hs, BitVec.toNat_ofNat, BitVec.toNat_ofNat]
  omega

/-- The words a block transfer reaches are those of the list's span, the empty list's too (R600, R607). -/
theorem blockOf_addrs_span (p u : Bool) (base : Word) (list : BitVec 16) :
    ((blockOf p u base list).addrs.map fun a => (a.toNat, 4)) = listSpan p u base list := by
  unfold listSpan blockSpan Block.addrs
  rw [blockAddrs_eq_wordAddrs]
  by_cases h : list = 0 <;> simp only [blockOf, h, if_true, if_false, blockStart_eq_lowestAddr] <;> rfl

/-- The extra register of PUSH lies above the eight of the list, so that joining the two is adding (R867). -/
theorem thumbList_eq_withExtra {r : Bool} {extra : Nat} (list : BitVec 8) (h : r = true → 8 ≤ extra) :
    thumbList list r extra = withExtra list r extra := by
  cases r with
  | false => simp [thumbList, withExtra]
  | true =>
    have hlist : list.toNat < 2 ^ extra := list.isLt.trans_le (Nat.pow_le_pow_right (by decide) (h rfl))
    have hsum : list.toNat + 2 ^ extra = list.toNat ||| 2 ^ extra := by
      simpa [Nat.add_comm, Nat.or_comm] using Nat.two_pow_add_eq_or_of_lt hlist 1
    have hbit : BitVec.ofNat 16 (2 ^ extra) = BitVec.twoPow 16 extra := BitVec.eq_of_toNat_eq (by simp)
    simp only [thumbList, withExtra, if_true, hsum, BitVec.ofNat_or, BitVec.ofNat_toNat, hbit]

/-- A block store laid out by R600 changes the bytes of the list's span only. -/
theorem blockStore_blockOf_stores {p u : Bool} {base : Word} {list : BitVec 16} (w : Bool) (rn : Reg)
    (val : Reg → Word) (s : State) :
    StoresOnly (listSpan p u base list) s (blockStore (blockOf p u base list) w rn val s) := by
  rw [← blockOf_addrs_span]
  exact blockStore_stores _ w rn val s

/-! ## The meanings -/

theorem condBranch_stores {spans : List (Nat × Nat)} (b : Bool) (target : Word) (s : State) :
    StoresOnly spans s (.next (if b then s.writePC target else s.advance)) := by
  refine .of_next ?_
  split <;> simp

/-- Every instruction changes the bytes of its own spans only. The span matters in the storing forms, where it is
brought to the meaning's own address; every other form leaves all of memory, whatever the spans. -/
theorem exec_stores (i : Instr) (s : State) : StoresOnly (storeSpans i s) s (exec i s) := by
  cases i with dsimp only [exec]
  | andShiftImm | eorShiftImm | subShiftImm | rsbShiftImm | addShiftImm | adcShiftImm | sbcShiftImm
  | rscShiftImm | orrShiftImm | movShiftImm | bicShiftImm | mvnShiftImm
  | andImm | eorImm | subImm | rsbImm | addImm | adcImm | sbcImm | rscImm | orrImm | movImm | bicImm
  | mvnImm => exact .of_armCall _ (dpWrite_stores _ _ _ _)
  | andShiftReg | eorShiftReg | subShiftReg | rsbShiftReg | addShiftReg | adcShiftReg | sbcShiftReg
  | rscShiftReg | orrShiftReg | movShiftReg | bicShiftReg | mvnShiftReg =>
    exact .of_armCall _ (.of_guard _ _ (dpWrite_stores _ _ _ _))
  | tstShiftImm | teqShiftImm | cmpShiftImm | cmnShiftImm | tstImm | teqImm | cmpImm | cmnImm =>
    exact .of_armCall _ (dpCompare_stores _ _ _)
  | tstShiftReg | teqShiftReg | cmpShiftReg | cmnShiftReg =>
    exact .of_armCall _ (.of_guard _ _ (dpCompare_stores _ _ _))
  | mul | mla => exact .of_armCall _ (.of_guard _ _ (mulWrite_stores _ _ _ _))
  | umull | umlal | smull | smlal => exact .of_armCall _ (.of_guard _ _ (mulLongWrite_stores _ _ _ _ _))
  | swp | swpb => exact .of_armCall _ (.of_guard _ _ (swap_stores _ _ _ _ _))
  | strImm | strbImm =>
    simp only [storeSpans, Offset.value_imm]
    exact .of_armCall _ (.of_guard _ _ (singleStore_stores _ _ _ _ _))
  | strReg | strbReg => exact .of_armCall _ (.of_guard _ _ (singleStore_stores _ _ _ _ _))
  | strtImm | strtReg | strbtImm | strbtReg => exact .of_armCall _ (.of_guard _ _ (userStore_stores _ _ _ _ _))
  | strhImm =>
    simp only [storeSpans, HalfOffset.value_imm]
    exact .of_armCall _ (.of_guard _ _ (.of_guard _ _ (singleStore_stores _ _ _ _ _)))
  | strhReg => exact .of_armCall _ (.of_guard _ _ (.of_guard _ _ (singleStore_stores _ _ _ _ _)))
  | ldrImm | ldrReg | ldrbImm | ldrbReg =>
    exact .of_armCall _ (.of_guard _ _ (singleLoad_stores _ _ _ _ _ _))
  | ldrtImm | ldrtReg | ldrbtImm | ldrbtReg => exact .of_armCall _ (.of_guard _ _ (userLoad_stores _ _ _ _ _))
  | ldrsbReg | ldrsbImm => exact .of_armCall _ (.of_guard _ _ (.of_guard _ _ (singleLoad_stores _ _ _ _ _ _)))
  | ldrhReg | ldrhImm | ldrshReg | ldrshImm =>
    exact .of_armCall _ (.of_guard _ _ (.of_guard _ _ (.of_guard _ _ (singleLoad_stores _ _ _ _ _ _))))
  | stm =>
    exact .of_armCall _ (.of_emptyCheck _ (.of_guard _ _ (.of_guard _ _ (blockStore_blockOf_stores _ _ _ _))))
  | stmUser =>
    exact .of_armCall _ (.of_emptyCheck _ (.of_guard _ _ (.of_guard _ _ (.of_guard _ _
      (blockStore_blockOf_stores _ _ _ _)))))
  | ldm =>
    exact .of_armCall _ (.of_emptyCheck _ (.of_guard _ _ (.of_guard _ _ (blockLoad_stores _ _ _ loadLive_mem _))))
  | ldmUser =>
    exact .of_armCall _ (.of_emptyCheck _ (.of_guard _ _ (.of_guard _ _ (.of_guard _ _
      (blockLoad_stores _ _ _ loadUser_mem _)))))
  | ldmRestore =>
    exact .of_armCall _ (.of_emptyCheck _ (.of_guard _ _ (.of_guard _ _ (.of_guard _ _ (.of_guard _ _
      (blockLoad_stores _ _ _ loadRestore_mem _))))))
  | b | bl => exact .of_armCall _ (.of_next (by simp))
  | bx => exact .of_armCall _ (branchExchange_stores _ _)
  | mrs => exact .of_armCall _ (.of_guard _ _ (.of_guard _ _ (.of_next (by simp))))
  | msrReg | msrImm => exact .of_armCall _ (statusWrite_stores _ _ _ _)
  | swi | cdp | ldc | stc | mcr | mrc | undefMul | undefMisc | undefMsrImm | undefMedia =>
    exact .of_armCall _ (.of_next (State.enter_mem ..))
  | tLslImm | tLsrImm | tAsrImm | tAddReg | tSubReg | tAddImm3 | tSubImm3 | tMovImm8 | tCmpImm8 | tAddImm8
  | tSubImm8 | tAnd | tEor | tLsl | tLsr | tAsr | tAdc | tSbc | tRor | tTst | tNeg | tCmp | tCmn | tOrr | tBic
  | tMvn | tB | tBlFirst | tBlSecond => exact .of_thumbCall (.of_next (by simp))
  | tMul | tCmpHi => exact .of_thumbCall (.of_guard _ _ (.of_next (by simp)))
  | tAddHi | tMovHi => exact .of_thumbCall (.of_guard _ _ (thumbMove_stores _ _ _))
  | tBx => exact .of_thumbCall (.of_guard _ _ (branchExchange_stores _ _))
  | tAddPc | tAddSp | tAddSpImm | tSubSpImm => exact .of_thumbCall (thumbMove_stores _ _ _)
  | tLdrPc | tLdsbReg | tLdrReg | tLdrbReg | tLdrImm | tLdrbImm | tLdrSp =>
    exact .of_thumbCall (singleLoad_stores _ _ _ _ _ _)
  | tLdrhReg | tLdrhImm | tLdshReg => exact .of_thumbCall (.of_guard _ _ (singleLoad_stores _ _ _ _ _ _))
  | tStrReg | tStrhReg | tStrbReg => exact .of_thumbCall (singleStore_stores _ _ _ _ _)
  | tStrImm | tStrSp =>
    simp only [storeSpans, ofNat_mul_toNat (m := 4) (k := 2) rfl]
    exact .of_thumbCall (singleStore_stores _ _ _ _ _)
  | tStrhImm =>
    simp only [storeSpans, ofNat_mul_toNat (m := 2) (k := 1) rfl]
    exact .of_thumbCall (singleStore_stores _ _ _ _ _)
  | tStrbImm =>
    simp only [storeSpans, BitVec.ofNat_toNat]
    exact .of_thumbCall (singleStore_stores _ _ _ _ _)
  | tPush r list =>
    simp only [storeSpans, ← thumbList_eq_withExtra list (fun _ => (by decide : 8 ≤ 14))]
    exact .of_thumbCall (.of_emptyCheck _ (blockStore_blockOf_stores _ _ _ _))
  | tStmia rb list =>
    simp only [storeSpans, ← thumbList_eq_withExtra (r := false) (extra := 0) list nofun]
    exact .of_thumbCall (.of_emptyCheck _ (.of_guard _ _ (blockStore_blockOf_stores _ _ _ _)))
  | tPop => exact .of_thumbCall (.of_emptyCheck _ (blockLoad_stores _ _ _ loadLive_mem _))
  | tLdmia => exact .of_thumbCall (.of_emptyCheck _ (.of_guard _ _ (blockLoad_stores _ _ _ loadLive_mem _)))
  | tBcond => exact .of_thumbCall (condBranch_stores _ _ _)
  | tSwi | tUndef1011 | tUndefCond | tUndef11101 => exact .of_thumbCall (.of_next (State.enter_mem ..))

/-- Settles O15: the meanings store to the spans of their forms only. -/
theorem memoryFrame : Obligations.MemoryFrame := by
  unfold Obligations.MemoryFrame
  intro i s t hm ht
  exact exec_stores i s hm t ht

end Sys2Proof.Machine
end

section
/-! SUPPORT. The memory port over plain memory: what one access answers, what it changes and what it records
(spec/20_memory.md R201 to R204). -/

namespace Sys2Proof.Machine

/-! ## The bytes of a load -/

/-- Byte `k` of a load is the byte at address `a + k` (R202). -/
theorem Memory.extract_load {w : Width} {k : Nat} (m : Memory) (a : Nat) (hk : k < w.bytes) :
    (m.load w a).extractLsb' (8 * k) 8 = m.read (a + k) := by
  cases w <;> simp only [Width.bytes] at hk
  case byte =>
    obtain rfl : k = 0 := by omega
    exact (BitVec.extractLsb'_setWidth_of_le (by decide)).trans (field_all _)
  case half =>
    rw [Memory.load, BitVec.extractLsb'_setWidth_of_le (by omega)]
    obtain rfl | rfl : k = 0 ∨ k = 1 := by omega
    · exact (field_low _ _ (by decide)).trans (field_all _)
    · exact (field_high _ _ _ (by decide)).trans (field_all _)
  case word =>
    obtain rfl | rfl | rfl | rfl : k = 0 ∨ k = 1 ∨ k = 2 ∨ k = 3 := by omega
    · exact (field_low _ _ (by decide)).trans (field_all _)
    · exact (field_high _ _ _ (by decide)).trans ((field_low _ _ (by decide)).trans (field_all _))
    · exact (field_high _ _ _ (by decide)).trans ((field_high _ _ _ (by decide)).trans
        ((field_low _ _ (by decide)).trans (field_all _)))
    · exact (field_high _ _ _ (by decide)).trans ((field_high _ _ _ (by decide)).trans
        ((field_high _ _ _ (by decide)).trans (field_all _)))

/-- A load is zero-extended (R201). -/
theorem Memory.load_lt (m : Memory) (w : Width) (a : Nat) : (m.load w a).toNat < 2 ^ (8 * w.bytes) := by
  cases w with
  | byte => exact (BitVec.toNat_setWidth_of_le (by decide)).trans_lt (m.read a).isLt
  | half => exact (BitVec.toNat_setWidth_of_le (by decide)).trans_lt (m.read16 a).isLt
  | word => exact (m.read32 a).isLt

/-- A word is its four bytes. -/
theorem eq_of_bytes {v w : Word} (h : ∀ k, k < 4 → v.extractLsb' (8 * k) 8 = w.extractLsb' (8 * k) 8) : v = w := by
  apply BitVec.eq_of_getLsbD_eq
  intro i hi
  have hb := congrArg (fun b : Byte => b.getLsbD (i % 8)) (h (i / 8) (by omega))
  simpa [Nat.mod_lt, Nat.div_add_mod] using hb

/-- A word reads back as it was stored. -/
theorem Memory.load_store_word {m : Memory} {a : Nat} (v : Word) (ha : a + 4 ≤ 2 ^ 32) (hm : m.wf = true) :
    (m.store .word a v).load .word a = v := by
  refine eq_of_bytes fun k hk => ?_
  rw [Memory.extract_load (w := .word) _ a hk]
  exact Memory.read_store_inside .word v ha hm hk

/-! ## The value a store records -/

theorem Width.truncate_eq (w : Width) (v : Word) :
    w.truncate v = BitVec.ofNat 32 (v.toNat % 2 ^ (8 * w.bytes)) := by
  have hlt : v.toNat % 2 ^ (8 * w.bytes) < 2 ^ 32 := (Nat.mod_le _ _).trans_lt v.isLt
  apply BitVec.eq_of_toNat_eq
  rw [BitVec.toNat_ofNat, Nat.mod_eq_of_lt hlt]
  cases w with
  | byte => exact Nat.and_two_pow_sub_one_eq_mod v.toNat 8
  | half => exact Nat.and_two_pow_sub_one_eq_mod v.toNat 16
  | word => exact (Nat.mod_eq_of_lt v.isLt).symm

/-! ## The answers of the port -/

theorem State.portLoad_fails {w : Width} {a : Word} {s : State} (h : s.loadFails w a = true) :
    s.portLoad w a = (none, s.logged (.load w a false)) := by
  simp [State.portLoad, h]

theorem State.portStore_fails {w : Width} {a : Word} {s : State} (v : Word) (h : s.storeFails w a = true) :
    s.portStore w a v = (false, s.logged (.store w a (w.truncate v) false)) := by
  simp [State.portStore, h]

/-- A load changes the record and the count of free values at most. -/
theorem State.portLoad_changes (w : Width) (a : Word) (s : State) :
    ∃ log n, (s.portLoad w a).2 = { s with portLog := log, freeCount := n } := by
  unfold State.portLoad
  split
  · exact ⟨_, _, rfl⟩
  · split <;> exact ⟨_, _, rfl⟩

/-- A store changes plain memory and the record at most. -/
theorem State.portStore_changes (w : Width) (a v : Word) (s : State) :
    ∃ m log, (s.portStore w a v).2 = { s with mem := m, portLog := log } := by
  unfold State.portStore
  split
  · exact ⟨_, _, rfl⟩
  · split <;> exact ⟨_, _, rfl⟩

/-- Where a store does not fail, a load does not either: a read-only range fails stores alone (R200). -/
theorem State.loadFails_of_storeFails {w : Width} {a : Word} {s : State} (h : s.storeFails w a = false) :
    s.loadFails w a = false := by
  rw [State.storeFails, List.any_eq_false] at h
  rw [State.loadFails, List.any_eq_false]
  intro r hr hl
  rw [Bool.and_eq_true] at hl
  exact h r hr (by simp [hl.1, hl.2])

/-- `MemRead` of a word of plain memory: the aligned word, rotated right by 8 for each of the low address bits
(R203). -/
theorem State.memRead_word_plain {a : Word} {s : State} (h : s.loadFails .word (Width.word.align a) = false)
    (hd : s.atDevice .word (Width.word.align a) = false) : (s.memRead .word a).1 =
      some ((s.mem.load .word (Width.word.align a).toNat).rotateRight (8 * (a.toNat % 4))) := by
  unfold State.memRead
  rw [State.portLoad_plain h hd]
  simp [field]

/-- Settles O60: each clause is a law of the port or of plain memory, at the aligned address, where the access ends
inside the address space. -/
theorem plainMemory : Obligations.PlainMemory := by
  unfold Obligations.PlainMemory
  intro s w a
  refine ⟨fun hf hd => ⟨_, State.portLoad_plain hf hd, Memory.load_lt _ _ _, fun k hk => Memory.extract_load _ _ hk⟩,
    State.portLoad_fails, State.portLoad_changes w a s, fun v => ⟨?_, State.portStore_changes w _ v s, ?_⟩⟩
  · intro hf
    rw [State.memWrite, State.portStore_fails v hf, Width.truncate_eq]
    rfl
  · intro hf hd hm
    have hfit := Width.align_fits w a
    refine ⟨_, State.portStore_plain v hf hd, Memory.wf_store w v hfit hm, ?_,
      fun k hk => Memory.read_store_inside w v hfit hm hk,
      fun c hc => Memory.read_store_outside w v hfit hm hc, ?_⟩
    · rw [← Width.truncate_eq]
      rfl
    · rintro rfl
      rw [State.memRead_word_plain]
      · exact congrArg (fun x : Word => some (x.rotateRight _)) (Memory.load_store_word v hfit hm)
      · exact State.loadFails_of_storeFails hf
      · exact hd

end Sys2Proof.Machine
end

section
/-! SUPPORT. Decoding the encoding of an instruction gives it back: the round trip of every constructor, joined
to the decoder on bytes (spec/30_encoding.md R300). -/

/-! ## The round trip for every instruction -/

namespace Sys2Proof.Laws.RoundTrip

/-- The lemmas of the family, one for each constructor, in the order of the constructors. -/
theorem statement_all (i : Instr) : Statement i :=
  Instr.casesOn i
    bx mul mla umull umlal smull smlal swp swpb strhReg ldrhReg ldrsbReg ldrshReg strhImm ldrhImm ldrsbImm
    ldrshImm undefMul mrs msrReg undefMisc msrImm undefMsrImm andShiftImm eorShiftImm subShiftImm rsbShiftImm
    addShiftImm adcShiftImm sbcShiftImm rscShiftImm tstShiftImm teqShiftImm cmpShiftImm cmnShiftImm orrShiftImm
    movShiftImm bicShiftImm mvnShiftImm andShiftReg eorShiftReg subShiftReg rsbShiftReg addShiftReg adcShiftReg
    sbcShiftReg rscShiftReg tstShiftReg teqShiftReg cmpShiftReg cmnShiftReg orrShiftReg movShiftReg bicShiftReg
    mvnShiftReg andImm eorImm subImm rsbImm addImm adcImm sbcImm rscImm tstImm teqImm cmpImm cmnImm orrImm
    movImm bicImm mvnImm undefMedia strtImm ldrtImm strbtImm ldrbtImm strImm ldrImm strbImm ldrbImm strtReg
    ldrtReg strbtReg ldrbtReg strReg ldrReg strbReg ldrbReg stmUser ldmRestore ldmUser stm ldm b bl stc ldc cdp
    mcr mrc swi tLslImm tLsrImm tAsrImm tAddReg tSubReg tAddImm3 tSubImm3 tMovImm8 tCmpImm8 tAddImm8 tSubImm8
    tAnd tEor tLsl tLsr tAsr tAdc tSbc tRor tTst tNeg tCmp tCmn tOrr tMul tBic tMvn tAddHi tCmpHi tMovHi tBx
    tLdrPc tStrReg tStrhReg tStrbReg tLdsbReg tLdrReg tLdrhReg tLdrbReg tLdshReg tStrImm tLdrImm tStrbImm
    tLdrbImm tStrhImm tLdrhImm tStrSp tLdrSp tAddPc tAddSp tAddSpImm tSubSpImm tPush tPop tUndef1011 tStmia
    tLdmia tUndefCond tSwi tBcond tB tUndef11101 tBlFirst tBlSecond

end Sys2Proof.Laws.RoundTrip

namespace Sys2Proof

theorem decodeCode_encode {i : Instr} (h : i.wf = true) : decodeCode (encode i) = i :=
  Laws.RoundTrip.statement_all i h

/-! ## The bytes of a code (R202) -/

/-- Two neighbouring fields are one field. -/
theorem field_append_field {n : Nat} (v : BitVec n) (lo len len' : Nat) :
    field v (lo + len) len' ++ field v lo len = field v lo (len' + len) :=
  BitVec.extractLsb'_append_extractLsb'_eq_extractLsb' rfl

theorem wordOfBytes_fields (w : Word) :
    wordOfBytes (field w 0 8) (field w 8 8) (field w 16 8) (field w 24 8) = w := by
  unfold wordOfBytes
  rw [field_append_field w 16 8 8, field_append_field w 8 8 16, field_append_field w 0 8 24]
  exact field_all w

theorem halfOfBytes_fields (h : Half) : halfOfBytes (field h 0 8) (field h 8 8) = h := by
  unfold halfOfBytes
  rw [field_append_field h 0 8 8]
  exact field_all h

/-- The decoder on the bytes of a code reads the code and leaves the bytes after it. -/
theorem decode_bytes_append (code : Code) (rest : List Byte) :
    decode code.set (code.bytes ++ rest) = .ok (decodeCode code, rest) := by
  cases code with
  | arm w => simp [Code.set, Code.bytes, bytesOfWord, decode, decodeCode, wordOfBytes_fields]
  | thumb h => simp [Code.set, Code.bytes, bytesOfHalf, decode, decodeCode, halfOfBytes_fields]

/-- Settles O2: the decoder reads the code that was encoded, and every constructor's code decodes to it. -/
theorem decodeEncode : Obligations.DecodeEncode := by
  unfold Obligations.DecodeEncode
  intro i rest hwf
  rw [Instr.set, decode_bytes_append, decodeCode_encode hwf]

end Sys2Proof
end

section
/-! SUPPORT. What the decoder answers is well formed: the rows of R302 and R320 that leave out a combination of
fields are those whose instructions the check restricts. -/

namespace Sys2Proof

/-! ## ARM words (spec/30_encoding.md R302) -/

theorem decodeMultiply_wf (c : Cond) (w : Word) : (decodeMultiply c w).wf = true := by
  unfold decodeMultiply
  repeat' split
  all_goals rfl

theorem decodeHalfword_wf (c : Cond) (w : Word) : (decodeHalfword c w).wf = true := by
  unfold decodeHalfword
  repeat' split
  all_goals rfl

theorem decodeDpShiftImm_wf (c : Cond) (w : Word) : (decodeDpShiftImm c w).wf = true := by
  unfold decodeDpShiftImm
  split <;> rfl

theorem decodeDpShiftReg_wf (c : Cond) (w : Word) : (decodeDpShiftReg c w).wf = true := by
  unfold decodeDpShiftReg
  split <;> rfl

theorem decodeDpImm_wf (c : Cond) (w : Word) : (decodeDpImm c w).wf = true := by
  unfold decodeDpImm
  split <;> rfl

theorem decodeCoprocTransfer_wf (c : Cond) (w : Word) : (decodeCoprocTransfer c w).wf = true := by
  unfold decodeCoprocTransfer
  split <;> rfl

/-- Where the T form is not selected, (P, W) is not (0, 1) (R310). -/
theorem plainIndexing_of_not_t {p w : Bool} (h : ¬(!p && w) = true) : Instr.plainIndexing p w = true := by
  cases p
  · simpa [Instr.plainIndexing] using h
  · rfl

theorem decodeTransferImm_wf (c : Cond) (w : Word) : (decodeTransferImm c w).wf = true := by
  unfold decodeTransferImm
  dsimp only
  split
  · split <;> rfl
  · next h => split <;> exact plainIndexing_of_not_t h

theorem decodeTransferReg_wf (c : Cond) (w : Word) : (decodeTransferReg c w).wf = true := by
  unfold decodeTransferReg
  dsimp only
  split
  · split <;> rfl
  · next h => split <;> exact plainIndexing_of_not_t h

/-- Bit 15 of the list is bit 15 of the word (R312). -/
theorem bit_list (w : Word) : (field w 0 16).getLsbD 15 = bit w 15 := bit_field w 0 16 15 (by decide)

theorem decodeBlock_wf (c : Cond) (w : Word) : (decodeBlock c w).wf = true := by
  unfold decodeBlock
  dsimp only
  split
  case h_4 =>
    split
    · next h => exact (bit_list w).trans h
    · next h =>
      rw [Instr.wf, bit_list]
      simpa using h
  all_goals rfl

/-- Whatever row of R302 is selected, its body is well formed. -/
theorem armBody_wf (w : Word) (k : Nat) : (armBody w k).wf = true := by
  unfold armBody
  split
  case h_2 | h_3 => exact decodeMultiply_wf _ w
  case h_5 => exact decodeHalfword_wf _ w
  case h_12 => exact decodeDpShiftImm_wf _ w
  case h_13 => exact decodeDpShiftReg_wf _ w
  case h_14 => exact decodeDpImm_wf _ w
  case h_16 => exact decodeTransferImm_wf _ w
  case h_17 => exact decodeTransferReg_wf _ w
  case h_18 => exact decodeBlock_wf _ w
  case h_20 => exact decodeCoprocTransfer_wf _ w
  case h_4 | h_19 | h_22 => split <;> rfl
  all_goals rfl

theorem decodeArm_wf (w : Word) : (decodeArm w).wf = true := by
  rw [decodeArm_row]
  exact armBody_wf w _

/-! ## Thumb halfwords (R320) -/

theorem decodeThumbAlu_wf (h : Half) : (decodeThumbAlu h).wf = true := by
  unfold decodeThumbAlu
  split <;> rfl

/-- The conditions that B<cond> leaves out are those whose top three bits are set (R336). -/
theorem branchCond_ofBits (b : BitVec 4) :
    Instr.branchCond (Cond.ofBits b) = !(bit b 3 && bit b 2 && bit b 1) := by
  revert b
  decide

/-- A halfword with bits 11 to 9 set is not in row 44, B<cond>: the undefined space and SWI come first. -/
theorem thumbRowOf_ne_bcond : ∀ b15 b14 b13 b12 b8 b7 b6 : Bool,
    thumbRowOf b15 b14 b13 b12 true true true b8 b7 b6 ≠ 44 := by
  decide

theorem branchCond_of_thumbBits {h : Half} (hrow : thumbBits h = 44) :
    Instr.branchCond (Cond.ofBits (field h 8 4)) = true := by
  simp only [branchCond_ofBits, bit_field, Nat.reduceLT, Nat.reduceAdd]
  by_contra hset
  obtain ⟨⟨h11, h10⟩, h9⟩ : (bit h 11 = true ∧ bit h 10 = true) ∧ bit h 9 = true := by simpa using hset
  rw [thumbBits, h11, h10, h9] at hrow
  exact thumbRowOf_ne_bcond _ _ _ _ _ _ _ hrow

/-- Whatever row of R320 is selected, its body is well formed, for row 44 where its condition is one B<cond>
has. -/
theorem thumbBody_wf {h : Half} {k : Nat}
    (hcond : k = 44 → Instr.branchCond (Cond.ofBits (field h 8 4)) = true) : (thumbBody h k).wf = true := by
  unfold thumbBody
  split
  case h_12 => exact decodeThumbAlu_wf h
  case h_45 => exact hcond rfl
  all_goals rfl

theorem decodeThumb_wf (h : Half) : (decodeThumb h).wf = true := by
  rw [decodeThumb_half]
  exact thumbBody_wf branchCond_of_thumbBits

/-! ## The statements -/

/-- Settles O3: whatever row is selected, its body is well formed and of the set decoded. -/
theorem decodeTotal : Obligations.DecodeTotal := by
  unfold Obligations.DecodeTotal
  exact ⟨fun w => ⟨decodeArm_wf w, decodeArm_set w⟩, fun h => ⟨decodeThumb_wf h, decodeThumb_set h⟩⟩

/-- Settles O1: each word is fixed, and the decoder evaluates on it. -/
theorem wordsDecode : Obligations.WordsDecode := by
  unfold Obligations.WordsDecode
  decide

end Sys2Proof
end

section
/-! SUPPORT. The two statements on every instruction of an ARM or a Thumb call: what UNPRED_MODE = fault adds
(spec/40_operands_flags.md R413), and what a failed condition does (R403). -/

namespace Sys2Proof.Machine

open Sys2Proof.Safety

/-! ## UNPRED_MODE -/

theorem withUnpred_setFlagsMul (m : UnpredMode) (v : Word) (s : State) :
    (withUnpred m s).setFlagsMul v = withUnpred m (s.setFlagsMul v) := withUnpred_mulCarry m (s.setFlagsNZ v)

/-- An instruction-raised exception enters alike with either UNPRED_MODE. -/
theorem raiseUndefined_refines : SelfRefines fun s => .next s.raiseUndefined :=
  .of_next fun m s => withUnpred_enter m _ _ _ _ s

theorem raiseSwi_refines : SelfRefines fun s => .next s.raiseSwi :=
  .of_next fun m s => withUnpred_enter m _ _ _ _ s

/-- Every instruction refines itself. In each case the operands of the call's end are read from the state, the
same with either UNPRED_MODE, and the checks before it are those of the form. -/
theorem exec_refines (i : Instr) : SelfRefines fun s => exec i s := by
  cases i with dsimp only [exec]
  | andShiftImm | eorShiftImm | subShiftImm | rsbShiftImm | addShiftImm | adcShiftImm | sbcShiftImm
  | rscShiftImm | orrShiftImm | movShiftImm | bicShiftImm | mvnShiftImm
  | andImm | eorImm | subImm | rsbImm | addImm | adcImm | sbcImm | rscImm | orrImm | movImm | bicImm
  | mvnImm => exact .of_armCall _ fun s => dpWrite_refines _ _ _ s
  | andShiftReg | eorShiftReg | subShiftReg | rsbShiftReg | addShiftReg | adcShiftReg | sbcShiftReg
  | rscShiftReg | orrShiftReg | movShiftReg | bicShiftReg | mvnShiftReg =>
    exact .of_armCall _ fun s => .of_guard _ _ (dpWrite_refines _ _ _ s)
  | tstShiftImm | teqShiftImm | cmpShiftImm | cmnShiftImm | tstImm | teqImm | cmpImm | cmnImm =>
    exact .of_armCall _ fun s => dpCompare_refines _ _ s
  | tstShiftReg | teqShiftReg | cmpShiftReg | cmnShiftReg =>
    exact .of_armCall _ fun s => .of_guard _ _ (dpCompare_refines _ _ s)
  | mul | mla => exact .of_armCall _ fun s => .of_guard _ _ (mulWrite_refines _ _ _ s)
  | umull | umlal | smull | smlal => exact .of_armCall _ fun s => .of_guard _ _ (mulLongWrite_refines _ _ _ _ s)
  | swp | swpb => exact .of_armCall _ fun s => .of_guard _ _ (swap_refines _ _ _ _ s)
  | strImm | strReg | strbImm | strbReg =>
    exact .of_armCall _ fun s => .of_guard _ _ (singleStore_refines _ _ _ _ s)
  | ldrImm | ldrReg | ldrbImm | ldrbReg =>
    exact .of_armCall _ fun s => .of_guard _ _ (singleLoad_refines _ _ _ _ _ s)
  | strtImm | strtReg | strbtImm | strbtReg =>
    exact .of_armCall _ fun s => .of_guard _ _ (userStore_refines _ _ _ _ s)
  | ldrtImm | ldrtReg | ldrbtImm | ldrbtReg =>
    exact .of_armCall _ fun s => .of_guard _ _ (userLoad_refines _ _ _ _ s)
  | strhReg | strhImm => exact .of_armCall _ fun s => .of_guard _ _ (.of_guard _ _ (singleStore_refines _ _ _ _ s))
  | ldrsbReg | ldrsbImm =>
    exact .of_armCall _ fun s => .of_guard _ _ (.of_guard _ _ (singleLoad_refines _ _ _ _ _ s))
  | ldrhReg | ldrhImm | ldrshReg | ldrshImm =>
    exact .of_armCall _ fun s => .of_guard _ _ (.of_guard _ _ (.of_guard _ _ (singleLoad_refines _ _ _ _ _ s)))
  | ldm =>
    exact .of_armCall _ fun s => .of_emptyCheck _ (.of_guard _ _ (.of_guard _ _
      (blockLoad_refines _ _ _ withUnpred_loadLive s)))
  | stm => exact .of_armCall _ fun s => .of_emptyCheck _ (.of_guard _ _ (.of_guard _ _ (blockStore_refines _ _ _ _ s)))
  | stmUser =>
    exact .of_armCall _ fun s => .of_emptyCheck _ (.of_guard _ _ (.of_guard _ _ (.of_guard _ _
      (blockStore_refines _ _ _ _ s))))
  | ldmUser =>
    exact .of_armCall _ fun s => .of_emptyCheck _ (.of_guard _ _ (.of_guard _ _ (.of_guard _ _
      (blockLoad_refines _ _ _ withUnpred_loadUser s))))
  | ldmRestore =>
    exact .of_armCall _ fun s => .of_emptyCheck _ (.of_guard _ _ (.of_guard _ _ (.of_guard _ _ (.of_guard _ _
      (blockLoad_refines _ _ _ withUnpred_loadRestore s)))))
  | b | bl => exact .of_armCall _ (.of_next fun _ _ => rfl)
  | bx => exact .of_armCall _ fun s => branchExchange_refines _ s
  | mrs c r rd =>
    exact .of_armCall _ fun s => .of_guard _ _ (.of_guard _ _ (.of_next
      (m := fun s => s.advance.writeReg rd (if r then s.spsr else s.cpsr))
      (fun m s => withUnpred_writeReg m rd _ s.advance) s))
  | msrReg | msrImm => exact .of_armCall _ fun s => statusWrite_refines _ _ _ s
  | swi => exact .of_armCall _ raiseSwi_refines
  | cdp | ldc | stc | mcr | mrc | undefMul | undefMisc | undefMsrImm | undefMedia =>
    exact .of_armCall _ raiseUndefined_refines
  | tLslImm | tLsrImm | tAsrImm | tLsl | tLsr | tAsr | tRor =>
    exact .of_thumbCall fun s => thumbShift_refines _ _ s
  | tAddReg | tSubReg | tAddImm3 | tSubImm3 | tAddImm8 | tSubImm8 | tAdc | tSbc | tNeg =>
    exact .of_thumbCall fun s => thumbArith_refines _ _ s
  | tMovImm8 | tAnd | tEor | tOrr | tBic | tMvn => exact .of_thumbCall fun s => thumbLogic_refines _ _ s
  | tCmpImm8 | tCmp | tCmn => exact .of_thumbCall fun s => thumbCompare_refines _ s
  | tTst => exact .of_thumbCall (.of_next fun _ _ => rfl)
  | tMul rs rd =>
    exact .of_thumbCall fun s => .of_guard _ _ (.of_next
      (m := fun s => (s.advance.setX rd.reg (s.reg rd.reg * s.reg rs.reg)).setFlagsMul (s.reg rd.reg * s.reg rs.reg))
      (fun m s => withUnpred_setFlagsMul m _ (s.advance.setX rd.reg (s.reg rd.reg * s.reg rs.reg))) s)
  | tAddHi | tMovHi => exact .of_thumbCall fun s => .of_guard _ _ (thumbMove_refines _ _ s)
  | tCmpHi => exact .of_thumbCall fun s => .of_guard _ _ (thumbCompare_refines _ s)
  | tBx => exact .of_thumbCall fun s => .of_guard _ _ (branchExchange_refines _ s)
  | tAddPc | tAddSp | tAddSpImm | tSubSpImm => exact .of_thumbCall fun s => thumbMove_refines _ _ s
  | tLdrPc | tLdsbReg | tLdrReg | tLdrbReg | tLdrImm | tLdrbImm | tLdrSp =>
    exact .of_thumbCall fun s => singleLoad_refines _ _ _ _ _ s
  | tLdrhReg | tLdrhImm | tLdshReg =>
    exact .of_thumbCall fun s => .of_guard _ _ (singleLoad_refines _ _ _ _ _ s)
  | tStrReg | tStrhReg | tStrbReg | tStrImm | tStrbImm | tStrhImm | tStrSp =>
    exact .of_thumbCall fun s => singleStore_refines _ _ _ _ s
  | tPush => exact .of_thumbCall fun s => .of_emptyCheck _ (blockStore_refines _ _ _ _ s)
  | tPop => exact .of_thumbCall fun s => .of_emptyCheck _ (blockLoad_refines _ _ _ withUnpred_loadLive s)
  | tStmia => exact .of_thumbCall fun s => .of_emptyCheck _ (.of_guard _ _ (blockStore_refines _ _ _ _ s))
  | tLdmia =>
    exact .of_thumbCall fun s => .of_emptyCheck _ (.of_guard _ _ (blockLoad_refines _ _ _ withUnpred_loadLive s))
  | tBcond c off =>
    refine .of_thumbCall (.of_next fun m s => ?_)
    exact (apply_ite (withUnpred m) _ (s.writePC (s.pc + off.signExtend 32 <<< 1)) s.advance).symm
  | tB | tBlFirst | tBlSecond => exact .of_thumbCall (.of_next fun _ _ => rfl)
  | tSwi => exact .of_thumbCall raiseSwi_refines
  | tUndef1011 | tUndefCond | tUndef11101 => exact .of_thumbCall raiseUndefined_refines

/-- Settles O12: what the statement says of `exec` is that it refines itself. -/
theorem faultModeRefines : Obligations.FaultModeRefines := by
  unfold Obligations.FaultModeRefines
  exact exec_refines

/-! ## A failed condition -/

theorem armCall_of_failed {c : Cond} {s : State} (rule : State → Result) (ht : s.thumb = false)
    (hc : condHolds c s.cpsr = false) : armCall c s rule = .next (advanced 4 s) := by
  have hw : s.beginCall.instrWidth = 4 := if_neg (ne_true_of_eq_false ht)
  rw [armCall, if_neg (ne_true_of_eq_false ht), if_neg (ne_true_of_eq_false hc), State.advance, hw]
  rfl

/-- Each ARM instruction is one ARM call with its condition (R400); a Thumb instruction has none. -/
theorem exec_eq_armCall {i : Instr} {c : Cond} (h : conditionOf i = some c) (s : State) :
    ∃ rule, exec i s = armCall c s rule := by
  cases i
  all_goals dsimp only [conditionOf] at h
  all_goals cases h
  all_goals
    dsimp only [exec]
    exact ⟨_, rfl⟩

/-- Settles O22: the call of every ARM instruction tests the condition before anything of its rule. -/
theorem failedConditionOnlyAdvances : Obligations.FailedConditionOnlyAdvances := by
  unfold Obligations.FailedConditionOnlyAdvances
  intro i c s hi ht hc
  obtain ⟨rule, h⟩ := exec_eq_armCall hi s
  exact h.trans (armCall_of_failed rule ht hc)

end Sys2Proof.Machine
end

section
/-! SUPPORT. The barrel shifter and the flag unit in exact arithmetic (spec/40_operands_flags.md R402 to R411). -/

namespace Sys2Proof.Machine

open Sys2Proof.Safety

/-! ## Shifts of a word -/

theorem msb_eq_bit (m : Word) : m.msb = bit m 31 := BitVec.msb_eq_getLsbD_last m

theorem shiftLeft_eq_ofNat (m : Word) (k : Nat) : m <<< k = BitVec.ofNat 32 (m.toNat * 2 ^ k) := by
  rw [← Nat.shiftLeft_eq]
  rfl

theorem ushiftRight_eq_ofNat (m : Word) (k : Nat) : m >>> k = BitVec.ofNat 32 (m.toNat / 2 ^ k) := by
  apply BitVec.eq_of_toNat_eq
  rw [BitVec.toNat_ushiftRight, Nat.shiftRight_eq_div_pow, BitVec.toNat_ofNat,
    Nat.mod_eq_of_lt ((Nat.div_le_self _ _).trans_lt m.isLt)]

theorem sshiftRight_eq_ofInt (m : Word) (k : Nat) : m.sshiftRight k = BitVec.ofInt 32 (m.toInt / 2 ^ k) := by
  rw [BitVec.sshiftRight, Int.shiftRight_eq_div_pow]
  norm_cast

/-- A rotation to the right takes bit `j` from `k` places higher, round the word. -/
theorem getLsbD_rotateRight_mod (m : Word) (k : Nat) {j : Nat} (hj : j < 32) :
    (m.rotateRight k).getLsbD j = m.getLsbD ((j + k) % 32) := by
  rw [BitVec.getLsbD_rotateRight, Bool.cond_decide, decide_eq_true hj, Bool.true_and]
  split <;> congr 1 <;> omega

theorem signFill_eq (m : Word) : signFill m = if m.msb then 0xFFFFFFFF else 0 := by
  rw [signFill, msb_eq_bit]

/-- RRX: the carry comes in above the word shifted by one (R405). -/
theorem rrx_eq_ofNat (m : Word) (c : Bool) : (BitVec.ofBool c).setWidth 32 <<< 31 ||| m >>> 1 =
    BitVec.ofNat 32 ((if c then 2 ^ 31 else 0) + m.toNat / 2) := by
  have hm : m.toNat / 2 < 2 ^ 31 := by omega
  have hfits : (if c then 2 ^ 31 else 0) + m.toNat / 2 < 2 ^ 32 := by split <;> omega
  apply BitVec.eq_of_toNat_eq
  rw [BitVec.toNat_ofNat, Nat.mod_eq_of_lt hfits, BitVec.toNat_or, BitVec.toNat_ushiftRight,
    Nat.shiftRight_eq_div_pow]
  cases c with
  | false => simp
  | true => exact (Nat.two_pow_add_eq_or_of_lt hm 1).symm

/-- Settles O23: the value is a rotation by twice the field. -/
theorem rotatedImmediate : Obligations.RotatedImmediate := by
  unfold Obligations.RotatedImmediate
  intro rot imm c
  refine ⟨fun j hj => ?_, rfl⟩
  have hlt : (j + 2 * rot.toNat) % 32 < 32 := Nat.mod_lt _ (by decide)
  rw [shiftImmOperand, getLsbD_rotateRight_mod _ _ hj, BitVec.getLsbD_setWidth, decide_eq_true hlt, Bool.true_and]

/-- Settles O24: each shift in exact arithmetic, with the special case of amount 0. -/
theorem shiftByImmediate : Obligations.ShiftByImmediate := by
  unfold Obligations.ShiftByImmediate
  intro n m c
  refine ⟨?_, ?_, ?_, fun h0 => ?_, fun h0 => ?_⟩
  · by_cases h0 : n.toNat = 0
    · simp [shiftByImm, h0]
    · simp [shiftByImm, h0, shiftLeft_eq_ofNat, bit]
  · simp only [shiftByImm, ushiftRight_eq_ofNat, msb_eq_bit, bit]
  · simp only [shiftByImm, sshiftRight_eq_ofInt, signFill_eq, msb_eq_bit, bit]
  · simp [shiftByImm, h0, rrx_eq_ofNat, bit]
  · have hror : shiftByImm .ror n m c = (m.rotateRight n.toNat, bit m (n.toNat - 1)) := if_neg h0
    rw [hror]
    exact ⟨fun j hj => getLsbD_rotateRight_mod m _ hj, rfl⟩

/-- Settles O25: amounts to 31 shift as an immediate does; past them the word is emptied, or turned by the
remainder. -/
theorem shiftByRegister : Obligations.ShiftByRegister := by
  unfold Obligations.ShiftByRegister
  intro n m c
  refine ⟨fun h0 sh => if_pos h0, fun h0 => ⟨?_, ?_, ?_, fun hr => ?_, fun hr => ?_⟩⟩
  · simp only [shiftByReg, h0, if_false, shiftLeft_eq_ofNat, bit]
    split_ifs <;> rfl
  · simp only [shiftByReg, h0, if_false, ushiftRight_eq_ofNat, msb_eq_bit, bit]
    split_ifs <;> rfl
  · simp only [shiftByReg, h0, if_false, sshiftRight_eq_ofInt, signFill_eq, msb_eq_bit, bit]
  · simp only [shiftByReg, h0, hr, if_true, if_false, msb_eq_bit]
  · have hror : shiftByReg .ror n m c = (m.rotateRight (n.toNat % 32), bit m (n.toNat % 32 - 1)) := by
      simp only [shiftByReg, h0, hr, if_false]
    rw [hror]
    refine ⟨fun j hj => ?_, rfl⟩
    rw [getLsbD_rotateRight_mod m _ hj, Nat.add_mod_mod]

/-! ## The flags of a status value -/

/-- A status value from its flags N, Z, C, V and its other bits (spec/10_state.md R103). -/
def flagWord (n z c v : Bool) (rest : BitVec 28) : Word :=
  BitVec.ofBool n ++ BitVec.ofBool z ++ BitVec.ofBool c ++ BitVec.ofBool v ++ rest

@[simp] theorem nBit_flagWord (n z c v : Bool) (rest : BitVec 28) : nBit (flagWord n z c v rest) = n :=
  (bit_high _ rest (by decide)).trans (by revert n z c v; decide)

@[simp] theorem zBit_flagWord (n z c v : Bool) (rest : BitVec 28) : zBit (flagWord n z c v rest) = z :=
  (bit_high _ rest (by decide)).trans (by revert n z c v; decide)

@[simp] theorem cBit_flagWord (n z c v : Bool) (rest : BitVec 28) : cBit (flagWord n z c v rest) = c :=
  (bit_high _ rest (by decide)).trans (by revert n z c v; decide)

@[simp] theorem vBit_flagWord (n z c v : Bool) (rest : BitVec 28) : vBit (flagWord n z c v rest) = v :=
  (bit_high _ rest (by decide)).trans (by revert n z c v; decide)

theorem getLsbD_flagWord_rest (n z c v : Bool) (rest : BitVec 28) {j : Nat} (hj : j < 28) :
    (flagWord n z c v rest).getLsbD j = rest.getLsbD j := bit_low _ rest hj

/-- Settles O21: each condition is read from the four flags. -/
theorem conditionTable : Obligations.ConditionTable := by
  unfold Obligations.ConditionTable
  intro n z c v rest st
  have hst : st = flagWord n z c v rest := rfl
  rw [hst]
  simp [condHolds]

/-! ## The flag writes -/

theorem bit_setBit_same (st : Word) {i : Nat} (b : Bool) (hi : i < 32) : bit (setBit st i b) i = b := by
  cases b <;> simp [bit, setBit, hi]

theorem bit_setBit_ne (st : Word) {i j : Nat} (b : Bool) (h : j ≠ i) : bit (setBit st i b) j = bit st j := by
  cases b with
  | false => simpa [bit, setBit, h.symm] using BitVec.lt_of_getLsbD
  | true => simp [bit, setBit, h.symm]

theorem withFlags_eq_flagWord (st : Word) (n z c v : Bool) :
    withFlags st n z c v = flagWord n z c v (st.extractLsb' 0 28) := rfl

/-- A status with the flags `n`, `z`, `c`, `v` and the other bits of `st`. -/
theorem eq_withFlags {t st : Word} {n z c v : Bool} (hn : nBit t = n) (hz : zBit t = z) (hc : cBit t = c)
    (hv : vBit t = v) (hrest : ∀ j, j < 28 → bit t j = bit st j) : t = withFlags st n z c v := by
  rw [withFlags_eq_flagWord]
  apply BitVec.eq_of_getLsbD_eq
  intro j hj
  rcases Nat.lt_or_ge j 28 with h | h
  · rw [getLsbD_flagWord_rest _ _ _ _ _ h]
    exact (hrest j h).trans (by simp [bit, h])
  · obtain rfl | rfl | rfl | rfl : j = 28 ∨ j = 29 ∨ j = 30 ∨ j = 31 := by omega
    · exact hv.trans (vBit_flagWord ..).symm
    · exact hc.trans (cBit_flagWord ..).symm
    · exact hz.trans (zBit_flagWord ..).symm
    · exact hn.trans (nBit_flagWord ..).symm

/-- The bits below the flags stay as they are. -/
theorem bit_setBit_below {st : Word} {i j : Nat} (b : Bool) (hj : j < 28) (hi : 28 ≤ i) :
    bit (setBit st i b) j = bit st j := bit_setBit_ne st b (by omega)

/-- N, Z and C written: V stays (R411). -/
theorem setC_setNZ_eq_withFlags (st r : Word) (c : Bool) :
    setC (setNZ st r) c = withFlags st r.msb (r == 0) c (vBit st) := by
  refine eq_withFlags ?_ ?_ ?_ ?_ fun j hj => ?_
  all_goals
    simp [nBit, zBit, cBit, vBit, setC, setNZ, bit_setBit_same, bit_setBit_ne, bit_setBit_below, msb_eq_bit, *]

/-- All four flags written (R411). -/
theorem setV_setC_setNZ_eq_withFlags (st r : Word) (c v : Bool) :
    setV (setC (setNZ st r) c) v = withFlags st r.msb (r == 0) c v := by
  refine eq_withFlags ?_ ?_ ?_ ?_ fun j hj => ?_
  all_goals
    simp [nBit, zBit, cBit, vBit, setV, setC, setNZ, bit_setBit_same, bit_setBit_ne, bit_setBit_below, msb_eq_bit, *]

/-! ## Carry, borrow and overflow (R409, R410) -/

theorem signedOverflow_eq_outOfRange (v : Int) : signedOverflow v = outOfRange v := by
  rw [signedOverflow, outOfRange, ← Bool.decide_and, ← decide_not, decide_eq_decide]
  omega

theorem addWithCarry_eq (a b : Word) (cin : Bool) : addWithCarry a b cin = ⟨exactSum a b cin,
    decide (2 ^ 32 ≤ a.toNat + b.toNat + cin.toNat), outOfRange (a.toInt + b.toInt + cin.toNat)⟩ := by
  have hc : cin.toNat ≤ 1 := Bool.toNat_le cin
  have hw : (a.setWidth 64 + b.setWidth 64 + (BitVec.ofBool cin).setWidth 64 : BitVec 64) =
      BitVec.ofNat 64 (a.toNat + b.toNat + cin.toNat) := by
    apply BitVec.eq_of_toNat_eq
    simp [BitVec.toNat_add]
  rw [addWithCarry, hw, signedOverflow_eq_outOfRange, AluOut.mk.injEq]
  refine ⟨BitVec.setWidth_ofNat_of_le (by decide) _, ?_, rfl⟩
  rw [bit, BitVec.getLsbD_ofNat, Nat.testBit_eq_decide_div_mod_eq, ← Bool.decide_and, decide_eq_decide]
  omega

theorem subWithCarry_eq (a b : Word) (cin : Bool) : subWithCarry a b cin = ⟨exactDiff a b cin,
    decide (b.toNat + (!cin).toNat ≤ a.toNat), outOfRange (a.toInt - b.toInt - (!cin).toNat)⟩ := by
  have hc : (!cin).toNat ≤ 1 := Bool.toNat_le _
  have hw : (a.setWidth 64 - b.setWidth 64 - (BitVec.ofBool !cin).setWidth 64 : BitVec 64).toNat =
      (2 ^ 64 + a.toNat - b.toNat - (!cin).toNat) % 2 ^ 64 := by
    simp only [BitVec.toNat_sub, BitVec.toNat_setWidth, BitVec.toNat_ofBool]
    omega
  rw [subWithCarry, signedOverflow_eq_outOfRange, AluOut.mk.injEq]
  refine ⟨?_, ?_, rfl⟩
  · apply BitVec.eq_of_toNat_eq
    rw [BitVec.toNat_setWidth, hw, exactDiff, BitVec.toNat_ofInt, BitVec.toInt_eq_toNat_cond,
      BitVec.toInt_eq_toNat_cond]
    split <;> split <;> omega
  · rw [bit, BitVec.getLsbD, Nat.testBit_eq_decide_div_mod_eq, hw, ← decide_not, decide_eq_decide]
    omega

/-- Settles O26: the 64-bit sum and difference hold the exact ones, and the flag writes leave bits 27:0. -/
theorem flagUnit : Obligations.FlagUnit := by
  unfold Obligations.FlagUnit
  refine ⟨addWithCarry_eq, subWithCarry_eq, fun s o => ?_, fun s v sc => ?_⟩
  · rw [State.setFlagsArith, setV_setC_setNZ_eq_withFlags]
    rfl
  · rw [State.setFlagsLogic, setC_setNZ_eq_withFlags]
    rfl

end Sys2Proof.Machine
end

section
/-! SUPPORT. ARM data processing: the checks of a rule, the three forms of operand2 and the two ends of R450,
each once; then the five statements on the sixteen operations (spec/41_data_processing.md R450 to R468). -/

namespace Sys2Proof.Machine

open Sys2Proof.Safety

/-! ## The checks of a rule (R413) -/

/-- The guards of a rule, one for each case, in the order of its checks. -/
def State.guards (s : State) : Checks → Result → Result
  | [], go => go
  | k :: cs, go => s.guard k.1 k.2 (s.guards cs go)

theorem State.guard_of_not_met {s : State} {b : Bool} (u : UCase) (go : Result)
    (h : s.params.unpredMode = .reference ∨ b = false) : s.guard b u go = go := by
  rcases h with h | h <;> simp [State.guard, h]

theorem State.guard_of_met {s : State} (u : UCase) (go : Result) (h : s.params.unpredMode = .fault) :
    s.guard true u go = .fault (.unpredictable u) := by
  simp [State.guard, h]

theorem State.guards_of_clear {cs : Checks} {s : State} (go : Result) (h : Clear cs s) : s.guards cs go = go := by
  induction cs with
  | nil => rfl
  | cons k cs ih =>
    have hk : s.params.unpredMode = .reference ∨ k.1 = false := h.imp_right fun h => h k List.mem_cons_self
    have hcs : Clear cs s := h.imp_right fun h j hj => h j (List.mem_cons_of_mem k hj)
    exact (State.guard_of_not_met _ _ hk).trans (ih hcs)

theorem State.guards_of_stopsAt {cs : Checks} {s : State} {u : UCase} (go : Result) (h : StopsAt cs s u) :
    s.guards cs go = .fault (.unpredictable u) := by
  obtain ⟨hm, hu⟩ := h
  induction cs with
  | nil => cases hu
  | cons k cs ih =>
    obtain ⟨_ | _, v⟩ := k
    · exact (State.guard_of_not_met v _ (.inr rfl)).trans (ih hu)
    · cases hu
      exact State.guard_of_met v _ hm

/-- An instruction that makes its checks and then ends in `go`, as the statements say it. -/
theorem guarded_of_guards {i : Instr} {cs : Checks} {s : State} {go : Result} (h : exec i s = s.guards cs go) :
    Guarded i cs s (exec i s = go) :=
  ⟨fun hc => h.trans (State.guards_of_clear go hc), fun _ hu => h.trans (State.guards_of_stopsAt go hu)⟩

/-! ## An ARM call whose condition passes -/

theorem armCall_of_ready {c : Cond} {s : State} (rule : State → Result) (h : ArmReady c s) :
    armCall c s rule = rule s.beginCall := by
  obtain ⟨ht, hc⟩ := h
  rw [armCall, if_neg (ne_true_of_eq_false ht), if_pos hc]

/-- In ARM state the call's advance is by four bytes, `branched` cleared (R113, R400). -/
theorem State.advance_beginCall {s : State} (ht : s.thumb = false) : s.beginCall.advance = advanced 4 s := by
  have hw : s.beginCall.instrWidth = 4 := if_neg (ne_true_of_eq_false ht)
  rw [State.advance, hw]
  rfl

theorem State.writeReg_eq_put (r : Reg) (v : Word) (s : State) : s.writeReg r v = put r v s := by
  rw [State.writeReg, State.writePC_eq_jumped, put]

/-! ## Operand2 (R404 to R407) -/

theorem State.shiftedReg_eq_shiftRead (s : State) (r : Reg) : s.shiftedReg r = shiftRead s r := by
  rw [State.shiftedReg, shiftRead]
  cases s.params.pcRshiftOffset <;> rfl

theorem State.op2ShiftReg_eq_value (s : State) (rs : Reg) (sh : Shift) (rm : Reg) :
    s.op2ShiftReg rs sh rm = (Operand2.byReg rs sh rm).value s := by
  rw [State.op2ShiftReg, State.shiftedReg_eq_shiftRead, State.shiftedReg_eq_shiftRead]
  rfl

theorem namesPc_eq_decide_mem (rs : List Reg) : namesPc rs = decide (15 ∈ rs) := by
  rw [namesPc, Bool.eq_iff_iff, List.any_beq', List.contains_iff_mem, decide_eq_true_iff]

/-- The U4 check of the register-shift form looks at the same registers in another order. -/
theorem namesPc_append_eq_u4 (others : List Reg) (rs : Reg) (sh : Shift) (rm : Reg) :
    namesPc (others ++ [rm, rs]) = (Operand2.byReg rs sh rm).u4 others := by
  rw [namesPc_eq_decide_mem, Operand2.u4, decide_eq_decide]
  simp only [List.mem_append, List.mem_cons, List.not_mem_nil]
  tauto

/-- One operation of R451 to R466 in its three forms of operand2: `ends` is steps 3 and 4 of R450, `others` the
fields that the U4 check names besides operand2. -/
def opRule (others : List Reg) (rn : Reg) (op : Word → Word × Bool → Bool → DpOut)
    (ends : DpOut → State → Result) : Operand2 → State → Result
  | .imm rot k, s => ends (op (s.reg rn) (s.op2Imm rot k) s.carry) s
  | .byImm n sh rm, s => ends (op (s.reg rn) (s.op2ShiftImm n sh rm) s.carry) s
  | .byReg rs sh rm, s =>
    s.guard (namesPc (others ++ [rm, rs])) .u4 (ends (op (s.shiftedReg rn) (s.op2ShiftReg rs sh rm) s.carry) s)

/-- The call checks U4, then ends with the operation on the operands of the state before it. -/
theorem opRule_beginCall (others : List Reg) (rn : Reg) (op : Word → Word × Bool → Bool → DpOut)
    (ends : DpOut → State → Result) (o : Operand2) (s : State) :
    opRule others rn op ends o s.beginCall =
      s.guard (o.u4 others) .u4 (ends (op (o.first rn s) (o.value s) (cBit s.cpsr)) s.beginCall) := by
  cases o with
  | imm | byImm => rfl
  | byReg rs sh rm =>
    rw [opRule, namesPc_append_eq_u4, State.shiftedReg_eq_shiftRead, State.op2ShiftReg_eq_value]
    rfl

/-! ## The ends of R450 -/

/-- The result of an operation and the status its flag-setting form leaves (R411). -/
def DpOut.outcome (st : Word) : DpOut → Word × Word
  | .arith o => (o.result, flagsOf st o.result o.carry o.overflow)
  | .logic v sc => (v, logicStatus st v sc)

theorem DpOut.outcome_fst (st : Word) (o : DpOut) : (o.outcome st).1 = o.result := by
  cases o <;> rfl

theorem State.setFlagsDp_eq_withStatus (o : DpOut) (s : State) :
    s.setFlagsDp o = withStatus (o.outcome s.cpsr).2 s := by
  obtain ⟨-, -, harith, hlogic⟩ := flagUnit
  cases o with
  | arith o => exact harith s o
  | logic v sc => exact hlogic s v sc

theorem DpOut.outcome_addWithCarry (st a b : Word) (cin : Bool) :
    (DpOut.arith (addWithCarry a b cin)).outcome st = (exactSum a b cin, sumStatus st a b cin) := by
  rw [addWithCarry_eq]
  rfl

theorem DpOut.outcome_subWithCarry (st a b : Word) (cin : Bool) :
    (DpOut.arith (subWithCarry a b cin)).outcome st = (exactDiff a b cin, diffStatus st a b cin) := by
  rw [subWithCarry_eq]
  rfl

/-- The saved status restored, then the pc written for the restored T (R467). -/
theorem State.exceptionReturn_advanced (a : Word) (s : State) :
    (advanced 4 s).exceptionReturn a = returned a s :=
  State.writePC_eq_jumped a _

theorem dpWrite_return (o : DpOut) {s : State} (ht : s.thumb = false) :
    dpWrite true 15 o s.beginCall =
      s.guards [(s.inUserBank, .u1), ((bankOf s.spsr).isNone, .u2)] (.next (returned o.result s)) := by
  rw [dpWrite, if_pos (show (true && (15 : Reg) == 15) = true from rfl), State.returnWithSpsr,
    State.advance_beginCall ht, State.exceptionReturn_advanced]
  rfl

theorem dpWrite_write {sf : Bool} {rd : Reg} (o : DpOut) {s : State} (ht : s.thumb = false)
    (h : ¬(sf = true ∧ rd = 15)) :
    dpWrite sf rd o s.beginCall =
      .next (withStatus (if sf then (o.outcome s.cpsr).2 else s.cpsr) (put rd o.result (advanced 4 s))) := by
  have hst : (put rd o.result (advanced 4 s)).cpsr = s.cpsr := by
    rw [← State.writeReg_eq_put, State.writeReg_cpsr]
    rfl
  rw [dpWrite, if_neg (by simpa using h), State.advance_beginCall ht, State.writeReg_eq_put]
  cases sf with
  | true => simp only [if_true, State.setFlagsDp_eq_withStatus, hst]
  | false =>
    simp only [Bool.false_eq_true, if_false, ← hst]
    rfl

theorem dpCompare_restore (o : DpOut) {s : State} (ht : s.thumb = false) :
    dpCompare 15 o s.beginCall = s.guards [(true, .u22)] (.next ((advanced 4 s).loadStatus s.spsr)) := by
  rw [dpCompare, if_pos rfl, State.advance_beginCall ht]
  rfl

theorem dpCompare_flags {rd : Reg} (o : DpOut) {s : State} (ht : s.thumb = false) (h : rd ≠ 15) :
    dpCompare rd o s.beginCall = .next (withStatus (o.outcome s.cpsr).2 (advanced 4 s)) := by
  rw [dpCompare, if_neg h, State.advance_beginCall ht, State.setFlagsDp_eq_withStatus]
  rfl

/-- An instruction that checks U4 and ends by writing Rd does what R450 and R467 say. -/
theorem processes_of_dpWrite {i : Instr} {u4 sf : Bool} {rd : Reg} {o : DpOut} {s : State} (ht : s.thumb = false)
    (h : exec i s = s.guard u4 .u4 (dpWrite sf rd o s.beginCall)) :
    Processes i u4 sf rd (o.outcome s.cpsr) s := by
  unfold Processes Ends
  rw [DpOut.outcome_fst]
  split
  · next hret =>
    obtain ⟨rfl, rfl⟩ := hret
    rw [dpWrite_return o ht] at h
    exact guarded_of_guards h
  · next hret =>
    rw [dpWrite_write o ht hret] at h
    exact guarded_of_guards h

/-- An instruction that checks U4 and ends as a comparison does what R450 and R468 say. -/
theorem comparesTo_of_dpCompare {i : Instr} {u4 : Bool} {rd : Reg} {o : DpOut} {s : State} (ht : s.thumb = false)
    (h : exec i s = s.guard u4 .u4 (dpCompare rd o s.beginCall)) :
    ComparesTo i u4 rd (o.outcome s.cpsr).2 s := by
  unfold ComparesTo EndsStatus
  split
  · next hrd =>
    subst hrd
    rw [dpCompare_restore o ht] at h
    exact guarded_of_guards h
  · next hrd =>
    rw [dpCompare_flags o ht hrd] at h
    exact guarded_of_guards h

/-! ## An operation of the model in the statements' words -/

/-- The operation `op` of the model gives what `spec` says, the carry operand being that of the status. -/
def Computes (op : Word → Word × Bool → Bool → DpOut) (spec : Operation) : Prop :=
  ∀ a b st, (op a b (cBit st)).outcome st = spec a b.1 b.2 st

section Forms

variable {op : Word → Word × Bool → Bool → DpOut} {spec : Operation}

theorem processes_of_opRule {i : Instr} {c : Cond} {sf : Bool} {others : List Reg} {rn rd : Reg} {o : Operand2}
    {s : State} (hop : Computes op spec)
    (hrun : exec i s = armCall c s (opRule others rn op (dpWrite sf rd) o)) (hs : ArmReady c s) :
    Processes i (o.u4 others) sf rd (spec (o.first rn s) (o.value s).1 (o.value s).2 s.cpsr) s := by
  rw [armCall_of_ready _ hs, opRule_beginCall] at hrun
  rw [← hop]
  exact processes_of_dpWrite hs.1 hrun

theorem comparesTo_of_opRule {i : Instr} {c : Cond} {others : List Reg} {rn rd : Reg} {o : Operand2} {s : State}
    (hop : Computes op spec) (hrun : exec i s = armCall c s (opRule others rn op (dpCompare rd) o))
    (hs : ArmReady c s) :
    ComparesTo i (o.u4 others) rd (spec (o.first rn s) (o.value s).1 (o.value s).2 s.cpsr).2 s := by
  rw [armCall_of_ready _ hs, opRule_beginCall] at hrun
  rw [← hop]
  exact comparesTo_of_dpCompare hs.1 hrun

end Forms

/-! ## The statements

Each operation computes what its `Operation` says, and in each form of operand2 its call is the `opRule` of it. -/

/-- Settles O27: a logical operation gives its value and the shifter carry-out as they are. -/
theorem armLogical : Obligations.ArmLogical := by
  unfold Obligations.ArmLogical
  simp only [List.forall_mem_cons, List.not_mem_nil, false_imp_iff, implies_true, and_true]
  refine ⟨?_, ?_, ?_, ?_⟩ <;> intro c sf rn rd o s
  · exact processes_of_opRule (op := opAnd) (fun _ _ _ => rfl) (by cases o <;> rfl)
  · exact processes_of_opRule (op := opEor) (fun _ _ _ => rfl) (by cases o <;> rfl)
  · exact processes_of_opRule (op := opOrr) (fun _ _ _ => rfl) (by cases o <;> rfl)
  · exact processes_of_opRule (op := opBic) (fun _ _ _ => rfl) (by cases o <;> rfl)

/-- Settles O28: MOV and MVN are logical operations that leave the first operand unread; R0 stands for it here. -/
theorem armMoves : Obligations.ArmMoves := by
  unfold Obligations.ArmMoves
  simp only [List.forall_mem_cons, List.not_mem_nil, false_imp_iff, implies_true, and_true]
  refine ⟨?_, ?_⟩ <;> intro c sf rd o s
  · exact processes_of_opRule (rn := 0) (op := fun _ b _ => opMov b) (spec := fun _ => movOp 0)
      (fun _ _ _ => rfl) (by cases o <;> rfl)
  · exact processes_of_opRule (rn := 0) (op := fun _ b _ => opMvn b) (spec := fun _ => mvnOp 0)
      (fun _ _ _ => rfl) (by cases o <;> rfl)

/-- Settles O29: a sum with no carry in, a difference with no borrow. -/
theorem armAddSubtract : Obligations.ArmAddSubtract := by
  unfold Obligations.ArmAddSubtract
  simp only [List.forall_mem_cons, List.not_mem_nil, false_imp_iff, implies_true, and_true]
  refine ⟨?_, ?_, ?_⟩ <;> intro c sf rn rd o s
  · exact processes_of_opRule (op := opSub) (fun _ _ _ => DpOut.outcome_subWithCarry ..) (by cases o <;> rfl)
  · exact processes_of_opRule (op := opRsb) (fun _ _ _ => DpOut.outcome_subWithCarry ..) (by cases o <;> rfl)
  · exact processes_of_opRule (op := opAdd) (fun _ _ _ => DpOut.outcome_addWithCarry ..) (by cases o <;> rfl)

/-- Settles O30: the same with the carry of the status as carry in, or as NOT borrow. -/
theorem armWithCarry : Obligations.ArmWithCarry := by
  unfold Obligations.ArmWithCarry
  simp only [List.forall_mem_cons, List.not_mem_nil, false_imp_iff, implies_true, and_true]
  refine ⟨?_, ?_, ?_⟩ <;> intro c sf rn rd o s
  · exact processes_of_opRule (op := opAdc) (fun _ _ _ => DpOut.outcome_addWithCarry ..) (by cases o <;> rfl)
  · exact processes_of_opRule (op := opSbc) (fun _ _ _ => DpOut.outcome_subWithCarry ..) (by cases o <;> rfl)
  · exact processes_of_opRule (op := opRsc) (fun _ _ _ => DpOut.outcome_subWithCarry ..) (by cases o <;> rfl)

/-- Settles O31: the flags are those of AND, EOR, SUB and ADD. -/
theorem armComparisons : Obligations.ArmComparisons := by
  unfold Obligations.ArmComparisons
  simp only [List.forall_mem_cons, List.not_mem_nil, false_imp_iff, implies_true, and_true]
  refine ⟨?_, ?_, ?_, ?_⟩ <;> intro c rn rd o s
  · exact comparesTo_of_opRule (op := opTst) (fun _ _ _ => rfl) (by cases o <;> rfl)
  · exact comparesTo_of_opRule (op := opTeq) (fun _ _ _ => rfl) (by cases o <;> rfl)
  · exact comparesTo_of_opRule (op := opCmp) (fun _ _ _ => DpOut.outcome_subWithCarry ..) (by cases o <;> rfl)
  · exact comparesTo_of_opRule (op := opCmn) (fun _ _ _ => DpOut.outcome_addWithCarry ..) (by cases o <;> rfl)

end Sys2Proof.Machine
end

section
/-! SUPPORT. The ARM branches: the signed offset of a branch, and what BX does to the status and the pc, in ARM
and in Thumb state (spec/42_branch.md R500 to R502, spec/48_thumb_alu.md R830). -/

namespace Sys2Proof.Machine

open Sys2Proof.Safety

/-! ## The target of a branch -/

/-- A signed offset in units of `m` bytes: the product is the shift (R500). -/
theorem signExtend_shiftLeft_eq_ofInt {n m k : Nat} (h : m = 2 ^ k) (x : BitVec n) :
    x.signExtend 32 <<< k = BitVec.ofInt 32 (m * x.toInt) := by
  have hm : BitVec.ofInt 32 m = BitVec.twoPow 32 k := by
    rw [BitVec.ofInt_natCast, h]
    exact BitVec.eq_of_toNat_eq (by rw [BitVec.toNat_ofNat, BitVec.toNat_twoPow])
  rw [BitVec.ofInt_mul, hm, BitVec.mul_comm, BitVec.shiftLeft_eq_mul_twoPow]
  rfl

theorem State.branchTarget_eq (imm : BitVec 24) (s : State) :
    s.branchTarget imm = s.pc + BitVec.ofInt 32 (4 * imm.toInt) :=
  congrArg (s.pc + ·) (signExtend_shiftLeft_eq_ofInt (m := 4) (k := 2) rfl imm)

/-- A pc write sets `branched`, so what the start of the call did to it is not seen (R114, R400). -/
theorem State.writePC_beginCall (a : Word) (s : State) : s.beginCall.writePC a = jumped a s :=
  State.writePC_eq_jumped a s.beginCall

/-! ## BX -/

/-- T written is bit 5 between the 26 bits above it and the 5 below. -/
theorem setT_eq_withT (st : Word) (b : Bool) : setT st b = withT st b := by
  refine BitVec.eq_of_getLsbD_eq fun i hi => ?_
  rw [withT, BitVec.getLsbD_append, BitVec.getLsbD_append]
  obtain h | rfl | h := Nat.lt_trichotomy i 5
  · exact (bit_setBit_ne st b h.ne).trans (by simp [bit, h])
  · exact (bit_setBit_same st b hi).trans (by simp)
  · have hpos : 6 + (i - 5 - 1) = i := by omega
    have hlen : i - 5 - 1 < 26 := by omega
    rw [if_neg h.not_gt, if_neg (by omega), BitVec.getLsbD_extractLsb', hpos, decide_eq_true hlen, Bool.true_and]
    exact bit_setBit_ne st b h.ne'

theorem setMode_modeField (st : Word) : setMode st (modeField st) = st :=
  (setMode_eq_append st _).trans (BitVec.extractLsb'_append_extractLsb' (w := 27) (len := 5))

/-- A status with the mode field of the live one switches no bank, the live one being legal or not (R108, R109). -/
theorem State.loadStatus_of_modeField_eq {n : Word} {s : State} (h : modeField n = modeField s.cpsr) :
    s.loadStatus n = withStatus n s := by
  have hb : bankOf n = s.bank := bankOf_eq h
  cases hs : s.bank with
  | some b => exact State.loadStatus_same (hb.trans hs) hs
  | none =>
    have hc : s.coerceMode n = n := by
      rw [State.coerceMode, ← h, setMode_modeField, ite_self]
    simp only [State.loadStatus, hc, hb.trans hs]
    rfl

theorem and_not_one_eq_append (v : Word) : v &&& 0xFFFFFFFE = v.extractLsb' 1 31 ++ 0#1 := by
  rw [and_FFFFFFFE, BitVec.shiftLeft_eq_concat_of_lt (by decide), ← BitVec.setWidth_eq_extractLsb' (by decide),
    BitVec.setWidth_ushiftRight_eq_extractLsb]
  rfl

/-- BX checks U19, sets T from bit 0 in the status, and writes the pc for the new T (R502, R830). -/
theorem branchExchange_eq_guards (v : Word) (s : State) :
    branchExchange v s = s.guards [(!v.getLsbD 0 && v.getLsbD 1, .u19)]
      (.next (jumped (v.extractLsb' 1 31 ++ 0#1) (withStatus (withT s.cpsr (v.getLsbD 0)) s))) := by
  rw [branchExchange, State.loadStatus_of_modeField_eq (modeField_setT _ _), setT_eq_withT, State.writePC_eq_jumped,
    and_not_one_eq_append]
  rfl

/-! ## The statement -/

/-- Settles O47: B and BL add the signed offset to the pc, BX is the exchange on the register before the call. -/
theorem armBranches : Obligations.ArmBranches := by
  unfold Obligations.ArmBranches
  intro c s hs
  refine ⟨fun imm => ?_, fun imm => ?_, fun rm => ?_⟩
  · calc exec (.b c imm) s
        = .next (s.beginCall.writePC (s.branchTarget imm)) :=
          armCall_of_ready (fun t => .next (t.writePC (t.branchTarget imm))) hs
      _ = _ := by rw [State.writePC_beginCall, State.branchTarget_eq]
  · calc exec (.bl c imm) s
        = .next ((s.setX 14 (s.pc - 4)).beginCall.writePC (s.branchTarget imm)) :=
          armCall_of_ready (fun t => .next ((t.setX 14 (t.pc - 4)).writePC (t.branchTarget imm))) hs
      _ = _ := by rw [State.writePC_beginCall, State.branchTarget_eq]
  · have hrun : exec (.bx c rm) s = branchExchange (s.reg rm) s.beginCall := armCall_of_ready _ hs
    exact guarded_of_guards (hrun.trans (branchExchange_eq_guards _ _))

end Sys2Proof.Machine
end

section
/-! SUPPORT. Single transfers: what one access answers in the statements' words, and the statements on the ARM
loads and stores of the live registers (spec/43_load_store.md R550 to R556, R561 to R566). -/

namespace Sys2Proof.Machine

open Sys2Proof.Safety

/-! ## What the port sees of the state -/

/-- `s` with all that the bank switch neither reads nor writes taken from `u`. -/
def State.withRest (u s : State) : State :=
  { s with branched := u.branched, mem := u.mem, regions := u.regions, portLog := u.portLog,
           freeCount := u.freeCount }

/-- `s` with what a port access reads or writes taken from `u`. -/
def State.withPort (u s : State) : State := State.withRest { u with branched := s.branched } s

/-- `f` neither reads nor writes what a port access does. -/
def OutsidePort (f : State → State) : Prop := ∀ u s, f (.withPort u s) = .withPort u (f s)

theorem State.portLoad_withPort (w : Width) (a : Word) (u s : State) :
    (State.withPort u s).portLoad w a = ((u.portLoad w a).1, .withPort (u.portLoad w a).2 s) := by
  have hf : (State.withPort u s).loadFails w a = u.loadFails w a := rfl
  have hd : (State.withPort u s).atDevice w a = u.atDevice w a := rfl
  simp only [State.portLoad, hf, hd]
  split
  · rfl
  · split <;> rfl

theorem State.portStore_withPort (w : Width) (a v : Word) (u s : State) :
    (State.withPort u s).portStore w a v = ((u.portStore w a v).1, .withPort (u.portStore w a v).2 s) := by
  have hf : (State.withPort u s).storeFails w a = u.storeFails w a := rfl
  have hd : (State.withPort u s).atDevice w a = u.atDevice w a := rfl
  simp only [State.portStore, hf, hd]
  split
  · rfl
  · split <;> rfl

section OutsidePort

variable {f : State → State} (hf : OutsidePort f)

include hf

theorem OutsidePort.comp {g : State → State} (hg : OutsidePort g) : OutsidePort (g ∘ f) := fun u s => by
  simp only [Function.comp, hf u s, hg u (f s)]

/-- A load before or after `f` is the same load. -/
theorem OutsidePort.portLoad (w : Width) (a : Word) (s : State) :
    (f s).portLoad w a = ((s.portLoad w a).1, f (s.portLoad w a).2) := by
  obtain ⟨log, n, hs⟩ := State.portLoad_changes w a s
  have ht : State.withPort (s.portLoad w a).2 s = (s.portLoad w a).2 := by rw [hs]; rfl
  calc (f s).portLoad w a = (State.withPort s (f s)).portLoad w a := by rw [← hf]; rfl
    _ = _ := by rw [State.portLoad_withPort, ← hf, ht]

/-- A store before or after `f` is the same store. -/
theorem OutsidePort.portStore (w : Width) (a v : Word) (s : State) :
    (f s).portStore w a v = ((s.portStore w a v).1, f (s.portStore w a v).2) := by
  obtain ⟨m, log, hs⟩ := State.portStore_changes w a v s
  have ht : State.withPort (s.portStore w a v).2 s = (s.portStore w a v).2 := by rw [hs]; rfl
  calc (f s).portStore w a v = (State.withPort s (f s)).portStore w a v := by rw [← hf]; rfl
    _ = _ := by rw [State.portStore_withPort, ← hf, ht]

end OutsidePort

theorem State.beginCall_outsidePort : OutsidePort State.beginCall := fun _ _ => rfl

/-- LoadStatus touches registers, banks and the status only (R108). -/
theorem State.loadStatus_withRest (n : Word) (u s : State) :
    (State.withRest u s).loadStatus n = .withRest u (s.loadStatus n) := by
  have hc : (State.withRest u s).coerceMode n = s.coerceMode n := rfl
  have hb : (State.withRest u s).bank = s.bank := rfl
  have hs : (State.withRest u s).saveBank = .withRest u s.saveBank := by
    simp only [State.saveBank, hb]
    cases s.bank <;> rfl
  simp only [State.loadStatus, State.switchBank, hc, hb, hs]
  cases bankOf (s.coerceMode n) with
  | none => rfl
  | some b =>
    dsimp only
    split_ifs <;> rfl

theorem State.loadStatus_outsidePort (n : Word) : OutsidePort (State.loadStatus n) := fun u s => by
  rw [State.withPort, State.loadStatus_withRest, State.withPort, State.loadStatus_branched]

theorem State.loadStatus_beginCall (n : Word) (s : State) :
    s.beginCall.loadStatus n = (s.loadStatus n).beginCall := by
  have h : s.beginCall = .withRest s.beginCall s := rfl
  rw [h, State.loadStatus_withRest]
  simp [State.withRest, State.beginCall]

/-- An exception entry sets `branched` whatever it was (R901). -/
theorem State.raiseDataAbort_beginCall (s : State) : s.beginCall.raiseDataAbort = s.raiseDataAbort := by
  have hc : s.beginCall.cpsr = s.cpsr := rfl
  simp only [State.raiseDataAbort, State.enter, hc, State.loadStatus_beginCall]
  rfl

theorem PortFrame.instrWidth {s t : State} (h : PortFrame s t) : t.instrWidth = s.instrWidth := by
  rw [State.instrWidth, h.thumb]
  rfl

theorem State.portLoad_align_frame {w : Width} {a : Word} {s t : State} {r : Option Word}
    (h : s.portLoad w (w.align a) = (r, t)) : PortFrame s t := by
  have hf := State.portLoad_frame w (w.align a) s (Width.align_mod w a)
  rwa [h] at hf

theorem State.portStore_align_frame {w : Width} {a v : Word} {s t : State} {r : Bool}
    (h : s.portStore w (w.align a) v = (r, t)) : PortFrame s t := by
  have hf := State.portStore_frame w (w.align a) v s (Width.align_mod w a)
  rwa [h] at hf

/-! ## The accesses of the rules -/

/-- What MemRead makes of the value the port answers: a word is rotated (R203). -/
def Width.rotation : Width → Word → Word → Word
  | .word, a => rotated a
  | _, _ => id

theorem State.memRead_eq_portLoad (w : Width) (a : Word) (s : State) : s.memRead w a =
    ((s.portLoad w (w.align a)).1.map (w.rotation a), (s.portLoad w (w.align a)).2) := by
  cases w with
  | byte | half => exact Prod.ext (Option.map_id_apply).symm rfl
  | word =>
    have hr : (fun v : Word => v.rotateRight (8 * (field a 0 2).toNat)) = rotated a := by
      funext v
      simp [rotated, field]
    simp only [State.memRead, hr]
    rfl

/-! ## The ends of a transfer (R566) -/

section Ends

variable (wback : Bool) (rn : Reg) (addr newb : Word)

theorem State.endAccess_beginCall {w : Word} {t : State} (h : t.instrWidth = w) :
    t.beginCall.endAccess ⟨addr, newb, wback⟩ rn = transferEnd w wback rn newb t := by
  have ha : t.beginCall.advance = advanced w t := by rw [← h]; rfl
  rw [State.endAccess, State.writeReg_eq_put, ha]
  rfl

theorem State.abortAccess_beginCall (t : State) :
    t.beginCall.abortAccess ⟨addr, newb, wback⟩ rn = aborted wback rn newb t := by
  have hx : t.beginCall.setX rn newb = (t.setX rn newb).beginCall := rfl
  rw [State.abortAccess, hx, State.raiseDataAbort_beginCall, State.raiseDataAbort_beginCall]
  rfl

section Calls

variable {wback rn addr newb} {i : Instr} {w : Word} {wd : Width} {s : State} (hw : s.instrWidth = w)

include hw

/-- The load of a rule, in ARM or in Thumb state (R553). -/
theorem loads_of_singleLoad {rd : Reg} {fix : Word → Word}
    (hrun : exec i s = singleLoad wd ⟨addr, newb, wback⟩ rn rd fix s.beginCall) :
    Loads i w wd addr wback rn newb rd (fix ∘ wd.rotation addr) s := by
  rw [singleLoad, State.memRead_eq_portLoad, State.beginCall_outsidePort.portLoad] at hrun
  refine ⟨fun v t h => ?_, fun t h => ?_⟩ <;> rw [h] at hrun
  · have ht : t.instrWidth = w := (State.portLoad_align_frame h).instrWidth.trans hw
    rw [← State.endAccess_beginCall wback rn addr newb ht, ← State.writeReg_eq_put]
    exact hrun
  · rw [← State.abortAccess_beginCall wback rn addr newb]
    exact hrun

/-- The store of a rule, in ARM or in Thumb state (R555). -/
theorem stores_of_singleStore {v : Word}
    (hrun : exec i s = singleStore wd ⟨addr, newb, wback⟩ rn v s.beginCall) :
    Stores i w wd addr wback rn newb v s := by
  rw [singleStore, State.memWrite, State.beginCall_outsidePort.portStore] at hrun
  refine ⟨fun t h => ?_, fun t h => ?_⟩ <;> rw [h] at hrun
  · have ht : t.instrWidth = w := (State.portStore_align_frame h).instrWidth.trans hw
    rw [← State.endAccess_beginCall wback rn addr newb ht]
    exact hrun
  · rw [← State.abortAccess_beginCall wback rn addr newb]
    exact hrun

end Calls

end Ends

/-! ## The values of the rules -/

theorem State.storedReg_eq_storeRead (s : State) (r : Reg) : s.storedReg r = storeRead s r := by
  rw [State.storedReg, State.storedPc, storeRead]
  cases s.params.pcStoreOffset <;> rfl

theorem isOdd_eq_bit (a : Word) : isOdd a = bit a 0 := by
  rw [isOdd, bit, BitVec.getLsbD, Nat.testBit_zero]

theorem halfRead_eq_loadedHalf (s : State) (a : Word) : halfRead s a = loadedHalf s.params.halfwordMisaligned a := by
  funext h
  rw [halfRead, loadedHalf, ← isOdd_eq_bit]
  simp [isOdd]

theorem signedHalfRead_eq_loadedSignedHalf (s : State) (a : Word) :
    signedHalfRead s a = loadedSignedHalf s.params.halfwordMisaligned a := by
  funext h
  rw [signedHalfRead, loadedSignedHalf, ← isOdd_eq_bit]
  simp [isOdd, field]

/-! ## ARM calls -/

theorem State.instrWidth_of_ready {c : Cond} {s : State} (h : ArmReady c s) : s.instrWidth = 4 :=
  if_neg (ne_true_of_eq_false h.1)

/-- An ARM call that makes its checks and then ends in `go`, as the statements say it. -/
theorem guarded_of_armCall {i : Instr} {c : Cond} {cs : Checks} {s : State} {rule : State → Result} {go : Result}
    {run : Prop} (hs : ArmReady c s) (hrun : exec i s = go → run) (hcall : exec i s = armCall c s rule)
    (hrule : rule s.beginCall = s.guards cs go) : Guarded i cs s run := by
  have hexec : exec i s = s.guards cs go := (hcall.trans (armCall_of_ready rule hs)).trans hrule
  obtain ⟨hclear, hstop⟩ := guarded_of_guards hexec
  exact ⟨fun hc => hrun (hclear hc), hstop⟩

section Ready

variable {i : Instr} {c : Cond} {cs : Checks} {wd : Width} {wback : Bool} {rn : Reg} {addr newb : Word} {s : State}
  {rule : State → Result} (hs : ArmReady c s)

include hs

/-- An ARM call that makes its checks, then a load. -/
theorem guarded_loads {rd : Reg} (fix : Word → Word) (hcall : exec i s = armCall c s rule)
    (hrule : rule s.beginCall = s.guards cs (singleLoad wd ⟨addr, newb, wback⟩ rn rd fix s.beginCall)) :
    Guarded i cs s (Loads i 4 wd addr wback rn newb rd (fix ∘ wd.rotation addr) s) :=
  guarded_of_armCall hs (loads_of_singleLoad (State.instrWidth_of_ready hs)) hcall hrule

/-- An ARM call that makes its checks, then a store. -/
theorem guarded_stores {v : Word} (hcall : exec i s = armCall c s rule)
    (hrule : rule s.beginCall = s.guards cs (singleStore wd ⟨addr, newb, wback⟩ rn v s.beginCall)) :
    Guarded i cs s (Stores i 4 wd addr wback rn newb v s) :=
  guarded_of_armCall hs (stores_of_singleStore (State.instrWidth_of_ready hs)) hcall hrule

end Ready

/-! ## The rules of the forms (R550 to R552, R561) -/

/-- The rule of a transfer with the offset `off` in the instruction's state: the checks `call`, which are told by
`more` whether the register of the offset is R15, then the access. -/
def indexedRule (call : Bool → Indexing → Reg → Reg → State → Result → Result) (access : Indexing → State → Result)
    (p u w : Bool) (rn rd : Reg) (more : Bool) (off : State → Word) (s : State) : Result :=
  let ix := indexing p u w (s.reg rn) (off s)
  call more ix rn rd s (access ix s)

section Forms

variable {c : Cond} {p u w : Bool} {rn rd : Reg} {s : State} {rule : Bool → (State → Word) → State → Result}

theorem offsetForm_eq_armCall {f : Cond → Bool → Bool → Bool → Reg → Reg → BitVec 12 → Instr}
    {g : Cond → Bool → Bool → Bool → Reg → Reg → BitVec 5 → Shift → Reg → Instr} (o : Offset)
    (himm : ∀ n, exec (f c p u w rn rd n) s = armCall c s (rule false fun _ => n.setWidth 32))
    (hreg : ∀ n sh rm, exec (g c p u w rn rd n sh rm) s = armCall c s (rule (rm == 15) (·.regOffset n sh rm))) :
    exec (offsetForm f g c p u w rn rd o) s = armCall c s (rule o.isPc o.value) := by
  cases o with
  | imm n => exact (himm n).trans (by rw [← funext (Offset.value_imm n)]; rfl)
  | reg n sh rm => exact hreg n sh rm

theorem halfForm_eq_armCall {f : Cond → Bool → Bool → Bool → Reg → Reg → BitVec 4 → BitVec 4 → Instr}
    {g : Cond → Bool → Bool → Bool → Reg → Reg → Reg → Instr} (o : HalfOffset)
    (himm : ∀ high low, exec (f c p u w rn rd high low) s = armCall c s (rule false fun _ => halfOffset high low))
    (hreg : ∀ rm, exec (g c p u w rn rd rm) s = armCall c s (rule (rm == 15) (·.reg rm))) :
    exec (halfForm f g c p u w rn rd o) s = armCall c s (rule o.isPc o.value) := by
  cases o with
  | imm high low => exact (himm high low).trans (by rw [← funext (HalfOffset.value_imm high low)]; rfl)
  | reg rm => exact hreg rm

end Forms

/-! ## The statements -/

/-- Settles O34: in both forms of the offset the call is the checks of U9, then one load. -/
theorem armLoads : Obligations.ArmLoads := by
  unfold Obligations.ArmLoads
  intro c p u w rn rd o s hs
  constructor
  · exact guarded_loads hs id (offsetForm_eq_armCall o
      (rule := indexedRule wordCall (singleLoad .word · rn rd id) p u w rn rd) (fun _ => rfl) fun _ _ _ => rfl) rfl
  · exact guarded_loads hs id (offsetForm_eq_armCall o
      (rule := indexedRule byteCall (singleLoad .byte · rn rd id) p u w rn rd) (fun _ => rfl) fun _ _ _ => rfl) rfl

/-- Settles O35: in both forms of the offset the call is its checks, then one store of Rd. -/
theorem armStores : Obligations.ArmStores := by
  unfold Obligations.ArmStores
  intro c p u w rn rd s hs
  simp only [← State.storedReg_eq_storeRead]
  refine ⟨fun o => ⟨?_, ?_⟩, fun o => ?_⟩
  · exact guarded_stores hs (offsetForm_eq_armCall o
      (rule := indexedRule wordCall (fun ix t => singleStore .word ix rn (t.storedReg rd) t) p u w rn rd)
      (fun _ => rfl) fun _ _ _ => rfl) rfl
  · exact guarded_stores hs (offsetForm_eq_armCall o
      (rule := indexedRule byteCall (fun ix t => singleStore .byte ix rn (t.storedReg rd) t) p u w rn rd)
      (fun _ => rfl) fun _ _ _ => rfl) rfl
  · exact guarded_stores hs (halfForm_eq_armCall o
      (rule := indexedRule (halfCall p w) (fun ix t => singleStore .half ix rn (t.storedReg rd) t) p u w rn rd)
      (fun _ _ => rfl) fun _ => rfl) rfl

/-- Settles O36: in both forms of the offset the call is its checks, U15 the last, then one load. -/
theorem armHalfwordLoads : Obligations.ArmHalfwordLoads := by
  unfold Obligations.ArmHalfwordLoads
  intro c p u w rn rd o s hs
  simp only [isOdd_eq_bit, halfRead_eq_loadedHalf, signedHalfRead_eq_loadedSignedHalf]
  refine ⟨?_, ?_, ?_⟩
  · exact guarded_loads hs (loadedHalf _ _) (halfForm_eq_armCall o
      (rule := indexedRule (halfCall p w) (fun ix t => oddCall ix t
        (singleLoad .half ix rn rd (loadedHalf t.params.halfwordMisaligned ix.addr) t)) p u w rn rd)
      (fun _ _ => rfl) fun _ => rfl) rfl
  · exact guarded_loads hs loadedSignedByte (halfForm_eq_armCall o
      (rule := indexedRule (halfCall p w) (singleLoad .byte · rn rd loadedSignedByte) p u w rn rd)
      (fun _ _ => rfl) fun _ => rfl) rfl
  · exact guarded_loads hs (loadedSignedHalf _ _) (halfForm_eq_armCall o
      (rule := indexedRule (halfCall p w) (fun ix t => oddCall ix t
        (singleLoad .half ix rn rd (loadedSignedHalf t.params.halfwordMisaligned ix.addr) t)) p u w rn rd)
      (fun _ _ => rfl) fun _ => rfl) rfl

end Sys2Proof.Machine
end

section
/-! SUPPORT. The T forms: the switch to User mode around the access leaves a state that differs in the stale slots
of the live bank only, and no end of a transfer reads those (spec/43_load_store.md R557 to R560). -/

namespace Sys2Proof.Machine

open Sys2Proof.Safety

/-! ## What reads no stale slot (R107) -/

/-- `f` ends alike whatever the stale slots of the live bank hold. -/
def ReadsNoStale (f : State → State) : Prop := ∀ s, settled (f (settled s)) = settled (f s)

theorem ReadsNoStale.congr {f : State → State} (hf : ReadsNoStale f) {s t : State} (h : settled s = settled t) :
    settled (f s) = settled (f t) := by
  rw [← hf s, h, hf t]

theorem ReadsNoStale.comp {f g : State → State} (hg : ReadsNoStale g) (hf : ReadsNoStale f) :
    ReadsNoStale (g ∘ f) := fun s => hg.congr (hf s)

theorem State.settled_of_no_bank {s : State} (h : s.bank = none) : settled s = s := by
  show s.saveBank = s
  simp only [State.saveBank, h]

@[simp] theorem State.settled_cpsr (s : State) : (settled s).cpsr = s.cpsr := State.saveBank_cpsr s

@[simp] theorem State.settled_params (s : State) : (settled s).params = s.params := State.saveBank_params s

@[simp] theorem State.settled_pc (s : State) : (settled s).pc = s.pc := State.reg_saveBank 15 s

/-- An operation that leaves the bank slots out of account and stays within the bank. -/
theorem State.settled_of_within_bank {f : State → State} {s : State}
    (hbanks : ∀ b, f { s with banks := b } = { f s with banks := b }) (hbank : (f s).bank = s.bank) :
    settled (f (settled s)) = settled (f s) := by
  cases hs : s.bank with
  | none => rw [State.settled_of_no_bank hs]
  | some k =>
    have hb : (f s).banks = s.banks := (congrArg State.banks (hbanks s.banks)).trans rfl
    have hf : (f s).bank = some k := hbank.trans hs
    have hf' : State.bank { f s with banks := s.banks.set k s.liveSlots } = some k := hf
    calc settled (f (settled s))
      _ = settled { f s with banks := s.banks.set k s.liveSlots } := by
        rw [← hbanks]
        exact congrArg (settled ∘ f) (State.saveBank_eq hs)
      _ = { f s with banks := s.banks.set k (f s).liveSlots } :=
        (State.saveBank_eq hf').trans (by dsimp only; rw [Banks.set_set]; rfl)
      _ = settled (f s) := by
        rw [← hb]
        exact (State.saveBank_eq hf).symm

theorem State.setX_readsNoStale (r : Reg) (v : Word) : ReadsNoStale (State.setX r v) :=
  fun _ => State.settled_of_within_bank (fun _ => rfl) rfl

theorem State.writeReg_readsNoStale (r : Reg) (v : Word) : ReadsNoStale (State.writeReg r v) := fun s => by
  refine State.settled_of_within_bank (fun b => ?_) (congrArg bankOf (State.writeReg_cpsr r v s))
  unfold State.writeReg
  split <;> rfl

theorem State.advance_readsNoStale : ReadsNoStale State.advance :=
  fun _ => State.settled_of_within_bank (fun _ => rfl) rfl

theorem State.endAccess_readsNoStale (ix : Indexing) (rn : Reg) : ReadsNoStale (State.endAccess ix rn) := by
  unfold State.endAccess
  cases ix.wback with
  | false => exact State.advance_readsNoStale
  | true => exact (State.writeReg_readsNoStale rn ix.newb).comp State.advance_readsNoStale

/-- An exception entry saves the live registers over the stale slots, or stays in the bank (R108, R901). -/
theorem State.enter_readsNoStale (m : Mode) (v l : Word) (f : Bool) : ReadsNoStale (State.enter m v l f) :=
    fun s => by
  cases hs : s.bank with
  | none => rw [State.settled_of_no_bank hs]
  | some bo =>
    have hn : bankOf (entryStatus s.cpsr m f) = some m.bank := bankOf_entryStatus s.cpsr m f
    by_cases hb : m.bank = bo
    · rw [hb] at hn
      refine State.settled_of_within_bank (fun b => ?_) ?_
      · have hs' : State.bank { s with banks := b } = some bo := hs
        simp only [State.enter, State.loadStatus_same hn hs, State.loadStatus_same hn hs']
        rfl
      · rw [State.bank, State.cpsr_enter, hn, hs]
    · simp only [State.enter, State.settled_cpsr, State.loadStatus_settled hs hn hb]

/-- The link of an abort is computed from the pc, which the slots do not hold (R904). -/
theorem State.raiseDataAbort_readsNoStale : ReadsNoStale State.raiseDataAbort := fun s => by
  have ho : (settled s).pcOffset = s.pcOffset := by
    rw [State.pcOffset, State.thumb, State.settled_cpsr]
    rfl
  have hl : (settled s).currentAddr = s.currentAddr := by
    rw [State.currentAddr, State.settled_pc, ho]
    rfl
  rw [State.raiseDataAbort, hl]
  exact State.enter_readsNoStale .abt _ _ _ s

theorem State.abortAccess_readsNoStale (ix : Indexing) (rn : Reg) : ReadsNoStale (State.abortAccess ix rn) :=
    fun s => by
  unfold State.abortAccess
  rw [State.settled_params]
  split
  · exact (State.raiseDataAbort_readsNoStale.comp (State.setX_readsNoStale rn ix.newb)) s
  · exact State.raiseDataAbort_readsNoStale s

/-! ## User mode around an access (R557) -/

/-- The switch to User mode and back changes stale slots only (R121). -/
theorem State.settled_forceUser {s t : State} (hs : LegalMode s) (ht : t.cpsr = s.cpsr) :
    settled ((t.loadStatus (setMode s.cpsr Mode.usr.code)).loadStatus s.cpsr) = settled t := by
  have hl : LegalMode t := by rw [LegalMode, ht]; exact hs
  have hu : (bankOf (setMode t.cpsr Mode.usr.code)).isSome = true := by
    rw [bankOf, modeField_setMode, ofCode_code]
    rfl
  obtain ⟨-, -, -, -, h⟩ := modeRoundTrip t (setMode t.cpsr Mode.usr.code) hl hu
  rwa [ht] at h

/-- The switch to User mode, at the start of a call, leaves alone what the port sees. -/
theorem State.forceUser_outsidePort (n : Word) : OutsidePort fun s => s.beginCall.loadStatus n :=
  State.beginCall_outsidePort.comp (State.loadStatus_outsidePort n)

section Calls

variable {i : Instr} {wd : Width} {rn : Reg} {addr newb : Word} {s : State} (hw : s.instrWidth = 4)
  (hl : LegalMode s)

include hw hl

theorem userLoads_of_userLoad {rd : Reg}
    (hrun : exec i s = userLoad wd ⟨addr, newb, true⟩ rn rd s.beginCall) :
    UserLoads i wd addr rn newb rd (wd.rotation addr) s := by
  have hu : s.beginCall.forceUser = s.beginCall.loadStatus (setMode s.cpsr Mode.usr.code) := rfl
  rw [userLoad, State.memRead_eq_portLoad, hu, (State.forceUser_outsidePort _).portLoad] at hrun
  refine ⟨fun v t h => ?_, fun t h => ?_⟩ <;> rw [h] at hrun <;> refine ⟨_, hrun, ?_⟩
  · have ht : PortFrame s t := State.portLoad_align_frame h
    have hend : ReadsNoStale fun u => (u.endAccess ⟨addr, newb, true⟩ rn).writeReg rd (wd.rotation addr v) :=
      (State.writeReg_readsNoStale rd _).comp (State.endAccess_readsNoStale _ rn)
    rw [← State.endAccess_beginCall true rn addr newb (ht.instrWidth.trans hw), ← State.writeReg_eq_put]
    exact hend.congr (State.settled_forceUser hl ht.cpsr)
  · have ht : PortFrame s t := State.portLoad_align_frame h
    rw [← State.abortAccess_beginCall true rn addr newb]
    exact (State.abortAccess_readsNoStale _ rn).congr (State.settled_forceUser hl ht.cpsr)

theorem userStores_of_userStore {v : Word}
    (hrun : exec i s = userStore wd ⟨addr, newb, true⟩ rn v s.beginCall) :
    UserStores i wd addr rn newb v s := by
  have hu : s.beginCall.forceUser = s.beginCall.loadStatus (setMode s.cpsr Mode.usr.code) := rfl
  rw [userStore, State.memWrite, hu, (State.forceUser_outsidePort _).portStore] at hrun
  refine ⟨fun t h => ?_, fun t h => ?_⟩ <;> rw [h] at hrun <;> refine ⟨_, hrun, ?_⟩
  · have ht : PortFrame s t := State.portStore_align_frame h
    rw [← State.endAccess_beginCall true rn addr newb (ht.instrWidth.trans hw)]
    exact (State.endAccess_readsNoStale _ rn).congr (State.settled_forceUser hl ht.cpsr)
  · have ht : PortFrame s t := State.portStore_align_frame h
    rw [← State.abortAccess_beginCall true rn addr newb]
    exact (State.abortAccess_readsNoStale _ rn).congr (State.settled_forceUser hl ht.cpsr)

end Calls

/-! ## The statements -/

/-- A T form is the post-indexed form of its two constructors (R557). -/
theorem userForm_eq_offsetForm (f : Cond → Bool → Reg → Reg → BitVec 12 → Instr)
    (g : Cond → Bool → Reg → Reg → BitVec 5 → Shift → Reg → Instr) (c : Cond) (u : Bool) (rn rd : Reg) (o : Offset) :
    userForm f g c u rn rd o = offsetForm (fun c _ u _ => f c u) (fun c _ u _ => g c u) c false u true rn rd o := by
  cases o <;> rfl

/-- Settles O37: in both forms of the offset the call is the checks of U9, then one load in User mode. -/
theorem armUserLoads : Obligations.ArmUserLoads := by
  unfold Obligations.ArmUserLoads
  intro c u rn rd o s hs hl
  have hw : s.instrWidth = 4 := State.instrWidth_of_ready hs
  simp only [userForm_eq_offsetForm]
  constructor
  · exact guarded_of_armCall hs (userLoads_of_userLoad hw hl) (offsetForm_eq_armCall o
      (rule := indexedRule wordCall (userLoad .word · rn rd) false u true rn rd) (fun _ => rfl) fun _ _ _ => rfl) rfl
  · exact guarded_of_armCall hs (userLoads_of_userLoad hw hl) (offsetForm_eq_armCall o
      (rule := indexedRule byteCall (userLoad .byte · rn rd) false u true rn rd) (fun _ => rfl) fun _ _ _ => rfl) rfl

/-- Settles O38: in both forms of the offset the call is the checks of U9, then one store in User mode. -/
theorem armUserStores : Obligations.ArmUserStores := by
  unfold Obligations.ArmUserStores
  intro c u rn rd o s hs hl
  have hw : s.instrWidth = 4 := State.instrWidth_of_ready hs
  simp only [userForm_eq_offsetForm, ← State.storedReg_eq_storeRead]
  constructor
  · exact guarded_of_armCall hs (userStores_of_userStore hw hl) (offsetForm_eq_armCall o
      (rule := indexedRule wordCall (fun ix t => userStore .word ix rn (t.storedReg rd) t) false u true rn rd)
      (fun _ => rfl) fun _ _ _ => rfl) rfl
  · exact guarded_of_armCall hs (userStores_of_userStore hw hl) (offsetForm_eq_armCall o
      (rule := indexedRule byteCall (fun ix t => userStore .byte ix rn (t.storedReg rd) t) false u true rn rd)
      (fun _ => rfl) fun _ _ _ => rfl) rfl

end Sys2Proof.Machine
end

section
/-! SUPPORT. Block transfers: the layout of R600, the words of a block transfer, and what the five ARM forms and the
four Thumb forms do with them, each check and each end once; then the statements
(spec/44_block_transfer.md R600 to R608). -/

namespace Sys2Proof.Machine

open Sys2Proof.Safety

/-! ## The layout of a transfer (R600, R607) -/

theorem blockOf_of_nonempty (p u : Bool) (base : Word) {list : BitVec 16} (h : list ≠ 0) :
    blockOf p u base list =
      ⟨lowestAddr p u base (listCount list), blockBase u base (listCount list), named list⟩ := by
  simp only [blockOf, if_neg h, blockStart_eq_lowestAddr]
  rfl

/-- An empty list has R15 alone and counts as 16 registers in the address formulas (R607). -/
theorem blockOf_empty (p u : Bool) (base : Word) :
    blockOf p u base 0 = ⟨lowestAddr p u base 16, blockBase u base 16, [15]⟩ := by
  rw [← blockStart_eq_lowestAddr]
  rfl

theorem mem_named {list : BitVec 16} {r : Reg} : r ∈ named list ↔ list.getLsbD r.val = true := by
  simp [named]

theorem named_pairwise (list : BitVec 16) : (named list).Pairwise (· < ·) :=
  (List.sortedLT_finRange 16).pairwise.filter _

theorem getElem_wordAddrs_toNat {start : Word} {n k : Nat} (h : k < (wordAddrs start n).length) :
    (wordAddrs start n)[k].toNat = (start.toNat / 4 * 4 + 4 * k) % 2 ^ 32 := by
  simp [wordAddrs]

theorem wordAddrs_aligned {start a : Word} {n : Nat} (h : a ∈ wordAddrs start n) : a.toNat % 4 = 0 :=
  blockAddrs_aligned (blockAddrs_eq_wordAddrs start n ▸ h)

/-- Settles O40: the layout of a list that is not empty, the order of its registers and its word addresses. -/
theorem blockAddressing : Obligations.BlockAddressing := by
  unfold Obligations.BlockAddressing
  intro p u base list h
  rw [blockOf_of_nonempty p u base h]
  have haddrs := blockAddrs_eq_wordAddrs (lowestAddr p u base (listCount list)) (listCount list)
  refine ⟨rfl, rfl, rfl, haddrs, named_pairwise list, fun _ => mem_named, fun k hk => ?_⟩
  exact (congrArg BitVec.toNat (List.getElem_of_eq haddrs hk)).trans (getElem_wordAddrs_toNat (haddrs ▸ hk))

/-! ## The words of a block load -/

/-- No port access fails or reaches a device where no range is touched (R200). -/
theorem State.any_region_eq_false {s : State} {w : Width} {a : Word} (kinds : Region → Bool)
    (h : ∀ r ∈ s.regions, r.touches a.toNat w.bytes = false) :
    (s.regions.any fun r => kinds r && r.touches a.toNat w.bytes) = false :=
  List.any_eq_false.mpr fun r hr => by simp [h r hr]

/-- Settles O41: by induction on the addresses, each read answered from plain memory, which no read changes. -/
theorem blockWords : Obligations.BlockWords := by
  unfold Obligations.BlockWords
  intro as
  induction as with
  | nil => exact fun s _ => by simp [State.loadWords]
  | cons a as ih =>
    intro s h
    have ha : ∀ r ∈ s.regions, r.touches a.toNat Width.word.bytes = false := h a List.mem_cons_self
    have hload : s.portLoad .word a = (some (s.mem.read32 a.toNat), s.logged (.load .word a true)) :=
      State.portLoad_plain (State.any_region_eq_false _ ha) (State.any_region_eq_false _ ha)
    have hrest := ih (s.logged (.load .word a true)) fun b hb => h b (List.mem_cons_of_mem a hb)
    rw [State.loadWords, hload]
    simp only [hrest]
    simp [State.logged]

/-! ## A run of accesses and the start of a call -/

section OutsidePort

variable {f : State → State} (hf : OutsidePort f)

include hf

/-- A block load before or after `f` is the same load. -/
theorem OutsidePort.loadWords (as : List Word) (s : State) :
    (f s).loadWords as = ((s.loadWords as).1, f (s.loadWords as).2) := by
  induction as generalizing s with
  | nil => rfl
  | cons a as ih =>
    simp only [State.loadWords, hf.portLoad]
    rcases s.portLoad .word a with ⟨_ | v, t⟩
    · rfl
    · simp only [ih]
      rcases t.loadWords as with ⟨_ | vs, t'⟩ <;> rfl

/-- A block store before or after `f` is the same store. -/
theorem OutsidePort.storeWords (ws : List (Word × Word)) (s : State) :
    (f s).storeWords ws = ((s.storeWords ws).1, f (s.storeWords ws).2) := by
  induction ws generalizing s with
  | nil => rfl
  | cons p ws ih =>
    simp only [State.storeWords, hf.portStore]
    rcases s.portStore .word p.1 p.2 with ⟨_ | _, t⟩
    · rfl
    · exact ih t

end OutsidePort

/-! ## The ends of a transfer (R601, R602, R608) -/

section Ends

variable {wback : Bool} {rn : Reg} {newb : Word}

theorem State.blockBack_beginCall {w : Word} {t : State} (h : t.instrWidth = w) :
    t.beginCall.advance.blockBack wback rn newb = transferEnd w wback rn newb t :=
  State.endAccess_beginCall wback rn 0 newb h

/-- An exception entry after a register write sets `branched` whatever it was (R901). -/
theorem State.raiseDataAbort_put_beginCall (r : Reg) (v : Word) (t : State) :
    (put r v t.beginCall).raiseDataAbort = (put r v t).raiseDataAbort := by
  unfold put
  split
  · rfl
  · exact State.raiseDataAbort_beginCall (t.setX r v)

theorem State.abortBlock_beginCall (t : State) :
    t.beginCall.abortBlock wback rn newb = blockAborted wback rn newb t := by
  have hp : t.beginCall.params = t.params := rfl
  rw [State.abortBlock, blockAborted, hp, State.blockBack, State.writeReg_eq_put]
  cases wback with
  | false => simp [State.raiseDataAbort_beginCall]
  | true => simp [State.raiseDataAbort_beginCall, State.raiseDataAbort_put_beginCall]

section Calls

variable {i : Instr} {w start : Word} {regs : List Reg} {s : State} (hw : s.instrWidth = w)

include hw

/-- The block load of a rule, in ARM or in Thumb state (R601, R608). -/
theorem loadsBlock_of_blockLoad {load done : List (Reg × Word) → State → State}
    (hdone : ∀ ps t, ps.map Prod.fst = regs → load ps t = done ps t)
    (hrun : exec i s = blockLoad ⟨start, newb, regs⟩ wback rn load s.beginCall) :
    LoadsBlock i w (wordAddrs start regs.length) regs wback rn newb done s := by
  rw [blockLoad, Block.addrs, blockAddrs_eq_wordAddrs, State.beginCall_outsidePort.loadWords] at hrun
  refine ⟨fun vs t h => ?_, fun t h => ?_⟩
  · have hf : PortFrame s t := by
      have := State.loadWords_frame (as := wordAddrs start regs.length) s fun a ha => wordAddrs_aligned ha
      rwa [h] at this
    have hlen : regs.length ≤ vs.length := by
      rw [State.loadWords_length h, wordAddrs, List.length_map, List.length_range]
    rw [h] at hrun
    rw [← hdone _ _ (List.map_fst_zip hlen), ← State.blockBack_beginCall (hf.instrWidth.trans hw)]
    exact hrun
  · rw [h] at hrun
    rw [← State.abortBlock_beginCall]
    exact hrun

/-- The block store of a rule, in ARM or in Thumb state (R602, R608). -/
theorem storesBlock_of_blockStore {val : Reg → Word}
    (hrun : exec i s = blockStore ⟨start, newb, regs⟩ wback rn val s.beginCall) :
    StoresBlock i w (wordAddrs start regs.length) (regs.map val) wback rn newb s := by
  rw [blockStore, Block.addrs, blockAddrs_eq_wordAddrs, State.beginCall_outsidePort.storeWords] at hrun
  refine ⟨fun t h => ?_, fun t h => ?_⟩
  · have hf : PortFrame s t := by
      have := State.storeWords_frame (ws := (wordAddrs start regs.length).zip (regs.map val)) s
        fun p hp => wordAddrs_aligned (List.of_mem_zip hp).1
      rwa [h] at this
    rw [h] at hrun
    rw [← State.blockBack_beginCall (hf.instrWidth.trans hw)]
    exact hrun
  · rw [h] at hrun
    rw [← State.abortBlock_beginCall]
    exact hrun

end Calls

end Ends

/-! ## The values stored and the registers loaded -/

theorem State.storedUser_eq_userStoreRead (s : State) (r : Reg) : s.storedUser r = userStoreRead s r := by
  rw [State.storedUser, userStoreRead, ← State.storedReg_eq_storeRead]
  rfl

theorem loadLive_eq_putAll (ps : List (Reg × Word)) (s : State) : loadLive ps s = putAll ps s := by
  simp only [loadLive, writeEach, State.writeReg_eq_put]
  rfl

/-- In a rising list R15 can only be the last register, so the word found for it is the last one (R600). -/
theorem loadedPc_eq_getLast {ps : List (Reg × Word)} (hsorted : (ps.map Prod.fst).Pairwise (· < ·))
    (hpc : 15 ∈ ps.map Prod.fst) : loadedPc ps = (ps.getLast?.map Prod.snd).getD 0 := by
  induction ps with
  | nil => simp at hpc
  | cons p ps ih =>
    rw [List.map_cons, List.pairwise_cons] at hsorted
    obtain ⟨hlow, hsorted⟩ := hsorted
    by_cases h : p.1 = 15
    · have hnil : ps.map Prod.fst = [] := by
        refine List.eq_nil_iff_forall_not_mem.mpr fun r hr => ?_
        have : (15 : Reg) < r := h ▸ hlow r hr
        exact (Fin.le_last r).not_gt this
      obtain rfl : ps = [] := List.map_eq_nil_iff.mp hnil
      simp [loadedPc, h]
    · have hmem : 15 ∈ ps.map Prod.fst := (List.mem_cons.mp hpc).resolve_left (Ne.symm h)
      have hne : ps ≠ [] := by
        rintro rfl
        cases hmem
      have hskip : loadedPc (p :: ps) = loadedPc ps := by simp [loadedPc, h]
      rw [hskip, ih hsorted hmem, List.getLast?_cons_of_ne_nil hne]

theorem loadRestore_eq_putRestore {ps : List (Reg × Word)} (hsorted : (ps.map Prod.fst).Pairwise (· < ·))
    (hpc : 15 ∈ ps.map Prod.fst) (s : State) : loadRestore ps s = putRestore ps s := by
  have hothers : notPc ps = ps.filter fun p => p.1 ≠ 15 := by simp [notPc, bne, beq_eq_decide]
  rw [loadRestore, putRestore, State.writePC_eq_jumped, loadedPc_eq_getLast hsorted hpc, ← hothers,
    loadLive_eq_putAll]
  cases s.params.ldmSPcBank <;> rfl

/-! ## The checks -/

/-- An empty list stops a block transfer with EMPTY_RLIST = fault only (R607). -/
theorem State.emptyCheck_of_passes {s : State} {list : BitVec 16} (go : Result)
    (h : list ≠ 0 ∨ s.params.emptyRlist = .arm7tdmi) : s.emptyCheck list go = go := by
  refine if_neg fun ⟨hempty, hfault⟩ => ?_
  rcases h with h | h
  · exact h hempty
  · cases hfault.symm.trans h

theorem State.emptyCheck_of_fault {s : State} (go : Result) (h : s.params.emptyRlist = .fault) :
    s.emptyCheck 0 go = .fault .emptyRegisterList := by
  simp [State.emptyCheck, h]

theorem baseNotLowest_eq (list : BitVec 16) (r : Reg) :
    baseNotLowest list r = (list.getLsbD r.val && decide ((named list).head? ≠ some r)) := by
  rw [baseNotLowest, bne, beq_eq_decide, decide_not]
  rfl

theorem inList_empty (r : Reg) : inList 0 r = false := BitVec.getLsbD_zero

theorem baseNotLowest_empty (r : Reg) : baseNotLowest 0 r = false := by
  rw [baseNotLowest, inList_empty, Bool.false_and]

/-- A last check that is not met may be left out. -/
theorem guarded_of_append {i : Instr} {cs : Checks} {u : UCase} {b : Bool} {s : State} {run : Prop}
    (h : Guarded i (cs ++ [(b, u)]) s run) (hb : b = false) : Guarded i cs s run := by
  obtain ⟨hrun, hstop⟩ := h
  refine ⟨fun hc => hrun (hc.imp_right fun hc k hk => ?_), fun v hv => hstop v ⟨hv.1, ?_⟩⟩
  · rcases List.mem_append.mp hk with hk | hk
    · exact hc k hk
    · exact List.mem_singleton.mp hk ▸ hb
  · obtain ⟨k, hk, hkv⟩ := Option.map_eq_some_iff.mp hv.2
    simp [List.find?_append, hk, hkv]

/-- With no check left the instruction runs. -/
theorem run_of_guarded_nil {i : Instr} {s : State} {run : Prop} (h : Guarded i [] s run) : run :=
  h.1 (.inr (List.forall_mem_nil _))

section Guarded

variable {i : Instr} {cs : Checks} {p u wback : Bool} {rn : Reg} {base w start newb : Word} {list : BitVec 16}
  {regs : List Reg} {s : State} (hw : s.instrWidth = w) (hlist : list ≠ 0 ∨ s.params.emptyRlist = .arm7tdmi)
  (hb : blockOf p u base list = ⟨start, newb, regs⟩)

include hw hlist hb

/-- A call that makes its checks, then a block load. -/
theorem guarded_loadsBlock {load done : List (Reg × Word) → State → State}
    (hdone : ∀ ps t, ps.map Prod.fst = regs → load ps t = done ps t)
    (hexec : exec i s = s.emptyCheck list
      (s.guards cs (blockLoad (blockOf p u base list) wback rn load s.beginCall))) :
    Guarded i cs s (LoadsBlock i w (wordAddrs start regs.length) regs wback rn newb done s) := by
  rw [State.emptyCheck_of_passes _ hlist, hb] at hexec
  obtain ⟨hclear, hstop⟩ := guarded_of_guards hexec
  exact ⟨fun hc => loadsBlock_of_blockLoad hw hdone (hclear hc), hstop⟩

/-- A call that makes its checks, then a block store. -/
theorem guarded_storesBlock {val : Reg → Word}
    (hexec : exec i s = s.emptyCheck list
      (s.guards cs (blockStore (blockOf p u base list) wback rn val s.beginCall))) :
    Guarded i cs s (StoresBlock i w (wordAddrs start regs.length) (regs.map val) wback rn newb s) := by
  rw [State.emptyCheck_of_passes _ hlist, hb] at hexec
  obtain ⟨hclear, hstop⟩ := guarded_of_guards hexec
  exact ⟨fun hc => storesBlock_of_blockStore hw (hclear hc), hstop⟩

end Guarded

/-! ## What each form's call is -/

section ArmForms

variable {c : Cond} {s : State} (p u w : Bool) (rn : Reg) (list : BitVec 16) (hs : ArmReady c s)

include hs

theorem exec_ldm : exec (.ldm c p u w rn list) s = s.emptyCheck list
    (s.guards [(rn == 15, .u9), (w && inList list rn, .u8)]
      (blockLoad (blockOf p u (s.reg rn) list) w rn loadLive s.beginCall)) :=
  (armCall_of_ready _ hs : execLdm c p u w rn list s = _)

theorem exec_stm : exec (.stm c p u w rn list) s = s.emptyCheck list
    (s.guards [(rn == 15, .u9), (w && baseNotLowest list rn, .u7)]
      (blockStore (blockOf p u (s.reg rn) list) w rn s.storedReg s.beginCall)) :=
  (armCall_of_ready _ hs : execStm c p u w rn list s = _)

theorem exec_ldmUser : exec (.ldmUser c p u w rn list) s = s.emptyCheck list
    (s.guards [(rn == 15, .u9), (w || s.inUserBank, .u14), (w && inList list rn, .u8)]
      (blockLoad (blockOf p u (s.reg rn) list) w rn loadUser s.beginCall)) :=
  (armCall_of_ready _ hs : execLdmUser c p u w rn list s = _)

theorem exec_stmUser : exec (.stmUser c p u w rn list) s = s.emptyCheck list
    (s.guards [(rn == 15, .u9), (w || s.inUserBank, .u14), (w && baseNotLowest list rn, .u7)]
      (blockStore (blockOf p u (s.reg rn) list) w rn s.storedUser s.beginCall)) :=
  (armCall_of_ready _ hs : execStmUser c p u w rn list s = _)

theorem exec_ldmRestore : exec (.ldmRestore c p u w rn list) s = s.emptyCheck list
    (s.guards [(rn == 15, .u9), (w || s.inUserBank, .u14), (w && inList list rn, .u8),
        ((bankOf s.spsr).isNone, .u2)]
      (blockLoad (blockOf p u (s.reg rn) list) w rn loadRestore s.beginCall)) :=
  (armCall_of_ready _ hs : execLdmRestore c p u w rn list s = _)

end ArmForms

theorem thumbCall_of_ready {s : State} (rule : State → Result) (h : ThumbReady s) :
    thumbCall s rule = rule s.beginCall := if_pos h

theorem State.instrWidth_of_thumb {s : State} (h : ThumbReady s) : s.instrWidth = 2 := if_pos h

section ThumbForms

variable {s : State} (r : Bool) (rb : LowReg) (list : BitVec 8) (hs : ThumbReady s)

include hs

theorem exec_tPush : exec (.tPush r list) s = s.emptyCheck (thumbList list r 14)
    (s.guards [] (blockStore (blockOf true false (s.reg 13) (thumbList list r 14)) true 13 s.pushed s.beginCall)) :=
  (thumbCall_of_ready _ hs : execTPush r list s = _)

theorem exec_tPop : exec (.tPop r list) s = s.emptyCheck (thumbList list r 15)
    (s.guards [] (blockLoad (blockOf false true (s.reg 13) (thumbList list r 15)) true 13 loadLive s.beginCall)) :=
  (thumbCall_of_ready _ hs : execTPop r list s = _)

theorem exec_tStmia : exec (.tStmia rb list) s = s.emptyCheck (thumbList list false 0)
    (s.guards [(baseNotLowest (thumbList list false 0) rb.reg, .u7)]
      (blockStore (blockOf false true (s.reg rb.reg) (thumbList list false 0)) true rb.reg s.storedReg
        s.beginCall)) :=
  (thumbCall_of_ready _ hs : execTStmia rb list s = _)

theorem exec_tLdmia : exec (.tLdmia rb list) s = s.emptyCheck (thumbList list false 0)
    (s.guards [(inList (thumbList list false 0) rb.reg, .u8)]
      (blockLoad (blockOf false true (s.reg rb.reg) (thumbList list false 0)) true rb.reg loadLive
        s.beginCall)) :=
  (thumbCall_of_ready _ hs : execTLdmia rb list s = _)

end ThumbForms

/-! ## The statements on lists that are not empty -/

/-- Settles O42: the checks of U9 and U8, then one block load to the live registers. -/
theorem armLdm : Obligations.ArmLdm := by
  unfold Obligations.ArmLdm
  intro c p u w rn list s hs hlist
  exact guarded_loadsBlock (State.instrWidth_of_ready hs) (.inl hlist) (blockOf_of_nonempty p u _ hlist)
    (fun ps t _ => loadLive_eq_putAll ps t) (exec_ldm p u w rn list hs)

/-- Settles O43: the checks of U9 and U7, then one block store of the registers as they were. -/
theorem armStm : Obligations.ArmStm := by
  unfold Obligations.ArmStm
  intro c p u w rn list s hs hlist
  simp only [Bool.and_assoc, ← baseNotLowest_eq, ← funext (State.storedReg_eq_storeRead s)]
  exact guarded_storesBlock (State.instrWidth_of_ready hs) (.inl hlist) (blockOf_of_nonempty p u _ hlist)
    (exec_stm p u w rn list hs)

/-- Settles O44: the checks of U9, U14 and U7 or U8, then one block transfer of the User-mode registers. -/
theorem armUserBankTransfers : Obligations.ArmUserBankTransfers := by
  unfold Obligations.ArmUserBankTransfers
  intro c p u w rn list s hs hlist
  have hw := State.instrWidth_of_ready hs
  have hb := blockOf_of_nonempty p u (s.reg rn) hlist
  simp only [Bool.and_assoc, ← baseNotLowest_eq, ← funext (State.storedUser_eq_userStoreRead s)]
  constructor
  · exact guarded_storesBlock hw (.inl hlist) hb (exec_stmUser p u w rn list hs)
  · exact guarded_loadsBlock hw (.inl hlist) hb (fun _ _ _ => rfl) (exec_ldmUser p u w rn list hs)

/-- Settles O45: the checks of U9, U14, U8 and U2, then one block load whose last register is R15. -/
theorem armLdmRestore : Obligations.ArmLdmRestore := by
  unfold Obligations.ArmLdmRestore
  intro c p u w rn list s hs hpc
  have hlist : list ≠ 0 := by
    rintro rfl
    cases hpc
  refine guarded_loadsBlock (State.instrWidth_of_ready hs) (.inl hlist) (blockOf_of_nonempty p u _ hlist)
    (fun ps t hps => ?_) (exec_ldmRestore p u w rn list hs)
  exact loadRestore_eq_putRestore (hps ▸ named_pairwise list) (hps ▸ mem_named.mpr hpc) t

/-! ## Empty lists (R607) -/

section Empty

variable {s : State}

theorem armEmptyList_fault {c : Cond} (p u w : Bool) (rn : Reg) (hs : ArmReady c s)
    (he : s.params.emptyRlist = .fault) : ∀ i ∈ [Instr.ldm c p u w rn 0, .stm c p u w rn 0, .ldmUser c p u w rn 0,
      .stmUser c p u w rn 0], exec i s = .fault .emptyRegisterList := by
  have hstop := fun go => State.emptyCheck_of_fault go he
  simp only [List.forall_mem_cons]
  exact ⟨(exec_ldm p u w rn 0 hs).trans (hstop _), (exec_stm p u w rn 0 hs).trans (hstop _),
    (exec_ldmUser p u w rn 0 hs).trans (hstop _), (exec_stmUser p u w rn 0 hs).trans (hstop _),
    List.forall_mem_nil _⟩

theorem thumbEmptyList_fault (rb : LowReg) (hs : ThumbReady s) (he : s.params.emptyRlist = .fault) :
    ∀ i ∈ [Instr.tPush false 0, .tPop false 0, .tStmia rb 0, .tLdmia rb 0],
      exec i s = .fault .emptyRegisterList := by
  have hstop := fun go => State.emptyCheck_of_fault go he
  simp only [List.forall_mem_cons]
  exact ⟨(exec_tPush false 0 hs).trans (hstop _), (exec_tPop false 0 hs).trans (hstop _),
    (exec_tStmia rb 0 hs).trans (hstop _), (exec_tLdmia rb 0 hs).trans (hstop _), List.forall_mem_nil _⟩

end Empty

/-- Settles O46: with EMPTY_RLIST = fault the first check stops the call; with arm7tdmi the call is the block transfer
of R15 alone, and the empty list, which names no base, meets neither U7 nor U8. -/
theorem emptyRegisterList : Obligations.EmptyRegisterList := by
  unfold Obligations.EmptyRegisterList
  refine ⟨fun c p u w rn s hs => ⟨armEmptyList_fault p u w rn hs, fun he => ?_⟩,
    fun rb s hs => ⟨thumbEmptyList_fault rb hs, fun he => ?_⟩⟩
  · have hw := State.instrWidth_of_ready hs
    have hb := blockOf_empty p u (s.reg rn)
    have h8 : (w && inList 0 rn) = false := by rw [inList_empty, Bool.and_false]
    have h7 : (w && baseNotLowest 0 rn) = false := by rw [baseNotLowest_empty, Bool.and_false]
    rw [← State.storedReg_eq_storeRead]
    refine ⟨?_, ?_, ?_, ?_⟩
    · exact guarded_of_append (guarded_loadsBlock hw (.inr he) hb (fun ps t _ => loadLive_eq_putAll ps t)
        (exec_ldm p u w rn 0 hs)) h8
    · exact guarded_of_append (guarded_storesBlock hw (.inr he) hb (exec_stm p u w rn 0 hs)) h7
    · exact guarded_of_append (guarded_loadsBlock hw (.inr he) hb (fun _ _ _ => rfl)
        (exec_ldmUser p u w rn 0 hs)) h8
    · exact guarded_of_append (guarded_storesBlock hw (.inr he) hb (val := s.storedUser)
        (exec_stmUser p u w rn 0 hs)) h7
  · have hw := State.instrWidth_of_thumb hs
    have hdown : blockOf true false (s.reg 13) 0 = ⟨s.reg 13 - 0x40, s.reg 13 - 0x40, [15]⟩ := blockOf_empty _ _ _
    have hup (r : Reg) : blockOf false true (s.reg r) 0 = ⟨s.reg r, s.reg r + 0x40, [15]⟩ := blockOf_empty _ _ _
    rw [← State.storedReg_eq_storeRead]
    refine ⟨?_, ?_, ?_, ?_⟩
    · exact run_of_guarded_nil (guarded_storesBlock hw (.inr he) hdown (val := s.pushed)
        (exec_tPush false 0 hs))
    · exact run_of_guarded_nil (guarded_loadsBlock hw (.inr he) (hup _)
        (fun ps t _ => loadLive_eq_putAll ps t) (exec_tPop false 0 hs))
    · exact run_of_guarded_nil (guarded_of_append (guarded_storesBlock hw (.inr he) (hup _)
        (exec_tStmia rb 0 hs)) (baseNotLowest_empty _))
    · exact run_of_guarded_nil (guarded_of_append (guarded_loadsBlock hw (.inr he) (hup _)
        (fun ps t _ => loadLive_eq_putAll ps t) (exec_tLdmia rb 0 hs)) (inList_empty _))

end Sys2Proof.Machine
end

section
/-! SUPPORT. The ARM multiplies: their flags, products and accumulator in exact arithmetic, and the two ends of a
rule (spec/45_multiply.md R650 to R655). -/

namespace Sys2Proof.Machine

open Sys2Proof.Safety

/-! ## The flags of a multiply -/

/-- N and Z written: C and V stay (R650). -/
theorem setNZBits_eq_withFlags (st : Word) (n z : Bool) :
    setBit (setBit st 31 n) 30 z = withFlags st n z (cBit st) (vBit st) := by
  refine eq_withFlags ?_ ?_ ?_ ?_ fun j hj => ?_
  all_goals simp [nBit, zBit, cBit, vBit, bit_setBit_same, bit_setBit_ne, bit_setBit_below, *]

/-- N, Z and C written: V stays (R650, U12). -/
theorem setC_setNZBits_eq_withFlags (st : Word) (n z c : Bool) :
    setC (setBit (setBit st 31 n) 30 z) c = withFlags st n z c (vBit st) := by
  refine eq_withFlags ?_ ?_ ?_ ?_ fun j hj => ?_
  all_goals simp [nBit, zBit, cBit, vBit, setC, bit_setBit_same, bit_setBit_ne, bit_setBit_below, *]

/-- N and Z written, then C as MUL_CARRY says, for a result of either width. -/
theorem State.mulCarry_setNZBits_eq_mulFlags (n z : Bool) (s : State) :
    (withStatus (setBit (setBit s.cpsr 31 n) 30 z) s).mulCarry = mulFlags n z s := by
  have hp : (withStatus (setBit (setBit s.cpsr 31 n) 30 z) s).params = s.params := rfl
  rw [State.mulCarry, mulFlags, hp]
  cases s.params.mulCarry with
  | unchanged => exact congrArg (withStatus · s) (setNZBits_eq_withFlags s.cpsr n z)
  | draw =>
    exact congrArg (fun st => { withStatus st s with freeCount := s.freeCount + 1 })
      (setC_setNZBits_eq_withFlags s.cpsr n z _)

theorem State.setFlagsMul_eq_mulFlags (r : Word) (s : State) : s.setFlagsMul r = mulFlags r.msb (r == 0) s := by
  rw [← State.mulCarry_setNZBits_eq_mulFlags, BitVec.msb_eq_getLsbD_last]
  rfl

theorem State.setFlagsMulLong_eq_mulFlags (r : BitVec 64) (s : State) :
    s.setFlagsMulLong r = mulFlags r.msb (r == 0) s := by
  rw [← State.mulCarry_setNZBits_eq_mulFlags, BitVec.msb_eq_getLsbD_last]
  rfl

/-! ## The ends of a rule -/

theorem mulWrite_beginCall (sf : Bool) (rd : Reg) (r : Word) {s : State} (ht : s.thumb = false) :
    mulWrite sf rd r s.beginCall = .next (mulEnd 4 sf rd r s) := by
  rw [mulWrite, State.advance_beginCall ht, State.writeReg_eq_put, State.setFlagsMul_eq_mulFlags]
  rfl

theorem mulLongWrite_beginCall (sf : Bool) (hi lo : Reg) (r : BitVec 64) {s : State} (ht : s.thumb = false) :
    mulLongWrite sf hi lo r s.beginCall = .next (mulLongEnd sf hi lo r s) := by
  rw [mulLongWrite, State.advance_beginCall ht, State.writeReg_eq_put, State.writeReg_eq_put,
    State.setFlagsMulLong_eq_mulFlags]
  rfl

/-! ## The checks of U11 -/

theorem mulOverlap_eq (rd rm : Reg) (regs : List Reg) :
    (rd == rm || namesPc regs) = decide (rd = rm ∨ 15 ∈ regs) := by
  rw [namesPc_eq_decide_mem, beq_eq_decide, Bool.decide_or]

theorem mulLongOverlap_eq_longOverlap (hi lo rs rm : Reg) : mulLongOverlap hi lo rs rm = longOverlap hi lo rs rm := by
  simp only [mulLongOverlap, longOverlap, namesPc_eq_decide_mem, beq_eq_decide, Bool.decide_or, Bool.or_assoc]

/-! ## Products and accumulator -/

/-- The low bits of the exact product (R650). -/
theorem mul_eq_ofNat {n : Nat} (a b : BitVec n) : a * b = BitVec.ofNat n (a.toNat * b.toNat) := by
  rw [BitVec.ofNat_mul, BitVec.ofNat_toNat, BitVec.ofNat_toNat, BitVec.setWidth_eq, BitVec.setWidth_eq]

theorem mul_add_eq_ofNat {n : Nat} (a b c : BitVec n) :
    a * b + c = BitVec.ofNat n (a.toNat * b.toNat + c.toNat) := by
  rw [BitVec.ofNat_add, ← mul_eq_ofNat, BitVec.ofNat_toNat, BitVec.setWidth_eq]

theorem mulUnsigned_eq_ofNat (a b : Word) : mulUnsigned a b = BitVec.ofNat 64 (a.toNat * b.toNat) := by
  rw [BitVec.ofNat_mul, BitVec.ofNat_toNat, BitVec.ofNat_toNat]
  rfl

theorem mulSigned_eq_ofInt (a b : Word) : mulSigned a b = BitVec.ofInt 64 (a.toInt * b.toInt) :=
  (BitVec.ofInt_mul ..).symm

/-- RdHi above RdLo is the number RdHi * 2^32 + RdLo (R653). -/
theorem State.accumulator_eq_ofNat (s : State) (hi lo : Reg) :
    s.accumulator hi lo = BitVec.ofNat 64 (accumulated s hi lo) := by
  apply BitVec.eq_of_toNat_eq
  rw [State.accumulator, BitVec.toNat_append, ← Nat.shiftLeft_add_eq_or_of_lt (s.reg lo).isLt, Nat.shiftLeft_eq,
    BitVec.toNat_ofNat, accumulated, Nat.mod_eq_of_lt]
  omega

/-! ## The statements -/

section Ready

variable {i : Instr} {s : State} (ht : s.thumb = false)

include ht

/-- A call that checks U11, then ends as MUL and MLA do. -/
theorem guarded_mulEnd {rd rm : Reg} {regs : List Reg} {sf : Bool} {r : Word}
    (hexec : exec i s = s.guard (rd == rm || namesPc regs) .u11 (mulWrite sf rd r s.beginCall)) :
    Guarded i [(decide (rd = rm ∨ 15 ∈ regs), .u11)] s (exec i s = .next (mulEnd 4 sf rd r s)) := by
  rw [mulOverlap_eq, mulWrite_beginCall _ _ _ ht] at hexec
  exact guarded_of_guards hexec

/-- A call that checks U11, then ends as the long forms do. -/
theorem guarded_mulLongEnd {hi lo rs rm : Reg} {sf : Bool} {r : BitVec 64}
    (hexec : exec i s = s.guard (mulLongOverlap hi lo rs rm) .u11 (mulLongWrite sf hi lo r s.beginCall)) :
    Guarded i [(longOverlap hi lo rs rm, .u11)] s (exec i s = .next (mulLongEnd sf hi lo r s)) := by
  rw [mulLongOverlap_eq_longOverlap, mulLongWrite_beginCall _ _ _ _ ht] at hexec
  exact guarded_of_guards hexec

end Ready

/-- Settles O32: the product of words is the exact one narrowed, and the call checks U11, then writes Rd. -/
theorem armMultiply : Obligations.ArmMultiply := by
  unfold Obligations.ArmMultiply
  intro c sf rd rn rs rm s hs
  rw [← mul_eq_ofNat, ← mul_add_eq_ofNat]
  constructor
  · exact guarded_mulEnd hs.1 (armCall_of_ready _ hs : execMul c sf rd rn rs rm s = _)
  · exact guarded_mulEnd hs.1 (armCall_of_ready _ hs : execMla c sf rd rn rs rm s = _)

/-- Settles O33: the 64-bit product is the exact one, signed or not, and the accumulator is added to it exactly. -/
theorem armMultiplyLong : Obligations.ArmMultiplyLong := by
  unfold Obligations.ArmMultiplyLong
  intro c sf hi lo rs rm s hs
  simp only [List.forall_mem_cons, List.not_mem_nil, false_imp_iff, implies_true, and_true]
  refine ⟨?umull, ?umlal, ?smull, ?smlal⟩
  case umull =>
    rw [← mulUnsigned_eq_ofNat]
    exact guarded_mulLongEnd hs.1 (armCall_of_ready _ hs : execUmull c sf hi lo rs rm s = _)
  case umlal =>
    rw [BitVec.ofNat_add, ← mulUnsigned_eq_ofNat, ← State.accumulator_eq_ofNat]
    exact guarded_mulLongEnd hs.1 (armCall_of_ready _ hs : execUmlal c sf hi lo rs rm s = _)
  case smull =>
    rw [← mulSigned_eq_ofInt]
    exact guarded_mulLongEnd hs.1 (armCall_of_ready _ hs : execSmull c sf hi lo rs rm s = _)
  case smlal =>
    rw [BitVec.ofInt_add, BitVec.ofInt_natCast, ← mulSigned_eq_ofInt, ← State.accumulator_eq_ofNat]
    exact guarded_mulLongEnd hs.1 (armCall_of_ready _ hs : execSmlal c sf hi lo rs rm s = _)

end Sys2Proof.Machine
end

section
/-! SUPPORT. The ARM single data swap: how it ends for each answer of its two accesses, and what those answers are
in the port's words (spec/46_swap.md R700, R701). -/

namespace Sys2Proof.Machine

open Sys2Proof.Safety

/-! ## The ends of a swap (R700) -/

section Ends

variable {w : Width} {a src : Word} {s t t' : State} (rd : Reg)

theorem swap_of_failed_read (hread : s.memRead w a = (none, t)) : swap w a src rd s = .next t.raiseDataAbort := by
  rw [swap, hread]

variable {v : Word} (hread : s.memRead w a = (some v, t))

include hread

theorem swap_of_failed_write (hwrite : t.memWrite w a src = (false, t')) :
    swap w a src rd s = .next t'.raiseDataAbort := by
  simp only [swap, hread, hwrite]

theorem swap_of_accesses (hwrite : t.memWrite w a src = (true, t')) :
    swap w a src rd s = .next (t'.advance.writeReg rd v) := by
  simp only [swap, hread, hwrite]

end Ends

/-! ## The accesses of a call -/

theorem State.memRead_beginCall {w : Width} {a : Word} {s t : State} {r : Option Word}
    (h : s.portLoad w (w.align a) = (r, t)) : s.beginCall.memRead w a = (r.map (w.rotation a), t.beginCall) := by
  rw [State.memRead_eq_portLoad, State.beginCall_outsidePort.portLoad, h]

theorem State.memWrite_beginCall {w : Width} {a v : Word} {s t : State} {r : Bool}
    (h : s.portStore w (w.align a) v = (r, t)) : s.beginCall.memWrite w a v = (r, t.beginCall) := by
  rw [State.memWrite, State.beginCall_outsidePort.portStore, h]

/-- Neither access of a call leaves ARM state. -/
theorem State.thumb_of_swap_accesses {w : Width} {a src : Word} {s t t' : State} {rl : Option Word} {rs : Bool}
    (ht : s.thumb = false) (hload : s.portLoad w (w.align a) = (rl, t))
    (hstore : t.portStore w (w.align a) src = (rs, t')) : t'.thumb = false :=
  (State.portStore_align_frame hstore).thumb.trans ((State.portLoad_align_frame hload).thumb.trans ht)

/-! ## The statement -/

/-- The swap of a rule in ARM state, as the statements say it (R700, R701). -/
theorem swaps_of_swap {i : Instr} {w : Width} {a src : Word} {rd : Reg} {s : State} (ht : s.thumb = false)
    (hrun : exec i s = swap w a src rd s.beginCall) : Swaps i w a src rd (w.rotation a) s := by
  refine ⟨fun v t t' hload hstore => ?done, fun t hload => ?readFails, fun v t t' hload hstore => ?writeFails⟩
  case done =>
    rw [hrun, swap_of_accesses rd (State.memRead_beginCall hload) (State.memWrite_beginCall hstore),
      State.advance_beginCall (State.thumb_of_swap_accesses ht hload hstore), State.writeReg_eq_put]
  case readFails =>
    rw [hrun, swap_of_failed_read rd (State.memRead_beginCall hload), State.raiseDataAbort_beginCall]
  case writeFails =>
    rw [hrun, swap_of_failed_write rd (State.memRead_beginCall hload) (State.memWrite_beginCall hstore),
      State.raiseDataAbort_beginCall]

/-- The check of U13 (R700). -/
theorem swapOverlap_eq (rn rd rm : Reg) :
    swapOverlap rn rd rm = decide (15 ∈ [rn, rd, rm] ∨ rn = rd ∨ rn = rm) := by
  simp only [swapOverlap, beq_eq_decide, ← Bool.decide_or]
  simp [eq_comm, or_assoc]

/-- Settles O39: the call is the check of U13, then one swap; a word read is rotated, a byte read is as it is. -/
theorem armSwaps : Obligations.ArmSwaps := by
  unfold Obligations.ArmSwaps
  intro c rn rd rm s hs
  rw [← swapOverlap_eq]
  constructor
  · exact guarded_of_armCall hs (swaps_of_swap hs.1) (rfl : _ = execSwp c rn rd rm s) rfl
  · exact guarded_of_armCall hs (swaps_of_swap hs.1) (rfl : _ = execSwpb c rn rd rm s) rfl

end Sys2Proof.Machine
end

section
/-! SUPPORT. From User mode every instruction ends in User mode or in an exception that it entered
(spec/60_exceptions.md R931). -/

namespace Sys2Proof.Machine

open Sys2Proof.Safety

/-! ## Ends of a call beside those of `Laws/Frames` -/

theorem raiseUndefined_user (s : State) : StaysUser s (.next s.raiseUndefined) :=
  .of_entry (e := (.und, 0x04)) (by simp [instrEntries]) _ rfl

theorem raiseSwi_user (s : State) : StaysUser s (.next s.raiseSwi) :=
  .of_entry (e := (.svc, 0x08)) (by simp [instrEntries]) _ rfl

theorem condBranch_user (b : Bool) (target : Word) (s : State) :
    StaysUser s (.next (if b then s.writePC target else s.advance)) := by
  refine .of_next ?_
  split <;> rfl

/-- The forms on the User bank's registers and the status restore are U14 in User mode (R603 to R605). -/
theorem StaysUser.of_u14 {s : State} (w : Bool) (r : Result) : StaysUser s (s.guard (w || s.inUserBank) .u14 r) :=
  .of_stop _ _ fun hu => by rw [State.inUserBank_of_usr hu, Bool.or_true]

/-! ## The meanings -/

/-- Every instruction: it keeps the mode field of the status, or raises an exception, or brings in a status that
User mode keeps in User mode (BX, MSR), or meets a check that User mode always meets (the uses of the saved
status). -/
theorem exec_user (i : Instr) (s : State) : StaysUser s (exec i s) := by
  cases i with dsimp only [exec]
  | andShiftImm | eorShiftImm | subShiftImm | rsbShiftImm | addShiftImm | adcShiftImm | sbcShiftImm
  | rscShiftImm | orrShiftImm | movShiftImm | bicShiftImm | mvnShiftImm
  | andImm | eorImm | subImm | rsbImm | addImm | adcImm | sbcImm | rscImm | orrImm | movImm | bicImm
  | mvnImm => exact .of_armCall _ (dpWrite_user _ _ _ _)
  | andShiftReg | eorShiftReg | subShiftReg | rsbShiftReg | addShiftReg | adcShiftReg | sbcShiftReg
  | rscShiftReg | orrShiftReg | movShiftReg | bicShiftReg | mvnShiftReg =>
    exact .of_armCall _ (.of_guard _ _ (dpWrite_user _ _ _ _))
  | tstShiftImm | teqShiftImm | cmpShiftImm | cmnShiftImm | tstImm | teqImm | cmpImm | cmnImm =>
    exact .of_armCall _ (dpCompare_user _ _ _)
  | tstShiftReg | teqShiftReg | cmpShiftReg | cmnShiftReg =>
    exact .of_armCall _ (.of_guard _ _ (dpCompare_user _ _ _))
  | mul | mla => exact .of_armCall _ (.of_guard _ _ (mulWrite_user _ _ _ _))
  | umull | umlal | smull | smlal => exact .of_armCall _ (.of_guard _ _ (mulLongWrite_user _ _ _ _ _))
  | swp | swpb => exact .of_armCall _ (.of_guard _ _ (swap_user _ _ _ _ _))
  | strImm | strReg | strbImm | strbReg =>
    exact .of_armCall _ (.of_guard _ _ (singleStore_user _ _ _ _ _))
  | ldrImm | ldrReg | ldrbImm | ldrbReg =>
    exact .of_armCall _ (.of_guard _ _ (singleLoad_user _ _ _ _ _ _))
  | strtImm | strtReg | strbtImm | strbtReg => exact .of_armCall _ (.of_guard _ _ (userStore_user _ _ _ _ _))
  | ldrtImm | ldrtReg | ldrbtImm | ldrbtReg => exact .of_armCall _ (.of_guard _ _ (userLoad_user _ _ _ _ _))
  | strhReg | strhImm => exact .of_armCall _ (.of_guard _ _ (.of_guard _ _ (singleStore_user _ _ _ _ _)))
  | ldrsbReg | ldrsbImm => exact .of_armCall _ (.of_guard _ _ (.of_guard _ _ (singleLoad_user _ _ _ _ _ _)))
  | ldrhReg | ldrhImm | ldrshReg | ldrshImm =>
    exact .of_armCall _ (.of_guard _ _ (.of_guard _ _ (.of_guard _ _ (singleLoad_user _ _ _ _ _ _))))
  | ldm =>
    exact .of_armCall _ (.of_emptyCheck _ (.of_guard _ _ (.of_guard _ _ (blockLoad_user _ _ _ loadLive_cpsr _))))
  | stm => exact .of_armCall _ (.of_emptyCheck _ (.of_guard _ _ (.of_guard _ _ (blockStore_user _ _ _ _ _))))
  | stmUser | ldmUser | ldmRestore => exact .of_armCall _ (.of_emptyCheck _ (.of_guard _ _ (.of_u14 _ _)))
  | b | bl => exact .of_armCall _ (.of_next rfl)
  | bx => exact .of_armCall _ (branchExchange_user _ _)
  | mrs => exact .of_armCall _ (.of_guard _ _ (.of_guard _ _ (.of_next (by simp))))
  | msrReg | msrImm => exact .of_armCall _ (statusWrite_user _ _ _ _)
  | swi => exact .of_armCall _ (raiseSwi_user _)
  | cdp | ldc | stc | mcr | mrc | undefMul | undefMisc | undefMsrImm | undefMedia =>
    exact .of_armCall _ (raiseUndefined_user _)
  | tLslImm | tLsrImm | tAsrImm | tAddReg | tSubReg | tAddImm3 | tSubImm3 | tMovImm8 | tCmpImm8 | tAddImm8
  | tSubImm8 | tAnd | tEor | tLsl | tLsr | tAsr | tAdc | tSbc | tRor | tTst | tNeg | tCmp | tCmn | tOrr | tBic
  | tMvn | tAddPc | tAddSp | tAddSpImm | tSubSpImm | tB | tBlFirst | tBlSecond =>
    exact .of_thumbCall (.of_next (by simp))
  | tMul | tAddHi | tCmpHi | tMovHi => exact .of_thumbCall (.of_guard _ _ (.of_next (by simp)))
  | tBx => exact .of_thumbCall (.of_guard _ _ (branchExchange_user _ _))
  | tLdrPc | tLdsbReg | tLdrReg | tLdrbReg | tLdrImm | tLdrbImm | tLdrSp =>
    exact .of_thumbCall (singleLoad_user _ _ _ _ _ _)
  | tLdrhReg | tLdrhImm | tLdshReg => exact .of_thumbCall (.of_guard _ _ (singleLoad_user _ _ _ _ _ _))
  | tStrReg | tStrhReg | tStrbReg | tStrImm | tStrbImm | tStrhImm | tStrSp =>
    exact .of_thumbCall (singleStore_user _ _ _ _ _)
  | tPush => exact .of_thumbCall (.of_emptyCheck _ (blockStore_user _ _ _ _ _))
  | tPop => exact .of_thumbCall (.of_emptyCheck _ (blockLoad_user _ _ _ loadLive_cpsr _))
  | tStmia => exact .of_thumbCall (.of_emptyCheck _ (.of_guard _ _ (blockStore_user _ _ _ _ _)))
  | tLdmia => exact .of_thumbCall (.of_emptyCheck _ (.of_guard _ _ (blockLoad_user _ _ _ loadLive_cpsr _)))
  | tBcond => exact .of_thumbCall (condBranch_user _ _ _)
  | tSwi => exact .of_thumbCall (raiseSwi_user _)
  | tUndef1011 | tUndefCond | tUndef11101 => exact .of_thumbCall (raiseUndefined_user _)

/-- Settles O13: the statement is `StaysUser` of every instruction's answer. -/
theorem userGainsNoPrivilege : Obligations.UserGainsNoPrivilege := by
  unfold Obligations.UserGainsNoPrivilege
  intro i s t hu hf ht
  exact exec_user i s hu hf t ht

end Sys2Proof.Machine
end

section
/-! SUPPORT. The exception entry of R901 element by element, the entries of the vector table, and the order in which
a host step takes them (spec/60_exceptions.md R900 to R911, spec/70_reset_and_hazards.md R950). -/

namespace Sys2Proof.Machine

open Sys2Proof.Safety

/-! ## The status of an entry (R901) -/

theorem fBit_entryStatus (old : Word) (m : Mode) (f : Bool) : fBit (entryStatus old m f) = (f || fBit old) := by
  unfold fBit entryStatus bit
  cases m <;> cases f <;> simp [Mode.code]

/-- Above the I bit an entry keeps the status. -/
theorem bit_entryStatus_high (old : Word) (m : Mode) (f : Bool) {i : Nat} (h : 8 ≤ i) (hi : i < 32) :
    bit (entryStatus old m f) i = bit old i := by
  unfold entryStatus bit
  cases f <;> interval_cases i <;> simp

/-- The status of an entry, from its mode field up: the mode, T, F, I, and the rest. -/
theorem entryStatus_eq_append (old : Word) (m : Mode) (f : Bool) : entryStatus old m f =
    old.extractLsb' 8 24 ++ 1#1 ++ BitVec.ofBool (f || old.getLsbD 6) ++ 0#1 ++ m.code := by
  have hmode : ∀ i, i < 5 → bit (entryStatus old m f) i = bit m.code i := fun i hi => by
    rw [← modeField_entryStatus old m f, modeField, bit_field _ _ _ _ hi, Nat.zero_add]
  refine BitVec.eq_of_getLsbD_eq fun i hi => ?_
  rw [BitVec.getLsbD_append, BitVec.getLsbD_append, BitVec.getLsbD_append, BitVec.getLsbD_append]
  obtain h | rfl | rfl | rfl | h : i < 5 ∨ i = 5 ∨ i = 6 ∨ i = 7 ∨ 8 ≤ i := by omega
  · rw [if_pos h]
    exact hmode i h
  · exact tBit_entryStatus old m f
  · exact (fBit_entryStatus old m f).trans (by simp [fBit, bit])
  · exact iBit_entryStatus old m f
  · have hpos : 8 + (i - 5 - 1 - 1 - 1) = i := by omega
    have hlen : i - 5 - 1 - 1 - 1 < 24 := by omega
    rw [if_neg (by omega), if_neg (by omega), if_neg (by omega), if_neg (by omega), BitVec.getLsbD_extractLsb', hpos,
      decide_eq_true hlen, Bool.true_and]
    exact bit_entryStatus_high old m f h hi

/-! ## The banks and registers of an entry (R108, R901) -/

section Entry

variable (m : Mode) (v l : Word) (f : Bool) (s : State)

/-- An entry writes R14 and the pc; every other register is what LoadStatus leaves. -/
theorem State.reg_enter {r : Reg} (h14 : r ≠ 14) (h15 : r ≠ 15) :
    (s.enter m v l f).reg r = (s.loadStatus (entryStatus s.cpsr m f)).reg r := by
  have h (t : State) : ((t.setX 14 l).writePC v).reg r = t.reg r := by
    show ((t.setX 14 l).setX 15 _).reg r = t.reg r
    rw [State.reg_setX_ne h15.symm, State.reg_setX_ne h14.symm]
  exact h _

theorem State.reg_enter_low {r : Reg} (h : r.val < 8) : (s.enter m v l f).reg r = s.reg r := by
  have h14 : r ≠ 14 := by rintro rfl; revert h; decide
  have h15 : r ≠ 15 := by rintro rfl; revert h; decide
  rw [State.reg_enter m v l f s h14 h15, State.reg_loadStatus_low (.inl h)]

theorem State.x_enter {k : Nat} (h : k < 5) :
    (s.enter m v l f).x[8 + k] = (s.loadStatus (entryStatus s.cpsr m f)).x[8 + k] :=
  State.reg_enter m v l f s (r := ⟨8 + k, by omega⟩) (Fin.ne_of_val_ne (by simp; omega))
    (Fin.ne_of_val_ne (by simp; omega))

variable {m s} {bo : Bank} (hs : s.bank = some bo)

include hs

theorem State.reg13_enter :
    (s.enter m v l f).reg 13 = if m.bank = bo then s.reg 13 else (s.banks.get m.bank).r13 := by
  have hn : bankOf (entryStatus s.cpsr m f) = some m.bank := bankOf_entryStatus s.cpsr m f
  rw [State.reg_enter m v l f s (by decide) (by decide)]
  split
  · next hb => rw [State.loadStatus_same (hb ▸ hn) hs]; rfl
  · next hb => rw [State.reg_loadStatus_between hs hn hb, if_pos rfl]

theorem State.banks_enter :
    (s.enter m v l f).banks = if m.bank = bo then s.banks else s.banks.set bo s.liveSlots := by
  have hn : bankOf (entryStatus s.cpsr m f) = some m.bank := bankOf_entryStatus s.cpsr m f
  show (s.loadStatus _).banks = _
  split
  · next hb => rw [State.loadStatus_same (hb ▸ hn) hs]
  · next hb => rw [State.banks_loadStatus_between hs hn hb]

/-- R8 to R12 are exchanged when one of the two banks, and one only, is the FIQ bank (R108). -/
theorem State.fiq_enter {k : Nat} (h : k < 5) :
    (s.enter m v l f).x[8 + k] = (if (bo = .fiq) = (m.bank = .fiq) then s.x[8 + k] else s.fiqR[k]) ∧
    (s.enter m v l f).fiqR[k] = (if (bo = .fiq) = (m.bank = .fiq) then s.fiqR[k] else s.x[8 + k]) := by
  have hn : bankOf (entryStatus s.cpsr m f) = some m.bank := bankOf_entryStatus s.cpsr m f
  have hfiqR : (s.enter m v l f).fiqR = (s.loadStatus (entryStatus s.cpsr m f)).fiqR := rfl
  simp only [State.x_enter m v l f s h, hfiqR]
  by_cases hb : m.bank = bo
  · rw [if_pos (by rw [hb]), if_pos (by rw [hb])]
    simp only [State.loadStatus_same (hb ▸ hn) hs, and_self]
  · have hex : ((bo = .fiq) = (m.bank = .fiq)) ↔ ¬(bo = .fiq ∨ m.bank = .fiq) := by
      rw [eq_iff_iff, not_or]
      refine ⟨fun hiff => ?_, fun hnot => iff_of_false hnot.1 hnot.2⟩
      by_cases hbo : bo = .fiq
      · exact absurd ((hiff.mp hbo).trans hbo.symm) hb
      · exact ⟨hbo, fun hmb => hbo (hiff.mpr hmb)⟩
    simp only [State.x_loadStatus_between hs hn hb h, State.fiqR_loadStatus_between hs hn hb h, hex, ite_not, and_self]

end Entry

/-- Settles O19: the status is R901's, the link and the pc are written after LoadStatus, which has exchanged the
banks. -/
theorem exceptionEntry : Obligations.ExceptionEntry := by
  unfold Obligations.ExceptionEntry
  intro s m v l f bo hs
  refine ⟨?_, State.enter_spsr .., State.link_enter .., State.pc_enter .., State.enter_branched ..,
    State.reg13_enter v l f hs, State.banks_enter v l f hs, fun k hk => State.fiq_enter v l f hs hk,
    fun r hr => State.reg_enter_low m v l f s hr, State.enter_mem .., State.enter_portLog ..⟩
  rw [State.cpsr_enter, entryStatus_eq_append]

/-- What the statements on the host step say of an entry. -/
theorem State.enter_summary (m : Mode) (v l : Word) (f : Bool) (s : State) :
    let t := s.enter m v l f
    modeField t.cpsr = m.code ∧ iBit t.cpsr = true ∧ fBit t.cpsr = (f || fBit s.cpsr) ∧ t.thumb = false ∧
      t.spsr = s.cpsr ∧ t.reg 14 = l ∧ t.pc = (v &&& 0xFFFFFFFC) + 8 ∧ t.branched = true ∧ t.mem = s.mem ∧
      t.portLog = s.portLog := by
  refine ⟨?_, ?_, ?_, State.thumb_enter .., State.enter_spsr .., State.link_enter .., State.pc_enter ..,
    State.enter_branched .., State.enter_mem .., State.enter_portLog ..⟩ <;> rw [State.cpsr_enter]
  · exact modeField_entryStatus ..
  · exact iBit_entryStatus ..
  · exact fBit_entryStatus ..

/-! ## The vector table (R900) -/

/-- Settles O50: each exception is the entry with its row of the table. -/
theorem vectorTable : Obligations.VectorTable := by
  unfold Obligations.VectorTable
  intro s
  exact ⟨rfl, rfl, rfl, rfl, rfl, rfl⟩

/-! ## The order of a host step (R910) -/

/-- No request line is taken: each is deasserted or masked (R910, R911). -/
def NoRequest (s : State) : Prop :=
  s.sample.reset = false ∧ (s.sample.fiq = false ∨ fBit s.cpsr = true) ∧
    (s.sample.irq = false ∨ iBit s.cpsr = true)

theorem step_of_reset {s : State} (h : s.sample.reset = true) : step s = .next s.beginStep.resetBlock :=
  if_pos h

theorem step_of_fiq {s : State} (hreset : s.sample.reset = false) (hfiq : s.sample.fiq = true)
    (hmask : fBit s.cpsr = false) : step s = .next s.beginStep.takeFiq := by
  simp [step, State.hostStep, hreset, hfiq, hmask]

theorem step_of_irq {s : State} (hreset : s.sample.reset = false)
    (hfiq : s.sample.fiq = false ∨ fBit s.cpsr = true) (hirq : s.sample.irq = true)
    (hmask : iBit s.cpsr = false) : step s = .next s.beginStep.takeIrq := by
  have hno : (s.sample.fiq && !fBit s.cpsr) = false := by rcases hfiq with h | h <;> simp [h]
  simp [step, State.hostStep, hreset, hno, hirq, hmask]

theorem step_of_noRequest {s : State} (h : NoRequest s) : step s = s.beginStep.fetchThen exec := by
  obtain ⟨hreset, hfiq, hirq⟩ := h
  have hnofiq : (s.sample.fiq && !fBit s.cpsr) = false := by rcases hfiq with h | h <;> simp [h]
  have hnoirq : (s.sample.irq && !iBit s.cpsr) = false := by rcases hirq with h | h <;> simp [h]
  simp [step, State.hostStep, hreset, hnofiq, hnoirq]

/-- Settles O6: the step is the reset of the block, which is each element at its value of R123. -/
theorem resetInput : Obligations.ResetInput := by
  unfold Obligations.ResetInput
  intro s h
  exact ⟨_, step_of_reset h, rfl, rfl, rfl, Banks.get_reset, rfl, rfl, rfl, rfl, rfl, rfl⟩

/-- Settles O8: the first line taken enters its exception from the state with the sample consumed. -/
theorem interruptOrder : Obligations.InterruptOrder := by
  unfold Obligations.InterruptOrder
  intro s _ hreset
  exact ⟨fun hfiq hmask => ⟨_, step_of_fiq hreset hfiq hmask, State.enter_summary .fiq 0x1C _ true s.beginStep⟩,
    fun hfiq hirq hmask => ⟨_, step_of_irq hreset hfiq hirq hmask,
      State.enter_summary .irq 0x18 _ false s.beginStep⟩⟩

/-! ## The fetch (spec/20_memory.md R205) -/

theorem State.fetchThen_of_failed {s : State} (call : Instr → State → Result)
    (h : s.loadFails s.fetchWidth s.fetchAddr = true) : s.fetchThen call =
      .next (s.logged (.load s.fetchWidth s.fetchAddr false)).raisePrefetchAbort := by
  rw [State.fetchThen, State.fetch, State.portLoad_fails h]

/-- Settles O9: the fetch only records its failure, and the abort is entered from the state before it. -/
theorem prefetchAbort : Obligations.PrefetchAbort := by
  unfold Obligations.PrefetchAbort
  intro s _ hreset hfiq hirq hfail
  refine ⟨_, (step_of_noRequest ⟨hreset, hfiq, hirq⟩).trans (State.fetchThen_of_failed exec hfail), ?_⟩
  obtain ⟨hmode, hi, hf, ht, hspsr, hlink, hpc, hbranched, hmem, -⟩ := State.enter_summary .abt 0x0C
    (s.currentAddr + 4) false (s.beginStep.logged (.load s.fetchWidth s.fetchAddr false))
  exact ⟨hmode, hi, hf, ht, hspsr, hlink, hpc, hbranched, hmem, fun r hr => State.reg_enter_low _ _ _ _ _ hr⟩

/-- The instruction decoded from the bytes that a fetch reads is the one decoded from the value fetched (R118, R202). -/
theorem State.decodeFetched_load {s : State} {i : Instr} {m : Memory} {a : Nat}
    (h : decode (if s.thumb then .thumb else .arm)
      ((List.range s.fetchWidth.bytes).map fun k => m.read (a + k)) = .ok (i, [])) :
    s.decodeFetched (m.load s.fetchWidth a) = i := by
  unfold State.decodeFetched State.fetchWidth at *
  cases ht : s.thumb <;> rw [ht] at h <;> cases h
  · rfl
  · exact congrArg decodeThumb (BitVec.setWidth_setWidth_of_le _ (by decide))

/-- Settles O7: the fetch of plain memory answers the bytes there and is recorded, then the call is made. -/
theorem stepRunsDecoded : Obligations.StepRunsDecoded := by
  unfold Obligations.StepRunsDecoded
  intro s i hreset hfiq hirq w a hplain hdecode
  have hfetch : s.beginStep.fetch = (some (s.mem.load w a.toNat), s.beginStep.logged (.load w a true)) :=
    State.portLoad_plain (State.any_region_eq_false _ hplain) (State.any_region_eq_false _ hplain)
  have hi : (s.beginStep.logged (.load w a true)).decodeFetched (s.mem.load w a.toNat) = i :=
    State.decodeFetched_load (s := s) hdecode
  rw [step_of_noRequest ⟨hreset, hfiq, hirq⟩, State.fetchThen, hfetch]
  simp only [hi]
  rfl

end Sys2Proof.Machine
end

section
/-! SUPPORT. MRS, MSR and the instructions that raise an exception (spec/47_status_system.md R750 to R760,
spec/49_thumb_memory_branch.md R872, R876). -/

namespace Sys2Proof.Machine

open Sys2Proof.Safety

/-! ## The field mask of MSR (R753) -/

/-- Byte `k` of the mask is set when `fm` names its field and the mode allows it, User mode the top one only. -/
theorem msrMask_byte (fm : BitVec 4) (st : Word) {k : Nat} (hk : k < 4) :
    (msrMask fm st).extractLsb' (8 * k) 8 =
      if (k == 3 || privileged st) && fm.getLsbD k then BitVec.allOnes 8 else 0 := by
  unfold msrMask
  generalize privileged st = p
  revert k fm p
  decide

/-- The merge takes each byte from `v` or from the old value as the byte of the mask says. -/
theorem msrMerge_byte (old v mask : Word) {k : Nat} (hk : k < 4) {b : Bool}
    (hmask : mask.extractLsb' (8 * k) 8 = if b then BitVec.allOnes 8 else 0) :
    (msrMerge old v mask).extractLsb' (8 * k) 8 =
      if b then v.extractLsb' (8 * k) 8 else old.extractLsb' (8 * k) 8 := by
  refine BitVec.eq_of_getLsbD_eq fun j hj => ?_
  have hlt : 8 * k + j < 32 := by omega
  have hbit : mask[8 * k + j] = b := by
    have := congrArg (BitVec.getLsbD · j) hmask
    cases b <;> simpa [hj, hlt, -BitVec.reduceAllOnes] using this
  cases b <;> simp [msrMerge, hbit, hlt]

theorem fieldMerge_byte (p : Bool) (fm : BitVec 4) (old v : Word) {k : Nat} (hk : k < 4) :
    (fieldMerge p fm old v).extractLsb' (8 * k) 8 =
      if (k == 3 || p) && fm.getLsbD k then v.extractLsb' (8 * k) 8 else old.extractLsb' (8 * k) 8 := by
  obtain rfl | rfl | rfl | rfl : k = 0 ∨ k = 1 ∨ k = 2 ∨ k = 3 := by omega
  · exact (field_low _ _ (by decide)).trans (field_all _)
  · exact (field_high _ _ _ (by decide)).trans ((field_low _ _ (by decide)).trans (field_all _))
  · exact (field_high _ _ _ (by decide)).trans ((field_high _ _ _ (by decide)).trans
      ((field_low _ _ (by decide)).trans (field_all _)))
  · exact (field_high _ _ _ (by decide)).trans ((field_high _ _ _ (by decide)).trans
      ((field_high _ _ _ (by decide)).trans (field_all _)))

/-- The merge under the mask of a mode is the one the statements write out byte by byte (R751, R753). -/
theorem msrMerge_eq_fieldMerge (fm : BitVec 4) (st old v : Word) :
    msrMerge old v (msrMask fm st) = fieldMerge (modeField st != 0b10000) fm old v :=
  eq_of_bytes fun k hk => by
    rw [msrMerge_byte old v _ hk (msrMask_byte fm st hk), fieldMerge_byte _ fm old v hk]
    rfl

/-! ## The status transfers -/

/-- A register write keeps the status. -/
theorem put_advanced_eq_withStatus (r : Reg) (v w : Word) (s : State) :
    put r v (advanced w s) = withStatus s.cpsr (put r v (advanced w s)) := by
  unfold put
  split <;> rfl

/-- MSR of a value in ARM state, to the saved status and to the status. -/
theorem writesStatus_of_statusWrite {form : Bool → Instr} {fm : BitVec 4} {v : Word} {s : State}
    (ht : s.thumb = false) (hexec : ∀ r, exec (form r) s = statusWrite r fm v s.beginCall) :
    WritesStatus form fm v s := by
  unfold WritesStatus
  simp only [← msrMerge_eq_fieldMerge, ← State.advance_beginCall ht]
  exact ⟨guarded_of_guards (hexec true), guarded_of_guards (hexec false)⟩

/-- Settles O48: MRS checks U1 and U24, then writes Rd; both forms of MSR are the merge of their operand. -/
theorem statusTransfers : Obligations.StatusTransfers := by
  unfold Obligations.StatusTransfers
  intro c s hs
  refine ⟨fun r rd => ?_, fun fm rm => ?_, fun fm rot k => ?_⟩
  · unfold Ends
    rw [← put_advanced_eq_withStatus, ← State.writeReg_eq_put, ← State.advance_beginCall hs.1]
    exact guarded_of_guards (armCall_of_ready _ hs : execMrs c r rd s = _)
  · exact writesStatus_of_statusWrite hs.1 fun r => (armCall_of_ready _ hs : execMsrReg c r fm rm s = _)
  · rw [BitVec.ofNat_toNat]
    exact writesStatus_of_statusWrite hs.1 fun r => (armCall_of_ready _ hs : execMsrImm c r fm rot k s = _)

/-! ## The instructions that raise an exception -/

/-- An entry sets `branched` whatever it was (R901). -/
theorem State.enter_beginCall (m : Mode) (v l : Word) (f : Bool) (s : State) :
    s.beginCall.enter m v l f = s.enter m v l f := by
  have hc : s.beginCall.cpsr = s.cpsr := rfl
  simp only [State.enter, hc, State.loadStatus_beginCall]
  rfl

/-- The exception of a call in ARM state, the next instruction being four bytes on (R902, R903). -/
theorem State.enter_beginCall_arm (m : Mode) (v : Word) {s : State} (ht : s.thumb = false) :
    s.beginCall.enter m v (s.beginCall.currentAddr + s.beginCall.instrWidth) false =
      s.enter m v (s.pc - 8 + 4) false := by
  have ho : s.beginCall.pcOffset = 8 := if_neg (ne_true_of_eq_false ht)
  have hw : s.beginCall.instrWidth = 4 := if_neg (ne_true_of_eq_false ht)
  rw [State.enter_beginCall, State.currentAddr, ho, hw]
  rfl

/-- The exception of a call in Thumb state, the next instruction being two bytes on (R872, R876). -/
theorem State.enter_beginCall_thumb (m : Mode) (v : Word) {s : State} (ht : s.thumb = true) :
    s.beginCall.enter m v (s.beginCall.currentAddr + s.beginCall.instrWidth) false =
      s.enter m v (s.pc - 4 + 2) false := by
  have ho : s.beginCall.pcOffset = 4 := if_pos ht
  have hw : s.beginCall.instrWidth = 2 := if_pos ht
  rw [State.enter_beginCall, State.currentAddr, ho, hw]
  rfl

/-- The four undefined classes and the five coprocessor instructions of ARM state are one call. -/
theorem armCall_undefined {c : Cond} {s : State} (hs : ArmReady c s) :
    armCall c s (fun t => .next t.raiseUndefined) = .next (s.enter .und 0x04 (s.pc - 8 + 4) false) := by
  rw [armCall_of_ready _ hs]
  exact congrArg _ (State.enter_beginCall_arm .und 0x04 hs.1)

/-- Settles O49: each call is the one exception of its instruction, no operand being read. -/
theorem exceptionInstructions : Obligations.ExceptionInstructions := by
  unfold Obligations.ExceptionInstructions
  refine ⟨fun c s hs => ⟨fun k => ?_, fun i hi => ?_⟩, fun s hs => ⟨fun k => ?_, ?_⟩⟩
  · refine (armCall_of_ready _ hs : execSwi c k s = _).trans ?_
    exact congrArg _ (State.enter_beginCall_arm .svc 0x08 hs.1)
  · simp only [List.mem_cons, List.not_mem_nil, or_false] at hi
    obtain (rfl | rfl | rfl | rfl) | ⟨_, _, _, _, _, _, rfl⟩ | ⟨_, _, _, _, _, _, _, _, rfl | rfl⟩ |
      ⟨_, _, _, _, _, _, rfl | rfl⟩ := hi
    all_goals exact armCall_undefined hs
  · refine (thumbCall_of_ready _ hs : execTSwi k s = _).trans ?_
    exact congrArg _ (State.enter_beginCall_thumb .svc 0x08 hs)
  · have hundef : thumbCall s (fun t => .next t.raiseUndefined) = .next (s.enter .und 0x04 (s.pc - 4 + 2) false) := by
      rw [thumbCall_of_ready _ hs]
      exact congrArg _ (State.enter_beginCall_thumb .und 0x04 hs)
    simp only [List.forall_mem_cons]
    exact ⟨hundef, hundef, hundef, List.forall_mem_nil _⟩

end Sys2Proof.Machine
end

section
/-! SUPPORT. The Thumb calls without a memory access: the ends of a rule in the statements' words, then the statements
on the shifts, the arithmetic, the comparisons, the logic and the high-register forms (spec/48_thumb_alu.md R800 to
R834). -/

namespace Sys2Proof.Machine

open Sys2Proof.Safety

/-! ## The ends of a Thumb rule (R414) -/

theorem State.advance_beginCall_thumb {s : State} (ht : ThumbReady s) : s.beginCall.advance = advanced 2 s := by
  have hw : s.beginCall.instrWidth = 2 := if_pos ht
  rw [State.advance, hw]
  rfl

theorem setX_reg_eq_put (rd : LowReg) (v : Word) (s : State) : s.setX rd.reg v = put rd.reg v s :=
  (if_neg (LowReg.reg_ne_pc rd)).symm

theorem put_cpsr (r : Reg) (v : Word) (s : State) : (put r v s).cpsr = s.cpsr := by
  unfold put
  split <;> rfl

/-- N and Z written (R411). -/
theorem State.setFlagsNZ_eq_withStatus (v : Word) (s : State) :
    s.setFlagsNZ v = withStatus (nzStatus s.cpsr v) s := by
  rw [State.setFlagsNZ, setNZ, setNZBits_eq_withFlags, ← msb_eq_bit]
  rfl

section Ready

variable {i : Instr} {s : State} (ht : ThumbReady s)

include ht

/-- A rule that advances, writes Rd and sets the flags of a data-processing result. -/
theorem ends_of_setFlagsDp {rd : LowReg} {o : DpOut} {v st : Word} (ho : o.outcome s.cpsr = (v, st))
    (hexec : exec i s = .next ((s.beginCall.advance.setX rd.reg o.result).setFlagsDp o)) :
    Ends i 2 rd.reg v st s := by
  have hst : (advanced 2 s).cpsr = s.cpsr := rfl
  rw [State.advance_beginCall_thumb ht, setX_reg_eq_put, State.setFlagsDp_eq_withStatus, put_cpsr, hst,
    ← DpOut.outcome_fst s.cpsr, ho] at hexec
  exact hexec

theorem ends_of_thumbShift {rd : LowReg} {r : Word × Bool} (hexec : exec i s = thumbShift rd.reg r s.beginCall) :
    Ends i 2 rd.reg r.1 (logicStatus s.cpsr r.1 r.2) s :=
  ends_of_setFlagsDp ht (o := .logic r.1 r.2) rfl hexec

theorem ends_of_sum {rd : LowReg} {a b : Word} {cin : Bool}
    (hexec : exec i s = thumbArith rd.reg (addWithCarry a b cin) s.beginCall) :
    Ends i 2 rd.reg (exactSum a b cin) (sumStatus s.cpsr a b cin) s :=
  ends_of_setFlagsDp ht (o := .arith (addWithCarry a b cin)) (DpOut.outcome_addWithCarry ..) hexec

theorem ends_of_diff {rd : LowReg} {a b : Word} {cin : Bool}
    (hexec : exec i s = thumbArith rd.reg (subWithCarry a b cin) s.beginCall) :
    Ends i 2 rd.reg (exactDiff a b cin) (diffStatus s.cpsr a b cin) s :=
  ends_of_setFlagsDp ht (o := .arith (subWithCarry a b cin)) (DpOut.outcome_subWithCarry ..) hexec

theorem thumbCompare_beginCall (o : AluOut) :
    thumbCompare o s.beginCall = .next (withStatus ((DpOut.arith o).outcome s.cpsr).2 (advanced 2 s)) := by
  rw [thumbCompare, State.advance_beginCall_thumb ht]
  exact congrArg _ (State.setFlagsDp_eq_withStatus (.arith o) (advanced 2 s))

theorem ends_of_thumbLogic {rd : LowReg} {r : Word} (hexec : exec i s = thumbLogic rd.reg r s.beginCall) :
    Ends i 2 rd.reg r (nzStatus s.cpsr r) s := by
  rw [thumbLogic, State.advance_beginCall_thumb ht, setX_reg_eq_put, State.setFlagsNZ_eq_withStatus, put_cpsr]
    at hexec
  exact hexec

theorem thumbMove_beginCall (rd : Reg) (v : Word) :
    thumbMove rd v s.beginCall = .next (withStatus s.cpsr (put rd v (advanced 2 s))) := by
  rw [thumbMove, State.advance_beginCall_thumb ht, State.writeReg_eq_put, ← put_advanced_eq_withStatus]

end Ready

/-! ## The statements -/

/-- Settles O51: each call is the shifter on its operands, then the end of a shift. -/
theorem thumbShifts : Obligations.ThumbShifts := by
  unfold Obligations.ThumbShifts
  intro rs rd s ht
  simp only [List.forall_mem_cons, List.not_mem_nil, false_imp_iff, implies_true, and_true]
  refine ⟨fun imm => ⟨?_, ?_, ?_⟩, ?_, ?_, ?_, ?_⟩
  · exact ends_of_thumbShift ht (thumbCall_of_ready _ ht : execTLslImm imm rs rd s = _)
  · exact ends_of_thumbShift ht (thumbCall_of_ready _ ht : execTLsrImm imm rs rd s = _)
  · exact ends_of_thumbShift ht (thumbCall_of_ready _ ht : execTAsrImm imm rs rd s = _)
  · exact ends_of_thumbShift ht (thumbCall_of_ready _ ht : execTLsl rs rd s = _)
  · exact ends_of_thumbShift ht (thumbCall_of_ready _ ht : execTLsr rs rd s = _)
  · exact ends_of_thumbShift ht (thumbCall_of_ready _ ht : execTAsr rs rd s = _)
  · exact ends_of_thumbShift ht (thumbCall_of_ready _ ht : execTRor rs rd s = _)

/-- Settles O52: each call is a sum or a difference of its operands, then the end that writes all four flags. -/
theorem thumbArithmetic : Obligations.ThumbArithmetic := by
  unfold Obligations.ThumbArithmetic
  intro s ht
  simp only [BitVec.ofNat_toNat]
  refine ⟨fun rn rs rd => ⟨?_, ?_⟩, fun k rs rd => ⟨?_, ?_⟩, fun rd k => ⟨?_, ?_⟩, fun rs rd => ⟨?_, ?_, ?_⟩⟩
  · exact ends_of_sum ht (thumbCall_of_ready _ ht : execTAddReg rn rs rd s = _)
  · exact ends_of_diff ht (thumbCall_of_ready _ ht : execTSubReg rn rs rd s = _)
  · exact ends_of_sum ht (thumbCall_of_ready _ ht : execTAddImm3 k rs rd s = _)
  · exact ends_of_diff ht (thumbCall_of_ready _ ht : execTSubImm3 k rs rd s = _)
  · exact ends_of_sum ht (thumbCall_of_ready _ ht : execTAddImm8 rd k s = _)
  · exact ends_of_diff ht (thumbCall_of_ready _ ht : execTSubImm8 rd k s = _)
  · exact ends_of_sum ht (thumbCall_of_ready _ ht : execTAdc rs rd s = _)
  · exact ends_of_diff ht (thumbCall_of_ready _ ht : execTSbc rs rd s = _)
  · exact ends_of_diff ht (thumbCall_of_ready _ ht : execTNeg rs rd s = _)

theorem highReg_eq_anyReg (h : Bool) (n : LowReg) : highReg h n = anyReg h n := by
  cases h <;> simp [highReg, anyReg, Nat.add_comm]

/-- Settles O53: each call is a difference or a sum that only the flags show, the high-register one after U17. -/
theorem thumbCompares : Obligations.ThumbCompares := by
  unfold Obligations.ThumbCompares
  intro s ht
  have hdiff (a b : Word) : thumbCompare (subWithCarry a b true) s.beginCall =
      .next (withStatus (diffStatus s.cpsr a b true) (advanced 2 s)) := by
    rw [thumbCompare_beginCall ht, DpOut.outcome_subWithCarry]
  have hsum (a b : Word) : thumbCompare (addWithCarry a b false) s.beginCall =
      .next (withStatus (sumStatus s.cpsr a b false) (advanced 2 s)) := by
    rw [thumbCompare_beginCall ht, DpOut.outcome_addWithCarry]
  simp only [BitVec.ofNat_toNat, ← highReg_eq_anyReg, EndsStatus, ← hdiff, ← hsum]
  refine ⟨fun rd k => ?_, fun rs rd => ⟨?_, ?_⟩, fun h1 h2 rs rd => ?_⟩
  · exact (thumbCall_of_ready _ ht : execTCmpImm8 rd k s = _)
  · exact (thumbCall_of_ready _ ht : execTCmp rs rd s = _)
  · exact (thumbCall_of_ready _ ht : execTCmn rs rd s = _)
  · exact guarded_of_guards (thumbCall_of_ready _ ht : execTCmpHi h1 h2 rs rd s = _)

/-- The flags of a value of eight bits: N is clear, Z is that of the eight bits (R807). -/
theorem nzStatus_setWidth (st : Word) (k : BitVec 8) : nzStatus st (k.setWidth 32) =
    withFlags st false (k == 0) (st.getLsbD 29) (st.getLsbD 28) := by
  have hn : (k.setWidth 32).msb = false := by simp [BitVec.msb_setWidth]
  have hz : (k.setWidth 32 == 0) = (k == 0) := by
    rw [Bool.eq_iff_iff, beq_iff_eq, beq_iff_eq, ← BitVec.toNat_inj, ← BitVec.toNat_inj,
      BitVec.toNat_setWidth_of_le (by decide)]
    rfl
  rw [nzStatus, flagsOf, hn, hz]

/-- Settles O54: each call is its value, then the end that writes N and Z; MUL checks U11 and ends as a multiply. -/
theorem thumbLogical : Obligations.ThumbLogical := by
  unfold Obligations.ThumbLogical
  intro s ht
  simp only [BitVec.ofNat_toNat, ← nzStatus_setWidth, ← mul_eq_ofNat, List.forall_mem_cons, List.not_mem_nil,
    false_imp_iff, implies_true, and_true]
  refine ⟨fun rd k => ?_, fun rs rd => ⟨⟨?_, ?_, ?_, ?_, ?_⟩, ?_, ?_⟩⟩
  · exact ends_of_thumbLogic ht (thumbCall_of_ready _ ht : execTMovImm8 rd k s = _)
  · exact ends_of_thumbLogic ht (thumbCall_of_ready _ ht : execTAnd rs rd s = _)
  · exact ends_of_thumbLogic ht (thumbCall_of_ready _ ht : execTEor rs rd s = _)
  · exact ends_of_thumbLogic ht (thumbCall_of_ready _ ht : execTOrr rs rd s = _)
  · exact ends_of_thumbLogic ht (thumbCall_of_ready _ ht : execTBic rs rd s = _)
  · exact ends_of_thumbLogic ht (thumbCall_of_ready _ ht : execTMvn rs rd s = _)
  · refine (thumbCall_of_ready _ ht : execTTst rs rd s = _).trans ?_
    rw [State.advance_beginCall_thumb ht, State.setFlagsNZ_eq_withStatus]
    rfl
  · have hend (r : Word) : (s.beginCall.advance.setX rd.reg r).setFlagsMul r = mulEnd 2 true rd.reg r s := by
      rw [State.advance_beginCall_thumb ht, setX_reg_eq_put, State.setFlagsMul_eq_mulFlags]
      rfl
    rw [← hend]
    exact guarded_of_guards (thumbCall_of_ready _ ht : execTMul rs rd s = _)

/-- Settles O55: each call is its value, then the end that writes no flag; BX is the exchange, after U17. -/
theorem thumbHighAndStack : Obligations.ThumbHighAndStack := by
  unfold Obligations.ThumbHighAndStack
  intro s ht
  simp only [ofNat_mul_toNat (m := 4) (k := 2) rfl, ← highReg_eq_anyReg, Ends, ← thumbMove_beginCall ht]
  refine ⟨fun h1 h2 rs rd => ⟨?_, ?_, ?_⟩, fun rd k => ⟨?_, ?_⟩, fun k => ⟨?_, ?_⟩⟩
  · exact guarded_of_guards (thumbCall_of_ready _ ht : execTAddHi h1 h2 rs rd s = _)
  · exact guarded_of_guards (thumbCall_of_ready _ ht : execTMovHi h1 h2 rs rd s = _)
  · have hcall : exec (.tBx h1 h2 rs rd) s =
        s.guard h1 .u17 (branchExchange (s.reg (highReg h2 rs)) s.beginCall) :=
      (thumbCall_of_ready _ ht : execTBx h1 h2 rs rd s = _)
    rw [branchExchange_eq_guards] at hcall
    exact guarded_of_guards hcall
  · exact (thumbCall_of_ready _ ht : execTAddPc rd k s = _)
  · exact (thumbCall_of_ready _ ht : execTAddSp rd k s = _)
  · exact (thumbCall_of_ready _ ht : execTAddSpImm k s = _)
  · exact (thumbCall_of_ready _ ht : execTSubSpImm k s = _)

end Sys2Proof.Machine
end

section
/-! SUPPORT. The Thumb loads, stores and block transfers: the transfers of the ARM rules without writeback, and the
lists of R0 to R7 with one more register (spec/49_thumb_memory_branch.md R850 to R870). -/

namespace Sys2Proof.Machine

open Sys2Proof.Safety

/-! ## Single transfers (R414) -/

/-- Without writeback the new base is not used. -/
theorem State.abortAccess_atAddress (addr newb : Word) (rn : Reg) (s : State) :
    s.abortAccess (atAddress addr) rn = s.abortAccess ⟨addr, newb, false⟩ rn := by
  simp [State.abortAccess, atAddress]

theorem thumbLoad_eq_singleLoad (w : Width) (addr newb : Word) (rd : LowReg) (fix : Word → Word) (s : State) :
    thumbLoad w addr rd fix s = singleLoad w ⟨addr, newb, false⟩ rd.reg rd.reg fix s := by
  show State.endLoad (atAddress addr) rd.reg rd.reg fix (s.memRead w addr) =
    State.endLoad ⟨addr, newb, false⟩ rd.reg rd.reg fix (s.memRead w addr)
  rcases s.memRead w addr with ⟨_ | v, t⟩
  · exact congrArg _ (State.abortAccess_atAddress addr newb rd.reg t)
  · rfl

theorem thumbStore_eq_singleStore (w : Width) (addr newb : Word) (rd : LowReg) (s : State) :
    thumbStore w addr rd s = singleStore w ⟨addr, newb, false⟩ rd.reg (s.reg rd.reg) s := by
  show State.endStore (atAddress addr) rd.reg (s.memWrite w addr (s.reg rd.reg)) =
    State.endStore ⟨addr, newb, false⟩ rd.reg (s.memWrite w addr (s.reg rd.reg))
  rcases s.memWrite w addr (s.reg rd.reg) with ⟨_ | _, t⟩
  · exact congrArg _ (State.abortAccess_atAddress addr newb rd.reg t)
  · rfl

/-- A word at a multiple of four is not rotated (R203). -/
theorem rotated_of_aligned {addr : Word} (h : addr.toNat % 4 = 0) : rotated addr = id := by
  funext v
  refine BitVec.eq_of_getLsbD_eq fun j hj => ?_
  rw [rotated, h, getLsbD_rotateRight_mod v _ hj, Nat.mul_zero, Nat.add_zero, Nat.mod_eq_of_lt hj]
  rfl

/-- The pc-relative address is word-aligned (R850). -/
theorem alignedPc_add_aligned (s : State) (k : BitVec 8) : (s.alignedPc + k.setWidth 32 <<< 2).toNat % 4 = 0 := by
  have hpc : s.alignedPc.toNat % 4 = 0 := Width.align_mod .word s.pc
  rw [← ofNat_mul_toNat (m := 4) rfl, BitVec.toNat_add, BitVec.toNat_ofNat]
  omega

section Ready

variable {i : Instr} {w : Width} {addr : Word} {rd : LowReg} {s : State} (ht : ThumbReady s)

include ht

/-- A load that makes `read` of the value the port answers: first the rotation of MemRead, then its rule's `fix`. -/
theorem loads_of_thumbLoad {fix read : Word → Word} (hexec : exec i s = thumbLoad w addr rd fix s.beginCall)
    (hread : fix ∘ w.rotation addr = read) : Loads i 2 w addr false rd.reg 0 rd.reg read s := by
  rw [← hread]
  exact loads_of_singleLoad (State.instrWidth_of_thumb ht) (hexec.trans (thumbLoad_eq_singleLoad w addr 0 rd fix _))

/-- A halfword load checks U15, then loads (R856, R858). -/
theorem guarded_loads_of_thumbLoad {fix : Word → Word}
    (hexec : exec i s = s.guard (bit addr 0) .u15 (thumbLoad .half addr rd fix s.beginCall)) :
    Guarded i [(bit addr 0, .u15)] s (Loads i 2 .half addr false rd.reg 0 rd.reg fix s) := by
  obtain ⟨hclear, hstop⟩ := guarded_of_guards (cs := [(bit addr 0, .u15)]) hexec
  exact ⟨fun hc => loads_of_thumbLoad ht (hclear hc) rfl, hstop⟩

theorem stores_of_thumbStore (hexec : exec i s = thumbStore w addr rd s.beginCall) :
    Stores i 2 w addr false rd.reg 0 (s.reg rd.reg) s :=
  stores_of_singleStore (State.instrWidth_of_thumb ht) (hexec.trans (thumbStore_eq_singleStore w addr 0 rd _))

end Ready

/-- Settles O56: each call is one load at its address, the halfword ones after U15; the pc-relative word is aligned
and so not rotated. -/
theorem thumbLoads : Obligations.ThumbLoads := by
  unfold Obligations.ThumbLoads
  intro s rd ht
  simp only [ofNat_mul_toNat (m := 4) (k := 2) rfl, ofNat_mul_toNat (m := 2) (k := 1) rfl, BitVec.ofNat_toNat,
    isOdd_eq_bit, halfRead_eq_loadedHalf, signedHalfRead_eq_loadedSignedHalf]
  refine ⟨fun k => ⟨?_, ?_⟩, fun ro rb => ⟨?_, ?_, ?_, ?_, ?_⟩, fun k rb => ⟨?_, ?_, ?_⟩⟩
  · exact loads_of_thumbLoad ht (thumbCall_of_ready _ ht : execTLdrPc rd k s = _)
      (rotated_of_aligned (alignedPc_add_aligned s k))
  · exact loads_of_thumbLoad ht (thumbCall_of_ready _ ht : execTLdrSp rd k s = _) rfl
  · exact loads_of_thumbLoad ht (thumbCall_of_ready _ ht : execTLdsbReg ro rb rd s = _) rfl
  · exact loads_of_thumbLoad ht (thumbCall_of_ready _ ht : execTLdrReg ro rb rd s = _) rfl
  · exact loads_of_thumbLoad ht (thumbCall_of_ready _ ht : execTLdrbReg ro rb rd s = _) rfl
  · exact guarded_loads_of_thumbLoad ht (thumbCall_of_ready _ ht : execTLdrhReg ro rb rd s = _)
  · exact guarded_loads_of_thumbLoad ht (thumbCall_of_ready _ ht : execTLdshReg ro rb rd s = _)
  · exact loads_of_thumbLoad ht (thumbCall_of_ready _ ht : execTLdrImm k rb rd s = _) rfl
  · exact loads_of_thumbLoad ht (thumbCall_of_ready _ ht : execTLdrbImm k rb rd s = _) rfl
  · exact guarded_loads_of_thumbLoad ht (thumbCall_of_ready _ ht : execTLdrhImm k rb rd s = _)

/-- Settles O57: each call is one store of Rd at its address. -/
theorem thumbStores : Obligations.ThumbStores := by
  unfold Obligations.ThumbStores
  intro s rd ht
  simp only [ofNat_mul_toNat (m := 4) (k := 2) rfl, ofNat_mul_toNat (m := 2) (k := 1) rfl, BitVec.ofNat_toNat]
  refine ⟨fun ro rb => ⟨?_, ?_, ?_⟩, fun k rb => ⟨?_, ?_, ?_⟩, fun k => ?_⟩
  · exact stores_of_thumbStore ht (thumbCall_of_ready _ ht : execTStrReg ro rb rd s = _)
  · exact stores_of_thumbStore ht (thumbCall_of_ready _ ht : execTStrhReg ro rb rd s = _)
  · exact stores_of_thumbStore ht (thumbCall_of_ready _ ht : execTStrbReg ro rb rd s = _)
  · exact stores_of_thumbStore ht (thumbCall_of_ready _ ht : execTStrImm k rb rd s = _)
  · exact stores_of_thumbStore ht (thumbCall_of_ready _ ht : execTStrhImm k rb rd s = _)
  · exact stores_of_thumbStore ht (thumbCall_of_ready _ ht : execTStrbImm k rb rd s = _)
  · exact stores_of_thumbStore ht (thumbCall_of_ready _ ht : execTStrSp rd k s = _)

/-! ## The lists of the block transfers (R867 to R870) -/

/-- The registers of a list: those of its eight bits, and the extra one. -/
theorem getLsbD_thumbList (list : BitVec 8) (r : Bool) {extra j : Nat} (hj : j < 16) :
    (thumbList list r extra).getLsbD j = (list.getLsbD j || (r && decide (extra = j))) := by
  cases r <;> simp [thumbList, hj, eq_comm]

theorem thumbList_ne_zero {list : BitVec 8} {r : Bool} {extra : Nat} (hextra : extra < 16)
    (h : list ≠ 0 ∨ r = true) : thumbList list r extra ≠ 0 := by
  intro hzero
  have hbit (j : Nat) (hj : j < 16) : (list.getLsbD j || (r && decide (extra = j))) = false := by
    rw [← getLsbD_thumbList list r hj, hzero]
    exact BitVec.getLsbD_zero
  rcases h with h | rfl
  · refine h (BitVec.eq_of_getLsbD_eq fun j hj => ?_)
    exact (Bool.or_eq_false_iff.mp (hbit j (by omega))).1.trans BitVec.getLsbD_zero.symm
  · simpa using hbit extra hextra

/-- The extra register, above R7, comes last. -/
theorem named_thumbList (list : BitVec 8) (r : Bool) {extra : Nat} (hhigh : 8 ≤ extra) (hextra : extra < 16) :
    named (thumbList list r extra) = named (thumbList list false 0) ++ if r then [⟨extra, hextra⟩] else [] := by
  have hlow {q : Reg} (hq : q ∈ named (thumbList list false 0)) : q.val < 8 := by
    rw [mem_named, getLsbD_thumbList list false q.isLt, Bool.false_and, Bool.or_false] at hq
    exact BitVec.lt_of_getLsbD hq
  have hlast {q : Reg} (hq : q ∈ if r then [(⟨extra, hextra⟩ : Reg)] else []) : q.val = extra := by
    cases r <;> simp_all
  refine (named_pairwise _).eq_of_mem_iff (List.pairwise_append.mpr ⟨named_pairwise _, ?_, ?_⟩) fun q => ?_
  · cases r <;> simp
  · exact fun a ha b hb => Fin.lt_def.mpr ((hlow ha).trans_le (hhigh.trans_eq (hlast hb).symm))
  · rw [List.mem_append, mem_named, mem_named, getLsbD_thumbList list r q.isLt, getLsbD_thumbList list false q.isLt]
    cases r <;> simp [Fin.ext_iff, eq_comm (a := extra)]

/-- The extra register counts alike whichever it is, R14 for PUSH, R15 for POP. -/
theorem listCount_thumbList (list : BitVec 8) (r : Bool) {extra : Nat} (hhigh : 8 ≤ extra) (hextra : extra < 16) :
    listCount (thumbList list r extra) = listCount (thumbList list false 0) + r.toNat := by
  rw [listCount, named_thumbList list r hhigh hextra, List.length_append]
  cases r <;> rfl

/-- A list that does not name R15 is stored as the registers are (R867, R869). -/
theorem map_named_eq_map_reg {list : BitVec 16} {val : Reg → Word} {s : State} (h15 : list.getLsbD 15 = false)
    (hval : ∀ r, r ≠ 15 → val r = s.reg r) : (named list).map val = (named list).map s.reg := by
  refine List.map_congr_left fun r hr => hval r ?_
  rintro rfl
  exact Bool.false_ne_true (h15.symm.trans (mem_named.mp hr))

/-- Settles O58: each call is its check, then the block transfer of R600 laid out for its list. -/
theorem thumbBlockTransfers : Obligations.ThumbBlockTransfers := by
  unfold Obligations.ThumbBlockTransfers
  intro s ht
  have hw := State.instrWidth_of_thumb ht
  refine ⟨fun list r hne => ?_, fun list rb hne => ?_⟩
  · rw [← thumbList_eq_withExtra list (fun _ => (by decide : 8 ≤ 14)),
      ← thumbList_eq_withExtra list (fun _ => (by decide : 8 ≤ 15))]
    have h14 : thumbList list r 14 ≠ 0 := thumbList_ne_zero (by decide) hne
    have h15 : thumbList list r 15 ≠ 0 := thumbList_ne_zero (by decide) hne
    have hcount : listCount (thumbList list r 14) = listCount (thumbList list r 15) := by
      rw [listCount_thumbList list r (by decide) (by decide), listCount_thumbList list r (by decide) (by decide)]
    have hpc : (thumbList list r 14).getLsbD 15 = false := by
      rw [getLsbD_thumbList list r (by decide)]
      simp
    constructor
    · rw [← map_named_eq_map_reg (val := s.pushed) hpc fun _ h => if_neg h]
      exact run_of_guarded_nil (guarded_storesBlock hw (.inl h14) (blockOf_of_nonempty true false _ h14)
        (exec_tPush r list ht))
    · rw [hcount]
      exact run_of_guarded_nil (guarded_loadsBlock hw (.inl h15) (blockOf_of_nonempty false true _ h15)
        (fun ps t _ => loadLive_eq_putAll ps t) (exec_tPop r list ht))
  · rw [← thumbList_eq_withExtra (r := false) (extra := 0) list nofun]
    have hlist : thumbList list false 0 ≠ 0 := thumbList_ne_zero (by decide) (.inl hne)
    have hbit (j : Nat) (hj : j < 16) : (thumbList list false 0).getLsbD j = list.getLsbD j := by
      rw [getLsbD_thumbList list false hj, Bool.false_and, Bool.or_false]
    have hpc : (thumbList list false 0).getLsbD 15 = false := (hbit 15 (by decide)).trans (by simp)
    have hrb : (thumbList list false 0).getLsbD rb.reg.val = list.getLsbD rb.val := hbit _ rb.reg.isLt
    have hb := blockOf_of_nonempty false true (s.reg rb.reg) hlist
    constructor
    · rw [← hrb, ← baseNotLowest_eq, ← map_named_eq_map_reg (val := s.storedReg) hpc fun _ h => if_neg h]
      exact guarded_storesBlock hw (.inl hlist) hb (exec_tStmia rb list ht)
    · rw [← hrb]
      exact guarded_loadsBlock hw (.inl hlist) hb (fun ps t _ => loadLive_eq_putAll ps t) (exec_tLdmia rb list ht)

end Sys2Proof.Machine
end

section
/-! SUPPORT. The Thumb branches, and the two halves of BL run one after the other
(spec/49_thumb_memory_branch.md R871, R873 to R875). -/

namespace Sys2Proof.Machine

open Sys2Proof.Safety

/-! ## Each branch alone -/

/-- A Thumb branch of `n` bits goes to the pc and twice its signed offset (R871, R873). -/
theorem State.writePC_branch {n : Nat} (k : BitVec n) (s : State) :
    s.beginCall.writePC (s.pc + k.signExtend 32 <<< 1) = jumped (s.pc + BitVec.ofInt 32 (2 * k.toInt)) s := by
  rw [State.writePC_beginCall, signExtend_shiftLeft_eq_ofInt (m := 2) (k := 1) rfl]
  rfl

section Ready

variable {s : State} (ht : ThumbReady s)

include ht

theorem exec_tBcond (c : Cond) (k : BitVec 8) : exec (.tBcond c k) s = .next (if condHolds c s.cpsr = true
    then jumped (s.pc + BitVec.ofInt 32 (2 * k.toInt)) s else advanced 2 s) := by
  rw [← State.writePC_branch, ← State.advance_beginCall_thumb ht]
  exact (thumbCall_of_ready _ ht : execTBcond c k s = _)

theorem exec_tB (k : BitVec 11) :
    exec (.tB k) s = .next (jumped (s.pc + BitVec.ofInt 32 (2 * k.toInt)) s) := by
  rw [← State.writePC_branch]
  exact (thumbCall_of_ready _ ht : execTB k s = _)

theorem exec_tBlFirst (k : BitVec 11) : exec (.tBlFirst k) s =
    .next (advanced 2 (s.setX 14 (s.pc + BitVec.ofInt 32 (4096 * k.toInt)))) := by
  have hk : k.signExtend 32 <<< 12 = BitVec.ofInt 32 (4096 * k.toInt) :=
    signExtend_shiftLeft_eq_ofInt (m := 4096) rfl k
  rw [← hk, ← State.advance_beginCall_thumb (s := s.setX 14 _) ht]
  exact (thumbCall_of_ready _ ht : execTBlFirst k s = _)

theorem exec_tBlSecond (k : BitVec 11) : exec (.tBlSecond k) s =
    .next (jumped (s.reg 14 + BitVec.ofNat 32 (2 * k.toNat)) (s.setX 14 ((s.pc - 2) ||| 1))) := by
  rw [ofNat_mul_toNat (m := 2) (k := 1) rfl, ← State.writePC_beginCall]
  exact (thumbCall_of_ready _ ht : execTBlSecond k s = _)

end Ready

/-! ## The pair (R874, R875) -/

theorem State.currentAddr_jumped {s : State} (ht : ThumbReady s) (a : Word) :
    (jumped a s).currentAddr = a &&& 0xFFFFFFFE := by
  have hmask : s.pcMask = 0xFFFFFFFE := if_pos ht
  rw [← State.writePC_eq_jumped, State.currentAddr_writePC, hmask]

theorem State.reg_jumped_ne {r : Reg} (h : r ≠ 15) (a : Word) (s : State) : (jumped a s).reg r = s.reg r :=
  State.reg_setX_ne h.symm _ s

/-- The high offset of the first half and the low one of the second are one signed offset of 22 bits. -/
theorem blOffset_append (hi lo : BitVec 11) :
    BitVec.ofInt 32 (4096 * hi.toInt) + BitVec.ofNat 32 (2 * lo.toNat) =
      BitVec.ofInt 32 (2 * (hi ++ lo : BitVec 22).toInt) := by
  rw [BitVec.toInt_append, ← BitVec.ofInt_natCast, ← BitVec.ofInt_add]
  congr 1
  push_cast
  ring

/-- Settles O59: the first half leaves its offset in the link, which the second adds to its own and replaces. -/
theorem thumbBranches : Obligations.ThumbBranches := by
  unfold Obligations.ThumbBranches
  intro s ht
  refine ⟨exec_tBcond ht, exec_tB ht, exec_tBlFirst ht, exec_tBlSecond ht, fun hi lo t u hfirst hsecond => ?_⟩
  obtain rfl := Host.Outcome.next.inj ((exec_tBlFirst ht hi).symm.trans hfirst)
  generalize hlink : s.pc + BitVec.ofInt 32 (4096 * hi.toInt) = link at *
  have ht' : ThumbReady (advanced 2 (s.setX 14 link)) := ht
  have hreg : (advanced 2 (s.setX 14 link)).reg 14 = link :=
    (State.reg_setX_ne (by decide) _ _).trans (State.reg_setX_same 14 link s)
  have hpc : (advanced 2 (s.setX 14 link)).pc = s.pc + 2 :=
    (State.pc_setX15 _ _).trans (congrArg (· + 2) (State.pc_setX_ne (by decide) link s))
  obtain rfl := Host.Outcome.next.inj ((exec_tBlSecond ht' lo).symm.trans hsecond)
  have hready (v : Word) : ThumbReady ((advanced 2 (s.setX 14 link)).setX 14 v) := ht
  constructor
  · rw [State.currentAddr_jumped (hready _), hreg, ← hlink, BitVec.add_assoc, blOffset_append]
  · have hcur : s.currentAddr + 4 = s.pc := by
      rw [State.currentAddr, show s.pcOffset = 4 from if_pos ht, BitVec.sub_add_cancel]
    rw [State.reg_jumped_ne (by decide), State.reg_setX_same, hpc, BitVec.add_sub_cancel, hcur]

end Sys2Proof.Machine
end
